-- ==== Sys2Proof/Word.lean ====
section
/-! DEFINITION. The word types of the NQ-4806 and the numbers of its blocks (00_scope.md, sections 0.3 and 0.6). -/

namespace Sys2Proof

/-- A byte of the Book or of the management bus. -/
abbrev Byte := BitVec 8

/-- A 16-bit field of the Book. -/
abbrev Half := BitVec 16

/-- A register of the window, or a 32-bit field of the Book. -/
abbrev Word := BitVec 32

/-- A bay, 0 to 7. -/
abbrev Bay := Fin 8

/-- A slot of a bay, 0 to 5. -/
abbrev Slot := Fin 6

/-- A load channel, 0 to 3. -/
abbrev Chan := Fin 4

/-- A zone, 0 or 1. -/
abbrev ZoneNo := Fin 2

/-- An order slot of the Book, 0 to 15. -/
abbrev OrderSlot := Fin 16

end Sys2Proof
end

