-- ==== Sys2Proof/Syntax.lean ====
section
/-! DEFINITION. The commands of the NQ-4806: one constructor of `Instr` per row of spec/opcode_table.json, with the
operands the event or the register write carries. The table gives no row any bits; the operands are the data that the
rules say the event brings (bytes read from host memory, what a module answers, what a sensor reads). -/

namespace Sys2Proof

/-- One sensor result of a zone (R130): a temperature, or a circuit found open or shorted. -/
inductive SensorResult where
  | temp (t : BitVec 16)
  | openCircuit
  | shortCircuit
deriving DecidableEq, Repr

/-- How a link transaction ends on the wire (R152 to R155): every byte acknowledged and, for a read, the data;
a NACK of the second attempt; a read whose count byte was not the one expected. -/
inductive LinkReply where
  | ok (data : List Byte)
  | nack
  | badLength (count : Byte)
deriving DecidableEq, Repr

/-- The accesses whose failure halts the part, in the order of their halt causes 1 to 8 (R186). -/
inductive FailedAccess where
  | headRead
  | slotRead
  | slotWrite
  | boardWrite
  | planRead
  | samplingRead
  | pageRead
  | pageWrite
deriving DecidableEq, Repr

/-- A context as a requester: bay, slot and admission number (R151, R158). -/
structure Requester where
  bay  : Bay
  slot : Slot
  adm  : Nat
deriving DecidableEq, Repr

/-- The inputs that the Sense Unit samples together at one sample instant (section 6.3): the fixed-scale and ranged paths
of the bay buses (mV), the slot currents and channel current paths (10 mA), the power-good and the presence lines. -/
structure Samples where
  busFixed    : Vector Nat 8
  busRanged   : Vector Nat 8
  slotCurrent : Vector (Vector Nat 6) 8
  chanCurrent : Vector Nat 4
  powerGood   : Vector (Vector Bool 6) 8
  present     : Vector (Vector Bool 6) 8
deriving DecidableEq, Repr

/-- The commands: register writes, events of the frame and of the PCIe link, and the passing of time. -/
inductive Instr where
  | powerOnReset
  | stationReset
  | pcieHotReset
  | pcieLinkDown
  | startingComplete
  | runStart
  | runStop
  | sweepPeriod (code : BitVec 2)
  | bookLo (w : Word)
  | bookHi (w : Word)
  | nudge (w : Word)
  | notice (w : Word)
  | noticeEn (w : Word)
  | registerWriteOther (offset : Nat) (w : Word)
  | headReadComplete (bytes : List Byte)
  | bookAccessFailure (access : FailedAccess)
  | sweepTimerExpiry
  | slotMarksRead (marks : List Byte)
  | orderCopyComplete (bytes : List Byte)
  | takenMarkWritten (slot : OrderSlot)
  | answerFieldsWritten (slot : OrderSlot)
  | answerCodeWritten (slot : OrderSlot)
  | hostTagCopyWritten (slot : OrderSlot)
  | answeredMarkWritten (slot : OrderSlot)
  | boardWritten (bay : Bay)
  | planEnterReadComplete (bytes : List Byte)
  | filteredRise (bay : Bay) (slot : Slot)
  | filteredFall (bay : Bay) (slot : Slot)
  | linkTransactionComplete (bay : Bay) (reply : LinkReply)
  | attemptNacked (bay : Bay)
  | linkTimeout (bay : Bay)
  | busRecoveryEnd (bay : Bay)
  | samplingReadComplete (who : Requester) (byte : Byte)
  | admissionPlanReadComplete (who : Requester) (bytes : List Byte)
  | relaysClosed (chan : Chan)
  | relaysOpen (chan : Chan)
  | rampStep (chan : Chan)
  | ceilingHoldEnd (chan : Chan)
  | unloadStep (chan : Chan)
  | tripFiring (chan : Chan)
  | measurementComplete (bay : Bay) (slot : Slot)
  | restartRecognised (bay : Bay) (slot : Slot)
  | powerGoodRecognised (bay : Bay) (slot : Slot)
  | steadySettleExpiry (bay : Bay) (slot : Slot)
  | shareSettleExpiry (bay : Bay) (slot : Slot)
  | restartWindowExpiry (bay : Bay) (slot : Slot)
  | recoverySpanExpiry (bay : Bay) (slot : Slot)
  | trimIntervalExpiry (bay : Bay) (slot : Slot)
  | loadDwellExpiry (bay : Bay) (slot : Slot)
  | zoneReading (zone : ZoneNo) (a b : SensorResult)
  | zoneSettleExpiry (zone : ZoneNo)
  | plateauLimitExpiry (zone : ZoneNo)
  | chamberFrameRepeat (zone : ZoneNo)
  | chamberFrameEnd (zone : ZoneNo)
  | secondAdvance
  | pageMarkRead (mark : Byte)
  | pageHeadWritten
  | fillingMarkWritten
  | chainLinkWritten
  | recordFieldsWritten (bay : Bay)
  | doneMarkWritten (bay : Bay)
  | recordCountWritten (bay : Bay)
  | fullMarkWritten (bay : Bay)
  | sampleInstant (inputs : Samples)
  | monotonicTick
deriving DecidableEq, Repr

end Sys2Proof
end

