-- ==== Sys2Proof/WellFormed.lean ====
section
/-! DEFINITION. Which commands are well formed: the operand ranges that the types do not give. A command outside them is
nothing the part can meet; the machine is total on it all the same. -/

namespace Sys2Proof

/-- The offsets of the window that hold a register that takes writes (R179). -/
def writableOffsets : List Nat := [0x00, 0x08, 0x0C, 0x10, 0x14, 0x18]

/-- A write of whole 32-bit words inside the 64-byte window, at an offset that holds no register or a read-only one (R179). -/
def otherOffset (offset : Nat) : Bool :=
  offset % 4 == 0 && decide (offset < 64) && !writableOffsets.contains offset

/-- An admission number is 1 to 65535 (R8). -/
def Requester.wellFormed (r : Requester) : Bool :=
  decide (1 ≤ r.adm) && decide (r.adm ≤ 65535)

/-- A module sends at most 255 data bytes; no kind of read takes more than the 29 of an identity block (R154). -/
def LinkReply.wellFormed : LinkReply → Bool
  | .ok data => decide (data.length ≤ 29)
  | .nack => true
  | .badLength _ => true

/-- Voltages are read on 0 to 60000 mV and currents on 0 to 12000 (section 6.3, R118, R122). -/
def Samples.wellFormed (x : Samples) : Bool :=
  x.busFixed.toList.all (fun v => decide (v ≤ 60000)) &&
  x.busRanged.toList.all (fun v => decide (v ≤ 60000)) &&
  x.slotCurrent.toList.all (fun r => r.toList.all (fun v => decide (v ≤ 12000))) &&
  x.chanCurrent.toList.all (fun v => decide (v ≤ 12000))

/-- A well-formed command. -/
def Instr.wellFormed : Instr → Bool
  | .registerWriteOther offset _ => otherOffset offset
  | .headReadComplete bytes => bytes.length == 64
  | .slotMarksRead marks => decide (1 ≤ marks.length) && decide (marks.length ≤ 16)
  | .orderCopyComplete bytes => bytes.length == 63
  | .planEnterReadComplete bytes => bytes.length == 512
  | .linkTransactionComplete _ reply => reply.wellFormed
  | .samplingReadComplete who _ => who.wellFormed
  | .admissionPlanReadComplete who bytes => who.wellFormed && bytes.length == 512
  | .sampleInstant inputs => inputs.wellFormed
  | .powerOnReset => true
  | .stationReset => true
  | .pcieHotReset => true
  | .pcieLinkDown => true
  | .startingComplete => true
  | .runStart => true
  | .runStop => true
  | .sweepPeriod _ => true
  | .bookLo _ => true
  | .bookHi _ => true
  | .nudge _ => true
  | .notice _ => true
  | .noticeEn _ => true
  | .bookAccessFailure _ => true
  | .sweepTimerExpiry => true
  | .takenMarkWritten _ => true
  | .answerFieldsWritten _ => true
  | .answerCodeWritten _ => true
  | .hostTagCopyWritten _ => true
  | .answeredMarkWritten _ => true
  | .boardWritten _ => true
  | .filteredRise _ _ => true
  | .filteredFall _ _ => true
  | .attemptNacked _ => true
  | .linkTimeout _ => true
  | .busRecoveryEnd _ => true
  | .relaysClosed _ => true
  | .relaysOpen _ => true
  | .rampStep _ => true
  | .ceilingHoldEnd _ => true
  | .unloadStep _ => true
  | .tripFiring _ => true
  | .measurementComplete _ _ => true
  | .restartRecognised _ _ => true
  | .powerGoodRecognised _ _ => true
  | .steadySettleExpiry _ _ => true
  | .shareSettleExpiry _ _ => true
  | .restartWindowExpiry _ _ => true
  | .recoverySpanExpiry _ _ => true
  | .trimIntervalExpiry _ _ => true
  | .loadDwellExpiry _ _ => true
  | .zoneReading _ _ _ => true
  | .zoneSettleExpiry _ => true
  | .plateauLimitExpiry _ => true
  | .chamberFrameRepeat _ => true
  | .chamberFrameEnd _ => true
  | .secondAdvance => true
  | .pageMarkRead _ => true
  | .pageHeadWritten => true
  | .fillingMarkWritten => true
  | .chainLinkWritten => true
  | .recordFieldsWritten _ => true
  | .doneMarkWritten _ => true
  | .recordCountWritten _ => true
  | .fullMarkWritten _ => true
  | .monotonicTick => true

end Sys2Proof
end

