-- ==== Sys2Proof/Decode.lean ====
section
/-! DEFINITION. The words of spec/opcode_table.json. No row of the table has bits (its rows are events and register writes,
not encodings), so no word spells a command (log entry 24). -/

namespace Sys2Proof

/-- The command that a word of the table spells: none, since no row of the table gives any bits. -/
def decodeTableWord (_nbits _w : Nat) : Option Instr := none

end Sys2Proof
end

