-- ==== Sys2Proof/Config.lean ====
section
/-! DEFINITION. What the implementation fixes (periods of its own timers, counted in the units the commands bring) and the
free values: constants without a body, so that nothing can be proved of the value they take. -/

namespace Sys2Proof.Config

/-- FREE (log entry 5). Whether byte `i` of a Book write cut short by a failure or a reset has reached host memory; `k` is the
model's counter of free values. R177 says only that fields already written stay as written. -/
opaque landed (k i : Nat) : Bool

/-- FREE (log entry 6). The byte at offset `i` of a record that belongs to a field which is absent and for which R200 gives no
absent value, or of a value that its field cannot hold (log entry 39). -/
opaque absentByte (k i : Nat) : Byte

/-- FREE (log entry 7). A choice between happenings that the spec allows in either order (R166, R168, R170, R175). -/
opaque pick (k : Nat) : Nat

/-- FREE (log entry 8). The microseconds, modulo 10, that a trip detector was armed after the sample instant before it (R119
counts the trip time from arming, and the commands count time in samples of 10 us). -/
opaque armOffset (k : Nat) : Nat

/-- FREE (log entry 9). The pass number of the final record of a STEADY check that is cut short when no pass is in progress
(R90, R93 say 'the pass number in progress'); used modulo 17, the range of R163. -/
opaque passInProgress (k : Nat) : Nat

/-- Samples in the 50 ms of the presence filter (R4). -/
def presenceSamples : Nat := 5000

/-- Samples in the 5 ms of a relay movement (R112, R117). -/
def relaySamples : Nat := 500

/-- Samples in the 700 ms of the link timeout (R156). -/
def linkTimeoutSamples : Nat := 70000

/-- Records that a bay buffer holds (R166). -/
def bufferSize : Nat := 8

/-- Entries that a link queue holds (R149). -/
def linkQueueSize : Nat := 12

/-- Hand-overs that a link's waiting line has room for (R149). -/
def waitingLineSize : Nat := 36

/-- Record positions of a page (R169). -/
def pageRecords : Nat := 63

/-- The number of immediate consequences of one command that the model follows (log entry 10): far beyond what any state of the
part can owe. -/
@[irreducible] def cascadeBound : Nat := 18446744073709551616

end Sys2Proof.Config
end

