-- ==== Sys2Proof/Machine/State.lean ====
section
/-! DEFINITION. The state of the NQ-4806 as plain data: `State` is the part (`Part`), the bytes that the part has written into
host memory, and the queue of commands that wait. Each field names the rule that gives it; INVENTORY.md lists them all.
The fields of a bay stand together in `BayUnit` (bay record, contexts, presence filter, link, bus-lock queue, record buffer),
as the blocks of section 0.3 hold one of each per bay. -/

namespace Sys2Proof.Machine

/-! ### Time (11_station_clock_and_spans.md) -/

/-- A time stamp (R204): a copy of the seconds, the fraction and the trust mark. -/
structure Stamp where
  seconds  : Nat
  fraction : Nat
  trusted  : Bool
deriving DecidableEq, Repr

/-- A running span timer (R205): the tick at which it was started and its length in ticks. -/
structure SpanTimer where
  start  : Nat
  length : Nat
deriving DecidableEq, Repr

/-! ### Identities and the directory (02_the_plan_directory.md) -/

/-- The four fields on which the directory matches (R30). -/
structure Identity where
  make  : Half
  model : Word
  hwRev : Half
  fwRev : Half
deriving DecidableEq, Repr

/-- What an identity block says of a module (R7, R161): the identity, the 16 serial bytes and the build date. -/
structure ModuleId where
  identity  : Identity
  serial    : List Byte
  buildYear : Byte
  buildWeek : Byte
deriving DecidableEq, Repr

/-- The family mask (R31). -/
structure FamilyMask where
  modelLow : Bool
  hwRev    : Bool
  fwRev    : Bool
deriving DecidableEq, Repr

/-- The match kind of a directory entry (R34). -/
inductive MatchKind where
  | exact
  | family
deriving DecidableEq, Repr

/-- The plan references of an entry (R34): variant 0 always present, variants 1 to 3 optional. -/
structure Refs where
  v0 : Nat
  v1 : Option Nat
  v2 : Option Nat
  v3 : Option Nat
deriving DecidableEq, Repr

/-- A directory entry in use (R34). -/
structure DirEntry where
  kind     : MatchKind
  identity : Identity
  bucket   : Fin 32
  refs     : Refs
deriving DecidableEq, Repr

/-- The Plan Directory (R32, R31, R34, R35): 128 entries, 32 chains of entry indices oldest first, key and mask in use. -/
structure Directory where
  entries : Vector (Option DirEntry) 128
  chains  : Vector (List (Fin 128)) 32
  key     : BitVec 256
  mask    : FamilyMask
deriving DecidableEq, Repr

/-- The three digests of an identified module (R33). -/
structure Digests where
  identity : Word
  family   : Word
  serial   : Word
deriving DecidableEq, Repr

/-- What a lookup that finds an entry hands to its context (R39). -/
structure Lookup where
  index : Fin 128
  kind  : MatchKind
  refs  : Refs
deriving DecidableEq, Repr

/-! ### Plans (03_plan_records.md) -/

/-- A span as plans and orders carry it (R56): unit code and count. -/
structure Span where
  unit  : BitVec 2
  count : Nat
deriving DecidableEq, Repr

/-- A window of low and high bounds (R57). -/
structure Window where
  low  : Nat
  high : Nat
deriving DecidableEq, Repr

/-- The exit conditions (R1). -/
inductive ExitCond where
  | never
  | inside
  | outside
  | above
  | below
  | clipped
  | drifted
  | clean
deriving DecidableEq, Repr

/-- The on-fail actions (R58). -/
inductive OnFail where
  | continue
  | skipRest
  | stopOutput
deriving DecidableEq, Repr

/-- The fields of a STEADY check (R59). -/
structure SteadyCheck where
  load      : Nat
  settle    : Span
  samples   : Nat
  window    : Window
  tolerance : Nat
  loops     : Nat
  exit      : ExitCond
deriving DecidableEq, Repr

/-- The behaviour after an overcurrent trip (R60, R78). -/
inductive Behaviour where
  | latch
  | restart
deriving DecidableEq, Repr

/-- The fields of an OCP_TRIP check (R60). -/
structure OcpCheck where
  start         : Nat
  step          : Nat
  interval      : Nat
  ceiling       : Nat
  window        : Window
  collapse      : Nat
  confirm       : Nat
  expected      : Behaviour
  restartWindow : Span
  recovery      : Span
deriving DecidableEq, Repr

/-- The fields of an OVP_TRIP check (R61). -/
structure OvpCheck where
  minLoad      : Nat
  trimStart    : Nat
  trimStep     : Nat
  trimCeiling  : Nat
  trimInterval : Span
  window       : Window
  collapse     : Nat
  confirm      : Nat
  recovery     : Span
deriving DecidableEq, Repr

/-- The fields of a SHARE check (R62). -/
structure ShareCheck where
  load      : Nat
  settle    : Span
  samples   : Nat
  imbalance : Nat
deriving DecidableEq, Repr

/-- The fields of a DERATE check (R63). -/
structure DerateCheck where
  loops     : Nat
  exit      : ExitCond
  tolerance : Nat
  dwell     : Span
  samples   : Nat
  window    : Window
deriving DecidableEq, Repr

/-- The five kinds of check with their fields (section 3.4). -/
inductive CheckBody where
  | steady (c : SteadyCheck)
  | ocp (c : OcpCheck)
  | ovp (c : OvpCheck)
  | share (c : ShareCheck)
  | derate (c : DerateCheck)
deriving DecidableEq, Repr

/-- A check record of a plan copy. -/
structure Check where
  onFail : OnFail
  body   : CheckBody
deriving DecidableEq, Repr

/-- A point of the derating curve (R53): temperature in 0.1 C, percentage. -/
structure CurvePoint where
  temp    : Int
  percent : Nat
deriving DecidableEq, Repr

/-- The link profile (R54). -/
structure Profile where
  outputCmd : Byte
  onValue   : Byte
  offValue  : Byte
  trimCmd   : Byte
  clearCmd  : Byte
  statusCmd : Byte
  faultMask : Byte
  limitCmd  : Byte
deriving DecidableEq, Repr

/-- A plan copy (R51, R52): the plan head and the check slots in use. -/
structure Plan where
  ratedPower   : Nat
  ratedCurrent : Nat
  nominal      : Nat
  drift        : Nat
  curve        : List CurvePoint
  profile      : Profile
  checks       : List Check
deriving DecidableEq, Repr

/-! ### Result records (09_result_pages.md) -/

/-- The record kinds (R163, codes R201). -/
inductive RecordKind where
  | measure
  | trip
  | share
  | plateau
  | summary
  | verdict
  | presence
deriving DecidableEq, Repr

/-- How a check, pass or plateau was carried out (R163, codes R201). -/
inductive CheckOutcome where
  | performed
  | noTrip
  | notIsolated
  | disturbed
  | alone
  | missed
  | noPlateau
  | aborted
deriving DecidableEq, Repr

/-- The incomplete causes (R7, codes R201); WITHDRAWN and STOPPED are also the withdrawal causes of a bay (R2). -/
inductive Cause where
  | removed
  | withdrawn
  | stopped
  | linkTimeout
  | badIdentity
  | badPlan
  | noPlateau
deriving DecidableEq, Repr

/-- The verdicts (R27, codes R201). -/
inductive Verdict where
  | pass
  | fail
  | incomplete
deriving DecidableEq, Repr

/-- What made a trip detector fire (R119, codes R201). -/
inductive Detector where
  | powerGood
  | collapse
  | both
deriving DecidableEq, Repr

/-- The reasons of NOT_ISOLATED (R73, codes R201). -/
inductive Reason where
  | mute
  | nack
  | timeout
  | current
  | faulted
deriving DecidableEq, Repr

/-- The direction of a PRESENCE record (R165). -/
inductive Direction where
  | inserted
  | removed
deriving DecidableEq, Repr

/-- The limits A, B and C of a check (section 0.6.6): `none` not checked, `some failed` checked. -/
structure Limits where
  a : Option Bool
  b : Option Bool
  c : Option Bool
deriving DecidableEq, Repr

/-- The four marks of a context (R7). -/
structure Marks where
  clipped : Bool
  drifted : Bool
  late    : Bool
  offBand : Bool
deriving DecidableEq, Repr

/-- A trip capture as records carry it (R77). -/
structure Capture where
  setpoint : Nat
  peak     : Nat
  time     : Nat
  detector : Detector
deriving DecidableEq, Repr

/-- A result record (R163, R165), without its DONE mark, which the Result Writer sets in host memory. -/
structure Record where
  kind        : RecordKind
  bay         : Bay
  slot        : Slot
  adm         : Nat
  checkIndex  : Option Nat
  number      : Nat
  outcome     : CheckOutcome
  cause       : Option Cause
  limits      : Limits
  marks       : Marks
  value1      : Option Nat
  value2      : Option Nat
  value3      : Option Nat
  capture     : Option Capture
  stamp       : Stamp
  last        : Bool
  verdict     : Option Verdict
  direction   : Option Direction
  failedCount : Nat
  variant     : Option (Fin 4)
  entryIndex  : Option (Fin 128)
  outputOff   : Bool
  identity    : Option ModuleId
deriving DecidableEq, Repr

/-! ### The Module Link (08_the_module_link.md) -/

/-- The transaction kinds (R151). -/
inductive TxKind where
  | identityRead
  | outputOn
  | outputOff
  | trimSet
  | faultClear
  | statusRead
  | limitRead
deriving DecidableEq, Repr

/-- The purposes of a hand-over (R151). -/
inductive Purpose where
  | identify
  | isolate
  | participate
  | restore
  | own
deriving DecidableEq, Repr

/-- A transaction (R151). `onValue` is the on value of the profile the entry was built from, which the standby set keeps
(R24); `ref` numbers the hand-overs, so that a context knows the command it waits for; `fell` says that the target's
filtered presence has fallen since the hand-over (R160). The last three are the model's own. -/
structure Entry where
  target  : Slot
  kind    : TxKind
  cmd     : Byte
  data    : Option Half
  who     : Requester
  purpose : Purpose
  onValue : Byte
  ref     : Nat
  fell    : Bool
deriving DecidableEq, Repr

/-- The reports of the link (R158). -/
inductive Report where
  | ok (data : List Byte)
  | nack
  | badLength (count : Byte)
  | timeout
  | discardMute
  | discardGone
deriving DecidableEq, Repr

/-- The link states (R149, R152). -/
inductive LinkState where
  | idle
  | busy
  | recovering
deriving DecidableEq, Repr

/-- A Module Link (R149). `timer` is the timeout timer: the sample count at the first START of the transaction in flight. -/
structure Link where
  state    : LinkState
  inFlight : Option Entry
  second   : Bool
  timer    : Option Nat
  queue    : List Entry
  line     : List Entry
  mute     : Vector Bool 6
deriving DecidableEq, Repr

/-! ### Measuring (06_load_channels_and_sensing.md) -/

/-- A ranged point (R122, R123): its range (0 the bottom one), its down count, and whether its next sample is discarded. -/
structure Point where
  range   : Nat
  down    : Nat
  discard : Bool
deriving DecidableEq, Repr

/-- A measurement window on one point of the bay (R125): the bus voltage (`none`) or a slot current, an optional value
window, the first valid sample, the sum and number of valid samples, and the marks. -/
structure PointWindow where
  point   : Option Slot
  value   : Option Window
  first   : Option Nat
  sum     : Nat
  count   : Nat
  clipped : Bool
  drifted : Bool
deriving DecidableEq, Repr

/-- A measurement (R125): sample count, drift tolerance, windows, and the completion time once every window is complete. -/
structure Measurement where
  need    : Nat
  tol     : Nat
  windows : List PointWindow
  done    : Option Stamp
deriving DecidableEq, Repr

/-- A watch (R128), with what it hands over once it has recognised: the restart delay in us, or the tick of the sample. -/
inductive Watch where
  | restart (volts confirm firedAt run firstAt : Nat) (got : Option Nat)
  | powerGood (got : Option Nat)
deriving DecidableEq, Repr

/-- The span timers of the Check Sequencer (R205). -/
inductive SpanKind where
  | steadySettle
  | shareSettle
  | restartWindow
  | recovery
  | trimInterval
  | loadDwell
deriving DecidableEq, Repr

/-- A running span of a context. -/
structure CtxSpan where
  kind  : SpanKind
  timer : SpanTimer
deriving DecidableEq, Repr

/-! ### Module contexts (01_bays_and_module_contexts.md, 04_check_execution.md) -/

/-- The context states (R7, codes R201). -/
inductive CtxState where
  | absent
  | identifying
  | unplanned
  | planned
  | running
  | paused
  | ended
deriving DecidableEq, Repr

/-- The phases of a check (R68, codes R201). -/
inductive Phase where
  | none
  | busWait
  | channelWait
  | connect
  | prepare
  | apply
  | measure
  | observe
  | recover
  | release
  | record
  | plateauWait
deriving DecidableEq, Repr

/-- What a context waits for inside a phase: the sub-steps of PREPARE (R71, R72, R82), of an overvoltage APPLY (R80), of
RECOVER (R79, R80, R81, R143), of a plateau start (R141), and the STOP_OUTPUT command (R88). -/
inductive SubStep where
  | idle
  | isolating
  | sharing
  | ownOn
  | ownClear
  | ownStatus
  | isoTest
  | trimSent
  | trimHeld
  | restoreWait
  | restoreTrim
  | restoreClear
  | restoreOn
  | restoreGood
  | noTripTrim
  | derateClear
  | derateOn
  | limitRead
  | stopOutput
deriving DecidableEq, Repr

/-- The steps of RELEASE and of the abort path (R84, R92). -/
inductive Release where
  | idle
  | unloading
  | opening
  | restoring
deriving DecidableEq, Repr

/-- Whether a context stays, has had its verdict decided, or is on its way to ABSENT (R91, R167). -/
inductive Exit where
  | stay
  | ending
  | leaving
deriving DecidableEq, Repr

/-- What a context has still to do in order, each when the record before it has entered the buffer (R85, R93, R166, R167):
make a record ready, enter ENDED and make its VERDICT ready, apply the check's result, return to PLATEAU_WAIT, become ABSENT. -/
inductive OutItem where
  | record (r : Record)
  | verdict (v : Verdict) (c : Option Cause)
  | applyResult
  | plateauReturn
  | becomeAbsent
deriving DecidableEq, Repr

/-- The check in progress of a context (04_check_execution.md), and the moments its records need. -/
structure Work where
  /-- completed pass results as the MEASURE records they become, in pass order (R74) -/
  passes      : List Record
  capture     : Option Capture
  outcome     : CheckOutcome
  limits      : Limits
  value1      : Option Nat
  value2      : Option Nat
  value3      : Option Nat
  stamp       : Option Stamp
  step        : SubStep
  /-- the hand-over number of the command to the own module that the step waits for -/
  await       : Option Nat
  /-- the hand-over numbers of isolating or participating commands still outstanding (R71, R82) -/
  outstanding : List Nat
  participants : List Slot
  /-- the value of the last TRIM_SET handed over (R80) -/
  trim        : Nat
  /-- the tick of the entry to RECOVER (R79) -/
  recoverTick : Nat
  release     : Release
  aborting    : Option Cause
  /-- the number of the aborted check's final record (R93), fixed when the abort is taken -/
  number      : Nat
  /-- a disturbed check that runs again with its retry used (R90) -/
  retrying    : Bool
  span        : Option CtxSpan
  meas        : Option Measurement
  watch       : Option Watch
deriving DecidableEq, Repr

/-- The DERATE loop of a context (07_thermal_zones_and_derating.md, R141 to R147). -/
structure Loop where
  counted     : Nat
  failed      : Nat
  missed      : Nat
  /-- number and temperature of the plateau started last -/
  plateau     : Nat
  temp        : Int
  /-- number of the last settled plateau, 0 if none (R145) -/
  lastSettled : Nat
  load        : Nat
  expected    : Nat
  deviation   : Nat
  reported    : Option Nat
  started     : Bool
  tripped     : Bool
  exitHolds   : Bool
  cut         : Bool
  /-- the zone has entered FAULTED or closed its last plateau under the measurement (R137) -/
  zoneLost    : Bool
  /-- paused within the loop (R147) -/
  inLoop      : Bool
  outcome     : CheckOutcome
deriving DecidableEq, Repr

/-- A module context (R7), with the progress of its identification, its check and its records. -/
structure Ctx where
  state      : CtxState
  adm        : Option Nat
  ident      : Option ModuleId
  digests    : Option Digests
  entryIndex : Option (Fin 128)
  variant    : Option (Fin 4)
  plan       : Option Plan
  checkIndex : Nat
  phase      : Phase
  loop       : Nat
  retry      : Nat
  marks      : Marks
  attempts   : Nat
  failed     : Nat
  verdict    : Option Verdict
  cause      : Option Cause
  outputOff  : Bool
  /-- identification: what the lookup handed over, and the reference used (R39, R40) -/
  lookup     : Option Lookup
  usedRef    : Option Nat
  /-- the bad check index of a BAD_PLAN ending (R66) -/
  badCheck   : Option Nat
  work       : Work
  derate     : Loop
  out        : List OutItem
  /-- the record made ready last waits in the entry line (R166) -/
  inLine     : Bool
  exit       : Exit
  /-- the filtered fall whose PRESENCE record is still to follow the abort's records (R6, R166) -/
  fellAt     : Option Stamp
deriving DecidableEq, Repr

/-! ### Bays -/

/-- The bay states (R2, codes R201). -/
inductive BayState where
  | empty
  | admitting
  | ready
  | running
  | finished
  | holding
  | held
  | withdrawing
deriving DecidableEq, Repr

/-- The start policies (R10). -/
inductive StartPolicy where
  | auto
  | wait
deriving DecidableEq, Repr

/-- The insert policies (R10). -/
inductive InsertPolicy where
  | join
  | park
deriving DecidableEq, Repr

/-- What the standby set keeps with a slot (R24): output-control command code and on value. -/
structure Standby where
  cmd     : Byte
  onValue : Byte
deriving DecidableEq, Repr

/-- The presence filter of one slot (R4) and the rise it holds back (R167). -/
structure Presence where
  filtered : Bool
  count    : Nat
  heldRise : Bool
deriving DecidableEq, Repr

/-- An entry of a bus-lock queue (R97). -/
structure BusEntry where
  slot    : Slot
  plateau : Bool
deriving DecidableEq, Repr

/-- A record that waits for room in the buffer, with its producer (R166). -/
structure LineEntry where
  slot   : Slot
  adm    : Nat
  record : Record
deriving DecidableEq, Repr

/-- The record write in progress of a bay (R172): its fields, its DONE mark, the page's record count. -/
inductive Drain where
  | idle
  | fields
  | done
  | count
deriving DecidableEq, Repr

/-- One bay: record (R2), contexts (R7), presence filter (R4), link (R149), bus (R95, R97), buffer (R166), points (R122). -/
structure BayUnit where
  state        : BayState
  start        : StartPolicy
  insert       : InsertPolicy
  cause        : Option Cause
  standby      : Vector (Option Standby) 6
  pendingOrder : Option OrderSlot
  firstPage    : Option Nat
  currentPage  : Option Nat
  pageCount    : Nat
  pageSeq      : Nat
  waiting      : Bool
  /-- the current page's owner mark has been written FULL (R173, R176) -/
  pageFull     : Bool
  writeCount   : Nat
  boardChanged : Bool
  ctxs         : Vector Ctx 6
  presence     : Vector Presence 6
  link         : Link
  busHolder    : Option Slot
  busQueue     : List BusEntry
  buffer       : List Record
  line         : List LineEntry
  drain        : Drain
  /-- pages whose FULL mark is being written, oldest first (R173, R176) -/
  fullWrites   : List Nat
  busPoint     : Point
  slotPoints   : Vector Point 6
deriving DecidableEq, Repr

/-! ### Load channels and the arbiter (05_stimulus_arbitration.md, 06_load_channels_and_sensing.md) -/

/-- The relay states (R111). -/
inductive Relay where
  | opened
  | closing
  | closed
  | opening
deriving DecidableEq, Repr

/-- The ramp states (R111). -/
inductive Ramp where
  | idle
  | holdingLevel
  | rampingUp
  | rampingDown
  | dropped
deriving DecidableEq, Repr

/-- The ramp parameters (R114). -/
structure RampParams where
  step     : Nat
  interval : Nat
  ceiling  : Nat
deriving DecidableEq, Repr

/-- The sample on which a detector met its condition (R119): sample number, current, bus voltage, trip time, what was met. -/
structure Firing where
  sample   : Nat
  current  : Nat
  voltage  : Nat
  time     : Nat
  detector : Detector
deriving DecidableEq, Repr

/-- An armed trip detector (R119, R120): its settings, samples since arming and their offset in us, run count, power-good seen
mark, peaks of the current interval (`none` until its first sample), and the firing not yet taken. -/
structure TripDetector where
  slot     : Slot
  collapse : Nat
  confirm  : Nat
  samples  : Nat
  offset   : Nat
  run      : Nat
  seen     : Bool
  peaks    : Option (Nat × Nat)
  firing   : Option Firing
deriving DecidableEq, Repr

/-- A Load Channel (R111) with its owner in the grant table (R95). `moved` is the sample count at which the relay movement in
progress began. -/
structure Channel where
  owner       : Option (Bay × Slot)
  bay         : Option Bay
  relay       : Relay
  moved       : Nat
  setpoint    : Nat
  ramp        : Ramp
  params      : Option RampParams
  ceilingHold : Bool
  openPending : Bool
  detector    : Option TripDetector
deriving DecidableEq, Repr

/-- An entry of the channel grant queue (R101). -/
structure ChanEntry where
  bay     : Bay
  slot    : Slot
  plateau : Bool
deriving DecidableEq, Repr

/-! ### Zones (07_thermal_zones_and_derating.md) -/

/-- The zone states (R129, codes R201). -/
inductive ZoneState where
  | rest
  | moving
  | settling
  | opened
  | closing
  | returning
  | faulted
deriving DecidableEq, Repr

/-- A plateau of a schedule (R129, R132). -/
structure Plateau where
  temp   : Int
  settle : Span
  limit  : Span
deriving DecidableEq, Repr

/-- The latest reading of a zone (R129, R130). -/
structure Reading where
  a     : SensorResult
  b     : SensorResult
  temp  : Option Int
  split : Bool
  fault : Bool
deriving DecidableEq, Repr

/-- A member of a joined list (R139). -/
structure Member where
  bay      : Bay
  slot     : Slot
  measured : Bool
  started  : Bool
deriving DecidableEq, Repr

/-- A Zone Controller (R129) and its chamber line (R131): the target carried by the frame being sent, whether a further frame
is owed, and the repeat timer. -/
structure Zone where
  state      : ZoneState
  rest       : Int
  band       : Option Int
  schedule   : Option (List Plateau)
  index      : Nat
  target     : Int
  latest     : Option Reading
  settle     : Option SpanTimer
  limit      : Option SpanTimer
  joined     : List Member
  frame      : Option Int
  frameAgain : Bool
  repeating  : Option SpanTimer
deriving DecidableEq, Repr

/-! ### The Book Port and the Result Writer (09_result_pages.md, 10_the_station_book.md) -/

/-- The part states (R182). -/
inductive PartState where
  | starting
  | idle
  | running
  | stopping
  | halted
deriving DecidableEq, Repr

/-- The head rejection causes (R183). -/
inductive HeadCause where
  | badFormat
  | badSlotCount
  | badRegion
  | overlap
deriving DecidableEq, Repr

/-- The notices, in the order of their bits (R179). -/
inductive Notice where
  | answered
  | results
  | verdict
  | poolDry
  | presence
  | zone
  | fault
deriving DecidableEq, Repr

/-- The book settings in use (R184). -/
structure Settings where
  slotCount   : Nat
  shelfOffset : Nat
  shelfCount  : Nat
  poolOffset  : Nat
  poolCount   : Nat
  identityCmd : Byte
deriving DecidableEq, Repr

/-- The passes that end with a rewrite of the boards: a sweep, a stopping pass, the final pass of a stop (R185, R194). -/
inductive PassKind where
  | sweep
  | stopping
  | final
deriving DecidableEq, Repr

/-- Where the Book Port stands in a sweep or pass (R191 to R194, R185): reading the owner marks; copying an order; an order
with its owner or its answer being written; rescans of waiting bays outstanding; a board being rewritten, with the content
taken when its rewrite began; the last board pass of a stop made. -/
inductive Sweep where
  | idle
  | marks
  | copying (slot : OrderSlot) (rest : List OrderSlot)
  | handling (slot : OrderSlot) (rest : List OrderSlot)
  | rescans (kind : PassKind) (bays : List Bay)
  | boards (kind : PassKind) (bay : Bay) (content : List (Nat × Nat)) (rest : List Bay)
  | finished
deriving DecidableEq, Repr

/-- The answer codes (R192). -/
inductive AnswerCode where
  | done
  | refusedBusy
  | refusedRange
  | refusedFull
  | refusedDuplicate
  | noEntry
  | badPlan
  | badTime
  | unknownOrder
  | superseded
  | stopped
deriving DecidableEq, Repr

/-- The write of an answer that is in progress (R188), or that the answer waits for the TAKEN mark (R193). -/
inductive AnswerStage where
  | waiting
  | fields
  | code
  | tag
  | mark
deriving DecidableEq, Repr

/-- An answer handed over and not yet marked ANSWERED (R188): code and the 60 bytes of the answer fields. -/
structure Answering where
  stage  : AnswerStage
  code   : AnswerCode
  fields : List Byte
deriving DecidableEq, Repr

/-- A PLAN_ENTER whose plans are being read (R41, R43, R44): the order's slot, the entry it would insert, the digest its bucket
was taken from, the variant being read and the variants still to read. -/
structure PlanEnter where
  slot    : OrderSlot
  entry   : DirEntry
  digest  : Word
  variant : Fin 4
  ref     : Nat
  rest    : List (Fin 4 × Nat)
deriving DecidableEq, Repr

/-- A Book read of an identifying context in flight (R13): the sampling byte or the plan record, for whom, and the host address of
the first byte read (R196, R199). -/
structure AdmRead where
  plan : Bool
  who  : Requester
  addr : Nat
deriving DecidableEq, Repr

/-- A page scan in progress (R170): the bay it is for, the page whose mark is being read, the pages still to look at after it,
and whether it is the rescan of a waiting bay (R175). -/
structure Scan where
  bay    : Bay
  page   : Nat
  left   : Nat
  rescan : Bool
deriving DecidableEq, Repr

/-- The write of a page claim that is in progress (R171). -/
inductive ClaimStage where
  | head
  | filling
  | link
deriving DecidableEq, Repr

/-- A page claim in progress (R171). -/
structure Claim where
  bay   : Bay
  page  : Nat
  stage : ClaimStage
deriving DecidableEq, Repr

/-! ### Immediate consequences -/

/-- What a step still owes before it is over: the things the rules say happen 'at once'. Each is carried out by
`Sys2Proof.Machine.consequence`; they are the model's way to order them, not state of the part. -/
inductive Conseq where
  /-- the link reports to a requester (R158) -/
  | report (b : Bay) (e : Entry) (r : Report)
  /-- the link starts its next queued entry or goes IDLE (R152) -/
  | linkNext (b : Bay)
  /-- a slot's MUTE mark is set and its entries are discarded (R156) -/
  | muteSlot (b : Bay) (s : Slot)
  /-- the contexts act on a module that has gone MUTE (R26) -/
  | moduleMute (b : Bay) (s : Slot)
  /-- a channel reports its relays CLOSED, an unload complete, the ceiling hold ended, or its relays OPEN -/
  | chanClosed (c : Chan)
  | unloadDone (c : Chan)
  | holdEnded (c : Chan)
  | chanOpen (c : Chan)
  /-- a context goes on with RELEASE or the abort path (R84, R92) -/
  | releaseGo (b : Bay) (s : Slot)
  /-- a context makes its next record ready or does what follows it (R85, R166) -/
  | output (b : Bay) (s : Slot)
  /-- a context stands at a check boundary (R69) -/
  | boundary (b : Bay) (s : Slot)
  /-- a record has left a buffer (R69, R166) -/
  | roomMade (b : Bay)
  /-- a check's last record has entered (R87) -/
  | checkResult (b : Bay) (s : Slot)
  /-- a plateau's last record has entered (R145) -/
  | plateauReturn (b : Bay) (s : Slot)
  /-- a member starts its plateau measurement if it may (R141) -/
  | startPlateau (b : Bay) (s : Slot)
  /-- a zone makes its closing test (R135) -/
  | closingTest (z : ZoneNo)
  /-- the tests of R11, R18, R20, R23 on a bay -/
  | bayTest (b : Bay)
  /-- a held rise acts if it can (R167) -/
  | heldRise (b : Bay) (s : Slot)
  /-- the Result Writer starts what it can (R168, R170) -/
  | writer
  /-- an order has been dealt with by its owner: answered, or to be marked TAKEN (R193) -/
  | orderHandled (s : OrderSlot)
  /-- the sweep takes its next order or ends (R191, R194) -/
  | nextTaking (rest : List OrderSlot)
deriving DecidableEq, Repr

/-! ### The part and the state -/

/-- The NQ-4806. -/
structure Part where
  phase       : PartState
  attempt     : Bool
  staleReads  : Nat
  sweepCode   : BitVec 2
  headRejected : Bool
  headCause   : Option HeadCause
  haltCause   : Option FailedAccess
  bookLo      : Word
  bookHi      : Word
  pendingSet  : BitVec 7
  enableSet   : BitVec 7
  messages    : Nat
  settings    : Option Settings
  sweepTimer  : Option SpanTimer
  nudge       : Bool
  sweep       : Sweep
  stopOwed    : Bool
  slotTags    : Vector Half 16
  takenWrite  : Option OrderSlot
  answers     : Vector (Option Answering) 16
  planEnter   : Option PlanEnter
  admReads    : List AdmRead
  dir         : Directory
  bays        : Vector BayUnit 8
  nextAdm     : Nat
  chans       : Vector Channel 4
  chanQueue   : List ChanEntry
  zones       : Vector Zone 2
  cursor      : Nat
  dry         : Bool
  scan        : Option Scan
  claim       : Option Claim
  seconds     : Nat
  fraction    : Nat
  trusted     : Bool
  tick        : Nat
  samples     : Nat
  handovers   : Nat
  free        : Nat
  todo        : List Conseq
deriving DecidableEq, Repr

/-- The bytes that the part has written into host memory, by host address: addresses strictly rising, so that equal memories
are equal lists. An address not listed holds what the host left there, which the part does not know. -/
abbrev Memory := List Host.Cell

/-- The state of the machine: the part, what it has written into the Book, and the commands that wait, oldest first. -/
structure State where
  part    : Part
  book    : Memory
  pending : List Instr
deriving DecidableEq, Repr

/-- The reasons for which a step stops with a fault: there are none. The spec gives every command an effect in every state, and
the block reads no address that does not exist. -/
inductive Fault where
deriving DecidableEq, Repr

/-- The reasons for which a step is refused. -/
inductive Refusal where
  /-- Raised by `exec` for a command that has no meaning yet. Safe. -/
  | notModelled (mnemonic : String)
deriving DecidableEq, Repr

/-! ### Reset values -/

/-- The marks of a context, all clear. -/
def Marks.clear : Marks := ⟨false, false, false, false⟩

/-- No limit checked. -/
def Limits.unchecked : Limits := ⟨none, none, none⟩

/-- No check in progress. -/
def Work.reset : Work :=
  { passes := [], capture := none, outcome := .performed, limits := Limits.unchecked, value1 := none, value2 := none,
    value3 := none, stamp := none, step := .idle, await := none, outstanding := [], participants := [], trim := 0,
    recoverTick := 0, release := .idle, aborting := none, number := 0, retrying := false, span := none, meas := none, watch := none }

/-- No DERATE loop. -/
def Loop.reset : Loop :=
  { counted := 0, failed := 0, missed := 0, plateau := 0, temp := 0, lastSettled := 0, load := 0, expected := 0,
    deviation := 0, reported := none, started := false, tripped := false, exitHolds := false, cut := false,
    zoneLost := false, inLoop := false, outcome := .performed }

/-- A context in ABSENT (R7, last column). -/
def Ctx.reset : Ctx :=
  { state := .absent, adm := none, ident := none, digests := none, entryIndex := none, variant := none, plan := none,
    checkIndex := 0, phase := .none, loop := 0, retry := 0, marks := Marks.clear, attempts := 0, failed := 0,
    verdict := none, cause := none, outputOff := false, lookup := none, usedRef := none, badCheck := none,
    work := Work.reset, derate := Loop.reset, out := [], inLine := false, exit := .stay, fellAt := none }

/-- A link after a reset (R149). -/
def Link.reset : Link :=
  { state := .idle, inFlight := none, second := false, timer := none, queue := [], line := [],
    mute := Vector.replicate 6 false }

/-- A bay after a reset (R2, R4, R29, R95, R149, R166, R122). R122 gives each point its top range and the down count 0; that no discard
is due at a point after a reset is a choice of the model (log entry 55). -/
def BayUnit.reset : BayUnit :=
  { state := .empty, start := .wait, insert := .park, cause := none, standby := Vector.replicate 6 none,
    pendingOrder := none, firstPage := none, currentPage := none, pageCount := 0, pageSeq := 0, waiting := false,
    pageFull := false, writeCount := 0, boardChanged := false, ctxs := Vector.replicate 6 Ctx.reset,
    presence := Vector.replicate 6 ⟨false, 0, false⟩, link := Link.reset, busHolder := none, busQueue := [],
    buffer := [], line := [], drain := .idle, fullWrites := [], busPoint := ⟨1, 0, false⟩,
    slotPoints := Vector.replicate 6 ⟨3, 0, false⟩ }

/-- A load channel after a reset (R111). -/
def Channel.reset : Channel :=
  { owner := none, bay := none, relay := .opened, moved := 0, setpoint := 0, ramp := .idle, params := none,
    ceilingHold := false, openPending := false, detector := none }

/-- A zone after a reset at monotonic tick `tick` (R129); its chamber line sends its first frame at once (R131), which starts
the repeat of 4096 ticks (R205). -/
def Zone.resetAt (tick : Nat) : Zone :=
  { state := .rest, rest := 250, band := none, schedule := none, index := 0, target := 250, latest := none, settle := none,
    limit := none, joined := [], frame := some 250, frameAgain := false, repeating := some ⟨tick, 4096⟩ }

/-- The directory after a reset (R31, R32, R34, R35, R37). -/
def Directory.reset : Directory :=
  { entries := Vector.replicate 128 none, chains := Vector.replicate 32 [], key := 0, mask := ⟨false, false, false⟩ }

/-- The part right after a power-on reset (R179, R182, and the reset values of every chapter). -/
def Part.reset : Part :=
  { phase := .starting, attempt := false, staleReads := 0, sweepCode := 0, headRejected := false, headCause := none,
    haltCause := none, bookLo := 0, bookHi := 0, pendingSet := 0, enableSet := 0, messages := 0, settings := none,
    sweepTimer := none, nudge := false, sweep := .idle, stopOwed := false, slotTags := Vector.replicate 16 0,
    takenWrite := none, answers := Vector.replicate 16 none, planEnter := none, admReads := [],
    dir := Directory.reset, bays := Vector.replicate 8 BayUnit.reset, nextAdm := 1,
    chans := Vector.replicate 4 Channel.reset, chanQueue := [], zones := Vector.replicate 2 (Zone.resetAt 0), cursor := 0,
    dry := false, scan := none, claim := none, seconds := 0, fraction := 0, trusted := false, tick := 0, samples := 0,
    handovers := 0, free := 0, todo := [] }

/-- The machine right after a power-on reset: the part's reset values, nothing written into the Book, no command waiting. -/
def State.reset : State := { part := Part.reset, book := [], pending := [] }

end Sys2Proof.Machine
end

