-- ==== Sys2Proof/Machine/Ops.lean ====
section
/-! DEFINITION. The shared operations over the part's state: reading and changing a bay, a context, a channel or a zone;
host memory as the part has written it; notices; time; free orders; owing a consequence. -/

namespace Sys2Proof.Machine

/-! ### Indices -/

/-- The bays in ascending order. -/
def allBays : List Bay := [0, 1, 2, 3, 4, 5, 6, 7]

/-- The slots of a bay in ascending order. -/
def allSlots : List Slot := [0, 1, 2, 3, 4, 5]

/-- The load channels in ascending order. -/
def allChans : List Chan := [0, 1, 2, 3]

/-- The zones in ascending order. -/
def allZones : List ZoneNo := [0, 1]

/-- The zone of a bay (R129): zone 0 holds bays 0 to 3, zone 1 bays 4 to 7. -/
def zoneOf (b : Bay) : ZoneNo := if b.val < 4 then 0 else 1

/-- A vector of 8 from its elements. -/
def tab8 {α : Type} (f : Fin 8 → α) : Vector α 8 := #v[f 0, f 1, f 2, f 3, f 4, f 5, f 6, f 7]

/-- A vector of 6 from its elements. -/
def tab6 {α : Type} (f : Fin 6 → α) : Vector α 6 := #v[f 0, f 1, f 2, f 3, f 4, f 5]

/-- A vector of 4 from its elements. -/
def tab4 {α : Type} (f : Fin 4 → α) : Vector α 4 := #v[f 0, f 1, f 2, f 3]

/-- A vector of 2 from its elements. -/
def tab2 {α : Type} (f : Fin 2 → α) : Vector α 2 := #v[f 0, f 1]

/-! ### Bays, contexts, links, channels, zones -/

/-- Bay `b` of the part. -/
def Part.bay (p : Part) (b : Bay) : BayUnit := p.bays[b]

/-- The part with bay `b` changed by `f`. -/
def Part.mapBay (p : Part) (b : Bay) (f : BayUnit → BayUnit) : Part := { p with bays := p.bays.set b (f (p.bay b)) }

/-- The context of slot `s`. -/
def BayUnit.ctx (u : BayUnit) (s : Slot) : Ctx := u.ctxs[s]

/-- The bay with the context of slot `s` changed by `f`. -/
def BayUnit.mapCtx (u : BayUnit) (s : Slot) (f : Ctx → Ctx) : BayUnit := { u with ctxs := u.ctxs.set s (f (u.ctx s)) }

/-- The context of slot `s` of bay `b`. -/
def Part.ctx (p : Part) (b : Bay) (s : Slot) : Ctx := (p.bay b).ctx s

/-- The part with the context of slot `s` of bay `b` changed by `f`. -/
def Part.mapCtx (p : Part) (b : Bay) (s : Slot) (f : Ctx → Ctx) : Part := p.mapBay b (fun u => u.mapCtx s f)

/-- The context with its check in progress changed by `f`. -/
def Ctx.mapWork (c : Ctx) (f : Work → Work) : Ctx := { c with work := f c.work }

/-- The context with its DERATE loop changed by `f`. -/
def Ctx.mapLoop (c : Ctx) (f : Loop → Loop) : Ctx := { c with derate := f c.derate }

/-- The part with the check in progress of a context changed by `f`. -/
def Part.mapWork (p : Part) (b : Bay) (s : Slot) (f : Work → Work) : Part := p.mapCtx b s (fun c => c.mapWork f)

/-- The link of bay `b`. -/
def Part.link (p : Part) (b : Bay) : Link := (p.bay b).link

/-- The part with the link of bay `b` changed by `f`. -/
def Part.mapLink (p : Part) (b : Bay) (f : Link → Link) : Part := p.mapBay b (fun u => { u with link := f u.link })

/-- Load channel `c`. -/
def Part.chan (p : Part) (c : Chan) : Channel := p.chans[c]

/-- The part with channel `c` changed by `f`. -/
def Part.mapChan (p : Part) (c : Chan) (f : Channel → Channel) : Part := { p with chans := p.chans.set c (f (p.chan c)) }

/-- Zone `z`. -/
def Part.zone (p : Part) (z : ZoneNo) : Zone := p.zones[z]

/-- The part with zone `z` changed by `f`. -/
def Part.mapZone (p : Part) (z : ZoneNo) (f : Zone → Zone) : Part := { p with zones := p.zones.set z (f (p.zone z)) }

/-- The filtered state of a slot's presence line (R4). -/
def BayUnit.present (u : BayUnit) (s : Slot) : Bool := u.presence[s].filtered

/-- The MUTE mark of a slot (R149). -/
def BayUnit.muted (u : BayUnit) (s : Slot) : Bool := u.link.mute[s]

/-- The slots of a bay other than `s` whose filtered presence is PRESENT: the other present modules (R71). -/
def BayUnit.others (u : BayUnit) (s : Slot) : List Slot := allSlots.filter (fun t => t != s && u.present t)

/-- The load channel that a context owns, from the grant table (R95). -/
def Part.chanOf (p : Part) (b : Bay) (s : Slot) : Option Chan := allChans.find? (fun c => (p.chan c).owner == some (b, s))

/-- The connected channel of a bay, mirrored from the grant table (R2, R95). -/
def Part.connected (p : Part) (b : Bay) : Option Chan :=
  allChans.find? (fun c => match (p.chan c).owner with
    | some (b', _) => b' == b
    | none => false)

/-- The bay's standby set has no member (R24). -/
def BayUnit.standbyEmpty (u : BayUnit) : Bool := allSlots.all (fun s => u.standby[s].isNone)

/-! ### Owing a consequence -/

/-- The part with further consequences owed, after those owed already. -/
def Part.later (p : Part) (cs : List Conseq) : Part := { p with todo := p.todo ++ cs }

/-! ### Free values -/

/-- Removes the elements of a list in a free order; the counter of free values advances once for each choice among two or
more (log entry 7). -/
def freeOrderFrom {α : Type} : Nat → Nat → List α → List α × Nat
  | 0, k, l => (l, k)
  | _ + 1, k, [] => ([], k)
  | _ + 1, k, [x] => ([x], k)
  | n + 1, k, x :: y :: l =>
    let all := x :: y :: l
    let i := Config.pick k % all.length
    let r := freeOrderFrom n (k + 1) (all.eraseIdx i)
    ((all[i]?).toList ++ r.1, r.2)

/-- A free order of a list, and the part with its counter of free values advanced. -/
def Part.freeOrder {α : Type} (p : Part) (l : List α) : List α × Part :=
  let r := freeOrderFrom l.length p.free l
  (r.1, { p with free := r.2 })

/-- A free choice of one element of a list; no free value is read for a list of one. -/
def Part.choose {α : Type} (p : Part) (l : List α) : Option α × Part :=
  match l with
  | [] => (none, p)
  | [x] => (some x, p)
  | l => (l[Config.pick p.free % l.length]?, { p with free := p.free + 1 })

/-! ### Notices (R181) -/

/-- The bit of a notice in NOTICE and NOTICE_EN (R179). -/
def Notice.bit : Notice → Nat
  | .answered => 0
  | .results => 1
  | .verdict => 2
  | .poolDry => 3
  | .presence => 4
  | .zone => 5
  | .fault => 6

/-- The set of notices both pending and enabled is not empty (R181). -/
def Part.calling (p : Part) : Bool := p.pendingSet &&& p.enableSet != 0

/-- A notice raised by its owner joins the pending set, and an interrupt message is sent when that takes the set of notices
both pending and enabled from empty to non-empty (R181). No notice is raised in STARTING. -/
def Part.notify (p : Part) (n : Notice) : Part :=
  if p.phase == .starting then p
  else
    let q := { p with pendingSet := p.pendingSet ||| BitVec.twoPow 7 n.bit }
    if q.calling && !p.calling then { q with messages := q.messages + 1 } else q

/-! ### Time -/

/-- A time stamp (R204). -/
def Part.stamp (p : Part) : Stamp := ⟨p.seconds, p.fraction, p.trusted⟩

/-- The ticks of one unit of a span (R56). -/
def unitTicks (u : BitVec 2) : Nat :=
  match u.toNat with
  | 0 => 1
  | 1 => 64
  | 2 => 4096
  | _ => 245760

/-- The length of a span in ticks (R56). -/
def Span.ticks (s : Span) : Nat := s.count * unitTicks s.unit

/-- A span timer started now with a length in ticks (R205). -/
def Part.timer (p : Part) (length : Nat) : SpanTimer := ⟨p.tick, length⟩

/-- A span timer is due at tick `now`: the time since its start is at least its length (R205). Where between two ticks the timer was
started is not held; its start is the last tick before, so that it is due from that tick plus its length on, and whether the expiry
comes at that tick or the next is the sender's (log entry 47, the model's choice). -/
def SpanTimer.due (now : Nat) (t : SpanTimer) : Bool := decide (t.start + t.length ≤ now)

/-- The sweep period in ticks (R189). -/
def sweepTicks (code : BitVec 2) : Nat :=
  match code.toNat with
  | 0 => 5
  | 1 => 33
  | 2 => 263
  | _ => 2098

/-- Starts the span timer of a context (R205). -/
def Part.startSpan (p : Part) (b : Bay) (s : Slot) (k : SpanKind) (span : Span) : Part :=
  p.mapWork b s (fun w => { w with span := some ⟨k, p.timer span.ticks⟩ })

/-! ### Host memory as the part has written it (log entry 4) -/

/-- What the part has written at an address, if anything. -/
def Memory.read (m : Memory) (a : Nat) : Option Byte :=
  match m with
  | [] => none
  | (b, v) :: m => if a = b then some v else Memory.read m a

/-- The memory with a byte written, its addresses still strictly rising. -/
def Memory.write (m : Memory) (a : Nat) (v : Byte) : Memory :=
  match m with
  | [] => [(a, v)]
  | (b, w) :: m =>
    if a < b then (a, v) :: (b, w) :: m
    else if a = b then (a, v) :: m
    else (b, w) :: Memory.write m a v

/-- The memory with bytes written from an address upward. -/
def Memory.writeBytes (m : Memory) (a : Nat) : List Byte → Memory
  | [] => m
  | v :: vs => Memory.writeBytes (m.write a v) (a + 1) vs

/-- The memory with those bytes written that have landed of a write cut short (log entry 5). -/
def Memory.writeLanded (k : Nat) (m : Memory) (a i : Nat) : List Byte → Memory
  | [] => m
  | v :: vs => Memory.writeLanded k (if Config.landed k i then m.write a v else m) (a + 1) (i + 1) vs

/-- Every address of the list is above `a`, and the addresses rise strictly. -/
def Memory.risingAbove (a : Nat) : Memory → Bool
  | [] => true
  | (b, _) :: m => decide (a < b) && Memory.risingAbove b m

/-- The canonical form: addresses strictly rising. No entry can equal what an unlisted address reads as, which is no value. -/
def Memory.wf : Memory → Bool
  | [] => true
  | (a, _) :: m => Memory.risingAbove a m

/-- The Book base (R179). -/
def Part.base (p : Part) : Nat := p.bookHi.toNat * 2 ^ 32 + p.bookLo.toNat

/-- The address of plan record `n` of the plan shelf (R50, R199). -/
def Part.planAddr (p : Part) (n : Nat) : Nat := p.base + (p.settings.map Settings.shelfOffset).getD 0 * 4096 + 512 * n

/-- The address of byte `i` of the sampling table, which stands at 0x40 of the Book head (R40, R196). -/
def Part.samplingAddr (p : Part) (i : Nat) : Nat := p.base + 0x40 + i

end Sys2Proof.Machine
end

