-- ==== Sys2Proof/Machine/Operands.lean ====
section
/-! DEFINITION. The formats of section 10.6 and of the wires: fields of the bytes the part reads, bytes of what it writes
(answers, records, page heads, boards), the codes of R201, what the link and the chamber line send, what a register reads. -/

namespace Sys2Proof.Machine

/-! ### Reading fields (R195) -/

/-- Byte `i`, 0 past the end. -/
def byteAt (l : List Byte) (i : Nat) : Nat := (l.getD i 0).toNat

/-- The 16-bit little-endian number at offset `i`. -/
def halfAt (l : List Byte) (i : Nat) : Nat := byteAt l i + 256 * byteAt l (i + 1)

/-- The 32-bit little-endian number at offset `i`. -/
def wordAt (l : List Byte) (i : Nat) : Nat := halfAt l i + 65536 * halfAt l (i + 2)

/-- A 16-bit number read as two's complement. -/
def signed16 (n : Nat) : Int := if n < 32768 then n else (n : Int) - 65536

/-- The span field at offset `i` (R195). -/
def spanAt (l : List Byte) (i : Nat) : Span :=
  let n := halfAt l i
  ⟨BitVec.ofNat 2 (n / 4096 % 4), n % 4096⟩

/-- The identity fields from offset `i`: make, model, hardware and firmware revision. -/
def identityAt (l : List Byte) (i : Nat) : Identity :=
  { make := BitVec.ofNat 16 (halfAt l i), model := BitVec.ofNat 32 (wordAt l (i + 2)),
    hwRev := BitVec.ofNat 16 (halfAt l (i + 6)), fwRev := BitVec.ofNat 16 (halfAt l (i + 8)) }

/-- The bytes sum to 0 modulo 256 (R12, R161). -/
def sumsToZero (l : List Byte) : Bool := l.foldl (· + ·) 0 == 0

/-- The identity block is valid (R161). -/
def validBlock (data : List Byte) : Bool := data.length == 29 && sumsToZero data

/-- What an identity block says of the module (R161). -/
def blockIdentity (data : List Byte) : ModuleId :=
  { identity := identityAt data 0, serial := (data.drop 10).take 16, buildYear := data.getD 26 0, buildWeek := data.getD 27 0 }

/-! ### Writing fields (R195) -/

/-- `n` as `width` bytes, least significant first. -/
def leBytes : Nat → Nat → List Byte
  | 0, _ => []
  | w + 1, n => BitVec.ofNat 8 n :: leBytes w (n / 256)

/-- A list of (width, value) fields as bytes. -/
def fieldBytes (l : List (Nat × Nat)) : List Byte := l.flatMap (fun x => leBytes x.1 x.2)

/-- Bytes put over a list from position `i`. -/
def putAt (l : List Byte) (i : Nat) (bs : List Byte) : List Byte := l.take i ++ bs ++ l.drop (i + bs.length)

/-- The 60 bytes of the answer fields, from (offset within the slot, width, value); every other byte is 0 (R188, R197). -/
def answerFields (l : List (Nat × Nat × Nat)) : List Byte :=
  l.foldl (fun acc x => putAt acc (x.1 - 0x44) (leBytes x.2.1 x.2.2)) (List.replicate 60 0)

/-- A signed value as 16 bits. -/
def unsigned16 (t : Int) : Nat := (t % 65536).toNat

/-- A truth value as a bit. -/
def bit (b : Bool) : Nat := if b then 1 else 0

/-! ### Codes (R201) -/

/-- The code of a bay state. -/
def BayState.code : BayState → Nat
  | .empty => 0 | .admitting => 1 | .ready => 2 | .running => 3
  | .finished => 4 | .holding => 5 | .held => 6 | .withdrawing => 7

/-- The code of a context state. -/
def CtxState.code : CtxState → Nat
  | .absent => 0 | .identifying => 1 | .unplanned => 2 | .planned => 3
  | .running => 4 | .paused => 5 | .ended => 6

/-- The code of a phase. -/
def Phase.code : Phase → Nat
  | .none => 0 | .busWait => 1 | .channelWait => 2 | .connect => 3 | .prepare => 4 | .apply => 5
  | .measure => 6 | .observe => 7 | .recover => 8 | .release => 9 | .record => 10 | .plateauWait => 11

/-- The code of a zone state. -/
def ZoneState.code : ZoneState → Nat
  | .rest => 0 | .moving => 1 | .settling => 2 | .opened => 3 | .closing => 4 | .returning => 5 | .faulted => 6

/-- The code of a verdict, 0 absent. -/
def verdictCode : Option Verdict → Nat
  | none => 0 | some .pass => 1 | some .fail => 2 | some .incomplete => 3

/-- The code of an incomplete cause or a withdrawal cause, 0 absent. -/
def causeCode : Option Cause → Nat
  | none => 0 | some .removed => 1 | some .withdrawn => 2 | some .stopped => 3 | some .linkTimeout => 4
  | some .badIdentity => 5 | some .badPlan => 6 | some .noPlateau => 7

/-- The code of a record kind. -/
def RecordKind.code : RecordKind → Nat
  | .measure => 1 | .trip => 2 | .share => 3 | .plateau => 4 | .summary => 5 | .verdict => 6 | .presence => 7

/-- The code of an outcome. -/
def CheckOutcome.code : CheckOutcome → Nat
  | .performed => 0 | .noTrip => 1 | .notIsolated => 2 | .disturbed => 3
  | .alone => 4 | .missed => 5 | .noPlateau => 6 | .aborted => 7

/-- The code of a detector. -/
def Detector.code : Detector → Nat
  | .powerGood => 1 | .collapse => 2 | .both => 3

/-- The code of a reason of NOT_ISOLATED. -/
def Reason.code : Reason → Nat
  | .mute => 1 | .nack => 2 | .timeout => 3 | .current => 4 | .faulted => 5

/-- The code of a start policy. -/
def StartPolicy.code : StartPolicy → Nat
  | .auto => 0 | .wait => 1

/-- The code of an insert policy. -/
def InsertPolicy.code : InsertPolicy → Nat
  | .join => 0 | .park => 1

/-- The direction byte of a PRESENCE record, 0 absent (R200). -/
def directionCode : Option Direction → Nat
  | none => 0 | some .inserted => 1 | some .removed => 2

/-- The answer code values (R192). -/
def AnswerCode.code : AnswerCode → Nat
  | .done => 0 | .refusedBusy => 1 | .refusedRange => 2 | .refusedFull => 3 | .refusedDuplicate => 4 | .noEntry => 5
  | .badPlan => 6 | .badTime => 7 | .unknownOrder => 8 | .superseded => 9 | .stopped => 10

/-- The code of a part state in STATUS (R179). -/
def PartState.code : PartState → Nat
  | .starting => 0 | .idle => 1 | .running => 2 | .stopping => 3 | .halted => 4

/-- The code of a head rejection cause, 0 none (R179). -/
def headCauseCode : Option HeadCause → Nat
  | none => 0 | some .badFormat => 1 | some .badSlotCount => 2 | some .badRegion => 3 | some .overlap => 4

/-- The halt cause of an access (R186). -/
def accessCode : FailedAccess → Nat
  | .headRead => 1 | .slotRead => 2 | .slotWrite => 3 | .boardWrite => 4
  | .planRead => 5 | .samplingRead => 6 | .pageRead => 7 | .pageWrite => 8

/-- A sensor result on the board (R198). -/
def sensorCode : SensorResult → Nat
  | .temp t => t.toNat | .openCircuit => 0x7FFE | .shortCircuit => 0x7FFF

/-! ### Records and pages (R200) -/

/-- The limit-mark bits of one limit. -/
def limitBits : Option Bool → Nat
  | none => 0 | some failed => 1 + 2 * bit failed

/-- The limit marks byte. -/
def Limits.byte (l : Limits) : Nat := limitBits l.a + 4 * limitBits l.b + 16 * limitBits l.c

/-- The marks byte, with the LAST mark. -/
def marksByte (m : Marks) (last : Bool) : Nat :=
  bit m.clipped + 2 * bit m.drifted + 4 * bit m.late + 8 * bit m.offBand + 16 * bit last

/-- The presence byte of a record. -/
def Record.presenceByte (r : Record) : Nat :=
  bit r.value1.isSome + 2 * bit r.value2.isSome + 4 * bit r.value3.isSome + 8 * bit r.capture.isSome
    + 16 * bit r.identity.isSome + 32 * bit r.outputOff

/-- The free bytes of an absent field at offset `i` (log entry 6). -/
def absentBytes (k : Nat) : Nat → Nat → List Byte
  | _, 0 => []
  | i, n + 1 => Config.absentByte k i :: absentBytes k (i + 1) n

/-- A value field at offset `i` (R163: an unsigned 32-bit number). A number of 2^32 or more has no value in the field that the spec
gives: its bytes are free (log entry 39). -/
def valueBytes (k i : Nat) : Option Nat → List Byte
  | some v => if v < 2 ^ 32 then leBytes 4 v else absentBytes k i 4
  | none => absentBytes k i 4

/-- The trip capture, at offset 0x20. -/
def captureBytes (k : Nat) : Option Capture → List Byte
  | some c => fieldBytes [(2, c.setpoint), (2, c.peak), (4, c.time), (1, c.detector.code)]
  | none => absentBytes k 0x20 9

/-- The identity of a record, at offset 0x23. -/
def identityBytes (k : Nat) : Option ModuleId → List Byte
  | some m => fieldBytes [(2, m.identity.make.toNat), (4, m.identity.model.toNat), (2, m.identity.hwRev.toNat),
      (2, m.identity.fwRev.toNat)] ++ (m.serial ++ List.replicate 16 0).take 16 ++ [m.buildYear, m.buildWeek]
  | none => absentBytes k 0x23 28

/-- Bytes 0x20 to 0x3E of a record. A PRESENCE record has no failed-check count, variant or entry index: 0 and the absent values
(R195, R200, log entry 36). -/
def Record.tail (k : Nat) (r : Record) : List Byte :=
  match r.kind with
  | .verdict => fieldBytes [(1, r.failedCount), (1, (r.variant.map Fin.val).getD 0xFF),
      (1, (r.entryIndex.map Fin.val).getD 0xFF)] ++ identityBytes k r.identity
  | .presence => fieldBytes [(1, 0), (1, 0xFF), (1, 0xFF)] ++ identityBytes k r.identity
  | _ => captureBytes k r.capture ++ List.replicate 22 0

/-- The byte at 0x13: the verdict, or the direction, or 0. -/
def Record.verdictByte (r : Record) : Nat :=
  match r.kind with
  | .verdict => verdictCode r.verdict
  | .presence => directionCode r.direction
  | _ => 0

/-- The 64 bytes of a record with its DONE mark clear (R200); `k` is the counter of free values. -/
def Record.bytes (k : Nat) (r : Record) : List Byte :=
  fieldBytes [(1, r.kind.code), (1, r.bay.val), (1, r.slot.val), (1, r.checkIndex.getD 0xFF), (2, r.adm), (1, r.number),
      (1, r.outcome.code), (1, causeCode r.cause), (1, r.limits.byte), (1, marksByte r.marks r.last), (1, r.presenceByte),
      (4, r.stamp.seconds), (2, r.stamp.fraction), (1, bit r.stamp.trusted), (1, r.verdictByte)]
    ++ valueBytes k 0x14 r.value1 ++ valueBytes k 0x18 r.value2 ++ valueBytes k 0x1C r.value3
    ++ r.tail k ++ [0]

/-- The fields of a page head that the claim writes before the FILLING mark, from offset 0x01 (R171, R200): bay, page sequence,
next page index 0xFFFF at 0x04, record count 0 at 0x06, and the unassigned byte 0x07 as 0 (R195, log entry 40). -/
def pageHeadBytes (b : Bay) (seq : Nat) : List Byte := fieldBytes [(1, b.val), (2, seq), (2, 0xFFFF), (1, 0), (1, 0)]

/-! ### Bay boards (R198) -/

/-- Slot `s` of the board as (width, value) fields, 32 bytes. -/
def BayUnit.slotFields (u : BayUnit) (s : Slot) : List (Nat × Nat) :=
  let c := u.ctx s
  [(1, bit (u.present s) + 2 * bit (u.muted s) + 4 * bit c.outputOff), (1, c.state.code), (2, c.adm.getD 0),
   (1, c.checkIndex), (1, c.phase.code), (1, c.loop), (1, c.failed), (1, verdictCode c.verdict), (1, causeCode c.cause),
   (1, (c.entryIndex.map Fin.val).getD 0xFF), (1, (c.variant.map Fin.val).getD 0xFF), (20, 0)]

/-- The zone fields of a board, bytes 0x10 to 0x1B. -/
def Zone.boardFields (z : Zone) : List (Nat × Nat) :=
  [(1, z.state.code), (1, z.index), (2, unsigned16 z.target)] ++
  match z.latest with
  | none => [(2, 0x8000), (2, 0x8000), (2, 0x8000), (1, 0), (1, 0)]
  | some r => [(2, (r.temp.map unsigned16).getD 0x8000), (2, sensorCode r.a), (2, sensorCode r.b), (1, bit r.split + 2 * bit r.fault), (1, 0)]

/-- The standby byte: bit `s` for slot `s`. -/
def BayUnit.standbyByte (u : BayUnit) : Nat :=
  (allSlots.map (fun s => if u.standby[s].isSome then 2 ^ s.val else 0)).sum

/-- The content of the board of bay `b` but for its write count, as (width, value) fields: bytes 0x00 to 0xFD. -/
def Part.boardFields (p : Part) (b : Bay) : List (Nat × Nat) :=
  let u := p.bay b
  [(1, u.state.code), (1, u.start.code), (1, u.insert.code), (1, causeCode u.cause),
   (1, (u.pendingOrder.map Fin.val).getD 0xFF), (1, (u.busHolder.map Fin.val).getD 0xFF),
   (1, ((p.connected b).map Fin.val).getD 0xFF), (1, u.standbyByte), (1, u.buffer.length), (1, bit u.waiting),
   (2, u.currentPage.getD 0xFFFF), (1, u.pageCount), (1, 0), (2, u.pageSeq)]
  ++ (p.zone (zoneOf b)).boardFields
  ++ [(2, u.firstPage.getD 0xFFFF), (2, 0)]
  ++ allSlots.flatMap u.slotFields
  ++ [(30, 0)]

/-! ### What the link sends (R150, R153, R154) -/

/-- The address byte of a slot for a write, or for a read (R150). -/
def addressByte (s : Slot) (read : Bool) : Byte := BitVec.ofNat 8 (0xB0 + 2 * s.val + bit read)

/-- The data bytes a read returns, none for a write (R153, R154). -/
def TxKind.count : TxKind → Option Nat
  | .identityRead => some 29
  | .statusRead => some 1
  | .limitRead => some 2
  | .outputOn => none
  | .outputOff => none
  | .trimSet => none
  | .faultClear => none

/-- The data bytes the master sends after the command code (R153). -/
def Entry.dataBytes (e : Entry) : List Byte :=
  match e.kind, e.data with
  | .outputOn, some d => [d.setWidth 8]
  | .outputOff, some d => [d.setWidth 8]
  | .trimSet, some d => [d.setWidth 8, (d >>> 8).setWidth 8]
  | _, _ => []

/-- The bytes the master sends on the wire: address, command code and data, and for a read the read address after the
repeated START (R153, R154). -/
def Entry.wire (e : Entry) : List Byte :=
  [addressByte e.target false, e.cmd] ++ e.dataBytes ++
  match e.kind.count with
  | some _ => [addressByte e.target true]
  | none => []

/-! ### What the chamber line sends (R131) -/

/-- A chamber frame: zone number, target low byte first, and a check byte that makes the sum 0 modulo 256. -/
def chamberFrame (z : ZoneNo) (target : Int) : List Byte :=
  let t := leBytes 2 (unsigned16 target)
  let zone := BitVec.ofNat 8 z.val
  [zone] ++ t ++ [-(zone + t.foldl (· + ·) 0)]

/-! ### Registers (R179) -/

/-- RUN reads 1 from the write that begins a RUN attempt until it is rejected or cancelled, and throughout RUNNING (R180). -/
def Part.runBit (p : Part) : Bool := p.attempt || p.phase == .running

/-- What a read of an offset of the window returns (R179). -/
def Part.readReg (p : Part) (offset : Nat) : Word :=
  match offset with
  | 0x00 => BitVec.ofNat 32 (bit p.runBit + 2 * p.sweepCode.toNat)
  | 0x04 => BitVec.ofNat 32 (p.phase.code + 8 * bit p.headRejected + 16 * headCauseCode p.headCause
      + 256 * (p.haltCause.map accessCode).getD 0)
  | 0x08 => p.bookLo
  | 0x0C => p.bookHi
  | 0x14 => p.pendingSet.setWidth 32
  | 0x18 => p.enableSet.setWidth 32
  | _ => 0

/-- The commands that a write of CONTROL is, in the order in which its fields act (R180): with bit 3 set a station reset and nothing
else; otherwise the sweep period code of bits 2:1, then RUN as bit 0 has it. -/
def controlWrite (w : Word) : List Instr :=
  if w.getLsbD 3 then [.stationReset]
  else [.sweepPeriod (w.extractLsb' 1 2), if w.getLsbD 0 then .runStart else .runStop]

/-- The commands that a write of a word to an offset of the window is (R179, R180; log entry 3). -/
def registerWrite (offset : Nat) (w : Word) : List Instr :=
  match offset with
  | 0x00 => controlWrite w
  | 0x08 => [.bookLo w]
  | 0x0C => [.bookHi w]
  | 0x10 => [.nudge w]
  | 0x14 => [.notice w]
  | 0x18 => [.noticeEn w]
  | _ => [.registerWriteOther offset w]

end Sys2Proof.Machine
end

