-- ==== Sys2Proof/Machine/Flags.lean ====
section
/-! DEFINITION. What is judged or derived from numbers: windows, exit conditions, limits, derived levels, digests, ranges,
zone readings, head tests, dates. -/

namespace Sys2Proof.Machine

/-! ### Windows and exit conditions (R1, R57, R127) -/

/-- The outcome of a mean against a value window (R127). -/
inductive WindowOutcome where
  | below
  | inside
  | above
deriving DecidableEq, Repr

/-- A value against a window (R57, R127). -/
def Window.judge (w : Window) (v : Nat) : WindowOutcome :=
  if v < w.low then .below else if w.high < v then .above else .inside

/-- A value is within a window (R57). -/
def Window.has (w : Window) (v : Nat) : Bool := w.judge v == .inside

/-- The exit condition holds on a value against a window, with the marks of its measurement (R1, R57). -/
def ExitCond.holds (e : ExitCond) (w : Window) (v : Nat) (clipped drifted : Bool) : Bool :=
  match e with
  | .never => false
  | .inside => w.judge v == .inside
  | .outside => w.judge v != .inside
  | .above => w.judge v == .above
  | .below => w.judge v == .below
  | .clipped => clipped
  | .drifted => drifted
  | .clean => !clipped && !drifted

/-- The exit condition of a code (R1). -/
def exitOf (n : Nat) : ExitCond :=
  match n % 8 with
  | 0 => .never
  | 1 => .inside
  | 2 => .outside
  | 3 => .above
  | 4 => .below
  | 5 => .clipped
  | 6 => .drifted
  | _ => .clean

/-- The difference of two numbers without sign. -/
def apart (a b : Nat) : Nat := (a - b) + (b - a)

/-! ### Derived levels (R53, R55) -/

/-- The isolation threshold (R55): rated current / 100, rounded up. -/
def Plan.isolation (p : Plan) : Nat := (p.ratedCurrent + 99) / 100

/-- The collapse voltage for a threshold in percent (R55). -/
def Plan.collapse (p : Plan) (percent : Nat) : Nat := p.nominal * percent / 100

/-- The restart voltage (R55). -/
def Plan.restart (p : Plan) : Nat := p.nominal * 90 / 100

/-- The percentage of the curve at a temperature: that of the point with the highest temperature not above it, else `acc`
(R53; temperatures rise from point to point). -/
def curveFrom (t : Int) (acc : Nat) : List CurvePoint → Nat
  | [] => acc
  | q :: l => if q.temp ≤ t then curveFrom t q.percent l else curveFrom t acc l

/-- The percentage of rating expected at a temperature (R53). -/
def Plan.percentAt (p : Plan) (t : Int) : Nat := curveFrom t 100 p.curve

/-- The derating load at a temperature (R55). -/
def Plan.deratingLoad (p : Plan) (t : Int) : Nat := p.ratedCurrent * p.percentAt t / 100

/-- The expected power limit at a temperature (R55). -/
def Plan.expectedLimit (p : Plan) (t : Int) : Nat := p.ratedPower * p.percentAt t / 100

/-- The permitted deviation from an expected limit (R55). -/
def permittedDeviation (expected tolerance : Nat) : Nat := expected * tolerance / 1000

/-! ### Limits of the checks -/

/-- Some checked limit failed (section 0.6.6). -/
def Limits.anyFailed (l : Limits) : Bool := l.a == some true || l.b == some true || l.c == some true

/-- The limits of a STEADY pass (R74). -/
def SteadyCheck.limits (c : SteadyCheck) (volts current : Nat) : Limits :=
  ⟨some (!c.window.has volts), some (decide (c.tolerance < apart current c.load)), none⟩

/-- The own imbalance of a SHARE check in 0.1 % (R83). -/
def imbalance (own mean : Nat) : Nat := if mean = 0 then 0 else apart own mean * 1000 / mean

/-- The mean of a list, rounded down; 0 for none. -/
def meanOf (l : List Nat) : Nat := l.sum / l.length

/-! ### Digests (R30 to R33) -/

/-- The 32 key bits at positions `p` to `p` + 31, position 0 being the most significant bit of the key (R32). -/
def keyWindow (key : BitVec 256) (p : Nat) : Word := key.extractLsb' (224 - p) 32

/-- Combines the windows of the one bits of one input byte, whose first bit is input position `p`, into a digest (R32). -/
def digestByte (key : BitVec 256) (p : Nat) (b : Byte) (d : Word) : Word :=
  [0, 1, 2, 3, 4, 5, 6, 7].foldl (fun d j => if b.getMsbD j then d ^^^ keyWindow key (p + j) else d) d

/-- The digest of an input that begins at input position `p`, combined into `d` (R32). -/
def digestFrom (key : BitVec 256) (p : Nat) (d : Word) : List Byte → Word
  | [] => d
  | b :: l => digestFrom key (p + 8) (digestByte key p b d) l

/-- The digest of an input with a key (R32). -/
def digest (key : BitVec 256) (input : List Byte) : Word := digestFrom key 0 0 input

/-- The 32 key bytes as a string of 256 bits (R32). -/
def keyOf (l : List Byte) : BitVec 256 := l.foldl (fun k b => (k <<< 8) ||| b.setWidth 256) 0

/-- A number as `n` bytes, most significant first. -/
def beBytes (n v : Nat) : List Byte := (leBytes n v).reverse

/-- The 10-byte digest input of an identity (R30). -/
def Identity.input (i : Identity) : List Byte :=
  beBytes 2 i.make.toNat ++ beBytes 4 i.model.toNat ++ beBytes 2 i.hwRev.toNat ++ beBytes 2 i.fwRev.toNat

/-- The family identity under a mask (R31). -/
def Identity.family (i : Identity) (m : FamilyMask) : Identity :=
  { make := i.make, model := if m.modelLow then i.model &&& 0xFFFF0000 else i.model,
    hwRev := if m.hwRev then 0 else i.hwRev, fwRev := if m.fwRev then 0 else i.fwRev }

/-- The bucket of a digest (R32). -/
def bucketOf (d : Word) : Fin 32 := ⟨d.toNat % 32, Nat.mod_lt _ (by decide)⟩

/-- The sampling index of a digest (R32). -/
def samplingIndex (d : Word) : Nat := d.toNat % 64

/-- The three digests of a module (R33). -/
def digestsOf (key : BitVec 256) (m : FamilyMask) (i : ModuleId) : Digests :=
  { identity := digest key i.identity.input, family := digest key (i.identity.family m).input, serial := digest key i.serial }

/-! ### Ranges (R122 to R124) -/

/-- The full scales of a voltage point, bottom range first (R122). -/
def voltScales : List Nat := [15000, 60000]

/-- The full scales of a current point, bottom range first (R122). -/
def currentScales : List Nat := [1500, 3000, 6000, 12000]

/-- What a sample does to a ranged point: the point after it, whether the sample is valid, and whether it clips. -/
structure PointSample where
  point : Point
  valid : Bool
  clips : Bool
deriving DecidableEq, Repr

/-- A sample of a ranged point (R122, R123, R124): discarded while the point settles; at or above 95 % of full scale below the
top range it moves the point up and is not valid; otherwise it is valid and counts toward a move down. -/
def Point.sample (scales : List Nat) (pt : Point) (v : Nat) : PointSample :=
  let top := scales.length - 1
  let full := scales.getD pt.range 0
  let clips := pt.range == top && decide (full * 98 ≤ v * 100)
  if pt.discard then ⟨{ pt with discard := false }, false, clips⟩
  else if pt.range < top ∧ full * 95 ≤ v * 100 then ⟨⟨pt.range + 1, 0, true⟩, false, clips⟩
  else if pt.range = 0 then ⟨{ pt with down := 0 }, true, clips⟩
  else if v * 100 < full * 40 then
    if pt.down + 1 = 16 then ⟨⟨pt.range - 1, 0, true⟩, true, clips⟩
    else ⟨{ pt with down := pt.down + 1 }, true, clips⟩
  else ⟨{ pt with down := 0 }, true, clips⟩

/-- A sample of its point as one window of `need` valid samples gathers it (R124, R125, R126). -/
def PointWindow.gather (need tol : Nat) (r : PointSample) (v : Nat) (w : PointWindow) : PointWindow :=
  if w.count = need then w
  else
    let w := { w with clipped := w.clipped || r.clips }
    if r.valid then
      match w.first with
      | none => { w with first := some v, sum := v, count := 1 }
      | some f => { w with sum := w.sum + v, count := w.count + 1, drifted := w.drifted || decide (tol < apart v f) }
    else w

/-- The mean of a window, rounded down (R125). -/
def PointWindow.mean (w : PointWindow) : Nat := w.sum / w.count

/-! ### Zone readings (R130) -/

/-- The reading that a pair of sensor results makes (R130). -/
def judgeReading (a b : SensorResult) : Reading :=
  match a, b with
  | .temp x, .temp y =>
    { a := a, b := b, temp := some ((x.toInt + y.toInt) / 2), split := decide (30 < (x.toInt - y.toInt).natAbs),
      fault := false }
  | _, _ => { a := a, b := b, temp := none, split := false, fault := true }

/-- A reading is in band of a target (R130). Without a band no reading is. -/
def Reading.inBand (r : Reading) (target : Int) (band : Option Int) : Bool :=
  match r.temp, band with
  | some t, some b => !r.fault && !r.split && decide (((t - target).natAbs : Int) ≤ b)
  | _, _ => false

/-! ### The Book head (R183) -/

/-- The tests of a Book head's 64 bytes in order: the cause of the first that fails (R183). -/
def judgeHead (h : List Byte) : Option HeadCause :=
  let count := halfAt h 0x06
  let pool := halfAt h 0x0A
  let shelfAt := halfAt h 0x04 * 4096
  let poolAt := halfAt h 0x08 * 4096
  let shelfEnd := shelfAt + count * 512
  let poolEnd := poolAt + pool * 4096
  if byteAt h 0 ≠ 1 then some .badFormat
  else if byteAt h 1 = 0 ∨ 16 < byteAt h 1 then some .badSlotCount
  else if count = 0 ∨ 256 < count then some .badRegion
  else if pool < 4 ∨ 1024 < pool then some .badRegion
  else if 16777216 < shelfEnd ∨ 16777216 < poolEnd then some .badRegion
  else if halfAt h 0x04 < 2 ∨ halfAt h 0x08 < 2 then some .overlap
  else if shelfAt < poolEnd ∧ poolAt < shelfEnd then some .overlap
  else none

/-- The settings that an accepted head gives (R184, R196). -/
def headSettings (h : List Byte) : Settings :=
  { slotCount := byteAt h 1, shelfOffset := halfAt h 0x04, shelfCount := halfAt h 0x06, poolOffset := halfAt h 0x08,
    poolCount := halfAt h 0x0A, identityCmd := h.getD 2 0 }

/-- The family mask of a head: bits 0, 1 and 2 of byte 3 (R31, R196). -/
def headMask (h : List Byte) : FamilyMask :=
  let b := h.getD 3 0
  ⟨b.getLsbD 0, b.getLsbD 1, b.getLsbD 2⟩

/-- The digest key of a head (R196). -/
def headKey (h : List Byte) : BitVec 256 := keyOf ((h.drop 0x20).take 32)

/-! ### Dates (R203) -/

/-- The length of a month, of a year whose being divisible by 4 makes it a leap year (R203). -/
def monthDays (year month : Nat) : Nat :=
  match month with
  | 2 => if year % 4 = 0 then 29 else 28
  | 4 => 30
  | 6 => 30
  | 9 => 30
  | 11 => 30
  | _ => 31

/-- A date and time as CLOCK_SET carries it (R203). -/
structure DateTime where
  year   : Nat
  month  : Nat
  day    : Nat
  hour   : Nat
  minute : Nat
  second : Nat
deriving DecidableEq, Repr

/-- The first field of a date and time that is not valid, as its code in the answer (R203, R197). -/
def DateTime.badField (d : DateTime) : Option Nat :=
  if d.year < 2000 ∨ 2099 < d.year then some 0
  else if d.month < 1 ∨ 12 < d.month then some 1
  else if d.day < 1 ∨ monthDays d.year d.month < d.day then some 2
  else if 23 < d.hour then some 3
  else if 59 < d.minute then some 4
  else if 59 < d.second then some 5
  else none

/-- The days of the months of a year before month `m`. -/
def daysBefore (year : Nat) : Nat → Nat
  | 0 => 0
  | 1 => 0
  | m + 1 => daysBefore year m + monthDays year m

/-- The seconds from 2000-01-01 00:00:00 to a date and time (R202, R203). -/
def DateTime.count (d : DateTime) : Nat :=
  let years := d.year - 2000
  let days := years * 365 + (years + 3) / 4 + daysBefore d.year d.month + (d.day - 1)
  days * 86400 + d.hour * 3600 + d.minute * 60 + d.second

end Sys2Proof.Machine
end

