-- ==== Sys2Proof/Machine/PlanRecord.lean ====
section
/-! DEFINITION. Reading and validating a plan record (03_plan_records.md, layouts of R199): 512 bytes give a plan copy, or the bad check
index of the first test that fails. -/

namespace Sys2Proof.Machine

/-- The result of validation (R64): a plan copy, or a bad check index (15 for the head). -/
inductive Validation where
  | valid (p : Plan)
  | invalid (badCheck : Nat)
deriving DecidableEq, Repr

/-- A span's count is 1 to 4095 (R56). -/
def Span.ok (s : Span) : Bool := decide (1 ≤ s.count) && decide (s.count ≤ 4095)

/-- A window of bounds up to `top`, low not above high (R65). -/
def Window.ok (w : Window) (top : Nat) : Bool := decide (w.low ≤ w.high) && decide (w.high ≤ top)

/-- `n` is within `lo` to `hi`. -/
def within (lo n hi : Nat) : Bool := decide (lo ≤ n) && decide (n ≤ hi)

/-- The fields of a STEADY record (R59, R199). -/
def steadyAt (c : List Byte) : SteadyCheck :=
  { load := halfAt c 0x02, settle := spanAt c 0x04, samples := byteAt c 0x06, loops := byteAt c 0x07,
    window := ⟨halfAt c 0x08, halfAt c 0x0A⟩, tolerance := halfAt c 0x0C, exit := exitOf (byteAt c 0x0E) }

/-- A STEADY record's fields are within their ranges (R59, R65). -/
def SteadyCheck.ok (c : SteadyCheck) : Bool :=
  within 0 c.load 12000 && c.settle.ok && within 1 c.samples 64 && c.window.ok 60000 && within 0 c.tolerance 12000
    && within 1 c.loops 16

/-- The fields of an OCP_TRIP record (R60, R199). -/
def ocpAt (c : List Byte) : OcpCheck :=
  { start := halfAt c 0x02, step := halfAt c 0x04, interval := halfAt c 0x06, ceiling := halfAt c 0x08,
    window := ⟨halfAt c 0x0A, halfAt c 0x0C⟩, collapse := byteAt c 0x0E, confirm := byteAt c 0x0F,
    expected := if byteAt c 0x10 = 1 then .restart else .latch, restartWindow := spanAt c 0x12, recovery := spanAt c 0x14 }

/-- An OCP_TRIP record's fields are within their ranges (R60, R65); `behaviour` is its expected behaviour code. -/
def OcpCheck.ok (c : OcpCheck) (behaviour : Nat) : Bool :=
  within 0 c.start 11999 && within 1 c.step 12000 && within 20 c.interval 10000 && within 0 c.ceiling 12000
    && c.window.ok 12000 && within 50 c.collapse 95 && within 1 c.confirm 16 && within 0 behaviour 1
    && c.restartWindow.ok && c.recovery.ok && decide (c.start < c.ceiling)

/-- The fields of an OVP_TRIP record (R61, R199). -/
def ovpAt (c : List Byte) : OvpCheck :=
  { minLoad := halfAt c 0x02, trimStart := halfAt c 0x04, trimStep := halfAt c 0x06, trimCeiling := halfAt c 0x08,
    window := ⟨halfAt c 0x0A, halfAt c 0x0C⟩, collapse := byteAt c 0x0E, confirm := byteAt c 0x0F,
    trimInterval := spanAt c 0x10, recovery := spanAt c 0x12 }

/-- An OVP_TRIP record's fields are within their ranges (R61, R65). -/
def OvpCheck.ok (c : OvpCheck) : Bool :=
  within 0 c.minLoad 12000 && within 0 c.trimStart 59999 && within 1 c.trimStep 60000 && within 0 c.trimCeiling 60000
    && c.trimInterval.ok && c.window.ok 60000 && within 50 c.collapse 95 && within 1 c.confirm 16 && c.recovery.ok
    && decide (c.trimStart < c.trimCeiling)

/-- The fields of a SHARE record (R62, R199). -/
def shareAt (c : List Byte) : ShareCheck :=
  { load := halfAt c 0x02, settle := spanAt c 0x04, samples := byteAt c 0x06, imbalance := halfAt c 0x08 }

/-- A SHARE record's fields are within their ranges (R62, R65). -/
def ShareCheck.ok (c : ShareCheck) : Bool :=
  within 1 c.load 12000 && c.settle.ok && within 1 c.samples 64 && within 0 c.imbalance 1000

/-- The fields of a DERATE record (R63, R199). -/
def derateAt (c : List Byte) : DerateCheck :=
  { loops := byteAt c 0x02, exit := exitOf (byteAt c 0x03), tolerance := halfAt c 0x04, dwell := spanAt c 0x06,
    samples := byteAt c 0x08, window := ⟨halfAt c 0x0A, halfAt c 0x0C⟩ }

/-- A DERATE record's fields are within their ranges (R63, R65). -/
def DerateCheck.ok (c : DerateCheck) : Bool :=
  within 1 c.loops 8 && within 0 c.tolerance 1000 && c.dwell.ok && within 1 c.samples 64 && c.window.ok 60000

/-- The on-fail action of a code (R58). -/
def onFailOf : Nat → Option OnFail
  | 0 => some .continue
  | 1 => some .skipRest
  | 2 => some .stopOutput
  | _ => none

/-- The body of a check record of a known kind whose fields pass their tests (R65, tests 1, 3 and 4). -/
def checkBody (c : List Byte) : Option CheckBody :=
  match byteAt c 0 with
  | 1 => if (steadyAt c).ok then some (.steady (steadyAt c)) else none
  | 2 => if (ocpAt c).ok (byteAt c 0x10) then some (.ocp (ocpAt c)) else none
  | 3 => if (ovpAt c).ok then some (.ovp (ovpAt c)) else none
  | 4 => if (shareAt c).ok then some (.share (shareAt c)) else none
  | 5 => if (derateAt c).ok then some (.derate (derateAt c)) else none
  | _ => none

/-- A check record that passes its tests (R65). -/
def checkAt (c : List Byte) : Option Check :=
  match onFailOf (byteAt c 1), checkBody c with
  | some f, some b => some ⟨f, b⟩
  | _, _ => none

/-- The bytes of check slot `i` (R199). -/
def checkSlot (r : List Byte) (i : Nat) : List Byte := (r.drop (0x40 + 32 * i)).take 32

/-- Point `j` of the derating curve (R199). -/
def curvePoint (r : List Byte) (j : Nat) : CurvePoint :=
  ⟨signed16 (halfAt r (0x0C + 4 * j)), byteAt r (0x0E + 4 * j)⟩

/-- The percentages are at most 100 and the temperatures rise strictly (R53, R64); `last` is the previous point's. -/
def curveOk (last : Option Int) : List CurvePoint → Bool
  | [] => true
  | q :: l => decide (q.percent ≤ 100) && (last.all fun t => decide (t < q.temp)) && curveOk (some q.temp) l

/-- The link profile (R54, R199). -/
def profileAt (r : List Byte) : Profile :=
  { outputCmd := r.getD 0x24 0, onValue := r.getD 0x25 0, offValue := r.getD 0x26 0, trimCmd := r.getD 0x27 0,
    clearCmd := r.getD 0x28 0, statusCmd := r.getD 0x29 0, faultMask := r.getD 0x2A 0, limitCmd := r.getD 0x2B 0 }

/-- The plan head's fields, with no check yet (R52, R199). -/
def planHead (r : List Byte) : Plan :=
  { ratedPower := halfAt r 0x02, ratedCurrent := halfAt r 0x04, nominal := halfAt r 0x06, drift := halfAt r 0x08,
    curve := (List.range (byteAt r 0x0A)).map (curvePoint r), profile := profileAt r, checks := [] }

/-- The head tests (R64): format, check count, ratings, drift tolerance, curve, link profile, curve needed. -/
def headOk (r : List Byte) : Bool :=
  let count := byteAt r 1
  let h := planHead r
  byteAt r 0 == 1 && within 1 count 14 && within 1 h.ratedPower 65535 && within 1 h.ratedCurrent 12000
    && within 1 h.nominal 60000 && within 0 h.drift 60000 && within 0 (byteAt r 0x0A) 6 && curveOk none h.curve
    && h.profile.onValue != h.profile.offValue
    && !(byteAt r 0x0A == 0 && (List.range count).any (fun i => byteAt (checkSlot r i) 0 == 5))

/-- The check slots from slot `i`, `n` of them: the checks, or the first slot that fails (R64, R65). -/
def checksFrom (r : List Byte) (i : Nat) : Nat → List Check ⊕ Nat
  | 0 => .inl []
  | n + 1 =>
    match checkAt (checkSlot r i) with
    | none => .inr i
    | some c =>
      match checksFrom r (i + 1) n with
      | .inl l => .inl (c :: l)
      | .inr j => .inr j

/-- Validation of a plan record as read (R64). -/
def validate (r : List Byte) : Validation :=
  if headOk r then
    match checksFrom r 0 (byteAt r 1) with
    | .inl l => .valid { planHead r with checks := l }
    | .inr i => .invalid i
  else .invalid 15

/-! ### Reading the copy -/

/-- The check's kind is DERATE. -/
def Check.isDerate (c : Check) : Bool :=
  match c.body with
  | .derate _ => true
  | _ => false

/-- The check isolates its module (section 4.2); SHARE does not. -/
def Check.isolates (c : Check) : Bool :=
  match c.body with
  | .share _ => false
  | _ => true

/-- The loop counter a check starts with (R69, R141). -/
def Check.loops (c : Check) : Nat :=
  match c.body with
  | .steady k => k.loops
  | .derate k => k.loops
  | _ => 0

/-- The record kind of a check's own records (R85, R148, R164). -/
def Check.recordKind (c : Check) : RecordKind :=
  match c.body with
  | .steady _ => .measure
  | .ocp _ => .trip
  | .ovp _ => .trip
  | .share _ => .share
  | .derate _ => .plateau

/-- The current check of a context (R51). -/
def Ctx.check (c : Ctx) : Option Check := c.plan.bind (fun p => p.checks[c.checkIndex]?)

/-- The current check of a context is DERATE. -/
def Ctx.derating (c : Ctx) : Bool := c.check.any Check.isDerate

/-- The link profile of a context's plan copy. -/
def Ctx.profile (c : Ctx) : Option Profile := c.plan.map Plan.profile

end Sys2Proof.Machine
end

