-- ==== Sys2Proof/Machine/Directory.lean ====
section
/-! DEFINITION. The Plan Directory (02_the_plan_directory.md): walks and lookup, insertion, removal, the key and mask at a RUN start. -/

namespace Sys2Proof.Machine

/-- Entry `i` of the directory. -/
def Directory.entry (d : Directory) (i : Fin 128) : Option DirEntry := d.entries[i]

/-- Chain `b` of the directory. -/
def Directory.chain (d : Directory) (b : Fin 32) : List (Fin 128) := d.chains[b]

/-- The entry indices in ascending order. -/
def entryIndices : List (Fin 128) := List.finRange 128

/-- Walks a chain from position `n`: the first entry of the kind whose stored identity equals `i`, with its position (R38). -/
def Directory.walkFrom (d : Directory) (k : MatchKind) (i : Identity) (n : Nat) : List (Fin 128) → Option (Fin 128 × Nat × DirEntry)
  | [] => none
  | x :: l =>
    match d.entry x with
    | some e => if e.kind = k ∧ e.identity = i then some (x, n, e) else d.walkFrom k i (n + 1) l
    | none => d.walkFrom k i (n + 1) l

/-- The identity walk (R38). -/
def Directory.identityWalk (d : Directory) (i : Identity) : Option (Fin 128 × Nat × DirEntry) :=
  d.walkFrom .exact i 0 (d.chain (bucketOf (digest d.key i.input)))

/-- The family walk (R38). -/
def Directory.familyWalk (d : Directory) (i : Identity) : Option (Fin 128 × Nat × DirEntry) :=
  let f := i.family d.mask
  d.walkFrom .family f 0 (d.chain (bucketOf (digest d.key f.input)))

/-- The lookup of an identity (R38, R39). -/
def Directory.lookup (d : Directory) (i : Identity) : Option Lookup :=
  match d.identityWalk i with
  | some (x, _, e) => some ⟨x, .exact, e.refs⟩
  | none =>
    match d.familyWalk i with
    | some (x, _, e) => some ⟨x, .family, e.refs⟩
    | none => none

/-- The digest from which an entry's bucket is taken (R34, R45). -/
def Directory.digestFor (d : Directory) (stored : Identity) : Word := digest d.key stored.input

/-- The stored identity of a PLAN_ENTER (R43). -/
def Directory.stored (d : Directory) (k : MatchKind) (i : Identity) : Identity :=
  match k with
  | .exact => i
  | .family => i.family d.mask

/-- The entry in use of the same kind and stored identity, if any (R36, R43). -/
def Directory.duplicate (d : Directory) (k : MatchKind) (i : Identity) : Option (Fin 128) :=
  entryIndices.find? (fun x => match d.entry x with
    | some e => e.kind == k && e.identity == i
    | none => false)

/-- The lowest free index (R45). -/
def Directory.lowestFree (d : Directory) : Option (Fin 128) := entryIndices.find? (fun x => (d.entry x).isNone)

/-- The position of an index in a chain (R35). -/
def positionIn (l : List (Fin 128)) (x : Fin 128) : Nat := l.findIdx (· == x)

/-- The directory with an entry inserted at an index and at the end of its chain (R35, R45). -/
def Directory.insertAt (d : Directory) (x : Fin 128) (e : DirEntry) : Directory :=
  { d with entries := d.entries.set x (some e), chains := d.chains.set e.bucket (d.chain e.bucket ++ [x]) }

/-- The directory with the entry of an index removed and its chain closed up (R35, R46). -/
def Directory.removeAt (d : Directory) (x : Fin 128) (e : DirEntry) : Directory :=
  { d with entries := d.entries.set x none, chains := d.chains.set e.bucket ((d.chain e.bucket).erase x) }

/-- The directory at an accepted head (R48): emptied if the key or the mask differs from those in use. -/
def Directory.take (d : Directory) (key : BitVec 256) (mask : FamilyMask) : Directory :=
  if d.key = key ∧ d.mask = mask then d else { Directory.reset with key := key, mask := mask }

/-- The reference of a variant (R34). -/
def Refs.get (r : Refs) (v : Fin 4) : Option Nat :=
  match v with
  | 0 => some r.v0
  | 1 => r.v1
  | 2 => r.v2
  | 3 => r.v3

/-- The variant used for a chosen variant, and its reference: variant 0 where the chosen one is absent (R40). -/
def Refs.used (r : Refs) (v : Fin 4) : Fin 4 × Nat :=
  match r.get v with
  | some n => (v, n)
  | none => (0, r.v0)

/-- The present references in variant order (R44). -/
def Refs.present (r : Refs) : List (Fin 4 × Nat) :=
  ([0, 1, 2, 3] : List (Fin 4)).filterMap (fun v => (r.get v).map (fun n => (v, n)))

/-- A reference as its 16-bit field, 0xFFFF absent (R34). -/
def refField (r : Option Nat) : Nat := r.getD 0xFFFF

/-- The four references of a variant list as answer fields from an offset (R197). -/
def Refs.answer (r : Refs) (offset : Nat) : List (Nat × Nat × Nat) :=
  [(offset, 2, r.v0), (offset + 2, 2, refField r.v1), (offset + 4, 2, refField r.v2), (offset + 6, 2, refField r.v3)]

/-- The code of a match kind (R197). -/
def MatchKind.code : MatchKind → Nat
  | .exact => 0
  | .family => 1

end Sys2Proof.Machine
end

