-- ==== Sys2Proof/Machine/LoadChannel.lean ====
section
/-! DEFINITION. The load channels (section 6.1): the requests of an owner by relay state (R118), the channel's own events, the trip
detector's arming, and the halt (R121). Reports to the owner are owed as consequences. -/

namespace Sys2Proof.Machine

/-! ### Requests (R112 to R120) -/

/-- A hold-level request (R113): taken in CLOSED alone. -/
def Channel.holdLevel (level : Nat) (c : Channel) : Channel :=
  if c.relay = .closed then { c with setpoint := level, ramp := .holdingLevel, ceilingHold := false, params := none } else c

/-- A ramp request (R114): taken in CLOSED alone. -/
def Channel.startRamp (start step interval ceiling : Nat) (c : Channel) : Channel :=
  if c.relay = .closed then
    { c with setpoint := start, ramp := .rampingUp, params := some ⟨step, interval, ceiling⟩, ceilingHold := false }
  else c

/-- A drop (R116), by relay state. -/
def Channel.drop (c : Channel) : Channel :=
  match c.relay with
  | .opened => c
  | .closing => { c with setpoint := 0, ramp := .dropped, openPending := true }
  | .closed => { c with setpoint := 0, ramp := .dropped, params := none, ceilingHold := false, detector := none }
  | .opening => { c with ramp := .dropped }

/-- A drop ends an unload in progress, which is reported complete (R115). -/
def Channel.dropEndsUnload (c : Channel) : Bool := c.relay == .closed && c.ramp == .rampingDown

/-- The drop of a channel, with the report of the unload it ends (R115, R116). -/
def Part.dropChan (p : Part) (c : Chan) : Part :=
  let q := p.mapChan c Channel.drop
  if (p.chan c).dropEndsUnload then q.later [.unloadDone c] else q

/-- An unload request (R115): the channel after it, and whether it is reported complete at once. -/
def Channel.unload (c : Channel) : Channel × Bool :=
  if c.relay = .closed then
    match c.ramp with
    | .idle => (c, true)
    | .dropped => (c, true)
    | .rampingDown => (c, false)
    | _ =>
      if c.setpoint = 0 then ({ c with ramp := .idle, ceilingHold := false, params := none }, true)
      else ({ c with ramp := .rampingDown, ceilingHold := false, params := none }, false)
  else (c, true)

/-- The unload of a channel, with its report where it is complete at once. -/
def Part.unloadChan (p : Part) (c : Chan) : Part :=
  let r := (p.chan c).unload
  let q := p.mapChan c (fun _ => r.1)
  if r.2 then q.later [.unloadDone c] else q

/-- The relays of a CLOSED channel begin to open (R117). -/
def Channel.beginOpen (now : Nat) (c : Channel) : Channel := { c with relay := .opening, moved := now }

/-- An open request (R117). -/
def Part.openChan (p : Part) (c : Chan) : Part :=
  let ch := p.chan c
  match ch.relay with
  | .opened => p.later [.chanOpen c]
  | .opening => p
  | .closing => p.mapChan c (fun ch => { ch with openPending := true })
  | .closed =>
    let q := if ch.setpoint = 0 then p else p.dropChan c
    q.mapChan c (Channel.beginOpen p.samples)

/-- Arming the trip detector (R119): taken in CLOSED alone. The moment of arming within its sample period is free
(log entry 8). -/
def Part.arm (p : Part) (c : Chan) (slot : Slot) (collapse confirm : Nat) : Part :=
  if (p.chan c).relay = .closed then
    let d : TripDetector :=
      { slot := slot, collapse := collapse, confirm := confirm, samples := 0, offset := Config.armOffset p.free % 10,
        run := 0, seen := false, peaks := none, firing := none }
    { p.mapChan c (fun ch => { ch with detector := some d }) with free := p.free + 1 }
  else p

/-- Disarming the trip detector without firing (R120). -/
def Channel.disarm (c : Channel) : Channel := { c with detector := none }

/-- A restart of the detector's peak interval (R120). A firing not yet taken belongs to the new interval with its own sample. -/
def TripDetector.restartPeak (d : TripDetector) : TripDetector :=
  { d with peaks := d.firing.map (fun f => (f.current, f.voltage)) }

/-- The restart of the peak interval of a channel's detector, if it is armed. -/
def Channel.restartPeak (c : Channel) : Channel := { c with detector := c.detector.map TripDetector.restartPeak }

/-- A grant connects a channel to the grantee's bay: CLOSING from OPEN, setpoint 0 (R104, R112). -/
def Channel.connect (b : Bay) (owner : Slot) (now : Nat) (c : Channel) : Channel :=
  { c with
    owner := some (b, owner), bay := some b, relay := .closing, moved := now, setpoint := 0, ramp := .idle
    openPending := false }

/-- A released channel has no owner and no connected bay (R103, R117). -/
def Channel.released (c : Channel) : Channel := { c with owner := none, bay := none }

/-! ### The channel's own events -/

/-- The relays have closed (R112): CLOSED and reported, or through to OPENING when an open is pending. -/
def Part.relaysClosed (p : Part) (c : Chan) : Part :=
  let ch := p.chan c
  if ch.relay = .closing then
    if ch.openPending then p.mapChan c (fun ch => { ch with relay := .opening, moved := p.samples, openPending := false })
    else (p.mapChan c (fun ch => { ch with relay := .closed })).later [.chanClosed c]
  else p

/-- The relays have opened (R117); in HALTED the report is not acted on (R121). -/
def Part.relaysOpen (p : Part) (c : Chan) : Part :=
  if (p.chan c).relay = .opening then
    let q := p.mapChan c (fun ch => { ch with relay := .opened, ramp := .idle, params := none })
    if p.phase = .halted then q else q.later [.chanOpen c]
  else p

/-- A ramp step (R114): the setpoint rises by the step up to the ceiling, where the ceiling hold starts. -/
def Channel.rampStep (c : Channel) : Channel :=
  match c.ramp, c.params with
  | .rampingUp, some r =>
    let v := min (c.setpoint + r.step) r.ceiling
    let c := { c with setpoint := v }.restartPeak
    if v = r.ceiling then { c with ramp := .holdingLevel, ceilingHold := true } else c
  | _, _ => c

/-- A step interval ends in CLOSED with the channel ramping up. -/
def Channel.stepping (c : Channel) : Bool := c.relay == .closed && c.ramp == .rampingUp

/-- The ceiling hold ends (R114), reported to the owner. -/
def Part.holdEnd (p : Part) (c : Chan) : Part :=
  if (p.chan c).ceilingHold then
    (p.mapChan c (fun ch => { ch with ceilingHold := false, params := none })).later [.holdEnded c]
  else p

/-- An unload step (R115): the setpoint falls by 50, or to 0 where less remains; at 0 the unload is reported complete. -/
def Part.unloadStep (p : Part) (c : Chan) : Part :=
  let ch := p.chan c
  if ch.relay = .closed ∧ ch.ramp = .rampingDown then
    let v := ch.setpoint - 50
    if v = 0 then (p.mapChan c (fun ch => { ch with setpoint := 0, ramp := .idle })).later [.unloadDone c]
    else p.mapChan c (fun ch => { ch with setpoint := v })
  else p

/-- The halt of a channel (R116, R121): it drops and its relays open. -/
def Channel.halt (now : Nat) (c : Channel) : Channel :=
  match c.relay with
  | .closed => c.drop.beginOpen now
  | _ => c.drop

/-! ### The detector on a sample (R119) -/

/-- One sample of an armed detector: bus voltage, power-good and channel current. -/
def TripDetector.sample (volts : Nat) (good : Bool) (current number : Nat) (d : TripDetector) : TripDetector :=
  match d.firing with
  | some _ => d
  | none =>
    let n := d.samples + 1
    let pg := d.seen && !good
    let run := if volts < d.collapse then d.run + 1 else 0
    let low := decide (d.confirm ≤ run)
    let peaks := match d.peaks with
      | none => (current, volts)
      | some (i, v) => (max i current, max v volts)
    let time := min (10 * n - d.offset) 4294967295
    let firing := if pg && low then some .both else if pg then some .powerGood else if low then some .collapse else none
    { d with
      samples := n, run := run, seen := d.seen || good, peaks := some peaks
      firing := firing.map (fun k => ⟨number, current, volts, time, k⟩) }

end Sys2Proof.Machine
end

