-- ==== Sys2Proof/Machine/ModuleLink.lean ====
section
/-! DEFINITION. The module links (08_the_module_link.md): hand-over, queue and waiting line, starts, removals, MUTE and GONE discards, the
halt. Reports to requesters are owed as consequences. -/

namespace Sys2Proof.Machine

/-- The front of the waiting line joins the back of the queue as long as there is room (R151). -/
def Link.refill (l : Link) : Link :=
  let room := Config.linkQueueSize - l.queue.length
  { l with queue := l.queue ++ l.line.take room, line := l.line.drop room }

/-- An entry becomes the transaction in flight (R152): first attempt, timeout timer from now. -/
def Link.start (e : Entry) (now : Nat) (l : Link) : Link :=
  { l with state := .busy, inFlight := some e, second := false, timer := some now }

/-- The link starts its next queued entry, or goes IDLE (R152). -/
def Link.next (now : Nat) (l : Link) : Link :=
  match l.queue with
  | [] => { l with state := .idle, inFlight := none, second := false, timer := none }
  | e :: q => ({ l with queue := q }.start e now).refill

/-- The queue and the line without the entries that meet `f` (R156, R159, R160); the line then fills the room made. -/
def Link.remove (f : Entry → Bool) (l : Link) : Link :=
  { l with queue := l.queue.filter (fun e => !f e), line := l.line.filter (fun e => !f e) }.refill

/-- The entries of queue and line that meet `f`, in queue order and then line order. -/
def Link.matching (f : Entry → Bool) (l : Link) : List Entry := l.queue.filter f ++ l.line.filter f

/-- A hand-over (R151): discarded for a MUTE target, else started, queued or placed in the waiting line, which has 36 places (R149).
That the line never holds them all when a hand-over comes is R149's own reckoning; the model drops one that would be the 37th
(log entry 41). The part numbers its hand-overs; the number is answered for the requester to wait for. -/
def Part.handOver (p : Part) (b : Bay) (e : Entry) : Nat × Part :=
  let n := p.handovers
  let e := { e with ref := n, fell := false }
  let p := { p with handovers := n + 1 }
  let l := p.link b
  if (p.bay b).muted e.target then (n, p.later [.report b e .discardMute])
  else if l.line.isEmpty && decide (l.queue.length < Config.linkQueueSize) then
    if l.state = .idle then (n, p.mapLink b (Link.start e p.samples))
    else (n, p.mapLink b (fun l => { l with queue := l.queue ++ [e] }))
  else if l.line.length < Config.waitingLineSize then (n, p.mapLink b (fun l => { l with line := l.line ++ [e] }))
  else (n, p)

/-- The requester that a context is (R151, R158). -/
def Part.requester (p : Part) (b : Bay) (s : Slot) : Requester := ⟨b, s, ((p.ctx b s).adm).getD 0⟩

/-- A context is the requester of an entry (R158): not ABSENT, and of the same admission number. -/
def Ctx.isRequester (c : Ctx) (who : Requester) : Bool := c.state != .absent && c.adm == some who.adm

/-- An entry built from a link profile (R151, R153, R154). -/
def buildEntry (f : Profile) (target : Slot) (kind : TxKind) (trim : Nat) (who : Requester) (purpose : Purpose) : Entry :=
  let cmd := match kind with
    | .outputOn => f.outputCmd
    | .outputOff => f.outputCmd
    | .trimSet => f.trimCmd
    | .faultClear => f.clearCmd
    | .statusRead => f.statusCmd
    | .limitRead => f.limitCmd
    | .identityRead => 0
  let data := match kind with
    | .outputOn => some (f.onValue.setWidth 16)
    | .outputOff => some (f.offValue.setWidth 16)
    | .trimSet => some (BitVec.ofNat 16 trim)
    | _ => none
  { target := target, kind := kind, cmd := cmd, data := data, who := who, purpose := purpose, onValue := f.onValue, ref := 0,
    fell := false }

/-- A withdrawal of transactions (R159): the context's queued and waiting entries that meet `f` are removed without report. -/
def Part.withdrawEntries (p : Part) (b : Bay) (s : Slot) (f : Entry → Bool) : Part :=
  let who := p.requester b s
  p.mapLink b (Link.remove (fun e => e.who == who && f e))

/-- The transaction in flight on a link is the one numbered `n`. -/
def Link.flying (l : Link) (n : Nat) : Bool :=
  match l.inFlight with
  | some e => e.ref == n
  | none => false

/-- A completion of an entry is taken as a GONE discard (R160): an isolating or participating command whose target has fallen. -/
def Entry.gone (e : Entry) : Bool := e.fell && (e.purpose == .isolate || e.purpose == .participate)

/-- A member of the standby set is being restored: an OUTPUT_ON with purpose RESTORE is in flight, queued or waiting for it. -/
def Link.restoring (l : Link) (s : Slot) : Bool :=
  (l.inFlight.toList ++ l.queue ++ l.line).any (fun e => e.purpose == .restore && e.target == s)

/-- A slot's MUTE mark is set, and its entries are discarded with reason MUTE (R156). -/
def Part.muteSlot (p : Part) (b : Bay) (s : Slot) : Part :=
  let gone := (p.link b).matching (fun e => e.target == s)
  let q := p.mapLink b (fun l => { l.remove (fun e => e.target == s) with mute := l.mute.set s true })
  q.later (gone.map (fun e => .report b e .discardMute))

/-- A slot's filtered presence has fallen (R160): its MUTE mark is cleared, its entries are discarded with reason GONE, and a
transaction in flight to it goes on. -/
def Part.linkFall (p : Part) (b : Bay) (s : Slot) : Part :=
  let gone := (p.link b).matching (fun e => e.target == s)
  let q := p.mapLink b (fun l =>
    { l.remove (fun e => e.target == s) with
      mute := l.mute.set s false
      inFlight := l.inFlight.map (fun e => if e.target == s then { e with fell := true } else e) })
  q.later (gone.map (fun e => .report b e .discardGone))

/-- A link whose transaction and recovery have ended in HALTED (R162): queue and line are emptied without reports. -/
def Link.haltedIdle (l : Link) : Link :=
  { l with state := .idle, inFlight := none, second := false, timer := none, queue := [], line := [] }

/-- The halt of a link (R162): it goes on while a transaction is in flight or the bus is recovering. -/
def Link.halt (l : Link) : Link := if l.state = .idle then l.haltedIdle else l

/-- The reply that a completion may bring for a kind (R153 to R155): data of the length expected; BAD_LENGTH for a read with
another count; NACK from the second attempt alone. -/
def Link.mayEnd (l : Link) (e : Entry) (r : LinkReply) : Bool :=
  match r with
  | .ok data => data.length == e.kind.count.getD 0
  | .nack => l.second
  | .badLength n => match e.kind.count with
    | some c => n.toNat != c
    | none => false

/-- The report of a completion (R158). -/
def reportOf : LinkReply → Report
  | .ok data => .ok data
  | .nack => .nack
  | .badLength n => .badLength n

/-- The faulted mark of a status byte (R154). -/
def faulted (status mask : Byte) : Bool := status &&& mask != 0

end Sys2Proof.Machine
end

