-- ==== Sys2Proof/Machine/Arbiter.lean ====
section
/-! DEFINITION. The Stimulus Arbiter (05_stimulus_arbitration.md): plateau-first placement, bus and channel requests, grants and releases, and
departures from the queues. -/

namespace Sys2Proof.Machine

/-- The number of entries up to and including the last marked one (R97). -/
def throughLastMarked {α : Type} (marked : α → Bool) : List α → Nat
  | [] => 0
  | x :: l =>
    let n := throughLastMarked marked l
    if 0 < n then n + 1 else if marked x then 1 else 0

/-- Places an entry in a queue (R97): a marked entry directly behind the last marked one, or at the front if there is none; an
unmarked entry at the back. -/
def placeEntry {α : Type} (marked : α → Bool) (e : α) (l : List α) : List α :=
  if marked e then
    let n := throughLastMarked marked l
    l.take n ++ e :: l.drop n
  else l ++ [e]

/-- A request made now is a plateau request (R98): the check is DERATE and the bay's zone is OPEN for the plateau measured. -/
def Part.plateauRequest (p : Part) (b : Bay) (s : Slot) : Bool :=
  let c := p.ctx b s
  let z := p.zone (zoneOf b)
  c.derating && z.state == .opened && z.index + 1 == c.derate.plateau

/-- The part with the phase of a context set. -/
def Part.setPhase (p : Part) (b : Bay) (s : Slot) (ph : Phase) : Part := p.mapCtx b s (fun c => { c with phase := ph })

/-- A channel is granted to a context (R102, R103, R112): owner, connected bay, relays CLOSING; the context enters CONNECT. -/
def Part.grantChan (p : Part) (b : Bay) (s : Slot) (c : Chan) : Part :=
  (p.mapChan c (Channel.connect b s p.samples)).setPhase b s .connect

/-- The lowest-numbered free channel (R102). -/
def Part.freeChan (p : Part) : Option Chan := allChans.find? (fun c => (p.chan c).owner.isNone)

/-- A channel request (R102). -/
def Part.requestChan (p : Part) (b : Bay) (s : Slot) : Part :=
  match p.freeChan with
  | some c => p.grantChan b s c
  | none => { p with chanQueue := placeEntry ChanEntry.plateau ⟨b, s, p.plateauRequest b s⟩ p.chanQueue }

/-- The bus of a bay is granted to a context, which enters CHANNEL_WAIT and requests a channel (R99, R100). -/
def Part.grantBus (p : Part) (b : Bay) (s : Slot) : Part :=
  ((p.mapBay b (fun u => { u with busHolder := some s })).setPhase b s .channelWait).requestChan b s

/-- A context enters BUS_WAIT and requests its bay's bus (R70, R99). -/
def Part.requestBus (p : Part) (b : Bay) (s : Slot) : Part :=
  let p := p.setPhase b s .busWait
  match (p.bay b).busHolder with
  | none => p.grantBus b s
  | some _ =>
    p.mapBay b (fun u => { u with busQueue := placeEntry BusEntry.plateau ⟨s, p.plateauRequest b s⟩ u.busQueue })

/-- The bay owns no channel and waits for none: the arbiter accepts a release of its bus (R105). -/
def Part.mayReleaseBus (p : Part) (b : Bay) : Bool := (p.connected b).isNone && p.chanQueue.all (fun e => e.bay != b)

/-- A bay's bus is released (R100, R105): to the head of its queue at once, or free. -/
def Part.releaseBus (p : Part) (b : Bay) : Part :=
  if p.mayReleaseBus b then
    match (p.bay b).busQueue with
    | [] => p.mapBay b (fun u => { u with busHolder := none })
    | e :: q => (p.mapBay b (fun u => { u with busHolder := none, busQueue := q })).grantBus b e.slot
  else p

/-- A channel is released with its relays OPEN (R103): to the head of the channel grant queue at once, or free. -/
def Part.releaseChan (p : Part) (c : Chan) : Part :=
  let p := p.mapChan c Channel.released
  match p.chanQueue with
  | [] => p
  | e :: q => { p with chanQueue := q }.grantChan e.bay e.slot c

/-- A context leaves its bay's bus-lock queue. -/
def Part.leaveBusQueue (p : Part) (b : Bay) (s : Slot) : Part :=
  p.mapBay b (fun u => { u with busQueue := u.busQueue.filter (fun e => e.slot != s) })

/-- A context leaves the channel grant queue. -/
def Part.leaveChanQueue (p : Part) (b : Bay) (s : Slot) : Part :=
  { p with chanQueue := p.chanQueue.filter (fun e => !(e.bay == b && e.slot == s)) }

/-- Every entry of a bay leaves the queues (R109). -/
def Part.clearQueues (p : Part) (b : Bay) : Part :=
  { p.mapBay b (fun u => { u with busQueue := [] }) with chanQueue := p.chanQueue.filter (fun e => e.bay != b) }

/-- The channel has no owner of bay `b`. -/
def Channel.withoutBay (b : Bay) (c : Channel) : Channel :=
  match c.owner with
  | some (b', _) => if b' = b then c.released else c
  | none => c

/-- No channel is owned by bay `b`, and none is asked for. -/
def Part.clearGrants (p : Part) (b : Bay) : Part :=
  { p with chans := tab4 (fun c => (p.chan c).withoutBay b), chanQueue := p.chanQueue.filter (fun e => e.bay != b) }

/-- A context gives up its bay's bus if it holds it. -/
def Part.giveUpBus (p : Part) (b : Bay) (s : Slot) : Part :=
  if (p.bay b).busHolder = some s then p.releaseBus b else p

end Sys2Proof.Machine
end

