-- ==== Sys2Proof/Machine/Records.lean ====
section
/-! DEFINITION. The records that contexts make ready (R85, R86, R93, R144, R145, R163 to R165) and the bay buffer with its entry line (R166). -/

namespace Sys2Proof.Machine

/-- A record of a context with no check, no result and no marks, stamped `t` (R163). -/
def Ctx.blank (c : Ctx) (b : Bay) (s : Slot) (k : RecordKind) (t : Stamp) : Record :=
  { kind := k, bay := b, slot := s, adm := c.adm.getD 0, checkIndex := none, number := 0, outcome := .performed,
    cause := none, limits := Limits.unchecked, marks := Marks.clear, value1 := none, value2 := none, value3 := none,
    capture := none, stamp := t, last := false, verdict := none, direction := none, failedCount := 0, variant := none,
    entryIndex := none, outputOff := false, identity := none }

/-- A record of a context's current check. -/
def Ctx.ofCheck (c : Ctx) (b : Bay) (s : Slot) (k : RecordKind) (t : Stamp) : Record :=
  { c.blank b s k t with checkIndex := some c.checkIndex, marks := c.marks }

/-- A PRESENCE record (R15, R165). -/
def Ctx.presenceRecord (c : Ctx) (b : Bay) (s : Slot) (d : Direction) (ident : Option ModuleId) (t : Stamp) : Record :=
  { c.blank b s .presence t with direction := some d, identity := ident }

/-- The VERDICT record of a context in ENDED (R28, R165). A BAD_PLAN verdict carries the plan-shelf index and the bad check
index (R66). -/
def Ctx.verdictRecord (c : Ctx) (b : Bay) (s : Slot) (t : Stamp) : Record :=
  let bad := c.cause == some .badPlan
  { c.blank b s .verdict t with
    verdict := c.verdict, cause := c.cause, failedCount := c.failed, variant := c.variant, entryIndex := c.entryIndex
    outputOff := c.outputOff, identity := c.ident, last := true
    value1 := if bad then c.usedRef else none, value2 := if bad then c.badCheck else none }

/-- A list of records with LAST set on its last one alone. -/
def markLast : List Record → List Record
  | [] => []
  | [r] => [{ r with last := true }]
  | r :: l => { r with last := false } :: markLast l

/-- The final record of a check of a kind other than DERATE (R85, R86, R90): its own outcome, limits, values and capture. A
DISTURBED record checks no limit and carries no value. -/
def Ctx.finalRecord (c : Ctx) (b : Bay) (s : Slot) (k : RecordKind) (number : Nat) (t : Stamp) : Record :=
  let w := c.work
  let off := w.outcome == .disturbed
  { c.ofCheck b s k t with
    number := number, outcome := w.outcome, limits := if off then Limits.unchecked else w.limits
    value1 := if off then none else w.value1, value2 := if off then none else w.value2
    value3 := if off then none else w.value3, capture := w.capture, last := true }

/-- The records of a check that has released its bus (R85, R90). The final record of a STEADY check that ends before its first pass has
begun carries the number 1, on which the spec is silent (log entry 53, the model's choice). -/
def Ctx.checkRecords (c : Ctx) (b : Bay) (s : Slot) (now : Stamp) : List Record :=
  let w := c.work
  let t := w.stamp.getD now
  match c.check with
  | none => []
  | some k =>
    match k.body with
    | .steady _ =>
      if w.outcome = .performed then markLast w.passes
      else w.passes ++ [c.finalRecord b s .measure (w.passes.length + 1) t]
    | _ => [c.finalRecord b s k.recordKind 1 t]

/-- The number of the final record of an aborted check (R93, R148): the pass in progress of a STEADY check, the plateau of a
DERATE check, else 1, for the context as the abort finds it. Past the last pass no pass is in progress, and the number is free (log entry 9); before
the first pass has begun it is 1 (log entry 53, the model's choice). -/
def Ctx.abortNumber (c : Ctx) (k : Check) (free : Nat) : Nat :=
  match k.body with
  | .steady _ =>
    if c.work.outcome = .performed ∧ c.phase = .release then Config.passInProgress free % 17 else c.work.passes.length + 1
  | .derate _ => c.derate.plateau
  | _ => 1

/-- The records of a check aborted before RECORD (R93, R148); a trip that has been taken keeps its capture (R86, R164,
log entry 21). -/
def Ctx.abortRecords (c : Ctx) (b : Bay) (s : Slot) (cause : Cause) (now : Stamp) : List Record :=
  match c.check with
  | none => []
  | some k =>
    let t := c.work.stamp.getD now
    let final := { c.ofCheck b s k.recordKind t with
      number := c.work.number, outcome := .aborted, cause := some cause, capture := c.work.capture, last := true }
    (if k.isDerate then [] else c.work.passes) ++ [final]

/-- The PLATEAU record of a plateau settled as measured (R144). -/
def Ctx.plateauRecord (c : Ctx) (b : Bay) (s : Slot) (now : Stamp) : Record :=
  let w := c.work
  { c.ofCheck b s .plateau (w.stamp.getD now) with
    number := c.derate.plateau, outcome := w.outcome, limits := w.limits, value1 := c.derate.reported, value2 := w.value2
    value3 := some (unsigned16 c.derate.temp), capture := w.capture }

/-- The PLATEAU record of a plateau settled as MISSED (R144). -/
def Ctx.missedRecord (c : Ctx) (b : Bay) (s : Slot) (number : Nat) (temp : Int) (reported : Option Nat) (now : Stamp) : Record :=
  { c.ofCheck b s .plateau now with
    number := number, outcome := .missed, marks := { c.marks with clipped := false, drifted := false }
    value1 := reported, value3 := some (unsigned16 temp) }

/-- The SUMMARY record of a DERATE loop (R145). -/
def Ctx.summaryRecord (c : Ctx) (b : Bay) (s : Slot) (o : CheckOutcome) (now : Stamp) : Record :=
  let l := c.derate
  { c.ofCheck b s .summary now with
    number := l.lastSettled, outcome := o, marks := Marks.clear, value1 := some l.counted, value2 := some l.failed
    value3 := some l.missed, last := true }

/-! ### The buffer (R166) -/

/-- A record enters the buffer at once (R166): fewer than 8 records and an empty entry line. -/
def BayUnit.hasRoom (u : BayUnit) : Bool := decide (u.buffer.length < Config.bufferSize) && u.line.isEmpty

/-- A record of a slot waits in the entry line of its bay (R166). -/
def BayUnit.lineHas (u : BayUnit) (s : Slot) : Bool := u.line.any (fun e => e.slot == s)

/-- A record is made ready (R166): it enters the buffer, or joins the entry line, where its producer waits for it. -/
def Part.makeReady (p : Part) (b : Bay) (s : Slot) (r : Record) : Part :=
  let u := p.bay b
  if u.hasRoom then (p.mapBay b (fun u => { u with buffer := u.buffer ++ [r] })).later [.writer, .output b s]
  else (p.mapBay b (fun u => { u with line := u.line ++ [⟨s, r.adm, r⟩] })).mapCtx b s (fun c => { c with inLine := true })

/-- What a context owes in order, behind what it owes already. -/
def Ctx.owe (l : List OutItem) (c : Ctx) : Ctx := { c with out := c.out ++ l }

/-- The records a context still owes, without the steps that follow them. -/
def Ctx.owedRecords (c : Ctx) : List OutItem :=
  c.out.filter (fun o => match o with
    | .record _ => true
    | _ => false)

/-- What a context owes but for a return to PLATEAU_WAIT. -/
def Ctx.withoutReturn (c : Ctx) : List OutItem := c.out.filter (fun o => o != .plateauReturn)

end Sys2Proof.Machine
end

