-- ==== Sys2Proof/Machine/ZoneControl.lean ====
section
/-! DEFINITION. The Zone Controllers (07_thermal_zones_and_derating.md): chamber line, joined list, settling of plateaus, closing of plateaus, ends of
DERATE loops, schedules, readings, stop and halt. -/

namespace Sys2Proof.Machine

/-! ### The chamber line (R131) -/

/-- A frame begins, carrying the target as it stands, and the repeat timer runs from its start. -/
def Zone.startFrame (now : Nat) (z : Zone) : Zone :=
  { z with frame := some z.target, frameAgain := false, repeating := some ⟨now, 4096⟩ }

/-- A frame is asked for: it begins, or follows the frame being sent. -/
def Zone.askFrame (now : Nat) (z : Zone) : Zone :=
  match z.frame with
  | none => z.startFrame now
  | some _ => { z with frameAgain := true }

/-- The target is set; a change sends a frame. -/
def Zone.setTarget (now : Nat) (t : Int) (z : Zone) : Zone :=
  if z.target = t then z else { z with target := t }.askFrame now

/-- A frame ends, and a further one begins if one is owed. -/
def Zone.endFrame (now : Nat) (z : Zone) : Zone :=
  match z.frame with
  | none => z
  | some _ => if z.frameAgain then z.startFrame now else { z with frame := none }

/-! ### The joined list (R139, R140) -/

/-- A member is the context of bay `b`, slot `s`. -/
def Member.is (m : Member) (b : Bay) (s : Slot) : Bool := m.bay == b && m.slot == s

/-- The zone has the context in its joined list. -/
def Zone.has (z : Zone) (b : Bay) (s : Slot) : Bool := z.joined.any (fun m => m.is b s)

/-- A context joins at the end of the list, its measured mark by the zone's state (R139). -/
def Zone.join (b : Bay) (s : Slot) (z : Zone) : Zone :=
  { z with joined := z.joined ++ [⟨b, s, z.state == .closing, false⟩] }

/-- A context leaves the list. -/
def Zone.leave (b : Bay) (s : Slot) (z : Zone) : Zone := { z with joined := z.joined.filter (fun m => !m.is b s) }

/-- A member's marks are changed. -/
def Zone.mark (b : Bay) (s : Slot) (f : Member → Member) (z : Zone) : Zone :=
  { z with joined := z.joined.map (fun m => if m.is b s then f m else m) }

/-- The zone holds a plateau open for measurements still owed (R135, R140). -/
def Zone.holding (z : Zone) : Bool := z.state == .opened || z.state == .closing

/-- A context leaves its zone's list; in OPEN and CLOSING the closing test follows (R140), and behind the other departures of one
BAY_HOLD or BAY_WITHDRAW (log entry 59, the model's choice). Where that closes the last plateau, the
SUMMARYs of the members left are made ready before the leaving context's own records (R166 allows either order; log entry 43,
the model's choice). -/
def Part.leaveZone (p : Part) (b : Bay) (s : Slot) : Part :=
  let z := zoneOf b
  if (p.zone z).has b s then
    let q := p.mapZone z (Zone.leave b s)
    if (p.zone z).holding then q.later [.closingTest z] else q
  else p

/-- A context joins its zone's list and enters PLATEAU_WAIT (R139, R141); in OPEN it starts at once. -/
def Part.joinZone (p : Part) (b : Bay) (s : Slot) : Part :=
  let z := zoneOf b
  ((p.mapZone z (Zone.join b s)).setPhase b s .plateauWait).later [.startPlateau b s]

/-! ### Settling a plateau and ending a loop (R144, R145) -/

/-- How a loop ends when a plateau is settled, if it does (R137, R145): `left` is the loop counter after it. -/
def Loop.endsWith (l : Loop) (missed : Bool) (left : Nat) : Option CheckOutcome :=
  if left = 0 then some .performed
  else if !missed && (l.tripped || l.exitHolds) then some .performed
  else if l.zoneLost then some .noPlateau
  else none

/-- The loop once a plateau is settled (R145). -/
def Loop.settled (l : Loop) (number : Nat) (failed missed : Bool) : Loop :=
  { l with
    counted := l.counted + 1, failed := l.failed + bit failed, missed := l.missed + bit missed, lastSettled := number
    started := false, cut := false, tripped := false, exitHolds := false }

/-- A context settles a plateau with its PLATEAU record (R144, R145): the loop advances, and the context owes the record and
then its return to PLATEAU_WAIT, or its SUMMARY and the check's result. What follows at the zone is not yet made. -/
def Part.settleWith (p : Part) (b : Bay) (s : Slot) (r : Record) (missed : Bool) : Part :=
  let c := p.ctx b s
  let left := c.loop - 1
  let failed := r.limits.anyFailed || r.outcome != .performed
  let ended := c.derate.endsWith missed left
  let c := { c with loop := left, derate := c.derate.settled r.number failed missed, phase := .record }
  let out := c.withoutReturn ++ [.record r] ++
    match ended with
    | none => [.plateauReturn]
    | some o => [.record (c.summaryRecord b s o p.stamp), .applyResult]
  let c := { c with out := out, derate := { c.derate with outcome := ended.getD .performed } }
  let q := p.mapCtx b s (fun _ => c)
  q.mapZone (zoneOf b) (fun z =>
    if ended.isSome then z.leave b s else z.mark b s (fun m => { m with measured := true, started := false }))

/-- A started measurement settles (R144): as measured, or as MISSED when it was cut (R146). -/
def Part.settleStarted (p : Part) (b : Bay) (s : Slot) : Part :=
  let c := p.ctx b s
  if c.derate.cut then
    p.settleWith b s (c.missedRecord b s c.derate.plateau c.derate.temp c.derate.reported p.stamp) true
  else p.settleWith b s (c.plateauRecord b s p.stamp) false

/-- A member that has not started settles the zone's current plateau as MISSED (R135, R137, R144). -/
def Part.settleMissed (p : Part) (b : Bay) (s : Slot) : Part :=
  let z := p.zone (zoneOf b)
  let temp := match z.schedule.bind (fun l => l[z.index]?) with
    | some q => q.temp
    | none => z.target
  p.settleWith b s ((p.ctx b s).missedRecord b s (z.index + 1) temp none p.stamp) true

/-- After a settling: the zone's closing test, and the context's records (R135, R144), in this order (log entry 43). -/
def Part.afterSettling (p : Part) (b : Bay) (s : Slot) : Part := p.later [.closingTest (zoneOf b), .output b s]

/-- A DERATE loop ends NO_PLATEAU without a plateau of its own (R136, R137, R145): the SUMMARY is owed behind what is owed. -/
def Part.noPlateau (p : Part) (b : Bay) (s : Slot) : Part :=
  p.mapCtx b s (fun c =>
    { c with
      phase := .record, derate := { c.derate with outcome := .noPlateau }
      out := c.withoutReturn ++ [.record (c.summaryRecord b s .noPlateau p.stamp), .applyResult] })

/-- The outputs of several contexts whose records were made ready together, in a free order (R166, log entry 7). A context that owes
several records enters them all, as long as there is room, before the next context's first (log entry 52, the model's choice). -/
def Part.outputs (p : Part) (l : List (Bay × Slot)) : Part :=
  let r := p.freeOrder l
  r.2.later (r.1.map (fun x => .output x.1 x.2))

/-! ### Closing a plateau (R135, R136) -/

/-- The zone moves to the next plateau of its schedule (R136). -/
def Zone.nextPlateau (now : Nat) (q : Plateau) (z : Zone) : Zone :=
  Zone.setTarget now q.temp
    { z with
      index := z.index + 1, state := .moving, limit := none
      joined := z.joined.map (fun m => { m with measured := false, started := false }) }

/-- The zone closes its plateau (R136): on to the next one, or RETURNING with NO_PLATEAU for the members left. -/
def Part.closePlateau (p : Part) (z : ZoneNo) : Part :=
  let zone := p.zone z
  match zone.schedule.bind (fun l => l[zone.index + 1]?) with
  | some q => p.mapZone z (Zone.nextPlateau p.tick q)
  | none =>
    let left := zone.joined.map (fun m => (m.bay, m.slot))
    let p := p.mapZone z (fun z => Zone.setTarget p.tick z.rest { z with state := .returning, limit := none, joined := [] })
    let p := left.foldl (fun p x => p.noPlateau x.1 x.2) p
    p.outputs left

/-- The closing test (R135): in OPEN or CLOSING the zone closes the plateau when no member owes it. -/
def Part.closingTest (p : Part) (z : ZoneNo) : Part :=
  let zone := p.zone z
  if zone.holding && zone.joined.all Member.measured then p.closePlateau z else p

/-! ### Schedules (R132) -/

/-- A schedule takes a zone into MOVING toward plateau 0 (R132). -/
def Zone.takeSchedule (now : Nat) (rest band : Int) (l : List Plateau) (z : Zone) : Zone :=
  let first := match l with
    | [] => z.target
    | q :: _ => q.temp
  Zone.setTarget now first
    { z with
      state := .moving, rest := rest, band := some band, schedule := some l, index := 0, settle := none, limit := none
      joined := z.joined.map (fun m => { m with measured := false, started := false }) }

/-- A zone in a schedule at a stop of the part (R138). -/
def Zone.stop (now : Nat) (z : Zone) : Zone :=
  match z.state with
  | .moving => Zone.setTarget now z.rest { z with state := .returning, settle := none, limit := none, schedule := none }
  | .settling => Zone.setTarget now z.rest { z with state := .returning, settle := none, limit := none, schedule := none }
  | .opened => Zone.setTarget now z.rest { z with state := .returning, settle := none, limit := none, schedule := none }
  | .closing => Zone.setTarget now z.rest { z with state := .returning, settle := none, limit := none, schedule := none }
  | _ => z

/-- A zone at a halt of the part (R129): target at rest, span timers stopped; the chamber line goes on. -/
def Zone.halt (now : Nat) (z : Zone) : Zone := Zone.setTarget now z.rest { z with settle := none, limit := none }

end Sys2Proof.Machine
end

