-- ==== Sys2Proof/Machine/Checks.lean ====
section
/-! DEFINITION. The Check Sequencer (04_check_execution.md, sections 7.4 and 5.5): beginning a check, PREPARE, APPLY, trips, RECOVER, RELEASE, the
records of a check, its result, disturbance, the abort path, plateau measurements and their cut. -/

namespace Sys2Proof.Machine

/-! ### Where a context stands -/

/-- A RUNNING context at a check boundary (R68, R69). A disturbed check that a full buffer holds at its re-entry is there too: for
R69's test and R20 by R90, for a fall, a withdrawal, a stop or MUTE by the model's choice (log entry 57). -/
def Ctx.atBoundary (c : Ctx) : Bool :=
  c.state == .running && c.phase == .none && c.work.step != .stopOutput && c.exit == .stay

/-- A RUNNING context at a plateau boundary: in PLATEAU_WAIT with no measurement started (R148). -/
def Ctx.atPlateau (c : Ctx) : Bool :=
  c.state == .running && c.phase == .plateauWait && !c.derate.started && c.exit == .stay

/-- A RUNNING context within a check (R68). -/
def Ctx.inCheck (c : Ctx) : Bool :=
  c.state == .running && c.phase != .none && !c.atPlateau && c.exit == .stay

/-- A check in progress is not aborted. -/
def Ctx.unaborted (c : Ctx) : Bool := c.work.aborting.isNone

/-- A check's spans, measurement and watch are stopped. -/
def Work.stopped (w : Work) : Work := { w with span := none, meas := none, watch := none }

/-! ### Handing over to the link (R151) -/

/-- A context hands a transaction to its own module, built from its profile, and waits for it in a step (R72, R79 to R81). -/
def Part.handOwn (p : Part) (b : Bay) (s : Slot) (kind : TxKind) (trim : Nat) (step : SubStep) : Part :=
  match (p.ctx b s).profile with
  | none => p
  | some f =>
    let r := p.handOver b (buildEntry f s kind trim (p.requester b s) .own)
    r.2.mapWork b s (fun w => { w with step := step, await := some r.1, trim := if kind = .trimSet then trim else w.trim })

/-- A context hands an OUTPUT_OFF or OUTPUT_ON to another module, built from that module's own profile (R71, R82). -/
def Part.handOther (p : Part) (b : Bay) (s t : Slot) (kind : TxKind) (purpose : Purpose) : Part :=
  match (p.ctx b t).profile with
  | none => p
  | some f =>
    let r := p.handOver b (buildEntry f t kind 0 (p.requester b s) purpose)
    r.2.mapWork b s (fun w => { w with outstanding := w.outstanding ++ [r.1] })

/-- A restoring OUTPUT_ON for a member of the standby set, built from what the set keeps (R24, R84), unless one is under way. -/
def Part.handRestore (p : Part) (b : Bay) (s t : Slot) : Part :=
  match (p.bay b).standby[t] with
  | none => p
  | some k =>
    if (p.link b).restoring t then p
    else
      (p.handOver b { target := t, kind := .outputOn, cmd := k.cmd, data := some (k.onValue.setWidth 16),
                      who := p.requester b s, purpose := .restore, onValue := k.onValue, ref := 0, fell := false }).2

/-- The restoring OUTPUT_ON of every member, in ascending slot order (R84 step 3, R92 step 4). -/
def Part.restoreStandby (p : Part) (b : Bay) (s : Slot) : Part := allSlots.foldl (fun p t => p.handRestore b s t) p

/-- Of the hand-overs that a check waits for, the isolating ones still in flight are waited for on (R84 step 4, R92 step 5); a SHARE
check isolates nothing and waits for none (R89, R105). -/
def Part.keepFlying (p : Part) (b : Bay) (s : Slot) : Part :=
  let shares := (p.ctx b s).check.any (fun k => !k.isolates)
  p.mapWork b s (fun w => { w with outstanding := if shares then [] else w.outstanding.filter (p.link b).flying })

/-! ### RELEASE (R84) -/

/-- A check enters RELEASE: its spans, windows and watch are stopped, its detector disarmed, and its channel unloads. Only
isolating commands still in flight are waited for (R84 step 4). -/
def Part.enterRelease (p : Part) (b : Bay) (s : Slot) : Part :=
  let shares := (p.ctx b s).check.any (fun k => !k.isolates)
  let p := (p.setPhase b s .release).mapWork b s (fun w =>
    { w.stopped with
      step := .idle, await := none, outstanding := if shares then [] else w.outstanding, release := .unloading })
  match p.chanOf b s with
  | some c => (p.mapChan c Channel.disarm).unloadChan c
  | none => (p.mapWork b s (fun w => { w with release := .restoring })).later [.releaseGo b s]

/-- The unload of a releasing check is complete, and its relays open (R84 step 2). -/
def Part.onUnloaded (p : Part) (c : Chan) : Part :=
  match (p.chan c).owner with
  | none => p
  | some (b, s) =>
    let x := p.ctx b s
    if x.phase = .release ∧ x.work.release = .unloading then
      (p.mapWork b s (fun w => { w with release := .opening })).openChan c
    else p

/-- A check's channel is OPEN: it is released, and the standby set is restored (R84 steps 2 and 3). A check cut in CONNECT enters
RELEASE here (R146). -/
def Part.onOpen (p : Part) (c : Chan) : Part :=
  match (p.chan c).owner with
  | none => p
  | some (b, s) =>
    let p := p.releaseChan c
    let p := (p.setPhase b s .release).mapWork b s (fun w => { w with release := .restoring })
    (p.restoreStandby b s).later [.releaseGo b s]

/-! ### The abort path (R91 to R93, R148) -/

/-- The records of an abort are owed, and the VERDICT behind them; a fall's PRESENCE record and the context's becoming ABSENT
follow where they are due (R6, R22, R93). -/
def Part.composeAbort (p : Part) (b : Bay) (s : Slot) : Part :=
  let c := p.ctx b s
  match c.work.aborting with
  | none => p
  | some cause =>
    let records := (c.abortRecords b s cause p.stamp).map OutItem.record
    let gone := c.fellAt.toList.map (fun t => OutItem.record (c.presenceRecord b s .removed none t))
    let last := if c.exit = .leaving then gone ++ [OutItem.becomeAbsent] else []
    p.mapCtx b s (fun c =>
      { c with
        phase := .record, exit := if c.exit = .leaving then .leaving else .ending
        out := c.owedRecords ++ records ++ [OutItem.verdict .incomplete (some cause)] ++ last })

/-- The channel of an aborted check drops and opens (R92 steps 1 and 3). -/
def Part.abortChannel (p : Part) (c : Chan) : Part := (p.dropChan c).openChan c

/-- The abort of a check found before RECORD (R92). -/
def Part.abortBefore (p : Part) (b : Bay) (s : Slot) (cause : Cause) : Part :=
  let c := p.ctx b s
  let number := (c.check.map (fun k => c.abortNumber k p.free)).getD 0
  let started := c.phase
  let stage := c.work.release
  let p := { p with free := p.free + 1 }
  let p := p.mapWork b s (fun w =>
    { w.stopped with aborting := some cause, number := number, stamp := some p.stamp, step := .idle, await := none })
  let p := p.withdrawEntries b s (fun e => e.purpose != .restore)
  let p := p.keepFlying b s
  let p := p.leaveZone b s
  match started with
  | .busWait => (p.leaveBusQueue b s).composeAbort b s
  | .channelWait => ((p.leaveChanQueue b s).composeAbort b s).giveUpBus b s
  | .plateauWait => p.composeAbort b s
  | _ =>
    match p.chanOf b s with
    | some c =>
      ((p.setPhase b s .release).mapWork b s (fun w => { w with release := .opening })).abortChannel c
    | none =>
      if started = .release ∧ stage = .restoring then p.later [.releaseGo b s] else p.composeAbort b s

/-- The abort of a check found in RECORD (R93): what it still has queued on the link is removed (R92 step 2, R159); the records it
was writing, then the VERDICT. -/
def Part.abortInRecord (p : Part) (b : Bay) (s : Slot) (cause : Cause) : Part :=
  let p := p.withdrawEntries b s (fun e => e.purpose != .restore)
  let p := p.leaveZone b s
  p.mapCtx b s (fun c =>
    { c with exit := .ending, out := c.owedRecords ++ [OutItem.verdict .incomplete (some cause)] }.mapWork
      (fun w => { w with aborting := some cause }))

/-- The abort path (R91): the first cause stands. -/
def Part.abort (p : Part) (b : Bay) (s : Slot) (cause : Cause) : Part :=
  let c := p.ctx b s
  if c.work.aborting.isSome then p
  else if c.phase = .record then p.abortInRecord b s cause
  else p.abortBefore b s cause

/-! ### Ends of a plan (R27, R88) -/

/-- A context's verdict is decided: the VERDICT is owed behind what is owed already (R27, R28). -/
def Part.endWith (p : Part) (b : Bay) (s : Slot) (v : Verdict) (cause : Option Cause) : Part :=
  p.mapCtx b s (fun c => { c with exit := if c.exit = .stay then .ending else c.exit, out := c.out ++ [OutItem.verdict v cause] })

/-- A context is ended at a boundary (R6, R22, R26, R148): it leaves any joined list. -/
def Part.endAtBoundary (p : Part) (b : Bay) (s : Slot) (cause : Cause) : Part :=
  (p.leaveZone b s).endWith b s .incomplete (some cause)

/-! ### NOT_ISOLATED (R73) -/

/-- A check becomes NOT_ISOLATED (R73): isolating commands not in flight are withdrawn, the outcome and its values are kept, and
the check enters RELEASE. A plateau keeps limit A and carries no such values (R142, R144). -/
def Part.notIsolated (p : Part) (b : Bay) (s t : Slot) (reason : Reason) (mean : Option Nat) : Part :=
  let derating := (p.ctx b s).derating
  let p := p.withdrawEntries b s (fun e => e.purpose == .isolate)
  let p := p.keepFlying b s
  let p := p.mapWork b s (fun w =>
    if derating then { w with outcome := .notIsolated, stamp := some p.stamp }
    else
      { w with
        outcome := .notIsolated, stamp := some p.stamp, limits := Limits.unchecked, value1 := some t.val
        value2 := some reason.code, value3 := mean })
  p.enterRelease b s

/-! ### Measurements (R125) -/

/-- A window on a point with nothing gathered yet. -/
def openWindow (point : Option Slot) (value : Option Window) : PointWindow :=
  { point := point, value := value, first := none, sum := 0, count := 0, clipped := false, drifted := false }

/-- A context requests a measurement (R125), with the drift tolerance of its plan copy. -/
def Part.measure (p : Part) (b : Bay) (s : Slot) (need : Nat) (windows : List PointWindow) : Part :=
  let tol := ((p.ctx b s).plan.map Plan.drift).getD 0
  p.mapWork b s (fun w => { w with meas := some { need := need, tol := tol, windows := windows, done := none } })

/-! ### APPLY (R74, R76, R80, R83, R143) -/

/-- A check enters APPLY. -/
def Part.enterApply (p : Part) (b : Bay) (s : Slot) : Part :=
  let c := p.ctx b s
  let p := (p.setPhase b s .apply).mapWork b s (fun w => { w with step := .idle })
  match p.chanOf b s, c.plan, c.check with
  | some ch, some plan, some k =>
    match k.body with
    | .steady q =>
      let p := p.mapCtx b s (fun c => { c with marks := Marks.clear })
      (p.mapChan ch (Channel.holdLevel q.load)).startSpan b s .steadySettle q.settle
    | .ocp q =>
      (p.mapChan ch (Channel.startRamp q.start q.step q.interval q.ceiling)).arm ch s (plan.collapse q.collapse) q.confirm
    | .ovp q =>
      let p := (p.mapChan ch (Channel.holdLevel q.minLoad)).arm ch s (plan.collapse q.collapse) q.confirm
      p.handOwn b s .trimSet q.trimStart .trimSent
    | .share q => (p.mapChan ch (Channel.holdLevel q.load)).startSpan b s .shareSettle q.settle
    | .derate q =>
      ((p.mapChan ch (Channel.holdLevel c.derate.load)).arm ch s (plan.collapse 90) 4).startSpan b s .loadDwell q.dwell
  | _, _, _ => p

/-! ### PREPARE (R71, R72, R82) -/

/-- The isolation test begins (R72): a window of 16 samples on every other present module's slot current; with none, the module
is isolated. -/
def Part.isolationTest (p : Part) (b : Bay) (s : Slot) : Part :=
  match (p.bay b).others s with
  | [] => p.enterApply b s
  | l =>
    (p.mapWork b s (fun w => { w with step := .isoTest, await := none })).measure b s 16
      (l.map (fun t => openWindow (some t) none))

/-- Every isolating command has completed: the checked module's OUTPUT_ON is handed over (R72). -/
def Part.prepareOwn (p : Part) (b : Bay) (s : Slot) : Part := p.handOwn b s .outputOn 0 .ownOn

/-- An isolating check enters PREPARE (R71). -/
def Part.prepareIsolating (p : Part) (b : Bay) (s : Slot) : Part :=
  let u := p.bay b
  let others := u.others s
  match others.filter u.muted with
  | t :: l =>
    let r := p.choose (t :: l)
    r.2.notIsolated b s (r.1.getD t) .mute none
  | [] =>
    let send := others.filter (fun t => (u.ctx t).plan.isSome && !(u.ctx t).outputOff)
    let p := p.mapWork b s (fun w => { w with step := .isolating })
    if send.isEmpty then p.prepareOwn b s
    else send.foldl (fun p t => p.handOther b s t .outputOff .isolate) p

/-- The participant count of a SHARE check is fixed (R82): fewer than two give ALONE. A candidate whose OUTPUT_ON completed OK and
whose module has gone MUTE since is counted: a choice of the model (log entry 54). -/
def Part.fixParticipants (p : Part) (b : Bay) (s : Slot) : Part :=
  let n := (p.ctx b s).work.participants.length
  if n < 2 then
    (p.mapWork b s (fun w => { w with outcome := .alone, stamp := some p.stamp, value1 := some n })).enterRelease b s
  else p.enterApply b s

/-- A candidate of a SHARE check of slot `s` (R82). -/
def BayUnit.candidate (u : BayUnit) (s t : Slot) : Bool :=
  t == s || (u.present t && (u.ctx t).plan.isSome && !u.muted t && !(u.ctx t).outputOff)

/-- A SHARE check hands an OUTPUT_ON to each candidate in ascending slot order (R82). -/
def Part.prepareShare (p : Part) (b : Bay) (s : Slot) : Part :=
  let candidates := allSlots.filter (fun t => (p.bay b).candidate s t)
  let p := p.mapWork b s (fun w => { w with step := .sharing, participants := [] })
  candidates.foldl (fun p t => p.handOther b s t .outputOn (if t = s then .own else .participate)) p

/-- The relays of a check's channel are CLOSED: it enters PREPARE (R70). -/
def Part.onClosed (p : Part) (c : Chan) : Part :=
  match (p.chan c).owner with
  | none => p
  | some (b, s) =>
    let x := p.ctx b s
    if x.phase = .connect then
      let p := p.setPhase b s .prepare
      if x.check.any Check.isolates then p.prepareIsolating b s else p.prepareShare b s
    else p

/-! ### RECOVER (R79 to R81, R143) -/

/-- The recovery of a trip is decided (R79, R81): limit C, and the output-left-off mark when it fails; then RELEASE. -/
def Part.recoverDecided (p : Part) (b : Bay) (s : Slot) (failed : Bool) (time : Option Nat) : Part :=
  let p := p.mapCtx b s (fun c =>
    { c with outputOff := c.outputOff || failed }.mapWork (fun w =>
      { w with limits := { w.limits with c := some failed }, value3 := time }))
  p.enterRelease b s

/-- A trip check enters RECOVER with its recovery span running (R79, R81). -/
def Part.enterRecover (p : Part) (b : Bay) (s : Slot) (span : Span) : Part :=
  ((p.setPhase b s .recover).mapWork b s (fun w => { w with recoverTick := p.tick, watch := none })).startSpan b s .recovery span

/-- The behaviour after an overcurrent trip is observed (R78, R79): limit B, and RECOVER. -/
def Part.observed (p : Part) (b : Bay) (s : Slot) (q : OcpCheck) (seen : Behaviour) (delay : Option Nat) : Part :=
  let p := p.mapWork b s (fun w =>
    { w.stopped with limits := { w.limits with b := some (seen != q.expected) }, value2 := delay })
  match seen with
  | .restart => (p.setPhase b s .recover).recoverDecided b s false none
  | .latch => (p.enterRecover b s q.recovery).handOwn b s .faultClear 0 .restoreClear

/-! ### A trip (R77, R81, R143) -/

/-- The trip capture as records carry it (R77). -/
def captureOf (setpoint peak : Nat) (f : Firing) : Capture := ⟨setpoint, peak, f.time, f.detector⟩

/-- A trip during APPLY of an overcurrent check (R77, R78): limit A, OBSERVE, the restart window span and the restart watch. -/
def Part.ocpTrip (p : Part) (b : Bay) (s : Slot) (plan : Plan) (q : OcpCheck) (k : Capture) (firedAt : Nat) : Part :=
  let p := p.mapWork b s (fun w =>
    { w.stopped with
      capture := some k, stamp := some p.stamp, value1 := some k.peak
      limits := { w.limits with a := some (!q.window.has k.peak) }
      watch := some (.restart plan.restart q.confirm firedAt 0 0 none) })
  (p.setPhase b s .observe).startSpan b s .restartWindow q.restartWindow

/-- A trip during APPLY of an overvoltage check (R81): limit A, RECOVER; a TRIM_SET not yet in flight is withdrawn, one in
flight is waited for. -/
def Part.ovpTrip (p : Part) (b : Bay) (s : Slot) (plan : Plan) (q : OvpCheck) (k : Capture) (volts : Nat) : Part :=
  let p := p.mapWork b s (fun w =>
    { w.stopped with
      capture := some k, stamp := some p.stamp, value1 := some volts
      limits := { w.limits with a := some (!q.window.has volts) } })
  let p := p.withdrawEntries b s (fun e => e.purpose == .own && e.kind == .trimSet)
  let p := p.enterRecover b s q.recovery
  if (p.ctx b s).work.await.any (p.link b).flying then p.mapWork b s (fun w => { w with step := .restoreWait })
  else p.handOwn b s .trimSet plan.nominal .restoreTrim

/-- A trip during APPLY or MEASURE of a plateau (R143): limit C fails, and the module is brought back. -/
def Part.derateTrip (p : Part) (b : Bay) (s : Slot) (k : Capture) : Part :=
  let p := p.mapCtx b s (fun c =>
    (c.mapWork (fun w =>
      { w.stopped with
        capture := some k, stamp := some p.stamp, limits := { w.limits with c := some true } })).mapLoop
      (fun l => { l with tripped := true }))
  (p.setPhase b s .recover).handOwn b s .faultClear 0 .derateClear

/-- A capture is handed to the channel's owner (R77, R81, R119, R143). -/
def Part.onTrip (p : Part) (c : Chan) (setpoint peak volts : Nat) (f : Firing) : Part :=
  match (p.chan c).owner with
  | none => p
  | some (b, s) =>
    let x := p.ctx b s
    let k := captureOf setpoint peak f
    if x.unaborted then
      match x.plan, x.check with
      | some plan, some chk =>
        match chk.body, x.phase with
        | .ocp q, .apply => p.ocpTrip b s plan q k f.sample
        | .ovp q, .apply => p.ovpTrip b s plan q k volts
        | .derate _, .apply => p.derateTrip b s k
        | .derate _, .measure => p.derateTrip b s k
        | _, _ => p
      | _, _ => p
    else p

/-- The firing of a channel's detector is taken (R116, R119): the channel drops, the detector is disarmed, and the capture is
handed to the owner. -/
def Part.tripFiring (p : Part) (c : Chan) : Part :=
  let ch := p.chan c
  match ch.detector with
  | none => p
  | some d =>
    match d.firing with
    | none => p
    | some f =>
      let peaks := d.peaks.getD (f.current, f.voltage)
      (p.dropChan c).onTrip c ch.setpoint peaks.1 peaks.2 f

/-- The ceiling hold has ended without a trip: NO_TRIP (R76). -/
def Part.onHoldEnded (p : Part) (c : Chan) : Part :=
  match (p.chan c).owner with
  | none => p
  | some (b, s) =>
    let x := p.ctx b s
    match x.check.map Check.body, x.phase with
    | some (.ocp _), .apply =>
      let p := p.mapWork b s (fun w =>
        { w with outcome := .noTrip, stamp := some p.stamp, limits := ⟨some true, none, none⟩ })
      p.enterRelease b s
    | _, _ => p

/-- The trim interval after the trim ceiling has run without a trip: NO_TRIP (R80). -/
def Part.ovpNoTrip (p : Part) (b : Bay) (s : Slot) (plan : Plan) : Part :=
  let p := p.mapWork b s (fun w =>
    { w.stopped with outcome := .noTrip, stamp := some p.stamp, limits := ⟨some true, none, none⟩ })
  let p := match p.chanOf b s with
    | some c => (p.mapChan c Channel.disarm).unloadChan c
    | none => p
  (p.setPhase b s .recover).handOwn b s .trimSet plan.nominal .noTripTrim

/-! ### Judging measurements (R72, R74, R75, R83, R143) -/

/-- The isolation test is judged (R72): the lowest slot whose mean is at or above the threshold gives NOT_ISOLATED. -/
def Part.judgeIsolation (p : Part) (b : Bay) (s : Slot) (plan : Plan) (m : Measurement) : Part :=
  let failing := m.windows.find? (fun w => decide (plan.isolation ≤ w.mean))
  match failing with
  | some w => p.notIsolated b s (w.point.getD s) .current (some w.mean)
  | none => p.enterApply b s

/-- The result of a STEADY pass as the MEASURE record it becomes (R74, R85, R86). -/
def Ctx.passRecord (c : Ctx) (b : Bay) (s : Slot) (l : Limits) (marks : Marks) (volts current : Nat) (t : Stamp) : Record :=
  { c.ofCheck b s .measure t with
    number := c.work.passes.length + 1, limits := l, marks := marks, value1 := some volts, value2 := some current }

/-- A STEADY pass is judged (R74, R75): its result is kept, the loop counter falls, and the loop ends or the next pass begins. -/
def Part.judgePass (p : Part) (b : Bay) (s : Slot) (q : SteadyCheck) (m : Measurement) (t : Stamp) : Part :=
  match m.windows with
  | [v, i] =>
    let c := p.ctx b s
    let limits := q.limits v.mean i.mean
    let marks := { c.marks with clipped := v.clipped, drifted := v.drifted }
    let left := c.loop - 1
    let p := p.mapCtx b s (fun c =>
      { c with marks := marks, loop := left }.mapWork (fun w =>
        { w with
          passes := w.passes ++ [c.passRecord b s limits marks v.mean i.mean t], limits := limits, stamp := some t }))
    if left = 0 ∨ q.exit.holds q.window v.mean v.clipped v.drifted then p.enterRelease b s
    else
      ((p.setPhase b s .apply).mapCtx b s (fun c => { c with marks := Marks.clear })).startSpan b s .steadySettle q.settle
  | _ => p

/-- A SHARE measurement is judged (R83). -/
def Part.judgeShare (p : Part) (b : Bay) (s : Slot) (q : ShareCheck) (m : Measurement) (t : Stamp) : Part :=
  let mean := meanOf (m.windows.map PointWindow.mean)
  match m.windows.find? (fun w => w.point == some s) with
  | none => p
  | some own =>
    let d := imbalance own.mean mean
    let p := p.mapCtx b s (fun c =>
      { c with marks := { c.marks with clipped := own.clipped, drifted := own.drifted } }.mapWork (fun w =>
        { w with
          limits := ⟨some (decide (q.imbalance < d)), none, none⟩, value1 := some own.mean, value2 := some mean
          value3 := some d, stamp := some t }))
    p.enterRelease b s

/-- A plateau window is judged (R143): limits B and C, the marks, and whether the exit condition holds (R145). -/
def Part.judgePlateau (p : Part) (b : Bay) (s : Slot) (q : DerateCheck) (m : Measurement) (t : Stamp) : Part :=
  match m.windows with
  | [v] =>
    let p := p.mapCtx b s (fun c =>
      ({ c with marks := { c.marks with clipped := v.clipped, drifted := v.drifted } }.mapWork (fun w =>
        { w with
          limits := { w.limits with b := some (!q.window.has v.mean), c := some false }, value2 := some v.mean
          stamp := some t })).mapLoop (fun l =>
            { l with exitHolds := q.exit.holds q.window v.mean v.clipped v.drifted }))
    p.enterRelease b s
  | _ => p

/-- A measurement that is complete is handed to its requester (R125). -/
def Part.measured (p : Part) (b : Bay) (s : Slot) : Part :=
  let c := p.ctx b s
  match c.work.meas, c.plan, c.check with
  | some m, some plan, some k =>
    match m.done with
    | none => p
    | some t =>
      let p := p.mapWork b s (fun w => { w with meas := none })
      match c.phase, k.body with
      | .prepare, _ => p.judgeIsolation b s plan m
      | .measure, .steady q => p.judgePass b s q m t
      | .measure, .share q => p.judgeShare b s q m t
      | .measure, .derate q => p.judgePlateau b s q m t
      | _, _ => p
  | _, _, _ => p

/-! ### Beginning a check (R69, R141) -/

/-- The check's initialisation (R69, R141). -/
def Ctx.beginCheck (k : Check) (c : Ctx) : Ctx :=
  { c with retry := 1, marks := Marks.clear, work := Work.reset, loop := k.loops, derate := Loop.reset }

/-- A context begins the check at its check index (R69), or re-enters BUS_WAIT for a disturbed one (R90). -/
def Part.begin (p : Part) (b : Bay) (s : Slot) : Part :=
  let c := p.ctx b s
  match c.check with
  | none => p
  | some k =>
    if c.work.retrying then (p.mapWork b s (fun w => { w with retrying := false })).requestBus b s
    else
      let p := p.mapCtx b s (Ctx.beginCheck k)
      if k.isDerate then p.joinZone b s else p.requestBus b s

/-- A context pauses (R19, R20, R147): it holds nothing, and its check begins afresh when it resumes. That the phase of one paused
within a DERATE loop reads none, and not PLATEAU_WAIT, is the model's choice (DESIGN CHOICE, log entry 58): R7 gives none at a check
boundary alone, and R147 does not name the phase among what is kept. -/
def Ctx.pause (c : Ctx) : Ctx :=
  { c with state := .paused, phase := .none }.mapWork (fun w => { w with retrying := false })

/-- A context of a HOLDING bay pauses at a plateau boundary and leaves its list (R147; the phase it then shows: log entry 58). -/
def Part.pauseAtPlateau (p : Part) (b : Bay) (s : Slot) : Part :=
  ((p.mapCtx b s (fun c => c.pause.mapLoop (fun l => { l with inLoop := true }))).leaveZone b s).later [.bayTest b]

/-- A context stands at a check boundary (R69, R20): it pauses in a HOLDING bay, begins its check when the buffer has room, and
otherwise stays. -/
def Part.atBoundary (p : Part) (b : Bay) (s : Slot) : Part :=
  if (p.ctx b s).atBoundary then
    if (p.bay b).state = .holding then (p.mapCtx b s Ctx.pause).later [.bayTest b]
    else if (p.bay b).buffer.length < Config.bufferSize then p.begin b s
    else p
  else p

/-! ### A plateau measurement (R141, R142, R145) -/

/-- The levels of a plateau (R141). -/
def Loop.startPlateau (plan : Plan) (q : DerateCheck) (index : Nat) (temp : Int) (l : Loop) : Loop :=
  let expected := plan.expectedLimit temp
  { l with
    plateau := index + 1, temp := temp, load := plan.deratingLoad temp, expected := expected
    deviation := permittedDeviation expected q.tolerance, reported := none, started := true, tripped := false
    exitHolds := false, cut := false, zoneLost := false }

/-- A member starts its plateau measurement when it is in PLATEAU_WAIT, owes the plateau and its zone is OPEN (R141); in a
HOLDING bay it pauses instead. -/
def Part.startPlateau (p : Part) (b : Bay) (s : Slot) : Part :=
  let z := zoneOf b
  let zone := p.zone z
  let c := p.ctx b s
  let owes := zone.joined.any (fun m => m.is b s && !m.measured)
  if c.atPlateau && owes && zone.state == .opened then
    if (p.bay b).state = .holding then p.pauseAtPlateau b s
    else
      match c.plan, c.check.map Check.body, zone.schedule.bind (fun l => l[zone.index]?) with
      | some plan, some (.derate q), some plateau =>
        let p := p.mapZone z (Zone.mark b s (fun m => { m with started := true }))
        let p := p.mapCtx b s (fun c =>
          { c with
            marks := Marks.clear, derate := c.derate.startPlateau plan q zone.index plateau.temp
            work := Work.reset })
        p.handOwn b s .limitRead 0 .limitRead
      | _, _, _ => p
  else p

/-- A context returns to PLATEAU_WAIT after the records of a plateau (R145, R147). -/
def Part.returnToPlateau (p : Part) (b : Bay) (s : Slot) : Part :=
  let c := p.ctx b s
  if c.state == .running && c.phase == .record && c.exit == .stay then
    let p := p.setPhase b s .plateauWait
    if (p.bay b).state = .holding then p.pauseAtPlateau b s else p.later [.startPlateau b s]
  else p

/-- The LIMIT_READ has ended (R141): limit A, and the request for the bus. -/
def Part.limitRead (p : Part) (b : Bay) (s : Slot) (reported : Option Nat) : Part :=
  let p := p.mapCtx b s (fun c =>
    let failed := match reported with
      | some v => decide (c.derate.deviation < apart v c.derate.expected)
      | none => true
    (c.mapWork (fun w =>
      { w with limits := ⟨some failed, none, none⟩, step := .idle, await := none })).mapLoop
      (fun l => { l with reported := reported }))
  p.requestBus b s

/-- A started plateau measurement is cut when its zone enters FAULTED (R146), by its phase. -/
def Part.cutPlateau (p : Part) (b : Bay) (s : Slot) : Part :=
  let phase := (p.ctx b s).phase
  let p := p.mapCtx b s (fun c => c.mapLoop (fun l => { l with cut := true, zoneLost := true }))
  match phase with
  | .plateauWait =>
    let p := p.withdrawEntries b s (fun e => e.purpose == .own && e.kind == .limitRead)
    (p.mapWork b s (fun w => { w with step := .idle, await := none })).settleStarted b s
  | .busWait => (p.leaveBusQueue b s).settleStarted b s
  | .channelWait => ((p.leaveChanQueue b s).settleStarted b s).giveUpBus b s
  | .connect =>
    match p.chanOf b s with
    | some c => p.openChan c
    | none => p
  | .prepare =>
    ((p.withdrawEntries b s (fun e => e.purpose != .restore && e.purpose != .identify)).keepFlying b s).enterRelease b s
  | .apply => p.enterRelease b s
  | .measure => p.enterRelease b s
  | _ => p

/-! ### After the bus is released (R84, R90, R144) -/

/-- A disturbed check with its retry left runs again (R90): results discarded, loop counter set again, at a boundary for R69's buffer
test and for R20. Where a full buffer holds it there, the spec does not say whether a fall, a withdrawal, a stop or MUTE finds it at a
boundary or within its check, nor which phase shows: both are the model's choice (DESIGN CHOICE, log entry 57), a boundary and none. -/
def Ctx.retryCheck (k : Check) (c : Ctx) : Ctx :=
  { c with retry := 0, loop := k.loops, phase := .none, work := { Work.reset with retrying := true } }

/-- A check has released its bus (R84, R90, R92, R144). -/
def Part.afterBus (p : Part) (b : Bay) (s : Slot) : Part :=
  let c := p.ctx b s
  if c.work.aborting.isSome then (p.composeAbort b s).later [.output b s]
  else
    match c.check with
    | none => p
    | some k =>
      if k.isDerate then (p.settleStarted b s).afterSettling b s
      else if c.work.outcome = .disturbed ∧ c.retry = 1 then (p.mapCtx b s (Ctx.retryCheck k)).later [.boundary b s]
      else
        (p.mapCtx b s (fun c =>
          { c with
            phase := .record, out := c.out ++ (c.checkRecords b s p.stamp).map OutItem.record ++ [OutItem.applyResult] })).later
          [.output b s]

/-- A releasing or aborting check goes on (R84 step 4, R92 step 5): when the standby set is empty and no isolating command is in
flight, the bus is released. -/
def Part.releaseGo (p : Part) (b : Bay) (s : Slot) : Part :=
  let c := p.ctx b s
  if c.phase = .release ∧ c.work.release = .restoring ∧ (p.bay b).standbyEmpty ∧ c.work.outstanding = []
      ∧ (p.bay b).busHolder = some s then
    (p.mapWork b s (fun w => { w with release := .idle })).afterBus b s |>.releaseBus b
  else p

/-! ### The result of a check (R87, R88) -/

/-- A check is judged failed (R87, R145). -/
def Ctx.checkFailed (c : Ctx) : Bool :=
  if c.derating then decide (0 < c.derate.failed) || c.derate.outcome == .noPlateau
  else
    c.work.limits.anyFailed || c.work.outcome == .notIsolated || c.work.outcome == .disturbed || c.work.outcome == .noTrip

/-- A context moves to its next check boundary, or its plan ends (R87, R27). -/
def Part.nextCheck (p : Part) (b : Bay) (s : Slot) : Part :=
  let c := p.ctx b s
  let count := (c.plan.map (fun l => l.checks.length)).getD 0
  if c.checkIndex + 1 < count then
    (p.mapCtx b s (fun c => { c with phase := .none, checkIndex := c.checkIndex + 1 })).later [.boundary b s]
  else
    ((p.setPhase b s .none).endWith b s (if c.failed = 0 then .pass else .fail) none).later [.output b s]

/-- A check's last record has entered the buffer, and its result is applied (R87, R88). -/
def Part.checkResult (p : Part) (b : Bay) (s : Slot) : Part :=
  let c := p.ctx b s
  match c.check with
  | none => p
  | some k =>
    if c.phase = .record ∧ c.exit = .stay then
      if c.checkFailed then
        let p := p.mapCtx b s (fun c => { c with failed := c.failed + 1 })
        if k.isDerate && c.derate.outcome == .noPlateau then
          ((p.setPhase b s .none).endWith b s .incomplete (some .noPlateau)).later [.output b s]
        else
          match k.onFail with
          | .continue => p.nextCheck b s
          | .skipRest => ((p.setPhase b s .none).endWith b s .fail none).later [.output b s]
          | .stopOutput =>
            (p.mapCtx b s (fun c => { c with phase := .none, outputOff := true })).handOwn b s .outputOff 0 .stopOutput
      else p.nextCheck b s
    else p

/-! ### Disturbance (R89) -/

/-- The phases in which a check is sensitive (R89). -/
def Ctx.sensitive (c : Ctx) : Bool :=
  match c.check.map Check.body, c.phase with
  | some (.derate _), _ => false
  | some _, .prepare => true
  | some _, .apply => true
  | some (.steady _), .measure => true
  | some (.share _), .measure => true
  | some (.ocp _), .observe => true
  | some (.ocp _), .recover => true
  | some (.ovp _), .recover => true
  | _, _ => false

/-- A sensitive check is disturbed (R89), by its phase. -/
def Part.disturb (p : Part) (b : Bay) (s : Slot) : Part :=
  let c := p.ctx b s
  let p := p.mapWork b s (fun w => { w with outcome := .disturbed, stamp := some p.stamp })
  match c.phase with
  | .prepare =>
    ((p.withdrawEntries b s (fun e => e.purpose == .isolate || e.purpose == .participate || e.purpose == .own)).keepFlying
      b s).enterRelease b s
  | .apply => p.enterRelease b s
  | .measure => p.enterRelease b s
  | _ => p

/-- A presence change of slot `s` counts as a disturbance for the bay's check in a sensitive phase, which its bus holder runs
(R5, R6, R89). -/
def Part.disturbBay (p : Part) (b : Bay) (s : Slot) : Part :=
  match (p.bay b).busHolder with
  | none => p
  | some t =>
    let c := p.ctx b t
    if t != s && c.sensitive && c.unaborted && c.work.outcome != .disturbed then p.disturb b t else p

end Sys2Proof.Machine
end

