-- ==== Sys2Proof/Machine/Bays.lean ====
section
/-! DEFINITION. The Bay Controllers (01_bays_and_module_contexts.md): answers of orders, identification, the records of a context in order, leaving and
becoming ABSENT, MUTE, withdrawal, the tests on a bay; and the reports of the link to its requesters (R158). -/

namespace Sys2Proof.Machine

/-! ### Answers (R188, R193) -/

/-- An owner hands over an order's answer (R188): its writes begin, or wait for the TAKEN mark write (R193). -/
def Part.answer (p : Part) (o : OrderSlot) (code : AnswerCode) (fields : List (Nat × Nat × Nat)) : Part :=
  let stage := if p.takenWrite = some o then AnswerStage.waiting else AnswerStage.fields
  { p with answers := p.answers.set o (some ⟨stage, code, answerFields fields⟩) }

/-- A bay's pending long order is answered and becomes absent (R11, R20 to R23). -/
def Part.answerPending (p : Part) (b : Bay) (code : AnswerCode) (fields : List (Nat × Nat × Nat)) : Part :=
  match (p.bay b).pendingOrder with
  | none => p
  | some o => (p.mapBay b (fun u => { u with pendingOrder := none })).answer o code fields

/-! ### Identification (R8, R12, R13) -/

/-- The admission number after `n` (R8). -/
def nextAdmission (n : Nat) : Nat := if n = 65535 then 1 else n + 1

/-- The identity command code of the Book head in use (R12). -/
def Part.identityCmd (p : Part) : Byte := (p.settings.map Settings.identityCmd).getD 0

/-- An IDENTITY_READ is handed to the link for a context (R12). -/
def Part.handIdentityRead (p : Part) (b : Bay) (s : Slot) : Part :=
  (p.handOver b { target := s, kind := .identityRead, cmd := p.identityCmd, data := none, who := p.requester b s,
                  purpose := .identify, onValue := 0, ref := 0, fell := false }).2

/-- A context leaves ABSENT for IDENTIFYING with the next admission number, and its identification begins (R8, R12). -/
def Part.identify (p : Part) (b : Bay) (s : Slot) : Part :=
  let n := p.nextAdm
  let p := { p with nextAdm := nextAdmission n }
  (p.mapCtx b s (fun _ => { Ctx.reset with state := .identifying, adm := some n, attempts := 1 })).handIdentityRead b s

/-- A context is identifying, and nothing has ended its identification. -/
def Ctx.identifyingOn (c : Ctx) : Bool := c.state == .identifying && c.exit == .stay

/-- An identification fails (R12, R26): the identity is absent, and the VERDICT is owed. -/
def Part.failIdentity (p : Part) (b : Bay) (s : Slot) (cause : Cause) : Part :=
  ((p.mapCtx b s (fun c => { c with ident := none })).endWith b s .incomplete (some cause)).later [.output b s]

/-- An identity answer that is no valid identity (R12): a second attempt, or BAD_IDENTITY. -/
def Part.badIdentity (p : Part) (b : Bay) (s : Slot) : Part :=
  if (p.ctx b s).attempts = 1 then (p.mapCtx b s (fun c => { c with attempts := 2 })).handIdentityRead b s
  else p.failIdentity b s .badIdentity

/-- A valid identity (R13): digests, lookup, and UNPLANNED or the read of the sampling byte that the serial digest names (R40). -/
def Part.goodIdentity (p : Part) (b : Bay) (s : Slot) (m : ModuleId) : Part :=
  let d := digestsOf p.dir.key p.dir.mask m
  let p := p.mapCtx b s (fun c => { c with ident := some m, digests := some d })
  match p.dir.lookup m.identity with
  | none =>
    (p.mapCtx b s (fun c =>
      { c with state := .unplanned }.owe [.record (c.presenceRecord b s .inserted (some m) p.stamp)])).later
      [.output b s, .bayTest b]
  | some l =>
    let p := p.mapCtx b s (fun c => { c with lookup := some l, entryIndex := some l.index })
    { p with admReads := p.admReads ++ [⟨false, p.requester b s, p.samplingAddr (samplingIndex d.serial)⟩] }

/-- The report of an IDENTITY_READ (R12). -/
def Part.onIdentity (p : Part) (b : Bay) (s : Slot) (r : Report) : Part :=
  if (p.ctx b s).identifyingOn then
    match r with
    | .ok data => if validBlock data then p.goodIdentity b s (blockIdentity data) else p.badIdentity b s
    | .nack => p.badIdentity b s
    | .badLength _ => p.badIdentity b s
    | .timeout => p.failIdentity b s .linkTimeout
    | .discardMute => p.failIdentity b s .linkTimeout
    | .discardGone => p
  else p

/-- A context ends BAD_PLAN (R13, R66) with the plan-shelf index used and the bad check index. -/
def Part.badPlan (p : Part) (b : Bay) (s : Slot) (ref bad : Nat) : Part :=
  ((p.mapCtx b s (fun c => { c with usedRef := some ref, badCheck := some bad })).endWith b s .incomplete
    (some .badPlan)).later [.output b s]

/-- A context whose plan copy is taken enters PLANNED (R13, R15); R17 says what follows. -/
def Part.enterPlanned (p : Part) (b : Bay) (s : Slot) (plan : Plan) : Part :=
  let p := p.mapCtx b s (fun c =>
    { c with state := .planned, plan := some plan, checkIndex := 0, failed := 0 }.owe
      [.record (c.presenceRecord b s .inserted none p.stamp)])
  let p := p.later [.output b s]
  let u := p.bay b
  if u.insert = .join ∧ (u.state = .running ∨ u.state = .finished) then
    ((p.mapBay b (fun u => { u with state := .running })).mapCtx b s (fun c => { c with state := .running })).later
      [.boundary b s, .bayTest b]
  else p.later [.bayTest b]

/-- A read in flight is of this kind and for this context. -/
def AdmRead.is (plan : Bool) (who : Requester) (r : AdmRead) : Bool := r.plan == plan && r.who == who

/-- The oldest read in flight of this kind for this context is over. -/
def Part.dropRead (p : Part) (plan : Bool) (who : Requester) : Part :=
  { p with admReads := p.admReads.eraseP (AdmRead.is plan who) }

/-- A sampling byte has been read (R13, R40): the variant used, and the plan read or BAD_PLAN. -/
def Part.samplingRead (p : Part) (who : Requester) (v : Byte) : Part :=
  let c := p.ctx who.bay who.slot
  let p := p.dropRead false who
  if c.isRequester who && c.identifyingOn then
    match c.lookup with
    | none => p
    | some l =>
      let used := l.refs.used ⟨v.toNat % 4, Nat.mod_lt _ (by decide)⟩
      let p := p.mapCtx who.bay who.slot (fun c => { c with variant := some used.1, usedRef := some used.2 })
      if used.2 < (p.settings.map Settings.shelfCount).getD 0 then
        { p with admReads := p.admReads ++ [⟨true, who, p.planAddr used.2⟩] }
      else p.badPlan who.bay who.slot used.2 15
  else p

/-- A plan record has been read at admission (R13, R66). -/
def Part.planRead (p : Part) (who : Requester) (bytes : List Byte) : Part :=
  let c := p.ctx who.bay who.slot
  let p := p.dropRead true who
  if c.isRequester who && c.identifyingOn then
    match validate bytes with
    | .valid plan => p.enterPlanned who.bay who.slot plan
    | .invalid i => p.badPlan who.bay who.slot (c.usedRef.getD 0) i
  else p

/-! ### What a context owes, in order (R85, R166, R167) -/

/-- A context becomes ABSENT (R7, R159, R167): its entries leave the link, and every field takes its value in ABSENT. -/
def Part.becomeAbsent (p : Part) (b : Bay) (s : Slot) : Part :=
  ((p.withdrawEntries b s (fun _ => true)).mapCtx b s (fun _ => Ctx.reset)).later [.bayTest b, .heldRise b s]

/-- A context makes its next record ready or does what follows it, unless its last record still waits for room (R166: the line
holds at most one record for each slot). One that becomes ENDED shows the phase none (DEDUCED, log entry 61). -/
def Part.output (p : Part) (b : Bay) (s : Slot) : Part :=
  let c := p.ctx b s
  if c.inLine || (p.bay b).lineHas s then p
  else
    match c.out with
    | [] => p
    | o :: l =>
      let p := p.mapCtx b s (fun c => { c with out := l })
      match o with
      | .record r => p.makeReady b s r
      | .verdict v cause =>
        let p := p.mapCtx b s (fun c => { c with state := .ended, phase := .none, verdict := some v, cause := cause })
        (p.makeReady b s ((p.ctx b s).verdictRecord b s p.stamp)).later [.bayTest b]
      | .applyResult => p.later [.checkResult b s]
      | .plateauReturn => p.later [.plateauReturn b s]
      | .becomeAbsent => p.becomeAbsent b s

/-- A context is to become ABSENT behind what it owes; for a fall, behind its PRESENCE record marked removed (R6, R15). -/
def Part.leaveBehind (p : Part) (b : Bay) (s : Slot) (fall : Option Stamp) : Part :=
  p.mapCtx b s (fun c =>
    { c with exit := .leaving }.owe
      (fall.toList.map (fun t => OutItem.record (c.presenceRecord b s .removed none t)) ++ [OutItem.becomeAbsent]))

/-- A context waits for the completion of a STOP_OUTPUT (R88). -/
def Ctx.stopping (c : Ctx) : Bool := c.state == .running && c.phase == .none && c.work.step == .stopOutput && c.exit == .stay

/-- A filtered fall or a withdrawal acts on a context by its state (R6, R22): `cause` is its incomplete cause, `fall` the moment
of a fall. Its records are owed, not yet made ready. An UNPLANNED or ENDED context under withdrawal writes no record and becomes
ABSENT at once (R167). A disturbed check held at its re-entry by a full buffer ends as at a boundary, with no ABORTED record: R90 has
the re-entry a boundary for R69's test and R20 alone, and the rest is the model's choice (log entry 57). -/
def Part.removeCtx (p : Part) (b : Bay) (s : Slot) (cause : Cause) (fall : Option Stamp) : Part :=
  let c := p.ctx b s
  if c.state == .absent || c.exit == .leaving then p
  else if c.exit == .ending && c.state != .ended then p.leaveBehind b s fall
  else
    match c.state with
    | .identifying => (p.withdrawEntries b s (fun e => e.purpose == .identify)).leaveBehind b s fall
    | .planned => (p.endAtBoundary b s cause).leaveBehind b s fall
    | .paused => (p.endAtBoundary b s cause).leaveBehind b s fall
    | .running =>
      if c.stopping then
        ((p.withdrawEntries b s (fun e => e.purpose == .own && e.kind == .outputOff)).endWith b s .incomplete
          (some cause)).leaveBehind b s fall
      else if c.atBoundary || c.atPlateau then (p.endAtBoundary b s cause).leaveBehind b s fall
      else if c.phase = .record then (p.abort b s cause).leaveBehind b s fall
      else (p.mapCtx b s (fun c => { c with exit := .leaving, fellAt := fall })).abort b s cause
    | _ => if fall.isNone then p.becomeAbsent b s else p.leaveBehind b s fall

/-! ### Presence (R5, R167) -/

/-- The bay has been admitted and is not being withdrawn (R5, R6). -/
def BayState.admitted : BayState → Bool
  | .empty => false
  | .withdrawing => false
  | _ => true

/-- A held rise acts once its context is ABSENT (R167). -/
def Part.heldRise (p : Part) (b : Bay) (s : Slot) : Part :=
  let u := p.bay b
  if u.presence[s].heldRise && (u.ctx s).state == .absent then
    let p := p.mapBay b (fun u => { u with presence := u.presence.set s { u.presence[s] with heldRise := false } })
    if u.present s && u.state.admitted then p.identify b s else p
  else p

/-! ### MUTE (R26) -/

/-- A holder's isolating PREPARE. -/
def Ctx.isolating (c : Ctx) : Bool := c.phase == .prepare && c.check.any Check.isolates && c.unaborted

/-- The contexts act on the module of slot `s` having gone MUTE (R26, R146): the module's own context by its state, and the bay's
check that is isolating it. Of records made ready with it at one moment, the SUMMARYs of members left by a plateau that it closes come
first (log entry 43). A participant of a SHARE check whose count is not yet fixed stays one (log entry 54). A disturbed check held at
its re-entry by a full buffer ends as at a boundary (log entry 57, the model's choice). -/
def Part.moduleMute (p : Part) (b : Bay) (s : Slot) : Part :=
  let c := p.ctx b s
  let p :=
    if c.exit != .stay then p
    else
      match c.state with
      | .identifying => p.failIdentity b s .linkTimeout
      | .planned => (p.endAtBoundary b s .linkTimeout).later [.output b s]
      | .paused => (p.endAtBoundary b s .linkTimeout).later [.output b s]
      | .running =>
        if c.stopping then p
        else if c.atBoundary || c.atPlateau then (p.endAtBoundary b s .linkTimeout).later [.output b s]
        else (p.abort b s .linkTimeout).later [.output b s]
      | _ => p
  match (p.bay b).busHolder with
  | none => p
  | some t =>
    if t != s && (p.ctx b t).isolating && (p.bay b).present s then p.notIsolated b t s .mute none else p

/-! ### Reports of the link (R158) -/

/-- An isolating OUTPUT_OFF has ended (R24, R71, R92, R160). -/
def Part.onIsolate (p : Part) (b : Bay) (s : Slot) (e : Entry) (r : Report) : Part :=
  let current := (p.ctx b s).work.outstanding.contains e.ref
  let p := p.mapWork b s (fun w => { w with outstanding := w.outstanding.filter (· != e.ref) })
  let c := p.ctx b s
  let waiting := current && c.phase == .prepare && c.work.step == .isolating
  let goOn (p : Part) : Part :=
    if waiting then (if c.work.outstanding.isEmpty then p.prepareOwn b s else p) else p.later [.releaseGo b s]
  match r with
  | .ok _ =>
    let p := p.mapBay b (fun u => { u with standby := u.standby.set e.target (some ⟨e.cmd, e.onValue⟩) })
    if waiting then goOn p else (p.handRestore b s e.target).later [.releaseGo b s]
  | .discardGone => goOn p
  | .nack => if waiting then p.notIsolated b s e.target .nack none else goOn p
  | .timeout => if waiting then p.notIsolated b s e.target .timeout none else goOn p
  | .discardMute => if waiting then p.notIsolated b s e.target .mute none else goOn p
  | .badLength _ => goOn p

/-- A candidate's OUTPUT_ON of a SHARE check has ended (R82, R160). One that an earlier check or attempt handed over, or that the
check no longer waits for, has no effect (R158). -/
def Part.onCandidate (p : Part) (b : Bay) (s : Slot) (e : Entry) (r : Report) : Part :=
  let current := (p.ctx b s).work.outstanding.contains e.ref
  let p := p.mapWork b s (fun w => { w with outstanding := w.outstanding.filter (· != e.ref) })
  let c := p.ctx b s
  if current && c.phase == .prepare && c.work.step == .sharing then
    let own := e.target == s
    let fix (p : Part) : Part := if c.work.outstanding.isEmpty then p.fixParticipants b s else p
    match r with
    | .ok _ => fix (p.mapWork b s (fun w => { w with participants := w.participants ++ [e.target] }))
    | .nack => if own then p.notIsolated b s s .nack none else fix p
    | .timeout => if own then p else fix p
    | .discardMute => if own then p else fix p
    | .discardGone => fix p
    | .badLength _ => fix p
  else p

/-- A restoring OUTPUT_ON has ended (R24): the member leaves the set, a NACK leaves its output off. -/
def Part.onRestore (p : Part) (b : Bay) (s : Slot) (e : Entry) (r : Report) : Part :=
  let member := (p.bay b).standby[e.target].isSome
  let p := p.mapBay b (fun u => { u with standby := u.standby.set e.target none })
  let p :=
    if r = .nack ∧ member ∧ (p.ctx b e.target).state ≠ .absent then
      p.mapCtx b e.target (fun c => { c with outputOff := true })
    else p
  p.later [.releaseGo b s]

/-- The status byte has been read, or could not be (R72). -/
def Part.onStatus (p : Part) (b : Bay) (s : Slot) (data : List Byte) : Part :=
  let mask := ((p.ctx b s).profile.map Profile.faultMask).getD 0
  if faulted (data.getD 0 0) mask then p.notIsolated b s s .faulted none else p.isolationTest b s

/-- A TRIM_SET has completed in APPLY of an overvoltage check (R80, R81, R120): the peak interval restarts and the trim interval
span runs. -/
def Part.onTrim (p : Part) (b : Bay) (s : Slot) : Part :=
  let c := p.ctx b s
  match c.check.map Check.body with
  | some (.ovp q) =>
    let p := match p.chanOf b s with
      | some ch => p.mapChan ch Channel.restartPeak
      | none => p
    (p.mapWork b s (fun w => { w with step := .trimHeld, await := none })).startSpan b s .trimInterval q.trimInterval
  | _ => p

/-- The OUTPUT_ON of a recovery has completed OK: the power-good watch starts (R79, R128). -/
def Part.watchPowerGood (p : Part) (b : Bay) (s : Slot) : Part :=
  p.mapWork b s (fun w => { w with step := .restoreGood, await := none, watch := some (.powerGood none) })

/-- A transaction to the context's own module has ended, for the step that waits for it (R72, R79 to R81, R88, R141, R143).
A TIMEOUT or a discard for MUTE is acted on as the module's going MUTE (R26), but for a STOP_OUTPUT, whose completion it is: of a
TIMEOUT R88 says so; of a discard for MUTE, when another context's transaction to the module has timed out, the spec does not say
whether it is a completion or R26 ends the context INCOMPLETE (log entry 48, the model's choice). -/
def Part.onOwn (p : Part) (b : Bay) (s : Slot) (e : Entry) (r : Report) : Part :=
  let c := p.ctx b s
  let nominal := (c.plan.map Plan.nominal).getD 0
  if c.work.step = .sharing then p.onCandidate b s e r
  else if c.work.await = some e.ref then
    match c.work.step, r with
    | .ownOn, .ok _ => p.handOwn b s .faultClear 0 .ownClear
    | .ownOn, .nack => p.notIsolated b s s .nack none
    | .ownClear, .ok _ => p.handOwn b s .statusRead 0 .ownStatus
    | .ownClear, .nack => p.handOwn b s .statusRead 0 .ownStatus
    | .ownStatus, .ok data => p.onStatus b s data
    | .ownStatus, .nack => p.isolationTest b s
    | .ownStatus, .badLength _ => p.isolationTest b s
    | .trimSent, .ok _ => p.onTrim b s
    | .trimSent, .nack => p.onTrim b s
    | .restoreWait, .ok _ => p.handOwn b s .trimSet nominal .restoreTrim
    | .restoreWait, .nack => p.handOwn b s .trimSet nominal .restoreTrim
    | .restoreTrim, .ok _ => p.handOwn b s .faultClear 0 .restoreClear
    | .restoreTrim, .nack => p.handOwn b s .faultClear 0 .restoreClear
    | .restoreClear, .ok _ => p.handOwn b s .outputOn 0 .restoreOn
    | .restoreClear, .nack => p.handOwn b s .outputOn 0 .restoreOn
    | .restoreOn, .ok _ => p.watchPowerGood b s
    | .restoreOn, .nack => p.recoverDecided b s true none
    | .noTripTrim, .ok _ => p.enterRelease b s
    | .noTripTrim, .nack => p.enterRelease b s
    | .derateClear, .ok _ => p.handOwn b s .outputOn 0 .derateOn
    | .derateClear, .nack => p.handOwn b s .outputOn 0 .derateOn
    | .derateOn, .ok _ => p.enterRelease b s
    | .derateOn, .nack => (p.mapCtx b s (fun c => { c with outputOff := true })).enterRelease b s
    | .limitRead, .ok data => p.limitRead b s (some (halfAt data 0))
    | .limitRead, .nack => p.limitRead b s none
    | .limitRead, .badLength _ => p.limitRead b s none
    | .stopOutput, .discardGone => p
    | .stopOutput, _ => if c.stopping then (p.endWith b s .fail none).later [.output b s] else p
    | _, _ => p
  else p

/-- A report reaches its requester (R158), or is dropped when the context is ABSENT or carries another admission number. A
completion of an isolating or participating command whose target has fallen is a GONE discard (R160). -/
def Part.onReport (p : Part) (b : Bay) (e : Entry) (r : Report) : Part :=
  let s := e.who.slot
  if (p.ctx b s).isRequester e.who then
    let r' := if e.gone then .discardGone else r
    match e.purpose with
    | .identify => p.onIdentity b s r
    | .isolate => p.onIsolate b s e r'
    | .participate => p.onCandidate b s e r'
    | .restore => p.onRestore b s e r
    | .own => p.onOwn b s e r
  else p

/-! ### The tests on a bay (R11, R18, R20, R23, R176) -/

/-- The number of contexts of a bay that meet `f`. -/
def BayUnit.countCtx (u : BayUnit) (f : Ctx → Bool) : Nat := (allSlots.filter (fun s => f (u.ctx s))).length

/-- Every context of the bay meets `f`. -/
def BayUnit.allCtx (u : BayUnit) (f : Ctx → Bool) : Bool := allSlots.all (fun s => f (u.ctx s))

/-- The counts of a BAY_ADMIT's answer (R11, R197). -/
def BayUnit.admitCounts (u : BayUnit) : List (Nat × Nat × Nat) :=
  [(0x44, 1, u.countCtx (fun c => c.state == .planned || c.state == .running)),
   (0x45, 1, u.countCtx (fun c => c.state == .unplanned)), (0x46, 1, u.countCtx (fun c => c.state == .ended)),
   (0x47, 1, u.countCtx (fun c => c.state == .absent))]

/-- A context waits to be started (R9, R16). -/
def Ctx.startable (c : Ctx) : Bool := c.state == .planned && c.exit == .stay

/-- The contexts of a bay that meet `f` become RUNNING at check index 0 (R11, R16, R21), and stand at their first boundary, in
ascending slot order: R106 for their bus requests, the model's choice for those that join a zone (log entry 50). -/
def Part.startCtxs (p : Part) (b : Bay) (f : Ctx → Bool) : Part :=
  let l := allSlots.filter (fun s => f (p.ctx b s))
  let p := l.foldl (fun p s => p.mapCtx b s (fun c => { c with state := .running, checkIndex := 0 })) p
  p.later (l.map (fun s => .boundary b s))

/-- A bay leaves ADMITTING (R11). -/
def Part.admitted (p : Part) (b : Bay) : Part :=
  let u := p.bay b
  let counts := u.admitCounts
  let p := p.mapBay b (fun u => { u with state := if u.start = .auto then .running else .ready })
  let p := p.answerPending b .done counts
  if u.start = .auto then (p.startCtxs b Ctx.startable).later [.bayTest b] else p

/-- The bay record on entering EMPTY (R2, last column); the records' buffer is empty. -/
def BayUnit.emptied (u : BayUnit) : BayUnit :=
  { u with
    state := .empty, cause := none, standby := Vector.replicate 6 none, busHolder := none, busQueue := []
    pendingOrder := none, firstPage := none, currentPage := none, pageCount := 0, waiting := false, pageFull := false
    buffer := [], line := [] }

/-- A bay enters EMPTY (R2, R23): its record takes its values, and the arbiter's tables hold nothing of it. Its contexts' abort
paths have given back bus and channel by then (R109), so that nothing is taken from a context here. -/
def Part.enterEmpty (p : Part) (b : Bay) : Part :=
  (p.mapBay b BayUnit.emptied).clearGrants b

/-- A WITHDRAWING bay's contexts are ABSENT and its records written (R23, R176). -/
def BayUnit.drained (u : BayUnit) : Bool := u.allCtx (fun c => c.state == .absent) && u.buffer.isEmpty && u.line.isEmpty

/-- A WITHDRAWING bay closes its page, and enters EMPTY when all is done (R23, R176). -/
def Part.withdrawTest (p : Part) (b : Bay) : Part :=
  let u := p.bay b
  if u.drained then
    match u.currentPage with
    | some page =>
      if u.pageFull then (if u.standbyEmpty then (p.answerPending b .done []).enterEmpty b else p)
      else if page ∈ u.fullWrites then p
      else p.mapBay b (fun u => { u with fullWrites := u.fullWrites ++ [page] })
    | none => if u.standbyEmpty then (p.answerPending b .done []).enterEmpty b else p
  else p

/-- A context no longer keeps a RUNNING bay from FINISHED (R18). -/
def Ctx.finished (c : Ctx) : Bool := c.state == .ended || c.state == .unplanned || c.state == .absent

/-- The tests of R11, R18, R20 and R23 on a bay. -/
def Part.bayTest (p : Part) (b : Bay) : Part :=
  let u := p.bay b
  match u.state with
  | .admitting => if u.allCtx (fun c => c.state != .identifying) then p.admitted b else p
  | .running => if u.allCtx Ctx.finished then p.mapBay b (fun u => { u with state := .finished }) else p
  | .holding =>
    if u.allCtx (fun c => c.state != .running) then
      (p.mapBay b (fun u => { u with state := .held })).answerPending b .done []
    else p
  | .withdrawing => p.withdrawTest b
  | _ => p

/-! ### Room in the buffer (R69, R166) -/

/-- A record has left a bay's buffer: every context at a boundary makes the test of R69 again, in ascending slot order (R106). In that
order too those whose check is DERATE join their zone and, where it is OPEN, hand over their LIMIT_READs: R151 allows either order of
those hand-overs (log entry 50, the model's choice). -/
def Part.roomMade (p : Part) (b : Bay) : Part :=
  p.later ((allSlots.filter (fun s => (p.ctx b s).atBoundary)).map (fun s => .boundary b s))

/-! ### Withdrawal (R22, R109) -/

/-- A bay enters WITHDRAWING, and its entries leave the arbiter's queues (R22, R109); a bay already withdrawing keeps its cause. -/
def Part.beginWithdraw (p : Part) (b : Bay) (cause : Cause) : Part :=
  if (p.bay b).state = .withdrawing then p
  else (p.mapBay b (fun u => { u with state := .withdrawing, cause := some cause })).clearQueues b

/-- The slots of a bay whose contexts owe a record. -/
def BayUnit.owing (u : BayUnit) : List Slot :=
  allSlots.filter (fun s => (u.ctx s).out.any (fun o => match o with
    | .record _ => true
    | .verdict _ _ => true
    | _ => false))

/-- The contexts of a withdrawing bay act by R22, in slot order; their records are made ready in a free order (R166). The closing test
of a zone whose list several of them leave comes when all have left: R140 does not say whether it comes between them (DESIGN CHOICE,
log entry 59). -/
def Part.withdrawCtxs (p : Part) (b : Bay) (cause : Cause) : Part :=
  let p := allSlots.foldl (fun p s => p.removeCtx b s cause none) p
  let owing := (p.bay b).owing
  let rest := allSlots.filter (fun s => !(s ∈ owing) && (p.ctx b s).state != .absent)
  let p := p.later (rest.map (fun s => .output b s))
  (p.outputs (owing.map (fun s => (b, s)))).later [.bayTest b]

end Sys2Proof.Machine
end

