-- ==== Sys2Proof/Machine/Writer.lean ====
section
/-! DEFINITION. The Result Writer (09_result_pages.md): scans, claims, drains, FULL writes; and the byte ranges of every write the part makes into the
Book (R188, R171, R172, R194). -/

namespace Sys2Proof.Machine

/-! ### Addresses (R197 to R200) -/

/-- The address of order slot `o` (R197). -/
def Part.slotAddr (p : Part) (o : OrderSlot) : Nat := p.base + 0x0200 + 128 * o.val

/-- The address of the board of bay `b` (R198). -/
def Part.boardAddr (p : Part) (b : Bay) : Nat := p.base + 0x1000 + 256 * b.val

/-- The address of page `n` (R169, R200). -/
def Part.pageAddr (p : Part) (n : Nat) : Nat := p.base + (p.settings.map Settings.poolOffset).getD 0 * 4096 + 4096 * n

/-- The number of pages of the pool in use (R169). -/
def Part.poolCount (p : Part) : Nat := (p.settings.map Settings.poolCount).getD 0

/-- The address of record position `k` of page `n` (R169, R200). -/
def Part.recordAddr (p : Part) (n k : Nat) : Nat := p.pageAddr n + 64 * (k + 1)

/-! ### The writes, as (address, bytes) -/

/-- A write into the Book: an address and the bytes from there on. -/
abbrev BookWrite := Nat × List Byte

/-- The TAKEN mark write (R193). -/
def Part.takenBytes (p : Part) (o : OrderSlot) : BookWrite := (p.slotAddr o, [2])

/-- The write of an answer at its stage (R188, R197). -/
def Part.answerBytes (p : Part) (o : OrderSlot) (a : Answering) : BookWrite :=
  match a.stage with
  | .waiting => (p.slotAddr o, [])
  | .fields => (p.slotAddr o + 0x44, a.fields)
  | .code => (p.slotAddr o + 0x40, [BitVec.ofNat 8 a.code.code])
  | .tag => (p.slotAddr o + 0x42, leBytes 2 p.slotTags[o].toNat)
  | .mark => (p.slotAddr o, [3])

/-- The write count of a board's rewrite, increased by one (R29, R198). -/
def Part.boardCount (p : Part) (b : Bay) : List Byte := leBytes 2 ((p.bay b).writeCount + 1)

/-- The rewrite of a board (R194, R198): its content, and behind it the write count. -/
def Part.boardBytes (p : Part) (b : Bay) (content : List (Nat × Nat)) : BookWrite :=
  (p.boardAddr b, fieldBytes content ++ p.boardCount b)

/-- The write of a claim at its stage (R171). -/
def Part.claimBytes (p : Part) (c : Claim) : BookWrite :=
  match c.stage with
  | .head => (p.pageAddr c.page + 1, pageHeadBytes c.bay (p.bay c.bay).pageSeq)
  | .filling => (p.pageAddr c.page, [1])
  | .link => (p.pageAddr (((p.bay c.bay).currentPage).getD 0) + 4, leBytes 2 c.page)

/-- The record write of a bay at its stage (R172). -/
def Part.drainBytes (p : Part) (b : Bay) : BookWrite :=
  let u := p.bay b
  let page := u.currentPage.getD 0
  match u.drain, u.buffer with
  | .fields, r :: _ => (p.recordAddr page u.pageCount, r.bytes p.free)
  | .done, _ :: _ => (p.recordAddr page u.pageCount + 0x3F, [1])
  | .count, _ :: _ => (p.pageAddr page + 6, [BitVec.ofNat 8 (u.pageCount + 1)])
  | _, _ => (p.pageAddr page, [])

/-- The FULL mark write of a page (R173, R176). -/
def Part.fullBytes (p : Part) (page : Nat) : BookWrite := (p.pageAddr page, [2])

/-- The bays whose record write is writing the page's record count. -/
def Part.countingBays (p : Part) : List Bay := allBays.filter (fun b => (p.bay b).drain == .count)

/-- The writes in progress of answers whose stage meets `f` (R188). -/
def Part.answerWrites (p : Part) (f : AnswerStage → Bool) : List BookWrite :=
  (List.finRange 16).flatMap (fun o => (p.answers[o].toList.filter (fun a => f a.stage)).map (p.answerBytes o))

/-- The writes in progress whose bytes land in any part when they are cut short: all but the ANSWERED marks of order slots, the rewrite
of a board and the record counts of pages. -/
def Part.plainWrites (p : Part) : List BookWrite :=
  p.takenWrite.toList.map p.takenBytes
  ++ p.answerWrites (· != .mark)
  ++ p.claim.toList.map p.claimBytes
  ++ (allBays.filter (fun b => (p.bay b).drain != .count)).map p.drainBytes
  ++ allBays.flatMap (fun b => (p.bay b).fullWrites.take 1 |>.map p.fullBytes)

/-- The rewrite of a board in progress: its bay and content. -/
def Part.boardWrite (p : Part) : Option (Bay × List (Nat × Nat)) :=
  match p.sweep with
  | .boards _ b content _ => some (b, content)
  | _ => none

/-- Every write in progress (R177, R186, R187). -/
def Part.writesInProgress (p : Part) : List BookWrite :=
  p.plainWrites ++ p.boardWrite.toList.map (fun w => p.boardBytes w.1 w.2) ++ p.countingBays.map p.drainBytes
    ++ p.answerWrites (· == .mark)

/-- A completed write reaches host memory. -/
def Memory.put (m : Memory) (w : BookWrite) : Memory := m.writeBytes w.1 w.2

/-- A board's rewrite cut short (R29, R194, log entry 5): the write count is written after the other fields, so that bytes of it land
only where all of those have landed. -/
def Memory.cutBoard (m : Memory) (k a : Nat) (fields count : List Byte) : Memory :=
  if Config.landed k (fields.length + count.length) then
    (m.writeBytes a fields).writeLanded k (a + fields.length) fields.length count
  else m.writeLanded k a 0 fields

/-- Writes cut short reach host memory in a free part of their bytes (log entry 5). -/
def Memory.cut (m : Memory) (k : Nat) : List BookWrite → Memory
  | [] => m
  | w :: l => Memory.cut (m.writeLanded k w.1 0 w.2) (k + 1) l

/-! ### Scans (R170, R174, R175) -/

/-- A page is the current page of some bay. -/
def Part.isCurrent (p : Part) (n : Nat) : Bool := allBays.any (fun b => (p.bay b).currentPage == some n)

/-- The page after page `n` of a pool of `count`, wrapping to 0. -/
def pageAfter (count n : Nat) : Nat := if n + 1 < count then n + 1 else 0

/-- The next page that a scan reads, of `left` pages from `n` on, with the number of pages left behind it; the current pages of
bays are passed over without reading (R170). -/
def nextToRead (count : Nat) (skip : Nat → Bool) (n : Nat) : Nat → Option (Nat × Nat)
  | 0 => none
  | left + 1 => if skip n then nextToRead count skip (pageAfter count n) left else some (n, left)

/-- A rescan is over (R175). -/
def Part.rescanOver (p : Part) (b : Bay) : Part :=
  match p.sweep with
  | .rescans k l => { p with sweep := .rescans k (l.filter (· != b)) }
  | _ => p

/-- A scan ends dry (R174). -/
def Part.scanDry (p : Part) (b : Bay) (rescan : Bool) : Part :=
  let p := { p with scan := none }
  let p := p.mapBay b (fun u => { u with waiting := true })
  let p := if p.dry then p else { p with dry := true }.notify .poolDry
  (if rescan then p.rescanOver b else p).later [.writer]

/-- A scan goes on from page `n` with `left` pages to look at, or ends dry (R170). -/
def Part.scanFrom (p : Part) (b : Bay) (rescan : Bool) (n left : Nat) : Part :=
  match nextToRead p.poolCount p.isCurrent n left with
  | some (page, rest) => { p with scan := some ⟨b, page, rest, rescan⟩ }
  | none => p.scanDry b rescan

/-- A bay needs a page and may claim one (R170). -/
def BayUnit.needsPage (u : BayUnit) : Bool :=
  !u.buffer.isEmpty && (u.currentPage.isNone || u.pageCount == Config.pageRecords) && !u.waiting

/-- The bays whose scans may start now, with whether it is a rescan (R170, R175). -/
def Part.scanCandidates (p : Part) : List (Bay × Bool) :=
  let needs := (allBays.filter (fun b => (p.bay b).needsPage)).map (fun b => (b, false))
  match p.sweep with
  | .rescans _ l => needs ++ (l.filter (fun b => (p.bay b).waiting)).map (fun b => (b, true))
  | _ => needs

/-- A bay's record write may start (R168, R172). -/
def Part.mayDrain (p : Part) (b : Bay) : Bool :=
  let u := p.bay b
  u.drain == .idle && !u.buffer.isEmpty && !u.waiting && u.currentPage.isSome && decide (u.pageCount < Config.pageRecords)
    && p.claim.all (fun c => c.bay != b)

/-- The Result Writer starts what it can (R168, R170): the record writes of the bays that may drain, and a scan when none is in
progress. -/
def Part.writer (p : Part) : Part :=
  let p := allBays.foldl (fun p b => if p.mayDrain b then p.mapBay b (fun u => { u with drain := .fields }) else p) p
  if p.scan.isNone && p.claim.isNone then
    let r := p.choose p.scanCandidates
    match r.1 with
    | none => p
    | some x => r.2.scanFrom x.1 x.2 r.2.cursor r.2.poolCount
  else p

/-- An owner mark has been read (R170): a FREE page is claimed, any other passed over. -/
def Part.pageMarkRead (p : Part) (mark : Byte) : Part :=
  match p.scan with
  | none => p
  | some s =>
    if mark = 0 then
      let p := { p with scan := none, claim := some ⟨s.bay, s.page, .head⟩ }
      if s.rescan then p.rescanOver s.bay else p
    else p.scanFrom s.bay s.rescan (pageAfter p.poolCount s.page) s.left

/-! ### Claims (R171) -/

/-- The bay record at the completion of a claim (R171). -/
def BayUnit.claimed (page : Nat) (u : BayUnit) : BayUnit :=
  { u with
    currentPage := some page, pageCount := 0, pageFull := false, waiting := false
    firstPage := if u.firstPage.isNone then some page else u.firstPage, pageSeq := (u.pageSeq + 1) % 65536 }

/-- A claim is complete (R171, R174). A bay that a later sweep has listed as waiting while its claim was being written waits no longer
and makes no rescan (R175). -/
def Part.claimDone (p : Part) (c : Claim) : Part :=
  let p := { p.mapBay c.bay (BayUnit.claimed c.page) with claim := none, cursor := pageAfter p.poolCount c.page }
  let p := p.rescanOver c.bay
  let p := if allBays.all (fun b => !(p.bay b).waiting) then { p with dry := false } else p
  p.later [.writer]

/-! ### Record writes and FULL marks (R172, R173, R176) -/

/-- The front of the entry line enters the buffer, and its producer goes on (R166). -/
def Part.lineEnters (p : Part) (b : Bay) : Part :=
  match (p.bay b).line with
  | [] => p
  | e :: l =>
    let p := p.mapBay b (fun u => { u with buffer := u.buffer ++ [e.record], line := l })
    (p.mapCtx b e.slot (fun c => { c with inLine := false })).later [.output b e.slot]

/-- The record count has been written (R172, R173): the record leaves the buffer, the entry line moves up, and a 63rd record is
followed by the FULL mark. -/
def Part.recordLeft (p : Part) (b : Bay) : Part :=
  let p := p.mapBay b (fun u => { u with drain := .idle, buffer := u.buffer.drop 1, pageCount := u.pageCount + 1 })
  let u := p.bay b
  let p := match u.currentPage with
    | some page =>
      if u.pageCount = Config.pageRecords then p.mapBay b (fun u => { u with fullWrites := u.fullWrites ++ [page] }) else p
    | none => p
  (p.lineEnters b).later [.roomMade b, .writer, .bayTest b]

/-- A FULL mark has been written (R173, R176). -/
def Part.fullWritten (p : Part) (b : Bay) (page : Nat) : Part :=
  let p := p.mapBay b (fun u =>
    { u with fullWrites := u.fullWrites.drop 1, pageFull := u.pageFull || u.currentPage == some page })
  (p.notify .results).later [.bayTest b]

end Sys2Proof.Machine
end

