-- ==== Sys2Proof/Machine/Port.lean ====
section
/-! DEFINITION. The Book Port (10_the_station_book.md): sweeps, stopping passes and the final pass, the changed boards, the stop, the halt and the resets. -/

namespace Sys2Proof.Machine

/-! ### Sweeps and passes (R185, R189 to R194) -/

/-- A sweep begins by reading the owner marks (R191); the sweep timer is stopped (R189). -/
def Part.startSweep (p : Part) : Part := { p with sweep := .marks, sweepTimer := none }

/-- The waiting bays, each of which makes one rescan (R175). -/
def Part.waitingBays (p : Part) : List Bay := allBays.filter (fun b => (p.bay b).waiting)

/-- The taking of a sweep has ended, or a stopping pass begins: the waiting bays make their rescans (R175, R185, R194).
The list is fixed here: a bay that comes to wait while they are made rescans at the next sweep or pass, a choice of the model (log
entry 56). -/
def Part.rescan (p : Part) (k : PassKind) : Part :=
  { p with sweep := .rescans k p.waitingBays, sweepTimer := none }.later [.writer]

/-- The bays whose board content has changed since it was last written (R29). -/
def Part.changedBays (p : Part) : List Bay := allBays.filter (fun b => (p.bay b).boardChanged)

/-- A sweep or pass ends (R185, R190, R194): a further sweep when nudged, else the sweep timer starts; the final pass of a stop
has been made. -/
def Part.passOver (p : Part) (k : PassKind) : Part :=
  match k with
  | .final => { p with sweep := .finished, sweepTimer := none }
  | _ =>
    if p.nudge && p.phase == .running then { p with nudge := false }.startSweep
    else { p with sweep := .idle, sweepTimer := some (p.timer (sweepTicks p.sweepCode)) }

/-- The boards of the list are rewritten one after the other: the rewrite of the first begins, with the content as it stands, or
the pass is over (R29, R194). -/
def Part.boardGo (p : Part) (k : PassKind) : List Bay → Part
  | [] => p.passOver k
  | b :: l =>
    { p.mapBay b (fun u => { u with boardChanged := false }) with sweep := .boards k b (p.boardFields b) l }

/-- Once no rescan is outstanding, the changed boards are rewritten (R185, R194). Which boards those are is fixed here: a board that
first changes while another's rewrite is in progress is left to the next sweep, on which the spec is silent (log entry 14, the
model's choice). -/
def Part.boardPass (p : Part) : Part :=
  match p.sweep with
  | .rescans k [] => p.boardGo k p.changedBays
  | _ => p

/-- Every bay is EMPTY. -/
def Part.allEmpty (p : Part) : Bool := allBays.all (fun b => (p.bay b).state == .empty)

/-- The final pass of a stop is due (R185). It waits for the end of a sweep or stopping pass still in progress: R185 says that the pass
is made at once, and that a sweep cut short still ends as R194 gives (log entry 13, the model's choice). -/
def Part.finalDue (p : Part) : Bool := p.phase == .stopping && p.sweep == .idle && !p.stopOwed && p.allEmpty

/-- The final pass of a stop (R185). The sweep timer is stopped as it begins, so that no stopping pass falls into it; R185 and R189 stop
it on entering IDLE, at the pass's end (log entry 13, the model's choice). -/
def Part.finalPass (p : Part) : Part :=
  if p.finalDue then { p with sweep := .rescans .final [], sweepTimer := none }.boardPass else p

/-- No access to the Book is in progress. -/
def Part.quiet (p : Part) : Bool :=
  p.takenWrite.isNone && p.answers.toList.all Option.isNone && p.planEnter.isNone && p.admReads.isEmpty && p.scan.isNone
    && p.claim.isNone && allBays.all (fun b => (p.bay b).drain == .idle && (p.bay b).fullWrites.isEmpty)

/-- The part leaves STOPPING for IDLE once the final pass is made and no access is in progress (R182, R185, log entry 13). -/
def Part.idleTest (p : Part) : Part :=
  if p.phase == .stopping && p.sweep == .finished && p.quiet then
    { p with phase := .idle, sweep := .idle, sweepTimer := none, nudge := false }
  else p

/-- The content last given for a board whose rewrite is in progress. -/
def Part.rewriting (p : Part) (b : Bay) : Option (List (Nat × Nat)) :=
  match p.sweep with
  | .boards _ b' content _ => if b' = b then some content else none
  | _ => none

/-- The bay's board counts as changed when its content after a command differs from what it was before (R4, R29, R129), unless
it is what the rewrite in progress writes. -/
def Part.markBoard (old p : Part) (b : Bay) : Part :=
  let now := p.boardFields b
  if now != old.boardFields b && p.rewriting b != some now then p.mapBay b (fun u => { u with boardChanged := true }) else p

/-- Every board is tested for change. -/
def Part.markBoards (old p : Part) : Part := allBays.foldl (Part.markBoard old) p

/-- What a command ends with: the changed boards are marked, and the pass or the stop goes on where it can. -/
@[irreducible] def Part.finish (old p : Part) : Part := (Part.markBoards old p).boardPass.finalPass.idleTest

/-! ### Stopping (R185, R22, R138) -/

/-- Every pending long order is answered STOPPED, and every bay that is not EMPTY begins its withdrawal (R22, R109, R185). -/
def Part.beginStops (p : Part) : Part :=
  allBays.foldl (fun p b =>
    if (p.bay b).state = .empty then p else (p.answerPending b .stopped []).beginWithdraw b .stopped) p

/-- The withdrawals of a stop (R185). -/
def Part.stopWithdrawals (p : Part) : Part :=
  let p := { p with stopOwed := false, zones := tab2 (fun z => (p.zone z).stop p.tick) }
  let p := p.beginStops
  allBays.foldl (fun p b => if (p.bay b).state = .withdrawing then p.withdrawCtxs b .stopped else p) p

/-- A taking is in progress (R185). -/
def Sweep.taking : Sweep → Bool
  | .copying _ _ => true
  | .handling _ _ => true
  | _ => false

/-- The part enters STOPPING (R138, R185). -/
def Part.enterStopping (p : Part) : Part :=
  let p := { p with phase := .stopping, nudge := false, zones := tab2 (fun z => (p.zone z).stop p.tick) }
  if p.sweep.taking then { p with stopOwed := true } else p.stopWithdrawals

/-! ### Halting (R186) -/

/-- An access of this kind is in progress. -/
def Part.accessing (p : Part) : FailedAccess → Bool
  | .headRead => p.attempt || decide (0 < p.staleReads)
  | .slotRead => match p.sweep with
    | .marks => true
    | .copying _ _ => true
    | _ => false
  | .slotWrite => p.takenWrite.isSome || p.answers.toList.any (fun a => a.any (fun a => a.stage != .waiting))
  | .boardWrite => match p.sweep with
    | .boards _ _ _ _ => true
    | _ => false
  | .planRead => p.planEnter.isSome || p.admReads.any AdmRead.plan
  | .samplingRead => p.admReads.any (fun r => !r.plan)
  | .pageRead => p.scan.isSome
  | .pageWrite => p.claim.isSome || allBays.any (fun b => (p.bay b).drain != .idle || !(p.bay b).fullWrites.isEmpty)

/-- The ranges of the Book that the part is reading, as (address, length): heads (R183), owner marks and the order copied (R191), the
plan record of a PLAN_ENTER (R44), sampling bytes and plan records of admissions (R13), the owner mark of a page (R170). -/
def Part.readsInProgress (p : Part) : List (Nat × Nat) :=
  List.replicate (bit p.attempt + p.staleReads) (p.base, 64)
  ++ (match p.sweep with
    | .marks =>
      ((List.finRange 16).filter (fun o => decide (o.val < (p.settings.map Settings.slotCount).getD 0))).map
        (fun o => (p.slotAddr o, 1))
    | .copying o _ => [(p.slotAddr o + 1, 63)]
    | _ => [])
  ++ p.planEnter.toList.map (fun r => (p.planAddr r.ref, 512))
  ++ p.admReads.map (fun r => (r.addr, if r.plan then 512 else 1))
  ++ p.scan.toList.map (fun c => (p.pageAddr c.page, 1))

/-- A context at a halt: its spans, measurement and watch are stopped; all else keeps (R2, R94, R205). -/
def Ctx.halt (c : Ctx) : Ctx := c.mapWork Work.stopped

/-- A bay at a halt (R2, R162, R177): the record being written stays; its writes end. -/
def BayUnit.halt (u : BayUnit) : BayUnit :=
  { u with ctxs := tab6 (fun s => (u.ctx s).halt), link := u.link.halt, drain := .idle, fullWrites := [] }

/-- The part enters HALTED with the halt cause of the failed access (R121, R129, R162, R177, R186). -/
def Part.enterHalted (p : Part) (a : FailedAccess) : Part :=
  { p with
    phase := .halted, haltCause := some a, attempt := false, staleReads := 0, sweep := .idle, sweepTimer := none
    nudge := false, stopOwed := false, takenWrite := none, answers := Vector.replicate 16 none, planEnter := none
    admReads := [], scan := none, claim := none, bays := tab8 (fun b => (p.bay b).halt)
    chans := tab4 (fun c => (p.chan c).halt p.samples), zones := tab2 (fun z => (p.zone z).halt p.tick)
    free := p.free + p.writesInProgress.length }.notify .fault

/-! ### Resets (R182, R187) -/

/-- The part after a power-on reset; the model's counter of free values goes on. -/
def Part.powerOn (p : Part) : Part := { Part.reset with free := p.free + p.writesInProgress.length }

/-- The part after a station reset (R187): the reset values of every chapter, but for the Station Clock, the monotonic tick, the
sample instants, and the count of messages already sent. -/
def Part.stationReset (p : Part) : Part :=
  { Part.reset with
    seconds := p.seconds, fraction := p.fraction, trusted := p.trusted, tick := p.tick, samples := p.samples
    messages := p.messages, zones := Vector.replicate 2 (Zone.resetAt p.tick)
    free := p.free + p.writesInProgress.length }

/-! ### The Book head (R183, R184) -/

/-- A head is accepted (R184): settings in use, directory, scan cursor, changed boards, RUNNING, and the first sweep. -/
def Part.acceptHead (p : Part) (h : List Byte) : Part :=
  { p with
    attempt := false, settings := some (headSettings h), dir := p.dir.take (headKey h) (headMask h), cursor := 0
    bays := tab8 (fun b => { p.bay b with boardChanged := true }), phase := .running, nudge := false
    stopOwed := false }.startSweep

/-- A head is rejected (R183). -/
def Part.rejectHead (p : Part) (c : HeadCause) : Part :=
  { p with attempt := false, headRejected := true, headCause := some c }.notify .fault

/-- A head read completes (R183): a cancelled one is not judged. -/
def Part.headRead (p : Part) (h : List Byte) : Part :=
  if 0 < p.staleReads then { p with staleReads := p.staleReads - 1 }
  else if p.attempt then
    match judgeHead h with
    | none => p.acceptHead h
    | some c => p.rejectHead c
  else p

end Sys2Proof.Machine
end

