-- ==== Sys2Proof/Machine/Orders.lean ====
section
/-! DEFINITION. The orders (10_the_station_book.md, section 10.5, with the rules of their owners): the picking of POSTED slots, one handler for
each order code, the reads of a PLAN_ENTER, and what the sweep does when an order has been dealt with. Orders are read by
their offsets within the slot (R197). -/

namespace Sys2Proof.Machine

/-! ### Plan orders (R41 to R47) -/

/-- The plan-shelf count in use (R42). -/
def Part.shelfCount (p : Part) : Nat := (p.settings.map Settings.shelfCount).getD 0

/-- A reference field, absent at 0xFFFF (R34). -/
def refAt (l : List Byte) (i : Nat) : Option Nat := if halfAt l i = 0xFFFF then none else some (halfAt l i)

/-- The four references of a PLAN_ENTER (R197). -/
def orderRefs (l : List Byte) : Refs := ⟨halfAt l 0x10, refAt l 0x12, refAt l 0x14, refAt l 0x16⟩

/-- The match kind of a code (R34, R42). -/
def matchKindOf : Nat → Option MatchKind
  | 0 => some .exact
  | 1 => some .family
  | _ => none

/-- The bad field of a PLAN_ENTER out of range, as its code in the answer (R42, R197). -/
def badPlanField (count : Nat) (l : List Byte) : Option Nat :=
  let bad (r : Option Nat) : Bool := r.any (fun n => decide (count ≤ n))
  let r := orderRefs l
  if (matchKindOf (byteAt l 0x04)).isNone then some 0
  else if count ≤ r.v0 ∨ r.v0 = 0xFFFF then some 1
  else if bad r.v1 then some 2
  else if bad r.v2 then some 3
  else if bad r.v3 then some 4
  else none

/-- The entry that a PLAN_ENTER would insert, and the digest its bucket is taken from (R43). -/
def Directory.orderEntry (d : Directory) (k : MatchKind) (l : List Byte) : DirEntry × Word :=
  let stored := d.stored k (identityAt l 0x06)
  let g := d.digestFor stored
  (⟨k, stored, bucketOf g, orderRefs l⟩, g)

/-- The refusal of an entry by the directory, if it refuses it (R43). -/
def Directory.refusal (d : Directory) (e : DirEntry) : Option (AnswerCode × List (Nat × Nat × Nat)) :=
  match d.duplicate e.kind e.identity with
  | some x => some (.refusedDuplicate, [(0x44, 1, x.val), (0x46, 1, positionIn (d.chain e.bucket) x)])
  | none =>
    if d.lowestFree.isNone then some (.refusedFull, [(0x44, 1, 0)])
    else if 16 ≤ (d.chain e.bucket).length then some (.refusedFull, [(0x44, 1, 1), (0x45, 1, e.bucket.val)])
    else none

/-- A PLAN_ENTER's entry is inserted and the order answered DONE (R45). -/
def Part.insertEntry (p : Part) (o : OrderSlot) (e : DirEntry) (g : Word) : Part :=
  match p.dir.lowestFree with
  | none => p.answer o .refusedFull [(0x44, 1, 0)]
  | some x =>
    let position := (p.dir.chain e.bucket).length
    { p with dir := p.dir.insertAt x e }.answer o .done
      [(0x44, 1, x.val), (0x45, 1, e.bucket.val), (0x46, 1, position), (0x48, 4, g.toNat)]

/-- A PLAN_ENTER goes on to the read of its next reference, or to the insertion (R44, R45). -/
def Part.planEnterNext (p : Part) (o : OrderSlot) (e : DirEntry) (g : Word) : List (Fin 4 × Nat) → Part
  | [] => { p with planEnter := none }.insertEntry o e g
  | (v, n) :: l => { p with planEnter := some ⟨o, e, g, v, n, l⟩ }

/-- PLAN_ENTER (R42, R43). -/
def Part.orderPlanEnter (p : Part) (o : OrderSlot) (l : List Byte) : Part :=
  match badPlanField p.shelfCount l, matchKindOf (byteAt l 0x04) with
  | some f, _ => p.answer o .refusedRange [(0x44, 1, f)]
  | none, none => p.answer o .refusedRange [(0x44, 1, 0)]
  | none, some k =>
    let e := p.dir.orderEntry k l
    match p.dir.refusal e.1 with
    | some r => p.answer o r.1 r.2
    | none => p.planEnterNext o e.1 e.2 e.1.refs.present

/-- A plan record read for a PLAN_ENTER has completed (R44, R45). -/
def Part.planEnterRead (p : Part) (bytes : List Byte) : Part :=
  match p.planEnter with
  | none => p
  | some r =>
    match validate bytes with
    | .valid _ => p.planEnterNext r.slot r.entry r.digest r.rest
    | .invalid bad =>
      { p with planEnter := none }.answer r.slot .badPlan [(0x44, 1, r.variant.val), (0x46, 2, r.ref), (0x48, 1, bad)]

/-- PLAN_REMOVE (R46). -/
def Part.orderPlanRemove (p : Part) (o : OrderSlot) (l : List Byte) : Part :=
  if h : byteAt l 0x04 < 128 then
    let x : Fin 128 := ⟨byteAt l 0x04, h⟩
    match p.dir.entry x with
    | none => p.answer o .noEntry []
    | some e =>
      let position := positionIn (p.dir.chain e.bucket) x
      { p with dir := p.dir.removeAt x e }.answer o .done
        ([(0x44, 1, e.kind.code), (0x45, 1, e.bucket.val), (0x46, 1, position)] ++ e.refs.answer 0x48)
  else p.answer o .refusedRange []

/-- The answer fields of a PLAN_QUERY (R47, R197). -/
def Directory.queryAnswer (d : Directory) (i : Identity) : List (Nat × Nat × Nat) :=
  let g := digest d.key i.input
  let f := digest d.key (i.family d.mask).input
  let n := (d.chain (bucketOf g)).length
  let m := (d.chain (bucketOf f)).length
  let found (code : Nat) (r : Fin 128 × Nat × DirEntry) : List (Nat × Nat × Nat) :=
    [(0x44, 1, code), (0x47, 1, r.1.val), (0x50, 1, r.2.1)] ++ r.2.2.refs.answer 0x52
  [(0x45, 1, n), (0x46, 1, m), (0x48, 4, g.toNat), (0x4C, 4, f.toNat)] ++
  if n = 0 ∧ m = 0 then [(0x44, 1, 0)]
  else
    match d.identityWalk i with
    | some r => found 2 r
    | none =>
      match d.familyWalk i with
      | some r => found 3 r
      | none => [(0x44, 1, 1)]

/-- PLAN_QUERY (R47). -/
def Part.orderPlanQuery (p : Part) (o : OrderSlot) (l : List Byte) : Part :=
  p.answer o .done (p.dir.queryAnswer (identityAt l 0x06))

/-! ### Bay orders (R3, R10 to R23) -/

/-- The start policy of a code (R10). -/
def startPolicyOf : Nat → Option StartPolicy
  | 0 => some .auto
  | 1 => some .wait
  | _ => none

/-- The insert policy of a code (R10). -/
def insertPolicyOf : Nat → Option InsertPolicy
  | 0 => some .join
  | 1 => some .park
  | _ => none

/-- A bay takes a BAY_ADMIT (R10): policies, pending long order, ADMITTING, the scan in ascending slot order, and the test of
R11. -/
def Part.admitBay (p : Part) (o : OrderSlot) (b : Bay) (start : StartPolicy) (insert : InsertPolicy) : Part :=
  let p := p.mapBay b (fun u => { u with state := .admitting, start := start, insert := insert, pendingOrder := some o })
  let p := (allSlots.filter (fun s => (p.bay b).present s)).foldl (fun p s => p.identify b s) p
  p.later [.bayTest b]

/-- BAY_ADMIT (R3, R10): the policies are tested before the bay's state. Where both policy codes are bad, the answer names the start
policy: the spec orders the two tests nowhere (log entry 44, the model's choice). -/
def Part.orderAdmit (p : Part) (o : OrderSlot) (b : Bay) (l : List Byte) : Part :=
  match startPolicyOf (byteAt l 0x05), insertPolicyOf (byteAt l 0x06) with
  | none, _ => p.answer o .refusedRange [(0x44, 1, 1)]
  | some _, none => p.answer o .refusedRange [(0x44, 1, 2)]
  | some start, some insert =>
    if (p.bay b).state = .empty then p.admitBay o b start insert else p.answer o .refusedBusy []

/-- The state of a bay after a BAY_START that starts `n` contexts (R16). -/
def BayState.started (st : BayState) (n : Nat) : BayState :=
  match st with
  | .ready => .running
  | .finished => if 0 < n then .running else .finished
  | st => st

/-- BAY_START (R3, R16). -/
def Part.orderStart (p : Part) (o : OrderSlot) (b : Bay) : Part :=
  let u := p.bay b
  if u.state = .ready ∨ u.state = .running ∨ u.state = .finished then
    let n := u.countCtx Ctx.startable
    let p := (p.mapBay b (fun u => { u with state := u.state.started n })).answer o .done [(0x44, 1, n)]
    (p.startCtxs b Ctx.startable).later [.bayTest b]
  else p.answer o .refusedBusy []

/-- A check in progress of a context is not DERATE and the context waits in a phase (R107). -/
def Ctx.waitsIn (ph : Phase) (c : Ctx) : Bool := c.state == .running && c.phase == ph && !c.derating && c.exit == .stay

/-- Step 1 of R107: entries that are not of a plateau measurement leave the bus-lock queue, and their contexts pause. -/
def Part.holdBusQueue (p : Part) (b : Bay) : Part :=
  (allSlots.filter (fun s => (p.ctx b s).waitsIn .busWait)).foldl
    (fun p s => (p.leaveBusQueue b s).mapCtx b s Ctx.pause) p

/-- Step 2 of R107: a holder in CHANNEL_WAIT whose check is not DERATE leaves the channel grant queue, pauses and releases its
bus. -/
def Part.holdChanQueue (p : Part) (b : Bay) : Part :=
  match (p.bay b).busHolder with
  | none => p
  | some s =>
    if (p.ctx b s).waitsIn .channelWait then
      ((p.leaveChanQueue b s).mapCtx b s Ctx.pause).releaseBus b
    else p

/-- BAY_HOLD (R3, R19, R107, R147). Where several contexts leave their zone's list, the closing test comes when all have left: R140 does
not say whether it comes between them (DESIGN CHOICE, log entry 59). -/
def Part.orderHold (p : Part) (o : OrderSlot) (b : Bay) : Part :=
  if (p.bay b).state = .running then
    let p := p.mapBay b (fun u => { u with state := .holding, pendingOrder := some o })
    let p := (allSlots.filter (fun s => (p.ctx b s).atBoundary)).foldl (fun p s => p.mapCtx b s Ctx.pause) p
    let p := (p.holdBusQueue b).holdChanQueue b
    let p := (allSlots.filter (fun s => (p.ctx b s).atPlateau)).foldl (fun p s => p.pauseAtPlateau b s) p
    p.later [.bayTest b]
  else p.answer o .refusedBusy []

/-- A paused context wakes at a BAY_RESUME (R21, R147): it rejoins its zone's list where it paused within a DERATE loop, else it
stands at the boundary of its check. Of several that one RESUME wakes, those within a loop join in slot order before those whose
DERATE check begins at that boundary; the spec gives no order (log entry 45, the model's choice). -/
def Part.wake (p : Part) (b : Bay) (s : Slot) : Part :=
  let inLoop := (p.ctx b s).derate.inLoop
  let p := p.mapCtx b s (fun c => { c with state := .running }.mapLoop (fun l => { l with inLoop := false }))
  if inLoop then p.joinZone b s else p.later [.boundary b s]

/-- A context of a resumed bay (R21): a paused one wakes, and under JOIN a planned one starts. -/
def Part.resumeCtx (p : Part) (b : Bay) (s : Slot) : Part :=
  let c := p.ctx b s
  if c.state = .paused ∧ c.exit = .stay then p.wake b s
  else if c.startable ∧ (p.bay b).insert = .join then
    (p.mapCtx b s (fun c => { c with state := .running, checkIndex := 0 })).later [.boundary b s]
  else p

/-- BAY_RESUME (R3, R21). -/
def Part.orderResume (p : Part) (o : OrderSlot) (b : Bay) : Part :=
  let u := p.bay b
  if u.state = .holding ∨ u.state = .held then
    let p := if u.state = .holding then p.answerPending b .done [] else p
    let p := (p.mapBay b (fun u => { u with state := .running })).answer o .done []
    (allSlots.foldl (fun p s => p.resumeCtx b s) p).later [.bayTest b]
  else p.answer o .refusedBusy []

/-- BAY_WITHDRAW (R3, R22). -/
def Part.orderWithdraw (p : Part) (o : OrderSlot) (b : Bay) : Part :=
  match (p.bay b).state with
  | .empty => p.answer o .refusedBusy []
  | .withdrawing => p.answer o .refusedBusy []
  | _ =>
    let p := p.answerPending b .superseded []
    let p := p.mapBay b (fun u => { u with pendingOrder := some o })
    (p.beginWithdraw b .withdrawn).withdrawCtxs b .withdrawn

/-- A bay order reaches the Bay Controller of the bay it names (R3, R192). -/
def Part.orderBay (p : Part) (o : OrderSlot) (l : List Byte) (f : Bay → Part) : Part :=
  if h : byteAt l 0x04 < 8 then f ⟨byteAt l 0x04, h⟩ else p.answer o .refusedRange [(0x44, 1, 0)]

/-! ### ZONE_SCHEDULE (R132) -/

/-- Plateau `i` of a ZONE_SCHEDULE (R197). -/
def plateauAt (l : List Byte) (i : Nat) : Plateau :=
  ⟨signed16 (halfAt l (0x0C + 6 * i)), spanAt l (0x0E + 6 * i), spanAt l (0x10 + 6 * i)⟩

/-- The plateaus of a ZONE_SCHEDULE. -/
def orderPlateaus (l : List Byte) : List Plateau := (List.range (byteAt l 0x05)).map (plateauAt l)

/-- The first field of the plateaus out of range, with the plateau's index (R132, R197). -/
def badPlateau (i : Nat) : List Plateau → Option (Nat × Nat)
  | [] => none
  | q :: l =>
    if q.temp < 150 ∨ 700 < q.temp then some (4, i)
    else if !q.settle.ok then some (5, i)
    else if !q.limit.ok then some (6, i)
    else badPlateau (i + 1) l

/-- The first field of a ZONE_SCHEDULE out of range, with the plateau index, 0 for another field (R132, R197). -/
def badScheduleField (l : List Byte) : Option (Nat × Nat) :=
  let rest := signed16 (halfAt l 0x06)
  let band := halfAt l 0x08
  let count := byteAt l 0x05
  if rest < 150 ∨ 700 < rest then some (1, 0)
  else if band < 5 ∨ 50 < band then some (2, 0)
  else if count < 1 ∨ 8 < count then some (3, 0)
  else badPlateau 0 (orderPlateaus l)

/-- ZONE_SCHEDULE (R132). -/
def Part.orderSchedule (p : Part) (o : OrderSlot) (l : List Byte) : Part :=
  if h : byteAt l 0x04 < 2 then
    let z : ZoneNo := ⟨byteAt l 0x04, h⟩
    if (p.zone z).state = .rest ∨ (p.zone z).state = .faulted then
      match badScheduleField l with
      | some f => p.answer o .refusedRange [(0x44, 1, f.1), (0x45, 1, f.2)]
      | none =>
        (p.mapZone z (Zone.takeSchedule p.tick (signed16 (halfAt l 0x06)) (halfAt l 0x08) (orderPlateaus l))).answer o .done []
    else p.answer o .refusedBusy []
  else p.answer o .refusedRange [(0x44, 1, 0)]

/-! ### CLOCK_SET (R203) -/

/-- The date and time of a CLOCK_SET (R197). -/
def orderDate (l : List Byte) : DateTime :=
  ⟨halfAt l 0x04, byteAt l 0x06, byteAt l 0x07, byteAt l 0x08, byteAt l 0x09, byteAt l 0x0A⟩

/-- CLOCK_SET (R203). -/
def Part.orderClock (p : Part) (o : OrderSlot) (l : List Byte) : Part :=
  match (orderDate l).badField with
  | some f => p.answer o .badTime [(0x44, 1, f)]
  | none => { p with seconds := (orderDate l).count, fraction := 0, trusted := true }.answer o .done []

/-! ### Taking (R191 to R194) -/

/-- An order goes to the owner its code names (R192). -/
def Part.takeOrder (p : Part) (o : OrderSlot) (l : List Byte) : Part :=
  match byteAt l 0x01 with
  | 0x01 => p.orderPlanEnter o l
  | 0x02 => p.orderPlanRemove o l
  | 0x03 => p.orderPlanQuery o l
  | 0x10 => p.orderBay o l (fun b => p.orderAdmit o b l)
  | 0x11 => p.orderBay o l (fun b => p.orderStart o b)
  | 0x12 => p.orderBay o l (fun b => p.orderHold o b)
  | 0x13 => p.orderBay o l (fun b => p.orderResume o b)
  | 0x14 => p.orderBay o l (fun b => p.orderWithdraw o b)
  | 0x20 => p.orderSchedule o l
  | 0x30 => p.orderClock o l
  | _ => p.answer o .unknownOrder []

/-- The copy of an order completes (R191): `bytes` are bytes 0x01 to 0x3F of the slot. Its host tag is kept, and the order is
handed to its owner. -/
def Part.orderCopied (p : Part) (bytes : List Byte) : Part :=
  match p.sweep with
  | .copying o rest =>
    let l := 0 :: bytes
    let p := { p with slotTags := p.slotTags.set o (BitVec.ofNat 16 (halfAt l 0x02)), sweep := .handling o rest }
    (p.takeOrder o l).later [.orderHandled o]
  | _ => p

/-- The owner of an order has dealt with it at its taking (R192, R193): an answer is being written or plans are being read, and
the sweep waits; else the slot is marked TAKEN. -/
def Part.orderHandled (p : Part) (o : OrderSlot) : Part :=
  if p.answers[o].isSome ∨ p.planEnter.isSome then p else { p with takenWrite := some o }

/-- The sweep takes its next order, or its taking has ended (R185, R191, R194). -/
def Part.nextTaking (p : Part) (rest : List OrderSlot) : Part :=
  if p.phase = .stopping then (if p.stopOwed then p.stopWithdrawals else p).rescan .sweep
  else
    match rest with
    | [] => p.rescan .sweep
    | s :: r => { p with sweep := .copying s r }

/-- A slot is passed over whatever its mark reads (R191, R193): it is some bay's pending long order, or its answer is still being
written. -/
def Part.heldSlot (p : Part) (o : OrderSlot) : Bool :=
  allBays.any (fun b => (p.bay b).pendingOrder == some o) || p.answers[o].isSome || p.takenWrite == some o

/-- The slots picked by a sweep from the marks read, in ascending order (R191). That a slot is tested for being a pending long order
here, when the mark reads complete, and not at its turn, is the model's choice (DESIGN CHOICE, log entry 60): R191 names no moment. -/
def Part.pickSlots (p : Part) (marks : List Byte) : List OrderSlot :=
  (List.finRange 16).filter (fun o => marks[o.val]? == some 1 && !p.heldSlot o)

/-- The owner-mark reads of a sweep complete (R191). A sweep cut short by a stop takes nothing (R185). -/
def Part.marksRead (p : Part) (marks : List Byte) : Part :=
  match p.sweep with
  | .marks =>
    if marks.length = (p.settings.map Settings.slotCount).getD 0 then
      if p.phase = .running then p.nextTaking (p.pickSlots marks) else p.nextTaking []
    else p
  | _ => p

end Sys2Proof.Machine
end

