-- ==== Sys2Proof/Machine/Cascade.lean ====
section
/-! DEFINITION. How a command runs: the consequences that its effect owes are carried out one after the other, each with its own
consequences before the next, and then the boards are marked and the pass or the stop goes on (`Part.finish`). -/

namespace Sys2Proof.Machine

/-- The link of a bay goes on after a transaction (R152): its next queued entry starts, or it goes IDLE. -/
def Part.linkNext (p : Part) (b : Bay) : Part :=
  if (p.link b).state = .busy ∧ (p.link b).inFlight.isNone then p.mapLink b (Link.next p.samples) else p

/-- Carries out one consequence. -/
def consequence (c : Conseq) (p : Part) : Part :=
  match c with
  | .report b e r => p.onReport b e r
  | .linkNext b => p.linkNext b
  | .muteSlot b s => p.muteSlot b s
  | .moduleMute b s => p.moduleMute b s
  | .chanClosed c => p.onClosed c
  | .unloadDone c => p.onUnloaded c
  | .holdEnded c => p.onHoldEnded c
  | .chanOpen c => p.onOpen c
  | .releaseGo b s => p.releaseGo b s
  | .output b s => p.output b s
  | .boundary b s => p.atBoundary b s
  | .roomMade b => p.roomMade b
  | .checkResult b s => p.checkResult b s
  | .plateauReturn b s => p.returnToPlateau b s
  | .startPlateau b s => p.startPlateau b s
  | .closingTest z => p.closingTest z
  | .bayTest b => p.bayTest b
  | .heldRise b s => p.heldRise b s
  | .writer => p.writer
  | .orderHandled o => p.orderHandled o
  | .nextTaking rest => p.nextTaking rest

/-- Carries out what the part owes, at most `n` consequences, each consequence's own before those that stood behind it: of two contexts
that owe several records at one moment, the first enters all of its own that there is room for (log entry 52, the model's choice). -/
def settle : Nat → Part → Part
  | 0, p => { p with todo := [] }
  | n + 1, p =>
    match p.todo with
    | [] => p
    | c :: rest =>
      let q := consequence c { p with todo := [] }
      settle n { q with todo := q.todo ++ rest }

/-- The part after a command whose own effect is `f`. Nothing is owed from an earlier command. -/
@[irreducible] def Part.after (p : Part) (f : Part → Part) : Part :=
  Part.finish p (settle Config.cascadeBound (f { p with todo := [] }))

/-- A command with an effect on the part alone. -/
def State.run (s : State) (f : Part → Part) : Host.Outcome State Fault Refusal := .next { s with part := s.part.after f }

/-- A command that also leaves host memory with the bytes `m`. -/
def State.runWith (s : State) (m : Memory) (f : Part → Part) : Host.Outcome State Fault Refusal :=
  .next { s with part := s.part.after f, book := m }

/-- The completion of a Book write `w`: its bytes are in host memory, and the part goes on by `f`. -/
def State.written (s : State) (w : BookWrite) (f : Part → Part) : Host.Outcome State Fault Refusal :=
  s.runWith (s.book.put w) f

/-- An event that may come only when `g` holds: else nothing happens (log entry 2). -/
def State.runIf (s : State) (g : Bool) (f : Part → Part) : Host.Outcome State Fault Refusal :=
  if g then s.run f else .next s

/-- Host memory with every write in progress cut short (R177, R186, R187). Of a page's record count nothing lands: a record whose
count write did not complete is not counted by the page head, which R177 says of an access failure and which is DEDUCED for the two
resets (log entry 5). Of an ANSWERED mark nothing lands: a slot whose answer was being
written keeps its earlier mark (R186, R187; log entry 5). -/
def State.cutBook (s : State) : Memory :=
  let p := s.part
  let m := s.book.cut p.free p.plainWrites
  match p.boardWrite with
  | some (b, content) => m.cutBoard (p.free + p.plainWrites.length) (p.boardAddr b) (fieldBytes content) (p.boardCount b)
  | none => m

end Sys2Proof.Machine
end

