-- ==== Sys2Proof/Machine/BayCommands.lean ====
section
/-! DEFINITION. The events of the Bay Controllers and the module links: filtered presence changes, the ends of link transactions, the Book reads of
an admission. -/

namespace Sys2Proof.Machine

/-! ### Presence (R4 to R6, R160, R167) -/

/-- The presence filter of a slot changed by `f`. -/
def Part.mapPresence (p : Part) (b : Bay) (s : Slot) (f : Presence → Presence) : Part :=
  p.mapBay b (fun u => { u with presence := u.presence.set s (f u.presence[s]) })

/-- The PRESENCE notice of a filtered change (R4): in RUNNING or STOPPING. -/
def Part.presenceNotice (p : Part) : Part :=
  if p.phase = .running ∨ p.phase = .stopping then p.notify .presence else p

/-- A filtered rise outside HALTED (R4, R5, R167). -/
def Part.rise (p : Part) (b : Bay) (s : Slot) : Part :=
  let p := p.presenceNotice
  let p := if (p.bay b).state.admitted then p.disturbBay b s else p
  if (p.ctx b s).state = .absent then (if (p.bay b).state.admitted then p.identify b s else p)
  else p.mapPresence b s (fun f => { f with heldRise := true })

/-- A slot leaves the standby set at its fall (R6, R24), and the bay's holder may now be able to release its bus. The records that the
holder then makes ready come before those of the falling context: R166 allows either order (log entry 51, the model's choice). -/
def Part.leaveStandby (p : Part) (b : Bay) (s : Slot) : Part :=
  let p := p.mapBay b (fun u => { u with standby := u.standby.set s none })
  match (p.bay b).busHolder with
  | some t => p.later [.releaseGo b t]
  | none => p

/-- A filtered fall outside HALTED (R4, R6, R160). Of records made ready with it at one moment, the SUMMARYs of members left by a
plateau that it closes come first (log entry 43). The falling slot's context leaves the bus-lock queue before a bus that its leaving
the standby set frees is released (R100 allows either order; log entry 46, the model's choice). The records of the bay's holder, where
the fall empties the standby set, are made ready before the falling context's own (R166 allows either order; log entry 51, the model's
choice). -/
def Part.fall (p : Part) (b : Bay) (s : Slot) : Part :=
  let p := p.presenceNotice
  let admitted := (p.bay b).state.admitted
  let p := if admitted then p.disturbBay b s else p
  let p := (p.linkFall b s).leaveStandby b s
  if admitted then (p.removeCtx b s .removed (some p.stamp)).later [.output b s] else p

/-- The steadiness count of a filter has run for the 50 ms (R4). -/
def Presence.steady (f : Presence) : Bool := decide (Config.presenceSamples ≤ f.count)

/-- FILTERED_RISE (R4, R5): once the steadiness count has run for 50 ms. In HALTED the filtered state alone changes (R2). -/
def execFilteredRise (bay : Bay) (slot : Slot) (s : State) : Host.Outcome State Fault Refusal :=
  s.runIf (!(s.part.bay bay).present slot && (s.part.bay bay).presence[slot].steady) (fun p =>
    let q := p.mapPresence bay slot (fun f => { f with filtered := true, count := 0 })
    if p.phase = .halted then q else q.rise bay slot)

/-- FILTERED_FALL (R4, R6): once the steadiness count has run for 50 ms. In HALTED the filtered state alone changes (R2). -/
def execFilteredFall (bay : Bay) (slot : Slot) (s : State) : Host.Outcome State Fault Refusal :=
  s.runIf ((s.part.bay bay).present slot && (s.part.bay bay).presence[slot].steady) (fun p =>
    let q := p.mapPresence bay slot (fun f => { f with filtered := false, count := 0 })
    if p.phase = .halted then q else (q.mapPresence bay slot (fun f => { f with heldRise := false })).fall bay slot)

/-! ### The module links (R152 to R158, R162) -/

/-- The transaction in flight is over; the link has still to go on. -/
def Link.over (l : Link) : Link := { l with inFlight := none, second := false, timer := none }

/-- An OUTPUT_ON that completes OK clears the output-left-off mark of its module (R25), that of a check on the abort path of its own
slot's fall as well (R92). One taken as a GONE discard does not (R160). Where a module has been seated since the fall, its own mark is
clear as long as the link is busy with the transaction to the one before it. -/
def Part.outputOn (p : Part) (b : Bay) (e : Entry) (r : LinkReply) : Part :=
  match r with
  | .ok _ =>
    if e.kind = .outputOn ∧ e.gone = false then p.mapCtx b e.target (fun c => { c with outputOff := false }) else p
  | _ => p

/-- A transaction completes (R152, R158): report, and the next entry. In HALTED nothing is reported and the link goes IDLE
(R162). -/
def Part.linkComplete (p : Part) (b : Bay) (e : Entry) (r : LinkReply) : Part :=
  if p.phase = .halted then p.mapLink b Link.haltedIdle
  else ((p.mapLink b Link.over).outputOn b e r).later [.report b e (reportOf r), .linkNext b]

/-- LINK_TRANSACTION_COMPLETE (R152 to R155, R158). -/
def execLinkTransactionComplete (bay : Bay) (reply : LinkReply) (s : State) : Host.Outcome State Fault Refusal :=
  match (s.part.link bay).inFlight with
  | some e => s.runIf ((s.part.link bay).mayEnd e reply) (fun p => p.linkComplete bay e reply)
  | none => .next s

/-- ATTEMPT_NACKED (R155): the second attempt begins; the timeout timer runs on. -/
def execAttemptNacked (bay : Bay) (s : State) : Host.Outcome State Fault Refusal :=
  s.runIf ((s.part.link bay).inFlight.isSome && !(s.part.link bay).second) (fun p =>
    p.mapLink bay (fun l => { l with second := true }))

/-- A transaction times out (R156): report, MUTE, discards, and the module's context acts (R26). In HALTED the link recovers and
does no more (R162). Where the report or a discard empties the standby set, the records of the bay's holder are made ready before those
of the module's own context: R166 allows either order (log entry 51, the model's choice). -/
def Part.linkTimeout (p : Part) (b : Bay) (e : Entry) : Part :=
  let q := p.mapLink b (fun l => { l.over with state := .recovering })
  if p.phase = .halted then q
  else q.later [.report b e .timeout, .muteSlot b e.target, .moduleMute b e.target]

/-- LINK_TIMEOUT (R156). -/
def execLinkTimeout (bay : Bay) (s : State) : Host.Outcome State Fault Refusal :=
  match (s.part.link bay).inFlight with
  | some e => s.run (fun p => p.linkTimeout bay e)
  | none => .next s

/-- BUS_RECOVERY_END (R157, R162). -/
def execBusRecoveryEnd (bay : Bay) (s : State) : Host.Outcome State Fault Refusal :=
  s.runIf ((s.part.link bay).state == .recovering) (fun p =>
    p.mapLink bay (if p.phase = .halted then Link.haltedIdle else Link.next p.samples))

/-! ### The Book reads of an admission (R13, R40) -/

/-- SAMPLING_READ_COMPLETE (R13, R40). -/
def execSamplingReadComplete (who : Requester) (byte : Byte) (s : State) : Host.Outcome State Fault Refusal :=
  s.runIf (s.part.admReads.any (AdmRead.is false who)) (fun p => p.samplingRead who byte)

/-- ADMISSION_PLAN_READ_COMPLETE (R13). -/
def execAdmissionPlanReadComplete (who : Requester) (bytes : List Byte) (s : State) : Host.Outcome State Fault Refusal :=
  s.runIf (s.part.admReads.any (AdmRead.is true who)) (fun p => p.planRead who bytes)

end Sys2Proof.Machine
end

