-- ==== Sys2Proof/Machine/ChannelCommands.lean ====
section
/-! DEFINITION. The events of the load channels: relays, ramp and unload steps, the ceiling hold, a trip firing. -/

namespace Sys2Proof.Machine

/-- RELAYS_CLOSED (R112). -/
def execRelaysClosed (chan : Chan) (s : State) : Host.Outcome State Fault Refusal :=
  s.runIf ((s.part.chan chan).relay == .closing) (fun p => p.relaysClosed chan)

/-- RELAYS_OPEN (R117, R121). -/
def execRelaysOpen (chan : Chan) (s : State) : Host.Outcome State Fault Refusal :=
  s.runIf ((s.part.chan chan).relay == .opening) (fun p => p.relaysOpen chan)

/-- RAMP_STEP (R114). -/
def execRampStep (chan : Chan) (s : State) : Host.Outcome State Fault Refusal :=
  s.runIf (s.part.chan chan).stepping (fun p => p.mapChan chan Channel.rampStep)

/-- CEILING_HOLD_END (R114). -/
def execCeilingHoldEnd (chan : Chan) (s : State) : Host.Outcome State Fault Refusal :=
  s.runIf (s.part.chan chan).ceilingHold (fun p => p.holdEnd chan)

/-- UNLOAD_STEP (R115). -/
def execUnloadStep (chan : Chan) (s : State) : Host.Outcome State Fault Refusal :=
  s.runIf ((s.part.chan chan).relay == .closed && (s.part.chan chan).ramp == .rampingDown) (fun p => p.unloadStep chan)

/-- A channel's detector has met a condition, and its firing is still to be taken (R119). -/
def Channel.fired (c : Channel) : Bool := c.detector.any (fun d => d.firing.isSome)

/-- TRIP_FIRING (R119). -/
def execTripFiring (chan : Chan) (s : State) : Host.Outcome State Fault Refusal :=
  s.runIf (s.part.chan chan).fired (fun p => p.tripFiring chan)

end Sys2Proof.Machine
end

