-- ==== Sys2Proof/Machine/ClockCommands.lean ====
section
/-! DEFINITION. The Station Clock (11_station_clock_and_spans.md): the monotonic tick and the advance of the seconds (log entry 11). -/

namespace Sys2Proof.Machine

/-- The last second of the calendar count (R202): 2099-12-31 23:59:59. -/
def lastSecond : Nat := 3155759999

/-- The seconds after an advance (R202). -/
def nextSecond (n : Nat) : Nat := if n = lastSecond then 0 else n + 1

/-- A monotonic tick (R202, R205): the fraction advances; from 4095 it becomes 0 and the seconds advance. -/
def Part.ticked (p : Part) : Part :=
  if p.fraction = 4095 then { p with tick := p.tick + 1, fraction := 0, seconds := nextSecond p.seconds }
  else { p with tick := p.tick + 1, fraction := p.fraction + 1 }

/-- MONOTONIC_TICK (R202), in every part state. -/
def execMonotonicTick (s : State) : Host.Outcome State Fault Refusal := .next { s with part := s.part.ticked }

/-- SECOND_ADVANCE (R202): the tick that finds the fraction at 4095. -/
def execSecondAdvance (s : State) : Host.Outcome State Fault Refusal :=
  if s.part.fraction = 4095 then
    .next { s with
      part := { s.part with tick := s.part.tick + 1, fraction := 0, seconds := nextSecond s.part.seconds } }
  else .next s

end Sys2Proof.Machine
end

