-- ==== Sys2Proof/Machine/PortCommands.lean ====
section
/-! DEFINITION. The commands of the Book Port: resets, register writes, the head read, access failures, sweeps, orders and their answers, boards. -/

namespace Sys2Proof.Machine

/-! ### Resets (R182, R187) -/

/-- POWER_ON_RESET (R182): every block takes its reset values; a Book write in progress ends where it stands. -/
def execPowerOnReset (s : State) : Host.Outcome State Fault Refusal :=
  .next { s with part := s.part.powerOn, book := s.cutBook }

/-- A station reset (R187). -/
def State.stationReset (s : State) : Host.Outcome State Fault Refusal :=
  .next { s with part := s.part.stationReset, book := s.cutBook }

/-- STATION_RESET (R180, R187): a write of CONTROL with the bit set, in any part state. -/
def execStationReset (s : State) : Host.Outcome State Fault Refusal := s.stationReset

/-- PCIE_HOT_RESET (R187). -/
def execPcieHotReset (s : State) : Host.Outcome State Fault Refusal := s.stationReset

/-- PCIE_LINK_DOWN (R187). -/
def execPcieLinkDown (s : State) : Host.Outcome State Fault Refusal := s.stationReset

/-- STARTING_COMPLETE (R182): STARTING ends in IDLE. -/
def execStartingComplete (s : State) : Host.Outcome State Fault Refusal :=
  s.runIf (s.part.phase == .starting) (fun p => { p with phase := .idle })

/-! ### Register writes (R179 to R181, R190) -/

/-- RUN_START (R180, R183): in IDLE without an attempt a RUN attempt begins. -/
def execRunStart (s : State) : Host.Outcome State Fault Refusal :=
  s.runIf (s.part.phase == .idle && !s.part.attempt) (fun p => { p with attempt := true, headRejected := false, headCause := none })

/-- RUN_STOP (R180, R183, R185): an attempt is cancelled, or a RUNNING part enters STOPPING. -/
def execRunStop (s : State) : Host.Outcome State Fault Refusal :=
  match s.part.phase with
  | .idle => s.runIf s.part.attempt (fun p => { p with attempt := false, staleReads := p.staleReads + 1 })
  | .running => s.run Part.enterStopping
  | _ => .next s

/-- SWEEP_PERIOD (R180): the code in use from the next start of the sweep timer. -/
def execSweepPeriod (code : BitVec 2) (s : State) : Host.Outcome State Fault Refusal :=
  s.runIf (s.part.phase != .starting) (fun p => { p with sweepCode := code })

/-- The Book base may be written (R179): the part is IDLE and no head is being read. -/
def Part.baseFree (p : Part) : Bool := p.phase == .idle && !p.attempt && p.staleReads == 0

/-- BOOKLO (R179): bits 31 to 12 are taken. -/
def execBookLo (w : Word) (s : State) : Host.Outcome State Fault Refusal :=
  s.runIf s.part.baseFree (fun p => { p with bookLo := w &&& 0xFFFFF000 })

/-- BOOKHI (R179). -/
def execBookHi (w : Word) (s : State) : Host.Outcome State Fault Refusal :=
  s.runIf s.part.baseFree (fun p => { p with bookHi := w })

/-- NUDGE (R190): in RUNNING a sweep starts at once, or the nudge pending mark is set. -/
def execNudge (_w : Word) (s : State) : Host.Outcome State Fault Refusal :=
  s.runIf (s.part.phase == .running) (fun p => if p.sweep = .idle then p.startSweep else { p with nudge := true })

/-- The message after a write of NOTICE or NOTICE_EN that leaves an enabled notice pending (R181). -/
def Part.callAgain (p : Part) : Part := if p.calling then { p with messages := p.messages + 1 } else p

/-- NOTICE (R181): the notices whose bits are 1 leave the pending set. -/
def execNotice (w : Word) (s : State) : Host.Outcome State Fault Refusal :=
  s.runIf (s.part.phase != .starting) (fun p => { p with pendingSet := p.pendingSet &&& ~~~(w.setWidth 7) }.callAgain)

/-- NOTICE_EN (R181): the enable set. -/
def execNoticeEn (w : Word) (s : State) : Host.Outcome State Fault Refusal :=
  s.runIf (s.part.phase != .starting) (fun p => { p with enableSet := w.setWidth 7 }.callAgain)

/-- REGISTER_WRITE_OTHER (R179): no effect. -/
def execRegisterWriteOther (_offset : Nat) (_w : Word) (s : State) : Host.Outcome State Fault Refusal := .next s

/-! ### The head read and access failures (R183, R186) -/

/-- HEAD_READ_COMPLETE (R183, R184): the head is judged unless its read was cancelled. -/
def execHeadReadComplete (bytes : List Byte) (s : State) : Host.Outcome State Fault Refusal :=
  s.runIf (s.part.phase == .idle && s.part.accessing .headRead) (fun p => p.headRead bytes)

/-- A failure of an access in progress is taken in IDLE, RUNNING and STOPPING (R186). -/
def Part.mayFail (p : Part) (a : FailedAccess) : Bool :=
  (p.phase == .idle || p.phase == .running || p.phase == .stopping) && p.accessing a

/-- BOOK_ACCESS_FAILURE (R186): the part enters HALTED, and every write in progress ends where it stands. -/
def execBookAccessFailure (access : FailedAccess) (s : State) : Host.Outcome State Fault Refusal :=
  if s.part.mayFail access then s.runWith s.cutBook (fun p => p.enterHalted access) else .next s

/-! ### Sweeps and orders (R189 to R194) -/

/-- SWEEP_TIMER_EXPIRY (R185, R189, R205): a sweep in RUNNING, a stopping pass in STOPPING. -/
def execSweepTimerExpiry (s : State) : Host.Outcome State Fault Refusal :=
  s.runIf (s.part.sweepTimer.any (SpanTimer.due s.part.tick)) (fun p =>
    match p.phase with
    | .running => p.startSweep
    | .stopping => p.rescan .stopping
    | _ => p)

/-- SLOT_MARKS_READ (R191). -/
def execSlotMarksRead (marks : List Byte) (s : State) : Host.Outcome State Fault Refusal :=
  s.run (fun p => p.marksRead marks)

/-- ORDER_COPY_COMPLETE (R191, R192). -/
def execOrderCopyComplete (bytes : List Byte) (s : State) : Host.Outcome State Fault Refusal :=
  s.run (fun p => p.orderCopied bytes)

/-- The order being handled is the one of slot `o`: the sweep goes on to its next. -/
def Part.handledNext (p : Part) (o : OrderSlot) : Part :=
  match p.sweep with
  | .handling o' rest => if o' = o then p.later [.nextTaking rest] else p
  | _ => p

/-- The TAKEN mark of a long order stands in host memory (R193): an answer that waits for it begins. -/
def Part.takenWritten (p : Part) (o : OrderSlot) : Part :=
  let answers := match p.answers[o] with
    | some a => if a.stage = .waiting then p.answers.set o (some { a with stage := .fields }) else p.answers
    | none => p.answers
  { p with takenWrite := none, answers := answers }.handledNext o

/-- TAKEN_MARK_WRITTEN (R193). -/
def execTakenMarkWritten (slot : OrderSlot) (s : State) : Host.Outcome State Fault Refusal :=
  if s.part.takenWrite = some slot then s.written (s.part.takenBytes slot) (fun p => p.takenWritten slot) else .next s

/-- An answer write at stage `at` of slot `o` completes, and the part goes on by `f` (R188). -/
def State.answerWritten (s : State) (o : OrderSlot) (now : AnswerStage) (f : Answering → Part → Part) :
    Host.Outcome State Fault Refusal :=
  match s.part.answers[o] with
  | some a => if a.stage = now then s.written (s.part.answerBytes o a) (f a) else .next s
  | none => .next s

/-- The next write of an answer begins (R188). -/
def Part.answerStage (o : OrderSlot) (stage : AnswerStage) (a : Answering) (p : Part) : Part :=
  { p with answers := p.answers.set o (some { a with stage := stage }) }

/-- ANSWER_FIELDS_WRITTEN (R188). -/
def execAnswerFieldsWritten (slot : OrderSlot) (s : State) : Host.Outcome State Fault Refusal :=
  s.answerWritten slot .fields (Part.answerStage slot .code)

/-- ANSWER_CODE_WRITTEN (R188). -/
def execAnswerCodeWritten (slot : OrderSlot) (s : State) : Host.Outcome State Fault Refusal :=
  s.answerWritten slot .code (Part.answerStage slot .tag)

/-- HOST_TAG_COPY_WRITTEN (R188). -/
def execHostTagCopyWritten (slot : OrderSlot) (s : State) : Host.Outcome State Fault Refusal :=
  s.answerWritten slot .tag (Part.answerStage slot .mark)

/-- An order has been answered (R188, R191): the ANSWERED notice, and the sweep's next order. -/
def Part.answered (p : Part) (o : OrderSlot) : Part :=
  ({ p with answers := p.answers.set o none }.notify .answered).handledNext o

/-- ANSWERED_MARK_WRITTEN (R188). -/
def execAnsweredMarkWritten (slot : OrderSlot) (s : State) : Host.Outcome State Fault Refusal :=
  s.answerWritten slot .mark (fun _ p => p.answered slot)

/-- A board has been rewritten (R29, R194): its write count, and the next board. -/
def Part.boardDone (p : Part) (b : Bay) (k : PassKind) (rest : List Bay) : Part :=
  (p.mapBay b (fun u => { u with writeCount := (u.writeCount + 1) % 65536 })).boardGo k rest

/-- BOARD_WRITTEN (R29, R194). -/
def execBoardWritten (bay : Bay) (s : State) : Host.Outcome State Fault Refusal :=
  match s.part.sweep with
  | .boards k b content rest =>
    if b = bay then s.written (s.part.boardBytes b content) (fun p => p.boardDone b k rest) else .next s
  | _ => .next s

/-- PLAN_ENTER_READ_COMPLETE (R44, R45). -/
def execPlanEnterReadComplete (bytes : List Byte) (s : State) : Host.Outcome State Fault Refusal :=
  s.runIf s.part.planEnter.isSome (fun p => p.planEnterRead bytes)

end Sys2Proof.Machine
end

