-- ==== Sys2Proof/Machine/SenseCommands.lean ====
section
/-! DEFINITION. The Sense Unit (06_load_channels_and_sensing.md, sections 6.3 to 6.5): a sample instant, and the events its windows and watches bring to a
check. -/

namespace Sys2Proof.Machine

/-! ### A sample instant (R4, R119, R122 to R128) -/

/-- The presence filter of a slot on a sample (R4): the count runs, up to the 50 ms, while the raw line differs. -/
def Presence.sample (raw : Bool) (f : Presence) : Presence :=
  { f with count := if raw = f.filtered then 0 else min (f.count + 1) Config.presenceSamples }

/-- A measurement on a sample (R125): every window gathers its point; the last window to fill completes the measurement. -/
def Measurement.sample (now : Stamp) (bus : PointSample × Nat) (slots : Slot → PointSample × Nat) (m : Measurement) :
    Measurement :=
  match m.done with
  | some _ => m
  | none =>
    let windows := m.windows.map (fun w =>
      let x := match w.point with
        | none => bus
        | some t => slots t
      w.gather m.need m.tol x.1 x.2)
    { m with
      windows := windows
      done := if windows.all (fun w => decide (m.need ≤ w.count)) then some now else none }

/-- A watch on a sample (R128): `number` is the number of the sample, `tick` the monotonic tick it falls in. -/
def Watch.sample (volts : Nat) (good : Bool) (number tick : Nat) : Watch → Watch
  | .restart v confirm firedAt run firstAt none =>
    if v < volts ∧ good = true then
      let first := if run = 0 then number else firstAt
      .restart v confirm firedAt (run + 1) first (if run + 1 = confirm then some (10 * (first - firedAt)) else none)
    else .restart v confirm firedAt 0 0 none
  | .powerGood none => .powerGood (if good then some tick else none)
  | w => w

/-- The samples of the points of a bay. -/
structure BaySamples where
  bus   : PointSample × Nat
  slots : Vector (PointSample × Nat) 6
deriving DecidableEq, Repr

/-- The samples of the points of bay `b` (R122). -/
def BayUnit.points (u : BayUnit) (b : Bay) (x : Samples) : BaySamples :=
  { bus := (u.busPoint.sample voltScales x.busRanged[b], x.busRanged[b])
    slots := tab6 (fun s => (u.slotPoints[s].sample currentScales x.slotCurrent[b][s], x.slotCurrent[b][s])) }

/-- A context's measurement and watch on a sample. -/
def Work.sample (now : Stamp) (ps : BaySamples) (volts : Nat) (good : Bool) (number tick : Nat) (w : Work) : Work :=
  { w with
    meas := w.meas.map (Measurement.sample now ps.bus (fun t => ps.slots[t]))
    watch := w.watch.map (Watch.sample volts good number tick) }

/-- A bay on a sample: presence filter, points, measurements and watches. -/
def BayUnit.sample (b : Bay) (x : Samples) (now : Stamp) (number tick : Nat) (u : BayUnit) : BayUnit :=
  let ps := u.points b x
  { u with
    presence := tab6 (fun s => u.presence[s].sample x.present[b][s])
    busPoint := ps.bus.1.point
    slotPoints := tab6 (fun s => ps.slots[s].1.point)
    ctxs := tab6 (fun s => (u.ctx s).mapWork (Work.sample now ps x.busFixed[b] x.powerGood[b][s] number tick)) }

/-- A channel on a sample: its armed detector examines its connected bay (R119). -/
def Channel.sample (c : Chan) (x : Samples) (number : Nat) (ch : Channel) : Channel :=
  match ch.bay, ch.detector with
  | some b, some d =>
    { ch with detector := some (d.sample x.busFixed[b] x.powerGood[b][d.slot] x.chanCurrent[c] number) }
  | _, _ => ch

/-- A sample instant (R122). -/
def Part.sampleInstant (p : Part) (x : Samples) : Part :=
  let n := p.samples + 1
  { p with
    samples := n
    bays := tab8 (fun b => (p.bay b).sample b x p.stamp n p.tick)
    chans := tab4 (fun c => (p.chan c).sample c x n) }

/-- SAMPLE_INSTANT (R122): every input is sampled, in every part state. -/
def execSampleInstant (inputs : Samples) (s : State) : Host.Outcome State Fault Refusal :=
  .next { s with part := s.part.sampleInstant inputs }

/-! ### What measurements and watches bring (R72, R74, R78, R79, R83, R143) -/

/-- A context's measurement is complete and not yet handed over. -/
def Ctx.measurementDone (c : Ctx) : Bool := c.work.meas.any (fun m => m.done.isSome)

/-- MEASUREMENT_COMPLETE (R125). -/
def execMeasurementComplete (bay : Bay) (slot : Slot) (s : State) : Host.Outcome State Fault Refusal :=
  s.runIf (s.part.ctx bay slot).measurementDone (fun p => p.measured bay slot)

/-- A restart watch has recognised a restart (R78, R128): the behaviour observed is RESTART. -/
def Part.restartRecognised (p : Part) (b : Bay) (s : Slot) : Part :=
  let c := p.ctx b s
  match c.work.watch, c.check.map Check.body with
  | some (.restart _ _ _ _ _ (some d)), some (.ocp q) => p.observed b s q .restart (some d)
  | _, _ => p

/-- RESTART_RECOGNISED (R78, R128). -/
def execRestartRecognised (bay : Bay) (slot : Slot) (s : State) : Host.Outcome State Fault Refusal :=
  s.runIf ((s.part.ctx bay slot).phase == .observe) (fun p => p.restartRecognised bay slot)

/-- A power-good watch has found power-good asserted (R79, R81): the module has recovered. -/
def Part.powerGoodRecognised (p : Part) (b : Bay) (s : Slot) : Part :=
  let w := (p.ctx b s).work
  match w.watch with
  | some (.powerGood (some t)) => p.recoverDecided b s false (some (t - w.recoverTick))
  | _ => p

/-- POWER_GOOD_RECOGNISED (R79, R128). -/
def execPowerGoodRecognised (bay : Bay) (slot : Slot) (s : State) : Host.Outcome State Fault Refusal :=
  s.runIf ((s.part.ctx bay slot).phase == .recover) (fun p => p.powerGoodRecognised bay slot)

end Sys2Proof.Machine
end

