-- ==== Sys2Proof/Machine/SpanCommands.lean ====
section
/-! DEFINITION. The expiries of the Check Sequencer's span timers (R205, last table). -/

namespace Sys2Proof.Machine

/-- A context's span timer of this kind runs, and has run for its length at tick `now` (R205). -/
def Ctx.spanDue (now : Nat) (k : SpanKind) (c : Ctx) : Bool := c.work.span.any (fun x => x.kind == k && x.timer.due now)

/-- The expiry of a context's span of this kind (R205), which comes only when the span has run for its length: the timer stands
stopped, and the context goes on by `f`. -/
def State.spanExpires (s : State) (bay : Bay) (slot : Slot) (k : SpanKind) (f : Part → Part) : Host.Outcome State Fault Refusal :=
  s.runIf ((s.part.ctx bay slot).spanDue s.part.tick k) (fun p => f (p.mapWork bay slot (fun w => { w with span := none })))

/-- The settle span of a STEADY pass is over (R74): MEASURE, with the bus voltage and the checked slot current. -/
def Part.steadySettled (p : Part) (b : Bay) (s : Slot) : Part :=
  match (p.ctx b s).check.map Check.body with
  | some (.steady q) =>
    (p.setPhase b s .measure).measure b s q.samples [openWindow none (some q.window), openWindow (some s) none]
  | _ => p

/-- STEADY_SETTLE_EXPIRY (R74). -/
def execSteadySettleExpiry (bay : Bay) (slot : Slot) (s : State) : Host.Outcome State Fault Refusal :=
  s.spanExpires bay slot .steadySettle (fun p => p.steadySettled bay slot)

/-- The settle span of a SHARE check is over (R83): MEASURE, with every participant's slot current. -/
def Part.shareSettled (p : Part) (b : Bay) (s : Slot) : Part :=
  let c := p.ctx b s
  match c.check.map Check.body with
  | some (.share q) =>
    (p.setPhase b s .measure).measure b s q.samples (c.work.participants.map (fun t => openWindow (some t) none))
  | _ => p

/-- SHARE_SETTLE_EXPIRY (R83). -/
def execShareSettleExpiry (bay : Bay) (slot : Slot) (s : State) : Host.Outcome State Fault Refusal :=
  s.spanExpires bay slot .shareSettle (fun p => p.shareSettled bay slot)

/-- The restart window is over with no restart recognised (R78): the behaviour observed is LATCH. -/
def Part.restartWindowOver (p : Part) (b : Bay) (s : Slot) : Part :=
  match (p.ctx b s).check.map Check.body with
  | some (.ocp q) => p.observed b s q .latch none
  | _ => p

/-- RESTART_WINDOW_EXPIRY (R78). -/
def execRestartWindowExpiry (bay : Bay) (slot : Slot) (s : State) : Host.Outcome State Fault Refusal :=
  s.spanExpires bay slot .restartWindow (fun p => p.restartWindowOver bay slot)

/-- RECOVERY_SPAN_EXPIRY (R79, R81): limit C fails. -/
def execRecoverySpanExpiry (bay : Bay) (slot : Slot) (s : State) : Host.Outcome State Fault Refusal :=
  s.spanExpires bay slot .recovery (fun p => p.recoverDecided bay slot true none)

/-- The trim interval is over (R80): the next TRIM_SET, or NO_TRIP after the trim ceiling. -/
def Part.trimIntervalOver (p : Part) (b : Bay) (s : Slot) : Part :=
  let c := p.ctx b s
  match c.plan, c.check.map Check.body with
  | some plan, some (.ovp q) =>
    if c.work.trim = q.trimCeiling then p.ovpNoTrip b s plan
    else p.handOwn b s .trimSet (min (c.work.trim + q.trimStep) q.trimCeiling) .trimSent
  | _, _ => p

/-- TRIM_INTERVAL_EXPIRY (R80). -/
def execTrimIntervalExpiry (bay : Bay) (slot : Slot) (s : State) : Host.Outcome State Fault Refusal :=
  s.spanExpires bay slot .trimInterval (fun p => p.trimIntervalOver bay slot)

/-- The load dwell of a plateau is over (R143): MEASURE, with the bus voltage against the check's window. -/
def Part.dwellOver (p : Part) (b : Bay) (s : Slot) : Part :=
  match (p.ctx b s).check.map Check.body with
  | some (.derate q) => (p.setPhase b s .measure).measure b s q.samples [openWindow none (some q.window)]
  | _ => p

/-- LOAD_DWELL_EXPIRY (R143). -/
def execLoadDwellExpiry (bay : Bay) (slot : Slot) (s : State) : Host.Outcome State Fault Refusal :=
  s.spanExpires bay slot .loadDwell (fun p => p.dwellOver bay slot)

end Sys2Proof.Machine
end

