-- ==== Sys2Proof/Machine/WriterCommands.lean ====
section
/-! DEFINITION. The events of the Result Writer (09_result_pages.md): page marks read, claims, record writes and FULL marks. -/

namespace Sys2Proof.Machine

/-- PAGE_MARK_READ (R170, R174). -/
def execPageMarkRead (mark : Byte) (s : State) : Host.Outcome State Fault Refusal :=
  s.runIf s.part.scan.isSome (fun p => p.pageMarkRead mark)

/-- A claim's write at this stage completes, and the part goes on by `f` (R171). -/
def State.claimWritten (s : State) (stage : ClaimStage) (f : Claim → Part → Part) : Host.Outcome State Fault Refusal :=
  match s.part.claim with
  | some c => if c.stage = stage then s.written (s.part.claimBytes c) (f c) else .next s
  | none => .next s

/-- PAGE_HEAD_WRITTEN (R171): the FILLING mark write begins. -/
def execPageHeadWritten (s : State) : Host.Outcome State Fault Refusal :=
  s.claimWritten .head (fun c p => { p with claim := some { c with stage := .filling } })

/-- FILLING_MARK_WRITTEN (R171): the link from the bay's current page follows, or the claim is complete. -/
def execFillingMarkWritten (s : State) : Host.Outcome State Fault Refusal :=
  s.claimWritten .filling (fun c p =>
    if (p.bay c.bay).currentPage.isSome then { p with claim := some { c with stage := .link } } else p.claimDone c)

/-- CHAIN_LINK_WRITTEN (R171): the claim is complete. -/
def execChainLinkWritten (s : State) : Host.Outcome State Fault Refusal := s.claimWritten .link (fun c p => p.claimDone c)

/-- A bay's record write at this stage completes, and the part goes on by `f` (R172). -/
def State.drainWritten (s : State) (b : Bay) (stage : Drain) (f : Part → Part) : Host.Outcome State Fault Refusal :=
  if (s.part.bay b).drain = stage then s.written (s.part.drainBytes b) f else .next s

/-- RECORD_FIELDS_WRITTEN (R172): the DONE mark write begins. -/
def execRecordFieldsWritten (bay : Bay) (s : State) : Host.Outcome State Fault Refusal :=
  s.drainWritten bay .fields (fun p => { p.mapBay bay (fun u => { u with drain := .done }) with free := p.free + 1 })

/-- The record being written is a VERDICT record. -/
def BayUnit.writesVerdict (u : BayUnit) : Bool :=
  match u.buffer with
  | r :: _ => r.kind == .verdict
  | [] => false

/-- DONE_MARK_WRITTEN (R172): the VERDICT notice of a VERDICT record, and the record count write. -/
def execDoneMarkWritten (bay : Bay) (s : State) : Host.Outcome State Fault Refusal :=
  s.drainWritten bay .done (fun p =>
    let q := p.mapBay bay (fun u => { u with drain := .count })
    if (p.bay bay).writesVerdict then q.notify .verdict else q)

/-- RECORD_COUNT_WRITTEN (R172, R173). -/
def execRecordCountWritten (bay : Bay) (s : State) : Host.Outcome State Fault Refusal :=
  s.drainWritten bay .count (fun p => p.recordLeft bay)

/-- FULL_MARK_WRITTEN (R173, R176). -/
def execFullMarkWritten (bay : Bay) (s : State) : Host.Outcome State Fault Refusal :=
  match (s.part.bay bay).fullWrites with
  | page :: _ => s.written (s.part.fullBytes page) (fun p => p.fullWritten bay page)
  | [] => .next s

end Sys2Proof.Machine
end

