-- ==== Sys2Proof/Machine/ZoneCommands.lean ====
section
/-! DEFINITION. The events of the Zone Controllers: readings, the expiries of a zone's spans, the chamber line. -/

namespace Sys2Proof.Machine

/-! ### Readings (R130, R133, R134, R136, R137) -/

/-- The plateau that a zone's index names (R129). -/
def Zone.plateau (z : Zone) : Option Plateau := z.schedule.bind (fun l => l[z.index]?)

/-- The zone's settle span starts from its full length (R133). -/
def Zone.startSettle (now : Nat) (z : Zone) : Zone := { z with settle := z.plateau.map (fun q => ⟨now, q.settle.ticks⟩) }

/-- A zone in a schedule. -/
def ZoneState.scheduled : ZoneState → Bool
  | .moving => true
  | .settling => true
  | .opened => true
  | .closing => true
  | _ => false

/-- A member's plateau measurement is started and not yet settled (R135, R146): its started mark says so, or, where a ZONE_SCHEDULE has
cleared the marks of a list that a stop left standing (R132, R138), its context, which goes on measuring. -/
def Part.measuring (p : Part) (m : Member) : Bool := !m.measured && (m.started || (p.ctx m.bay m.slot).derate.started)

/-- A member of a zone that enters FAULTED (R137, R146): a measurement started and not settled is cut, in a zone that has been
stopped as well (R138); an owing member of a zone in a schedule is given MISSED; the loop of every other member ends NO_PLATEAU. -/
def Part.faultMember (scheduled : Bool) (p : Part) (m : Member) : Part :=
  let measuring := p.measuring m
  let p := p.mapCtx m.bay m.slot (fun c => c.mapLoop (fun l => { l with zoneLost := true }))
  if measuring then p.cutPlateau m.bay m.slot
  else if scheduled && !m.measured then p.settleMissed m.bay m.slot
  else p.noPlateau m.bay m.slot

/-- A zone enters FAULTED (R137). The records made ready together take their places in a free order (R166). The members are dealt with
in the order of the joined list, so that the buses of measurements cut in CHANNEL_WAIT in several bays pass on, and the next
holders ask for channels, in that order: the spec gives none (log entry 42, the model's choice). -/
def Part.zoneFaulted (p : Part) (z : ZoneNo) : Part :=
  let zone := p.zone z
  let p := zone.joined.foldl (Part.faultMember zone.state.scheduled) p
  let p := p.mapZone z (fun z =>
    Zone.setTarget p.tick z.rest
      { z with state := .faulted, settle := none, limit := none, schedule := none, joined := [] })
  let ready := zone.joined.filter (fun m => (p.ctx m.bay m.slot).phase == .record)
  (p.notify .zone).outputs (ready.map (fun m => (m.bay, m.slot)))

/-- An out-of-band reading in OPEN or CLOSING marks the members still measuring OFF_BAND (R134). -/
def Part.markOffBand (p : Part) (z : ZoneNo) : Part :=
  ((p.zone z).joined.filter p.measuring).foldl
    (fun p m => p.mapCtx m.bay m.slot (fun c => { c with marks := { c.marks with offBand := true } })) p

/-- A reading that is no fault reading acts by the zone's state (R133, R134, R136). -/
def Part.actOnReading (p : Part) (z : ZoneNo) (inBand : Bool) : Part :=
  match (p.zone z).state with
  | .moving =>
    if inBand then p.mapZone z (fun z => { z.startSettle p.tick with state := .settling }) else p
  | .settling => if inBand then p else p.mapZone z (Zone.startSettle p.tick)
  | .opened => if inBand then p else p.markOffBand z
  | .closing => if inBand then p else p.markOffBand z
  | .returning =>
    if inBand then (p.mapZone z (fun z => { z with state := .rest, schedule := none })).notify .zone else p
  | _ => p

/-- A zone takes a reading (R129, R130): in HALTED it is recorded and has no other effect. A fault reading in OPEN or CLOSING sets no
OFF_BAND mark of the measurements that it cuts: R130 calls every reading that is not in band out of band, R137 and R146 name the cut
alone (log entry 49, the model's choice). -/
def Part.zoneReading (p : Part) (z : ZoneNo) (r : Reading) : Part :=
  let zone := p.zone z
  let q := p.mapZone z (fun z => { z with latest := some r })
  if p.phase = .halted then q
  else if r.fault then (if zone.state = .faulted then q else q.zoneFaulted z)
  else q.actOnReading z (r.inBand zone.target zone.band)

/-- ZONE_READING (R130). -/
def execZoneReading (zone : ZoneNo) (a b : SensorResult) (s : State) : Host.Outcome State Fault Refusal :=
  s.run (fun p => p.zoneReading zone (judgeReading a b))

/-! ### Spans (R133 to R135) -/

/-- A zone enters OPEN (R134): the plateau limit span, the measurements of the owing members in list order, the closing test. -/
def Part.openPlateau (p : Part) (z : ZoneNo) : Part :=
  let q := p.mapZone z (fun z =>
    { z with state := .opened, settle := none, limit := z.plateau.map (fun q => ⟨p.tick, q.limit.ticks⟩) })
  q.later ((q.zone z).joined.map (fun m => .startPlateau m.bay m.slot) ++ [.closingTest z])

/-- ZONE_SETTLE_EXPIRY (R133, R134, R205). -/
def execZoneSettleExpiry (zone : ZoneNo) (s : State) : Host.Outcome State Fault Refusal :=
  s.runIf ((s.part.zone zone).settle.any (SpanTimer.due s.part.tick) && (s.part.zone zone).state == .settling)
    (fun p => p.openPlateau zone)

/-- An owing member at the expiry of the plateau limit span (R135): MISSED if it has not started, else LATE. -/
def Part.limitMember (p : Part) (m : Member) : Part :=
  if m.measured then p
  else if p.measuring m then p.mapCtx m.bay m.slot (fun c => { c with marks := { c.marks with late := true } })
  else p.settleMissed m.bay m.slot

/-- The plateau limit span is over (R135): CLOSING while a member is still measuring, else the plateau closes. Where it is the last
plateau, the SUMMARYs of the members left (R136) are made ready before the records of the members given MISSED; R166 allows
either order (log entry 43, the model's choice). -/
def Part.plateauLimit (p : Part) (z : ZoneNo) : Part :=
  let members := (p.zone z).joined
  let missed := members.filter (fun m => !m.measured && !p.measuring m)
  let p := p.mapZone z (fun z => { z with limit := none })
  let p := members.foldl Part.limitMember p
  let p :=
    if (p.zone z).joined.all Member.measured then p.closePlateau z
    else p.mapZone z (fun z => { z with state := .closing })
  p.outputs (missed.map (fun m => (m.bay, m.slot)))

/-- PLATEAU_LIMIT_EXPIRY (R135, R205). -/
def execPlateauLimitExpiry (zone : ZoneNo) (s : State) : Host.Outcome State Fault Refusal :=
  s.runIf ((s.part.zone zone).limit.any (SpanTimer.due s.part.tick) && (s.part.zone zone).state == .opened)
    (fun p => p.plateauLimit zone)

/-! ### The chamber line (R131) -/

/-- The repeat of the chamber line is due: a frame begins, or follows the one being sent. -/
def Zone.repeatFrame (now : Nat) (z : Zone) : Zone := { z with repeating := none }.askFrame now

/-- CHAMBER_FRAME_REPEAT (R131, R205). -/
def execChamberFrameRepeat (zone : ZoneNo) (s : State) : Host.Outcome State Fault Refusal :=
  s.runIf ((s.part.zone zone).repeating.any (SpanTimer.due s.part.tick)) (fun p => p.mapZone zone (Zone.repeatFrame p.tick))

/-- CHAMBER_FRAME_END (R131). -/
def execChamberFrameEnd (zone : ZoneNo) (s : State) : Host.Outcome State Fault Refusal :=
  s.runIf (s.part.zone zone).frame.isSome (fun p => p.mapZone zone (Zone.endFrame p.tick))

end Sys2Proof.Machine
end

