-- ==== Sys2Proof/Machine/Dispatch.lean ====
section
/-! DEFINITION. One arm per command: the call of its meaning. -/

namespace Sys2Proof.Machine

def exec (i : Instr) (s : State) : Host.Outcome State Fault Refusal :=
  match i with
  | .powerOnReset => Sys2Proof.Machine.execPowerOnReset s
  | .stationReset => Sys2Proof.Machine.execStationReset s
  | .pcieHotReset => Sys2Proof.Machine.execPcieHotReset s
  | .pcieLinkDown => Sys2Proof.Machine.execPcieLinkDown s
  | .startingComplete => Sys2Proof.Machine.execStartingComplete s
  | .runStart => Sys2Proof.Machine.execRunStart s
  | .runStop => Sys2Proof.Machine.execRunStop s
  | .sweepPeriod code => Sys2Proof.Machine.execSweepPeriod code s
  | .bookLo w => Sys2Proof.Machine.execBookLo w s
  | .bookHi w => Sys2Proof.Machine.execBookHi w s
  | .nudge w => Sys2Proof.Machine.execNudge w s
  | .notice w => Sys2Proof.Machine.execNotice w s
  | .noticeEn w => Sys2Proof.Machine.execNoticeEn w s
  | .registerWriteOther offset w => Sys2Proof.Machine.execRegisterWriteOther offset w s
  | .headReadComplete bytes => Sys2Proof.Machine.execHeadReadComplete bytes s
  | .bookAccessFailure access => Sys2Proof.Machine.execBookAccessFailure access s
  | .sweepTimerExpiry => Sys2Proof.Machine.execSweepTimerExpiry s
  | .slotMarksRead marks => Sys2Proof.Machine.execSlotMarksRead marks s
  | .orderCopyComplete bytes => Sys2Proof.Machine.execOrderCopyComplete bytes s
  | .takenMarkWritten slot => Sys2Proof.Machine.execTakenMarkWritten slot s
  | .answerFieldsWritten slot => Sys2Proof.Machine.execAnswerFieldsWritten slot s
  | .answerCodeWritten slot => Sys2Proof.Machine.execAnswerCodeWritten slot s
  | .hostTagCopyWritten slot => Sys2Proof.Machine.execHostTagCopyWritten slot s
  | .answeredMarkWritten slot => Sys2Proof.Machine.execAnsweredMarkWritten slot s
  | .boardWritten bay => Sys2Proof.Machine.execBoardWritten bay s
  | .planEnterReadComplete bytes => Sys2Proof.Machine.execPlanEnterReadComplete bytes s
  | .filteredRise bay slot => Sys2Proof.Machine.execFilteredRise bay slot s
  | .filteredFall bay slot => Sys2Proof.Machine.execFilteredFall bay slot s
  | .linkTransactionComplete bay reply => Sys2Proof.Machine.execLinkTransactionComplete bay reply s
  | .attemptNacked bay => Sys2Proof.Machine.execAttemptNacked bay s
  | .linkTimeout bay => Sys2Proof.Machine.execLinkTimeout bay s
  | .busRecoveryEnd bay => Sys2Proof.Machine.execBusRecoveryEnd bay s
  | .samplingReadComplete who byte => Sys2Proof.Machine.execSamplingReadComplete who byte s
  | .admissionPlanReadComplete who bytes => Sys2Proof.Machine.execAdmissionPlanReadComplete who bytes s
  | .relaysClosed chan => Sys2Proof.Machine.execRelaysClosed chan s
  | .relaysOpen chan => Sys2Proof.Machine.execRelaysOpen chan s
  | .rampStep chan => Sys2Proof.Machine.execRampStep chan s
  | .ceilingHoldEnd chan => Sys2Proof.Machine.execCeilingHoldEnd chan s
  | .unloadStep chan => Sys2Proof.Machine.execUnloadStep chan s
  | .tripFiring chan => Sys2Proof.Machine.execTripFiring chan s
  | .measurementComplete bay slot => Sys2Proof.Machine.execMeasurementComplete bay slot s
  | .restartRecognised bay slot => Sys2Proof.Machine.execRestartRecognised bay slot s
  | .powerGoodRecognised bay slot => Sys2Proof.Machine.execPowerGoodRecognised bay slot s
  | .steadySettleExpiry bay slot => Sys2Proof.Machine.execSteadySettleExpiry bay slot s
  | .shareSettleExpiry bay slot => Sys2Proof.Machine.execShareSettleExpiry bay slot s
  | .restartWindowExpiry bay slot => Sys2Proof.Machine.execRestartWindowExpiry bay slot s
  | .recoverySpanExpiry bay slot => Sys2Proof.Machine.execRecoverySpanExpiry bay slot s
  | .trimIntervalExpiry bay slot => Sys2Proof.Machine.execTrimIntervalExpiry bay slot s
  | .loadDwellExpiry bay slot => Sys2Proof.Machine.execLoadDwellExpiry bay slot s
  | .zoneReading zone a b => Sys2Proof.Machine.execZoneReading zone a b s
  | .zoneSettleExpiry zone => Sys2Proof.Machine.execZoneSettleExpiry zone s
  | .plateauLimitExpiry zone => Sys2Proof.Machine.execPlateauLimitExpiry zone s
  | .chamberFrameRepeat zone => Sys2Proof.Machine.execChamberFrameRepeat zone s
  | .chamberFrameEnd zone => Sys2Proof.Machine.execChamberFrameEnd zone s
  | .secondAdvance => Sys2Proof.Machine.execSecondAdvance s
  | .pageMarkRead mark => Sys2Proof.Machine.execPageMarkRead mark s
  | .pageHeadWritten => Sys2Proof.Machine.execPageHeadWritten s
  | .fillingMarkWritten => Sys2Proof.Machine.execFillingMarkWritten s
  | .chainLinkWritten => Sys2Proof.Machine.execChainLinkWritten s
  | .recordFieldsWritten bay => Sys2Proof.Machine.execRecordFieldsWritten bay s
  | .doneMarkWritten bay => Sys2Proof.Machine.execDoneMarkWritten bay s
  | .recordCountWritten bay => Sys2Proof.Machine.execRecordCountWritten bay s
  | .fullMarkWritten bay => Sys2Proof.Machine.execFullMarkWritten bay s
  | .sampleInstant inputs => Sys2Proof.Machine.execSampleInstant inputs s
  | .monotonicTick => Sys2Proof.Machine.execMonotonicTick s

end Sys2Proof.Machine
end

