-- ==== Sys2Proof/Machine/Step.lean ====
section
/-! DEFINITION. One step: the command at the front of the queue runs; on an empty queue the block idles (log entry 23). -/

namespace Sys2Proof.Machine

/-- The state with `c` as its queue. -/
def State.withPending (s : State) (c : List Instr) : State := { s with pending := c }

/-- One step. -/
def step (s : State) : Host.Outcome State Fault Refusal :=
  match s.pending with
  | [] => .next s
  | c :: rest => exec c (s.withPending rest)

/-- The state with the command that the word `w` spells in front of its queue. No word spells one (log entry 24). -/
def State.withFetchWord (s : State) (nbits w : Nat) : State :=
  match decodeTableWord nbits w with
  | some c => s.withPending (c :: s.pending)
  | none => s

end Sys2Proof.Machine
end

