-- ==== Sys2Proof/Safety.lean ====
section
/-! DEFINITION. When an event that time brings is due (`Timely`, log entry 1); when the queue is well formed; what it means that a
command has an effect (`Does`, `Owes`, `Reaches`); the invariants that every step keeps; the limits of the directory. The machine answers
every command in every state. -/

namespace Sys2Proof

open Machine

/-- An event that the samples time is due when the time its rule gives has passed (R112, R117, R156). A command of another kind is
due whenever it comes: a filtered presence change and the expiry of a span timer test their time themselves (R4, R205), and the ramp
and unload steps, the ceiling hold, the bus recovery and the chamber frames are timed in microseconds that the samples do not show.
-/
def Timely (c : Instr) (p : Part) : Bool :=
  match c with
  | .relaysClosed c => decide ((p.chan c).moved + Config.relaySamples ≤ p.samples)
  | .relaysOpen c => decide ((p.chan c).moved + Config.relaySamples ≤ p.samples)
  | .linkTimeout b => (p.link b).timer.any (fun t => decide (t + Config.linkTimeoutSamples ≤ p.samples))
  | .secondAdvance => p.fraction == 4095
  | _ => true

/-- Every command of the queue is well formed. -/
def Machine.State.wellFormed (s : State) : Bool := s.pending.all Instr.wellFormed

/-- The commands at which a write into the Book ends: its completion, a reset or an access failure (R177, R186, R187). -/
def Instr.endsAWrite : Instr → Bool
  | .powerOnReset => true
  | .stationReset => true
  | .pcieHotReset => true
  | .pcieLinkDown => true
  | .bookAccessFailure _ => true
  | .takenMarkWritten _ => true
  | .answerFieldsWritten _ => true
  | .answerCodeWritten _ => true
  | .hostTagCopyWritten _ => true
  | .answeredMarkWritten _ => true
  | .boardWritten _ => true
  | .pageHeadWritten => true
  | .fillingMarkWritten => true
  | .chainLinkWritten => true
  | .recordFieldsWritten _ => true
  | .doneMarkWritten _ => true
  | .recordCountWritten _ => true
  | .fullMarkWritten _ => true
  | _ => false

namespace Machine

/-! ### What a command does -/

/-- The part with nothing owed from an earlier command: what the effect of a command is applied to. -/
def Part.fresh (p : Part) : Part := { p with todo := [] }

/-- The boards that count as changed once a command has made `p` of `old`, in ascending order (R4, R29, R129): those that did before,
and those whose content is no longer what it was, but for one whose rewrite in progress writes the content it now has. -/
def Part.changedSince (old p : Part) : List Bay :=
  allBays.filter (fun b => (p.bay b).boardChanged || (p.boardFields b != old.boardFields b && p.rewriting b != some (p.boardFields b)))

/-- `p` with the boards of `marked` changed and no other, and with its phase, sweep, sweep timer and nudge pending mark as given. -/
def Part.stands (p : Part) (marked : List Bay) (phase : PartState) (sweep : Sweep) (timer : Option SpanTimer) (nudge : Bool) : Part :=
  { p with
    bays := tab8 (fun b => { p.bay b with boardChanged := decide (b ∈ marked) }), phase := phase, sweep := sweep
    sweepTimer := timer, nudge := nudge }

/-- A command that began at `old` and has carried out its effect, `p`, ends as `q`. The boards whose content it changed count as
changed (R29). A pass whose rescans are over rewrites the changed boards, in ascending order, the first with its content as it
stands; with none it is over: a further sweep when nudged in RUNNING, else the sweep timer starts (R190, R194). The final pass of a
stop begins once every bay is EMPTY and no sweep or pass is in progress; when it is over and no access to the Book is in progress
the part is IDLE (R185, log entry 13). In every other case all else stays: so a command that comes while no rescan is over, outside
STOPPING, leaves the sweep, its timer and the nudge pending mark as its own effect has them. -/
def Part.EndsAs (old p q : Part) : Prop :=
  let changed := old.changedSince p
  let empties := p.phase = .stopping ∧ p.stopOwed = false ∧ ∀ b, (p.bay b).state = .empty
  let stopped := p.phase = .stopping ∧ p.quiet = true
  let nudged := p.nudge = true ∧ p.phase = .running
  let rewrites := fun (k : PassKind) (timer : Option SpanTimer) => ∀ b rest, changed = b :: rest →
    q = p.stands rest p.phase (.boards k b (p.boardFields b) rest) timer p.nudge
  let finished := (stopped → q = p.stands [] .idle .idle none false) ∧
    (¬ stopped → q = p.stands [] p.phase .finished none p.nudge)
  (∀ k, p.sweep = .rescans k [] → rewrites k p.sweepTimer ∧ (changed = [] →
    (k = .final → finished) ∧
    (k ≠ .final →
      (nudged → q = p.stands [] p.phase .marks none false) ∧
      (¬ nudged → empties → finished) ∧
      (¬ nudged → ¬ empties →
        q = p.stands [] p.phase .idle (some ⟨p.tick, sweepTicks p.sweepCode⟩) p.nudge)))) ∧
  (p.sweep = .idle → empties → rewrites .final none ∧ (changed = [] → finished)) ∧
  (p.sweep = .finished → stopped → q = p.stands changed .idle .idle none false) ∧
  ((∀ k, p.sweep ≠ .rescans k []) → ¬ (p.sweep = .idle ∧ empties) → ¬ (p.sweep = .finished ∧ stopped) →
    q = p.stands changed p.phase p.sweep p.sweepTimer p.nudge)

/-- The command `c` in state `s` completes: it leaves the part as `q`, host memory as `book`, and the waiting commands as they
were. -/
def Does (c : Instr) (s : State) (book : Memory) (q : Part) : Prop :=
  ∃ t, exec c s = .next t ∧ t.pending = s.pending ∧ t.book = book ∧ Part.EndsAs s.part q t.part

/-- The command `c` in state `s` completes: its own effect makes the part `q`, and what `q` owes (its `todo`) is then carried out;
host memory is `book`, and the waiting commands are as they were. -/
def Owes (c : Instr) (s : State) (book : Memory) (q : Part) : Prop :=
  ∃ t, exec c s = .next t ∧ t.pending = s.pending ∧ t.book = book ∧ Part.EndsAs s.part (settle Config.cascadeBound q) t.part

/-- The command `c` in state `s` completes: its own effect and the first `n` consequences that it owes make the part `q`, and what `q`
then owes is carried out; host memory is `book`, and the waiting commands are as they were. With `n = 0` it is `Owes`. -/
def Reaches (n : Nat) (c : Instr) (s : State) (book : Memory) (q : Part) : Prop :=
  ∃ t k, exec c s = .next t ∧ t.pending = s.pending ∧ t.book = book ∧ Config.cascadeBound = k + n ∧
    Part.EndsAs s.part (settle k q) t.part

/-- The part after the copy of an order of slot `o` whose owner has answered it at its taking (R191, R192): the host tag is kept,
and the answer's writes begin, or wait for the slot's TAKEN mark. -/
def Part.answeredWith (p : Part) (o : OrderSlot) (tag : Half) (rest : List OrderSlot) (code : AnswerCode)
    (fields : List (Nat × Nat × Nat)) : Part :=
  { p.fresh with
    slotTags := p.slotTags.set o tag
    sweep := .handling o rest
    answers := p.answers.set o
      (some ⟨if p.takenWrite = some o then .waiting else .fields, code, answerFields fields⟩) }

/-- What a withdrawal with this cause makes of a context, but for one within a check in RECORD or already aborted (R22, R91, R93, R167,
log entry 37): one on its way out, or ABSENT, stays; an UNPLANNED or ENDED one is ABSENT at once; an IDENTIFYING one becomes
ABSENT, and a PLANNED or PAUSED one, one at a boundary, or one that waits for its STOP_OUTPUT (R88), behind its INCOMPLETE verdict; one
within a check aborts. That a disturbed check held at its re-entry by a full buffer is at a boundary here is the model's choice (log
entry 57), and so is that a measured member does not end NO_PLATEAU between two departures of one withdrawal (log entry 59). -/
def Ctx.WithdrawnAs (cause : Cause) (c d : Ctx) : Prop :=
  (c.state = .absent ∨ c.exit = .leaving → d = c) ∧
  (c.state = .unplanned ∧ c.exit = .stay ∨ c.state = .ended ∧ c.exit ≠ .leaving → d = Ctx.reset) ∧
  (c.exit = .stay → c.state = .identifying → d = { c with exit := .leaving, out := c.out ++ [.becomeAbsent] }) ∧
  (c.exit = .stay → c.state = .planned ∨ c.state = .paused ∨ c.atBoundary = true ∨ c.atPlateau = true ∨ c.stopping = true →
    d = { c with exit := .leaving, out := c.out ++ [.verdict .incomplete (some cause), .becomeAbsent] }) ∧
  (c.inCheck = true → c.phase ≠ .record → c.work.aborting = none →
    d.state = .running ∧ d.exit = .leaving ∧ d.work.aborting = some cause)

/-! ### Invariants -/

/-- A buffer holds at most 8 records, its entry line is non-empty only while it holds 8, and the line holds at most 6 records and at
most one for each slot (R166). -/
def BayUnit.BufferOk (u : BayUnit) : Prop :=
  u.buffer.length ≤ 8 ∧ (u.line ≠ [] → u.buffer.length = 8) ∧ u.line.length ≤ 6 ∧ (u.line.map LineEntry.slot).Nodup

/-- A link queue holds at most 12 entries, hand-overs wait only while it is full, and at most 36 wait (R149, R151). -/
def Link.QueueOk (l : Link) : Prop :=
  l.queue.length ≤ 12 ∧ (l.line ≠ [] → l.queue.length = 12) ∧ l.line.length ≤ 36

/-- A channel whose relays are not CLOSED has setpoint 0 (R113). -/
def Channel.Quiet (c : Channel) : Prop := c.relay = .closed ∨ c.setpoint = 0

/-- Every channel is quiet (R113). -/
def Part.QuietChannels (p : Part) : Prop := ∀ c : Chan, (p.chan c).Quiet

/-- Every buffer, entry line, link queue and waiting line is within its size (R149, R151, R166). -/
def Part.QueuesInSize (p : Part) : Prop := ∀ b : Bay, (p.bay b).BufferOk ∧ (p.link b).QueueOk

/-- The time of day is on the calendar, the fraction below one second (R202), and bits 11:0 of BOOKLO are 0 (R179). -/
def Part.RegistersInRange (p : Part) : Prop :=
  p.seconds ≤ 3155759999 ∧ p.fraction ≤ 4095 ∧ p.bookLo &&& 0xFFF = 0

/-- The limits of the Plan Directory (R35, R36): chains of at most 16 indices without duplicates, that hold exactly the entries of
their bucket, and no two entries of one match kind with equal stored identity. -/
def Directory.InLimits (d : Directory) : Prop :=
  (∀ b : Fin 32, (d.chain b).length ≤ 16 ∧ (d.chain b).Nodup) ∧
  (∀ x e, d.entry x = some e → x ∈ d.chain e.bucket) ∧
  (∀ b x, x ∈ d.chain b → ∃ e, d.entry x = some e ∧ e.bucket = b) ∧
  (∀ x y e f, d.entry x = some e → d.entry y = some f → e.kind = f.kind → e.identity = f.identity → x = y)

/-- The directory is within its limits, and the entry of a PLAN_ENTER whose plans are being read is one that it can still take (R35,
R36, R43: the order's tests are made before its plans are read, and nothing enters the directory meanwhile). -/
def Part.DirectoryInOrder (p : Part) : Prop :=
  p.dir.InLimits ∧ ∀ r, p.planEnter = some r → p.dir.refusal r.entry = none

/-- The tables of the arbiter agree (R95, R96, R99 to R105): a channel's connected bay is its owner's; its owner holds its bay's bus; a
bay owns at most one channel; an entry of the channel grant queue is of a bus holder that owns no channel, and a bay has at most
one; a bus is free only while nothing waits for it. -/
def Part.GrantsAgree (p : Part) : Prop :=
  (∀ c : Chan, (p.chan c).bay = (p.chan c).owner.map Prod.fst) ∧
  (∀ (c : Chan) b x, (p.chan c).owner = some (b, x) → (p.bay b).busHolder = some x) ∧
  (∀ (c d : Chan) b x y, (p.chan c).owner = some (b, x) → (p.chan d).owner = some (b, y) → c = d) ∧
  (∀ e ∈ p.chanQueue, (p.bay e.bay).busHolder = some e.slot ∧ ∀ (c : Chan) x, (p.chan c).owner ≠ some (e.bay, x)) ∧
  (p.chanQueue.map ChanEntry.bay).Nodup ∧
  (∀ b : Bay, (p.bay b).busHolder = none → (p.bay b).busQueue = [])

end Machine

end Sys2Proof
end

