-- ==== Sys2Proof/Certificates/Slice0/Obligations.lean ====
section
/-! DEFINITION. The statements for the provers. `Does c s m q`: the command `c` in state `s` completes with the effect `q`, host memory as
`m` and the waiting commands as they were; the part is then `q` as `Part.EndsAs` says exactly: the boards whose content changed
count as changed, and a pass or stop whose turn it is goes on. `Owes c s m q`: the same once what `q` still owes (`q.todo`) is
carried out. An equation for `q` is thus a result and a frame: every field it does not name is as before. -/

open Sys2Proof Sys2Proof.Machine

/-! ### The machine -/

/-- A step runs the command at the front of the queue on the queue's rest. On an empty queue the block idles (the model's choice,
log entry 23). -/
def Obligations.StepRunsTheFrontCommand : Prop :=
  (∀ (c : Instr) (rest : List Instr) (s : State), s.pending = c :: rest → step s = exec c { s with pending := rest }) ∧
  ∀ s : State, s.pending = [] → step s = .next s

/-! ### Resets (R179, R182, R187) -/

/-- A power-on reset gives every field its reset value, whatever the state. A station reset, by register write, PCIe hot reset or link
down, does so but for the Station Clock, the monotonic tick and the count of samples (R187, R202, R205), and for the messages
sent so far (log entry 25). Every register then reads 0, and the part state is STARTING. The model's counter of free values
goes on (log entry 31). -/
def Obligations.ResetsGiveResetValues : Prop :=
  ∀ s : State,
    (∃ t, exec .powerOnReset s = .next t ∧ t.pending = s.pending ∧ t.part = { Part.reset with free := t.part.free } ∧
      t.part.phase = .starting ∧ ∀ n, t.part.readReg n = 0) ∧
    ∀ c, c = .stationReset ∨ c = .pcieHotReset ∨ c = .pcieLinkDown →
      ∃ t, exec c s = .next t ∧ t.pending = s.pending ∧
        t.part = { Part.reset with
          seconds := s.part.seconds, fraction := s.part.fraction, trusted := s.part.trusted, tick := s.part.tick
          samples := s.part.samples, messages := s.part.messages, zones := Vector.replicate 2 (Zone.resetAt s.part.tick)
          free := t.part.free } ∧
        ∀ n, t.part.readReg n = 0

/-! ### Register writes (R179 to R181, R183, R190) -/

/-- STARTING ends in IDLE; RUN written 1 in IDLE begins an attempt, and written 0 cancels it (R180, R182, R183). That an attempt begins
while a cancelled read is still under way is the model's choice (log entry 22), and so is the count of cancelled reads (log entry
12). -/
def Obligations.AttemptsBeginAndAreCancelled : Prop :=
  ∀ s : State,
    (s.part.phase = .starting → Does .startingComplete s s.book { s.part.fresh with phase := .idle }) ∧
    (s.part.phase = .idle → s.part.attempt = false →
      Does .runStart s s.book { s.part.fresh with attempt := true, headRejected := false, headCause := none }) ∧
    (s.part.phase = .idle → s.part.attempt = true →
      Does .runStop s s.book { s.part.fresh with attempt := false, staleReads := s.part.staleReads + 1 })

/-- RUN written 0 in RUNNING puts the part in STOPPING (R185), from where it may be IDLE at once; RUN reads 0. While a taking is in
progress the withdrawals wait for its end, and the zones in a schedule return at once: the model's choice between R138 and R185
(log entry 13). With none in progress every bay that is not EMPTY is withdrawn with cause STOPPED (R22, R109, R185): its pending
long order is answered STOPPED, its bus queue empties, and its contexts act by R22, one that waits for its STOP_OUTPUT included (R88);
one at a boundary or within a check, planned or paused, leaves its zone's list. That a disturbed check held at its re-entry by a full
buffer is withdrawn as at a boundary is the model's choice (log entry 57). -/
def Obligations.RunStopEntersStopping : Prop :=
  ∀ s : State, s.part.phase = .running →
    (s.part.attempt = false →
      ∃ t, exec .runStop s = .next t ∧ (t.part.phase = .stopping ∨ t.part.phase = .idle) ∧ t.part.runBit = false) ∧
    (s.part.sweep.taking = true →
      Does .runStop s s.book { s.part.fresh with
        phase := .stopping, nudge := false, stopOwed := true, zones := tab2 (fun z => (s.part.zone z).stop s.part.tick) }) ∧
    (s.part.sweep.taking = false →
      ∃ q, Owes .runStop s s.book q ∧ q.phase = .stopping ∧ q.nudge = false ∧
        (∀ z, ∃ l, q.zone z = { (s.part.zone z).stop s.part.tick with joined := l } ∧ ∀ m ∈ l, m ∈ (s.part.zone z).joined) ∧
        ∀ b : Bay,
          ((s.part.bay b).state = .empty → q.bay b = s.part.bay b) ∧
          ((s.part.bay b).state ≠ .empty →
            (q.bay b).state = .withdrawing ∧ (q.bay b).pendingOrder = none ∧
            ∀ o, (s.part.bay b).pendingOrder = some o → q.answers[o].any (fun a => a.code == .stopped) = true) ∧
          ((s.part.bay b).state ∉ [.empty, .withdrawing] →
            (q.bay b).cause = some .stopped ∧ (q.bay b).busQueue = [] ∧
            ∀ x,
              let c := s.part.ctx b x
              c.WithdrawnAs .stopped (q.ctx b x) ∧
              (c.exit = .stay → c.state = .planned ∨ c.state = .paused ∨ c.atBoundary = true ∨ c.atPlateau = true ∨
                  c.inCheck = true ∧ c.work.aborting = none →
                (q.zone (zoneOf b)).has b x = false)))

/-- The writes of the sweep period code outside STARTING, of BOOKLO and BOOKHI in IDLE with no head being read (R179, R180), and of
NUDGE in RUNNING (R190): with no sweep in progress the timer stops and a sweep starts, else the nudge pending mark is set. A write
of CONTROL with bit 3 set is a station reset and nothing else; else it is the sweep period code and then RUN (R180). -/
def Obligations.RegisterWritesAreTaken : Prop :=
  (∀ w : Word,
    (w.getLsbD 3 = true → registerWrite 0x00 w = [.stationReset]) ∧
    (w.getLsbD 3 = false → w.getLsbD 0 = true → registerWrite 0x00 w = [.sweepPeriod (w.extractLsb' 1 2), .runStart]) ∧
    (w.getLsbD 3 = false → w.getLsbD 0 = false → registerWrite 0x00 w = [.sweepPeriod (w.extractLsb' 1 2), .runStop])) ∧
  ∀ (s : State) (code : BitVec 2) (w : Word),
    (s.part.phase ≠ .starting → Does (.sweepPeriod code) s s.book { s.part.fresh with sweepCode := code }) ∧
    (s.part.phase = .idle → s.part.attempt = false → s.part.staleReads = 0 →
      Does (.bookLo w) s s.book { s.part.fresh with bookLo := w &&& 0xFFFFF000 } ∧
      Does (.bookHi w) s s.book { s.part.fresh with bookHi := w }) ∧
    (s.part.phase = .running → s.part.sweep = .idle →
      Does (.nudge w) s s.book { s.part.fresh with sweep := .marks, sweepTimer := none }) ∧
    (s.part.phase = .running → s.part.sweep ≠ .idle → Does (.nudge w) s s.book { s.part.fresh with nudge := true })

/-- The register writes that have no effect: those of R179 and R180's table, a NUDGE outside RUNNING, and a write to an offset
that holds no register. A cancelled head read still in progress keeps the Book base as well (log entry 12). -/
def Obligations.RegisterWritesAreDisregarded : Prop :=
  ∀ (s : State) (w : Word) (code : BitVec 2) (n : Nat),
    (s.part.phase ≠ .idle ∨ s.part.attempt = true ∨ 0 < s.part.staleReads →
      exec (.bookLo w) s = .next s ∧ exec (.bookHi w) s = .next s) ∧
    (s.part.phase = .starting →
      exec (.sweepPeriod code) s = .next s ∧ exec (.notice w) s = .next s ∧ exec (.noticeEn w) s = .next s) ∧
    (s.part.phase ≠ .running → exec (.nudge w) s = .next s) ∧
    (s.part.phase ≠ .idle ∨ s.part.attempt = true → exec .runStart s = .next s) ∧
    (s.part.phase ≠ .running → (s.part.phase ≠ .idle ∨ s.part.attempt = false) → exec .runStop s = .next s) ∧
    exec (.registerWriteOther n w) s = .next s

/-- A write of NOTICE clears the notices whose bits are 1, a write of NOTICE_EN sets the enable set, and each sends a message when
an enabled notice is left pending (R181). A raising joins the pending set, and sends a message when it takes the enabled
pending notices from none to some; in STARTING nothing is raised. -/
def Obligations.NoticesAndMessages : Prop :=
  (∀ (s : State) (w : Word), s.part.phase ≠ .starting →
    Does (.notice w) s s.book { s.part.fresh with
      pendingSet := s.part.pendingSet &&& ~~~(w.setWidth 7)
      messages := s.part.messages
        + (if s.part.pendingSet &&& ~~~(w.setWidth 7) &&& s.part.enableSet = 0 then 0 else 1) } ∧
    Does (.noticeEn w) s s.book { s.part.fresh with
      enableSet := w.setWidth 7
      messages := s.part.messages + (if s.part.pendingSet &&& w.setWidth 7 = 0 then 0 else 1) }) ∧
  (∀ (p : Part) (n : Notice), p.phase ≠ .starting →
    p.notify n = { p with
      pendingSet := p.pendingSet ||| BitVec.twoPow 7 n.bit
      messages := p.messages +
        (if p.pendingSet &&& p.enableSet = 0 ∧ (p.pendingSet ||| BitVec.twoPow 7 n.bit) &&& p.enableSet ≠ 0 then 1 else 0) }) ∧
  (∀ (p : Part) (n : Notice), p.phase = .starting → p.notify n = p)

/-! ### The Book head, access failures (R183, R184, R186) -/

/-- The tests of a head (R183): it passes all of them exactly when its format, slot count, shelf and pool sizes, reach and regions
are in order; two regions are apart when no byte offset lies in both. -/
def Obligations.HeadTestsPass : Prop :=
  ∀ h : List Byte,
    let shelf := halfAt h 0x04 * 4096
    let shelfEnd := shelf + halfAt h 0x06 * 512
    let pool := halfAt h 0x08 * 4096
    let poolEnd := pool + halfAt h 0x0A * 4096
    judgeHead h = none ↔
      byteAt h 0 = 1 ∧ 1 ≤ byteAt h 1 ∧ byteAt h 1 ≤ 16 ∧ 1 ≤ halfAt h 0x06 ∧ halfAt h 0x06 ≤ 256 ∧
      4 ≤ halfAt h 0x0A ∧ halfAt h 0x0A ≤ 1024 ∧ shelfEnd ≤ 16777216 ∧ poolEnd ≤ 16777216 ∧
      2 ≤ halfAt h 0x04 ∧ 2 ≤ halfAt h 0x08 ∧
      ¬ ∃ a, shelf ≤ a ∧ a < shelfEnd ∧ pool ≤ a ∧ a < poolEnd

/-- A head read in IDLE completes (R183, R184): a cancelled read is not judged; an accepted head gives the settings, the key and
mask (emptying the directory when either differs), cursor 0, all eight boards changed (R29), RUNNING and the first sweep; a rejected
one shows its cause and raises FAULT. Which of several reads completes, the cancelled ones first, is the model's choice (log entry
12). -/
def Obligations.HeadReadIsJudged : Prop :=
  ∀ (s : State) (h : List Byte), s.part.phase = .idle →
    (0 < s.part.staleReads →
      Does (.headReadComplete h) s s.book { s.part.fresh with staleReads := s.part.staleReads - 1 }) ∧
    (s.part.staleReads = 0 → s.part.attempt = true →
      (judgeHead h = none →
        Does (.headReadComplete h) s s.book { s.part.fresh with
          attempt := false, phase := .running, sweep := .marks, sweepTimer := none, nudge := false, stopOwed := false, cursor := 0
          bays := tab8 (fun b => { s.part.bay b with boardChanged := true })
          settings := some ⟨byteAt h 1, halfAt h 0x04, halfAt h 0x06, halfAt h 0x08, halfAt h 0x0A, h.getD 2 0⟩
          dir :=
            if s.part.dir.key = headKey h ∧ s.part.dir.mask = headMask h then s.part.dir
            else { Directory.reset with key := headKey h, mask := headMask h } }) ∧
      (∀ cause, judgeHead h = some cause →
        Does (.headReadComplete h) s s.book
          ({ s.part.fresh with attempt := false, headRejected := true, headCause := some cause }.notify .fault)))

/-- The failure of an access in progress halts the part (R186): the cause is shown and FAULT is pending; every channel is at
setpoint 0 with its relays not CLOSED (R121), every zone's target is its rest temperature (R129), a link with nothing in flight
is empty (R162), and no access to the Book is in progress any more; bay states, directory, settings and clock stay. -/
def Obligations.AccessFailureHaltsThePart : Prop :=
  ∀ (s : State) (a : FailedAccess),
    s.part.phase = .idle ∨ s.part.phase = .running ∨ s.part.phase = .stopping → s.part.accessing a = true →
    ∃ t, exec (.bookAccessFailure a) s = .next t ∧ t.pending = s.pending ∧
      t.part.phase = .halted ∧ t.part.haltCause = some a ∧ t.part.runBit = false ∧
      t.part.pendingSet = s.part.pendingSet ||| BitVec.twoPow 7 6 ∧
      (s.part.QuietChannels → ∀ c, (t.part.chan c).setpoint = 0 ∧ (t.part.chan c).relay ≠ .closed) ∧
      (∀ z, (t.part.zone z).target = (t.part.zone z).rest ∧ (t.part.zone z).rest = (s.part.zone z).rest) ∧
      (∀ b, (s.part.link b).state = .idle → (t.part.link b).queue = [] ∧ (t.part.link b).line = []) ∧
      (∀ b, (t.part.bay b).state = (s.part.bay b).state ∧ (t.part.bay b).buffer = (s.part.bay b).buffer) ∧
      (∀ k, t.part.accessing k = false) ∧ t.part.sweepTimer = none ∧
      t.part.dir = s.part.dir ∧ t.part.settings = s.part.settings ∧ t.part.seconds = s.part.seconds ∧
      t.part.fraction = s.part.fraction ∧ t.part.tick = s.part.tick

/-! ### Sweeps and orders (R185, R189 to R194) -/

/-- The expiry of the sweep timer, once it has run for its length (R205), starts a sweep in RUNNING and a stopping pass in STOPPING,
which begins with the rescans of the waiting bays (R185, R189). Before that it does not expire. A stopping pass that finds no bay
waiting and no record unwritten makes its rewrites at once (R185): the changed boards, in ascending order (the model's choice, log
entry 14), the first with its content as it stands and its mark cleared; with none changed, and a bay not EMPTY, the pass is over
and the timer starts again. -/
def Obligations.SweepTimerStartsSweepOrPass : Prop :=
  ∀ (s : State) (t : SpanTimer), s.part.sweepTimer = some t →
    (s.part.tick < t.start + t.length → exec .sweepTimerExpiry s = .next s) ∧
    (t.start + t.length ≤ s.part.tick → s.part.phase = .running →
      Does .sweepTimerExpiry s s.book { s.part.fresh with sweep := .marks, sweepTimer := none }) ∧
    (t.start + t.length ≤ s.part.tick → s.part.phase = .stopping →
      Owes .sweepTimerExpiry s s.book { s.part.fresh with
        sweep := .rescans .stopping (allBays.filter (fun b => (s.part.bay b).waiting)), sweepTimer := none, todo := [.writer] }) ∧
    (t.start + t.length ≤ s.part.tick → s.part.phase = .stopping →
      (∀ b, (s.part.bay b).waiting = false ∧ (s.part.bay b).buffer = []) →
      ∃ u, exec .sweepTimerExpiry s = .next u ∧
        (∀ b rest, allBays.filter (fun b => (s.part.bay b).boardChanged) = b :: rest →
          u.part.phase = .stopping ∧ u.part.sweep = .boards .stopping b (s.part.boardFields b) rest ∧ u.part.sweepTimer = none ∧
          u.part.nudge = s.part.nudge ∧ ∀ c, (u.part.bay c).boardChanged = decide (c ∈ rest)) ∧
        ((∀ b, (s.part.bay b).boardChanged = false) → (∃ b, (s.part.bay b).state ≠ .empty) →
          u.part.phase = .stopping ∧ u.part.nudge = s.part.nudge ∧ u.part.sweep = .idle ∧
          u.part.sweepTimer = some ⟨s.part.tick, sweepTicks s.part.sweepCode⟩ ∧
          ∀ c, (u.part.bay c).boardChanged = false))

/-- The owner marks of a sweep (R191): the slots picked are those read POSTED that are no pending long order and not still being
answered (log entry 38), in ascending order. That both are tested when the mark reads complete, and not at each slot's turn, is the
model's choice (log entry 60). The first is copied, by a read of bytes 0x01 to 0x3F of its slot (R197); with none the taking ends,
and the rescans follow (R194). -/
def Obligations.MarksReadPickPostedSlots : Prop :=
  ∀ (s : State) (marks : List Byte), s.part.phase = .running → s.part.sweep = .marks →
    marks.length = (s.part.settings.map Settings.slotCount).getD 0 →
    (∀ o : OrderSlot, o ∈ s.part.pickSlots marks ↔
      marks[o.val]? = some 1 ∧ (∀ b : Bay, (s.part.bay b).pendingOrder ≠ some o) ∧ s.part.answers[o] = none ∧
        s.part.takenWrite ≠ some o) ∧
    (s.part.pickSlots marks).Pairwise (· < ·) ∧
    (∀ o rest, s.part.pickSlots marks = o :: rest →
      Does (.slotMarksRead marks) s s.book { s.part.fresh with sweep := .copying o rest } ∧
      (s.part.base + 0x0200 + 128 * o.val + 1, 63) ∈ { s.part.fresh with sweep := .copying o rest }.readsInProgress) ∧
    (s.part.pickSlots marks = [] →
      Owes (.slotMarksRead marks) s s.book { s.part.fresh with
        sweep := .rescans .sweep (allBays.filter (fun b => (s.part.bay b).waiting)), sweepTimer := none, todo := [.writer] })

/-- An order whose code is not in the table of R192 is answered UNKNOWN_ORDER with no answer fields and changes nothing else; the
host tag of its copy is kept for the answer (R191). -/
def Obligations.UnknownOrdersAreAnswered : Prop :=
  ∀ (s : State) (o : OrderSlot) (rest : List OrderSlot) (bytes : List Byte), s.part.sweep = .copying o rest →
    byteAt (0 :: bytes) 1 ∉ [0x01, 0x02, 0x03, 0x10, 0x11, 0x12, 0x13, 0x14, 0x20, 0x30] →
    Does (.orderCopyComplete bytes) s s.book
      (s.part.answeredWith o (BitVec.ofNat 16 (halfAt (0 :: bytes) 2)) rest .unknownOrder [])

/-- CLOCK_SET (R203): a valid date and time sets the seconds, clears the fraction and sets the trust mark, answered DONE; else it is
answered BAD_TIME naming the first bad field, and the clock keeps. -/
def Obligations.ClockSetSetsTheClock : Prop :=
  ∀ (s : State) (o : OrderSlot) (rest : List OrderSlot) (bytes : List Byte),
    let l := 0 :: bytes
    let tag := BitVec.ofNat 16 (halfAt l 2)
    let d : DateTime := ⟨halfAt l 0x04, byteAt l 0x06, byteAt l 0x07, byteAt l 0x08, byteAt l 0x09, byteAt l 0x0A⟩
    s.part.sweep = .copying o rest → byteAt l 1 = 0x30 →
    (d.badField = none →
      Does (.orderCopyComplete bytes) s s.book
        { s.part.answeredWith o tag rest .done [] with seconds := d.count, fraction := 0, trusted := true }) ∧
    (∀ f, d.badField = some f →
      Does (.orderCopyComplete bytes) s s.book (s.part.answeredWith o tag rest .badTime [(0x44, 1, f)]))

/-- The seconds of a date and time (R202, R203): the epoch is 2000-01-01 00:00:00, every valid date and time is at most the last
second of 2099, and the next second, through every carry of the calendar, is one more. -/
def Obligations.CalendarCountsSeconds : Prop :=
  (⟨2000, 1, 1, 0, 0, 0⟩ : DateTime).count = 0 ∧
  ∀ d : DateTime, d.badField = none →
    d.count ≤ 3155759999 ∧
    (d.second < 59 → { d with second := d.second + 1 }.count = d.count + 1) ∧
    (d.second = 59 → d.minute < 59 → { d with minute := d.minute + 1, second := 0 }.count = d.count + 1) ∧
    (d.second = 59 → d.minute = 59 → d.hour < 23 →
      { d with hour := d.hour + 1, minute := 0, second := 0 }.count = d.count + 1) ∧
    (d.second = 59 → d.minute = 59 → d.hour = 23 → d.day < monthDays d.year d.month →
      { d with day := d.day + 1, hour := 0, minute := 0, second := 0 }.count = d.count + 1) ∧
    (d.second = 59 → d.minute = 59 → d.hour = 23 → d.day = monthDays d.year d.month → d.month < 12 →
      (⟨d.year, d.month + 1, 1, 0, 0, 0⟩ : DateTime).count = d.count + 1) ∧
    (d.second = 59 → d.minute = 59 → d.hour = 23 → d.day = 31 → d.month = 12 →
      (⟨d.year + 1, 1, 1, 0, 0, 0⟩ : DateTime).count = d.count + 1)

/-- PLAN_QUERY is answered DONE and changes nothing (R47); PLAN_REMOVE takes the entry of an index in use out of the directory and
out of its chain (R46), and is answered NO_ENTRY for a free index and REFUSED_RANGE for one above 127. -/
def Obligations.PlanQueryAndRemove : Prop :=
  ∀ (s : State) (o : OrderSlot) (rest : List OrderSlot) (bytes : List Byte),
    let l := 0 :: bytes
    let tag := BitVec.ofNat 16 (halfAt l 2)
    let d := s.part.dir
    s.part.sweep = .copying o rest →
    (byteAt l 1 = 0x03 →
      Does (.orderCopyComplete bytes) s s.book (s.part.answeredWith o tag rest .done (d.queryAnswer (identityAt l 0x06)))) ∧
    (byteAt l 1 = 0x02 →
      (128 ≤ byteAt l 4 → Does (.orderCopyComplete bytes) s s.book (s.part.answeredWith o tag rest .refusedRange [])) ∧
      ∀ x : Fin 128, byteAt l 4 = x.val →
        (d.entry x = none → Does (.orderCopyComplete bytes) s s.book (s.part.answeredWith o tag rest .noEntry [])) ∧
        ∀ e, d.entry x = some e →
          Does (.orderCopyComplete bytes) s s.book
            { s.part.answeredWith o tag rest .done
                [(0x44, 1, e.kind.code), (0x45, 1, e.bucket.val), (0x46, 1, positionIn (d.chain e.bucket) x),
                 (0x48, 2, e.refs.v0), (0x4A, 2, refField e.refs.v1), (0x4C, 2, refField e.refs.v2),
                 (0x4E, 2, refField e.refs.v3)] with
              dir := { d with
                entries := d.entries.set x none, chains := d.chains.set e.bucket ((d.chain e.bucket).erase x) } })

/-- PLAN_ENTER (R42 to R44): a field out of range is REFUSED_RANGE; an entry that the directory cannot take is refused; else the
plan record of variant 0 is read, 512 bytes at its place in the plan shelf (R50, R199), and the sweep waits. -/
def Obligations.PlanEnterIsTestedThenRead : Prop :=
  ∀ (s : State) (o : OrderSlot) (rest : List OrderSlot) (bytes : List Byte),
    let l := 0 :: bytes
    let tag := BitVec.ofNat 16 (halfAt l 2)
    let d := s.part.dir
    s.part.sweep = .copying o rest → byteAt l 1 = 0x01 →
    (∀ f, badPlanField s.part.shelfCount l = some f →
      Does (.orderCopyComplete bytes) s s.book (s.part.answeredWith o tag rest .refusedRange [(0x44, 1, f)])) ∧
    (∀ k, badPlanField s.part.shelfCount l = none → matchKindOf (byteAt l 4) = some k →
      (∀ r, d.refusal (d.orderEntry k l).1 = some r →
        Does (.orderCopyComplete bytes) s s.book (s.part.answeredWith o tag rest r.1 r.2)) ∧
      (d.refusal (d.orderEntry k l).1 = none →
        ∃ others q, (d.orderEntry k l).1.refs.present = (0, halfAt l 0x10) :: others ∧
          q = { s.part.fresh with
            slotTags := s.part.slotTags.set o tag, sweep := .handling o rest
            planEnter := some ⟨o, (d.orderEntry k l).1, (d.orderEntry k l).2, 0, halfAt l 0x10, others⟩ } ∧
          Does (.orderCopyComplete bytes) s s.book q ∧
          ∀ g, s.part.settings = some g →
            (s.part.base + g.shelfOffset * 4096 + 512 * halfAt l 0x10, 512) ∈ q.readsInProgress))

/-- A plan record read for a PLAN_ENTER (R44, R45): an invalid one is answered BAD_PLAN and changes the directory not at all; a valid
one is followed by the next reference, or, after the last, by the insertion at the lowest free index and at the end of the
bucket's chain, answered DONE. -/
def Obligations.PlanEnterReadsThenInserts : Prop :=
  ∀ (s : State) (r : PlanEnter) (bytes : List Byte), s.part.planEnter = some r →
    (∀ bad, validate bytes = .invalid bad →
      Does (.planEnterReadComplete bytes) s s.book
        ({ s.part.fresh with planEnter := none }.answer r.slot .badPlan
          [(0x44, 1, r.variant.val), (0x46, 2, r.ref), (0x48, 1, bad)])) ∧
    (∀ plan, validate bytes = .valid plan →
      (∀ v n others, r.rest = (v, n) :: others →
        Does (.planEnterReadComplete bytes) s s.book
          { s.part.fresh with planEnter := some { r with variant := v, ref := n, rest := others } }) ∧
      (∀ x, r.rest = [] → s.part.dir.lowestFree = some x →
        Does (.planEnterReadComplete bytes) s s.book
          ({ s.part.fresh with
              planEnter := none
              dir := { s.part.dir with
                entries := s.part.dir.entries.set x (some r.entry)
                chains := s.part.dir.chains.set r.entry.bucket (s.part.dir.chain r.entry.bucket ++ [x]) } }.answer r.slot .done
            [(0x44, 1, x.val), (0x45, 1, r.entry.bucket.val), (0x46, 1, (s.part.dir.chain r.entry.bucket).length),
             (0x48, 4, r.digest.toNat)])))

/-- The limits of the directory (R35, R36): the empty directory keeps them, and an insertion that the directory does not refuse, a
removal and an accepted head keep them. Every step keeps them, with the model's own invariant that the entry of a PLAN_ENTER whose
plans are being read is one that the directory can still take. -/
def Obligations.DirectoryLimitsAreKept : Prop :=
  Directory.reset.InLimits ∧
  (∀ d : Directory, d.InLimits →
    (∀ e x, d.refusal e = none → d.lowestFree = some x → (d.insertAt x e).InLimits) ∧
    (∀ e x, d.entry x = some e → (d.removeAt x e).InLimits) ∧
    (∀ key mask, (d.take key mask).InLimits)) ∧
  ∀ s t : State, s.part.DirectoryInOrder → step s = .next t → t.part.DirectoryInOrder

/-! ### Bay and zone orders (R3, R10 to R22, R132) -/

/-- The refusals of the bay orders (R3, R10): a bay above 7 and a bad policy code are REFUSED_RANGE, naming the field; a bay whose
state does not take the order is REFUSED_BUSY. Nothing else changes. That a BAY_ADMIT with both policy codes bad names the start policy
(bad field 1) is the model's choice: R10 and R197 give no order of the two tests (log entry 44). -/
def Obligations.BayOrdersAreRefused : Prop :=
  ∀ (s : State) (o : OrderSlot) (rest : List OrderSlot) (bytes : List Byte),
    let l := 0 :: bytes
    let refuses := fun code fields =>
      Does (.orderCopyComplete bytes) s s.book (s.part.answeredWith o (BitVec.ofNat 16 (halfAt l 2)) rest code fields)
    s.part.sweep = .copying o rest →
    (byteAt l 1 ∈ [0x10, 0x11, 0x12, 0x13, 0x14] → 8 ≤ byteAt l 4 → refuses .refusedRange [(0x44, 1, 0)]) ∧
    ∀ b : Bay, byteAt l 4 = b.val →
      (byteAt l 1 = 0x10 → 2 ≤ byteAt l 5 → refuses .refusedRange [(0x44, 1, 1)]) ∧
      (byteAt l 1 = 0x10 → byteAt l 5 < 2 → 2 ≤ byteAt l 6 → refuses .refusedRange [(0x44, 1, 2)]) ∧
      (byteAt l 1 = 0x10 → byteAt l 5 < 2 → byteAt l 6 < 2 → (s.part.bay b).state ≠ .empty → refuses .refusedBusy []) ∧
      (byteAt l 1 = 0x11 → (s.part.bay b).state ∉ [.ready, .running, .finished] → refuses .refusedBusy []) ∧
      (byteAt l 1 = 0x12 → (s.part.bay b).state ≠ .running → refuses .refusedBusy []) ∧
      (byteAt l 1 = 0x13 → (s.part.bay b).state ∉ [.holding, .held] → refuses .refusedBusy []) ∧
      (byteAt l 1 = 0x14 → (s.part.bay b).state ∈ [.empty, .withdrawing] → refuses .refusedBusy [])

/-- BAY_START in READY, RUNNING or FINISHED (R16): every PLANNED context of the bay that is not on its way out (log entry 37) becomes
RUNNING at check index 0, the bay is RUNNING (a FINISHED one only if a context was started), and the answer is DONE with their
number; other bays, channels and zones are as before. Their first boundaries follow in slot order, and then the tests on the bay:
the order of what follows is the model's (log entries 10, 32). Where every context is ENDED, UNPLANNED or ABSENT a READY or
RUNNING bay is FINISHED at once (R18). -/
def Obligations.BayStartStartsPlannedContexts : Prop :=
  ∀ (s : State) (o : OrderSlot) (rest : List OrderSlot) (bytes : List Byte) (b : Bay),
    let l := 0 :: bytes
    let startable := fun x : Slot => (s.part.ctx b x).startable
    let n := (allSlots.filter startable).length
    s.part.sweep = .copying o rest → byteAt l 1 = 0x11 → byteAt l 4 = b.val →
    (s.part.bay b).state ∈ [.ready, .running, .finished] →
    ∃ q, Owes (.orderCopyComplete bytes) s s.book q ∧
      (q.bay b).state = (if (s.part.bay b).state = .finished ∧ n = 0 then .finished else .running) ∧
      q.answers[o] = some ⟨if s.part.takenWrite = some o then .waiting else .fields, .done, answerFields [(0x44, 1, n)]⟩ ∧
      (∀ x, q.ctx b x = if startable x then { s.part.ctx b x with state := .running, checkIndex := 0 } else s.part.ctx b x) ∧
      (∀ c, c ≠ b → q.bay c = s.part.bay c) ∧ q.chans = s.part.chans ∧ q.zones = s.part.zones ∧
      q.todo = (allSlots.filter startable).map (fun x => .boundary b x) ++ [.bayTest b, .orderHandled o] ∧
      ((s.part.bay b).state ≠ .finished → (∀ x, (s.part.ctx b x).state ∈ [.ended, .unplanned, .absent]) →
        ∃ r, Reaches 1 (.orderCopyComplete bytes) s s.book r ∧ (r.bay b).state = .finished ∧
          ∀ x, r.ctx b x = s.part.ctx b x)

/-- BAY_ADMIT in EMPTY (R10): the bay is ADMITTING with the policies of the order, whose slot is its pending long order; every PRESENT
slot's context becomes IDENTIFYING with identity attempts 1 (R12), and the others stay. In a bay with no PRESENT slot, whose contexts
are ABSENT, the admission is over at once (R11): READY under WAIT and RUNNING under AUTO, answered DONE with the counts 0, 0, 0
and 6. -/
def Obligations.BayAdmitScansTheBay : Prop :=
  ∀ (s : State) (o : OrderSlot) (rest : List OrderSlot) (bytes : List Byte) (b : Bay) (start : StartPolicy)
    (insert : InsertPolicy),
    let l := 0 :: bytes
    s.part.sweep = .copying o rest → byteAt l 1 = 0x10 → byteAt l 4 = b.val → (s.part.bay b).state = .empty →
    startPolicyOf (byteAt l 5) = some start → insertPolicyOf (byteAt l 6) = some insert →
    ∃ q, Owes (.orderCopyComplete bytes) s s.book q ∧
      (q.bay b).state = .admitting ∧ (q.bay b).start = start ∧ (q.bay b).insert = insert ∧ (q.bay b).pendingOrder = some o ∧
      (∀ x, (s.part.bay b).present x = true → (q.ctx b x).state = .identifying ∧ (q.ctx b x).attempts = 1) ∧
      (∀ x, (s.part.bay b).present x = false → q.ctx b x = s.part.ctx b x) ∧
      (∀ c, c ≠ b → q.bay c = s.part.bay c) ∧ q.chans = s.part.chans ∧ q.zones = s.part.zones ∧
      ((∀ x, (s.part.bay b).present x = false ∧ (s.part.ctx b x).state = .absent) →
        ∃ r a, Reaches 1 (.orderCopyComplete bytes) s s.book r ∧
          (r.bay b).state = (if start = .auto then .running else .ready) ∧ (r.bay b).pendingOrder = none ∧
          r.answers[o] = some a ∧ a.code = .done ∧
          a.fields = answerFields [(0x44, 1, 0), (0x45, 1, 0), (0x46, 1, 0), (0x47, 1, 6)])

/-- BAY_HOLD in RUNNING (R19, R107, R147): the bay is HOLDING with the order's slot as its pending long order. Contexts at a check
boundary, contexts that wait for the bus or a channel for a check that is not DERATE, and contexts at a plateau boundary are PAUSED;
they leave the bus-lock queue, the channel grant queue and the zone's list, and the bus of a paused holder passes to the first entry
that stays in its queue. Where no other context is RUNNING none is left RUNNING, and the test that is owed makes the bay HELD and
answers the hold DONE: at once, but where the pauses close the last plateau for members of the other bays of the zone, whose
SUMMARYs come first; else it is HELD when the last RUNNING context comes to its boundary (R20), as at the end of its RECORD.
BAY_RESUME in HOLDING or HELD (R21): the bay is RUNNING and the RESUME answered DONE, in HOLDING the pending HOLD as well; paused
contexts run again, at the boundary of their check or in their zone's list, and under JOIN the planned ones start. A context on its
way out is left (log entry 37). That every context at a plateau boundary pauses, though another that pauses was the last to owe the
last plateau, is the model's choice (log entry 59). -/
def Obligations.BayHoldAndResume : Prop :=
  (∀ (s : State) (o : OrderSlot) (rest : List OrderSlot) (bytes : List Byte) (b : Bay),
    let l := 0 :: bytes
    let u := s.part.bay b
    let c := fun x => s.part.ctx b x
    let stays := u.busQueue.filter (fun e => !(c e.slot).waitsIn .busWait)
    s.part.sweep = .copying o rest → byteAt l 4 = b.val →
    (byteAt l 1 = 0x12 → u.state = .running →
      ∃ q, Owes (.orderCopyComplete bytes) s s.book q ∧
        (q.bay b).state = .holding ∧ (q.bay b).pendingOrder = some o ∧
        (∀ x, (c x).atBoundary = true ∨ (c x).waitsIn .busWait = true ∨
            u.busHolder = some x ∧ (c x).waitsIn .channelWait = true → (q.ctx b x).state = .paused) ∧
        (∀ x, (c x).atPlateau = true → (∀ e ∈ u.busQueue, e.slot ≠ x) →
          (q.ctx b x).state = .paused ∧ (q.ctx b x).derate.inLoop = true ∧ (q.zone (zoneOf b)).has b x = false) ∧
        ((∀ x, u.busHolder = some x → (c x).waitsIn .channelWait = false) →
          (q.bay b).busHolder = u.busHolder ∧ (q.bay b).busQueue = stays ∧ q.chanQueue = s.part.chanQueue) ∧
        (∀ x, u.busHolder = some x → (c x).waitsIn .channelWait = true → (∀ k, (s.part.chan k).owner.map Prod.fst ≠ some b) →
          (∀ e ∈ s.part.chanQueue, e.bay = b → e.slot = x) →
          (q.bay b).busHolder = stays.head?.map BusEntry.slot ∧ (q.bay b).busQueue = stays.drop 1 ∧
          (stays = [] → q.chanQueue = s.part.chanQueue.filter (fun e => e.bay != b))) ∧
        .bayTest b ∈ q.todo ∧
        ((∀ x, (c x).state = .running → (c x).atBoundary = true ∨ (c x).waitsIn .busWait = true ∨
            u.busHolder = some x ∧ (c x).waitsIn .channelWait = true ∨
            (c x).atPlateau = true ∧ ∀ e ∈ u.busQueue, e.slot ≠ x) →
          (∀ x, (q.ctx b x).state ≠ .running) ∧
          let z := s.part.zone (zoneOf b)
          let left := z.joined.filter (fun m => !(m.bay == b && (c m.slot).atPlateau))
          (z.state ∉ [.opened, .closing] ∨ left = [] ∨ (∃ m ∈ left, m.measured = false) ∨
              (z.schedule.bind (fun l => l[z.index + 1]?)).isSome = true →
            ∃ n r, n ≤ 2 ∧ Reaches n (.orderCopyComplete bytes) s s.book r ∧ (r.bay b).state = .held ∧
              (r.bay b).pendingOrder = none ∧ r.answers[o].any (fun a => a.code == .done) = true))) ∧
    (byteAt l 1 = 0x13 → u.state ∈ [.holding, .held] →
      ∃ q, Owes (.orderCopyComplete bytes) s s.book q ∧
        (q.bay b).state = .running ∧ q.answers[o].any (fun a => a.code == .done) ∧
        (∀ x, (c x).state = .paused → (c x).exit = .stay →
          (q.ctx b x).state = .running ∧
          ((c x).derate.inLoop = false → .boundary b x ∈ q.todo) ∧
          ((c x).derate.inLoop = true →
            (q.ctx b x).phase = .plateauWait ∧ (q.zone (zoneOf b)).has b x = true ∧ .startPlateau b x ∈ q.todo)) ∧
        (∀ x, (c x).startable = true → u.insert = .join →
          (q.ctx b x).state = .running ∧ (q.ctx b x).checkIndex = 0 ∧ .boundary b x ∈ q.todo) ∧
        (∀ x, (c x).state ≠ .paused → (c x).startable = false ∨ u.insert = .park → q.ctx b x = c x) ∧
        (∀ h, u.state = .holding → u.pendingOrder = some h →
          (q.bay b).pendingOrder = none ∧ q.answers[h].any (fun a => a.code == .done)))) ∧
  (∀ (p : Part) (b : Bay), (p.bay b).state = .holding → (∀ x, (p.ctx b x).state ≠ .running) →
    let q := consequence (.bayTest b) p
    (q.bay b).state = .held ∧ (q.bay b).pendingOrder = none ∧
    ∀ o, (p.bay b).pendingOrder = some o → q.answers[o].any (fun a => a.code == .done) = true) ∧
  ∀ (s : State) (g : Settings) (b : Bay) (r : Record) (l : List Record) (n : Nat) (e : LineEntry) (es : List LineEntry)
    (k : Check) (plan : Plan),
    let u := s.part.bay b
    let c := s.part.ctx b e.slot
    s.part.settings = some g → u.drain = .count → u.buffer = r :: l → u.currentPage = some n → u.line = e :: es →
    (∀ f ∈ es, f.slot ≠ e.slot) → u.state = .holding → (∀ x, x ≠ e.slot → (s.part.ctx b x).state ≠ .running) →
    c.state = .running → c.phase = .record → c.exit = .stay → c.out = [.applyResult] → c.work.step ≠ .stopOutput →
    c.plan = some plan → c.check = some k → c.checkFailed = false → c.checkIndex + 1 < plan.checks.length →
    ∃ q, Reaches 4 (.recordCountWritten b) s
        (s.book.writeBytes (s.part.base + g.poolOffset * 4096 + 4096 * n + 6) [BitVec.ofNat 8 (u.pageCount + 1)]) q ∧
      (q.ctx b e.slot).state = .paused ∧ (q.ctx b e.slot).checkIndex = c.checkIndex + 1 ∧
      (q.bay b).state = .held ∧ (q.bay b).pendingOrder = none ∧
      ∀ o, u.pendingOrder = some o → q.answers[o].any (fun a => a.code == .done) = true

/-- A withdrawal of a bay that is not withdrawing begins (R22, R109): WITHDRAWING, its cause, and no entry of the bay in the queues of
the arbiter; one that is withdrawing stays as it is. A context that becomes ABSENT has every field at its value in ABSENT, and
no entry of its own left in the link's queue or line (R7, R159). A BAY_WITHDRAW taken (R22): the bay's pending long order is
answered SUPERSEDED and the order stands in its place, its contexts act by R22 (a disturbed check held at its re-entry by a full
buffer as at a boundary: the model's choice, log entry 57; none ends NO_PLATEAU because another of them left its zone first: the
model's choice, log entry 59), and other bays are as before. The FULL mark of
the last page of a bay that is done with all else takes it to EMPTY, its pending order answered DONE (R23, R176). -/
def Obligations.WithdrawalsBeginAndContextsLeave : Prop :=
  (∀ (p : Part) (b : Bay) (cause : Cause),
    ((p.bay b).state ≠ .withdrawing →
      ((p.beginWithdraw b cause).bay b).state = .withdrawing ∧ ((p.beginWithdraw b cause).bay b).cause = some cause ∧
      ((p.beginWithdraw b cause).bay b).busQueue = [] ∧ ∀ e ∈ (p.beginWithdraw b cause).chanQueue, e.bay ≠ b) ∧
    ((p.bay b).state = .withdrawing → p.beginWithdraw b cause = p)) ∧
  (∀ (p : Part) (b : Bay) (x : Slot),
    (p.becomeAbsent b x).ctx b x = Ctx.reset ∧
    (∀ e ∈ ((p.becomeAbsent b x).link b).queue ++ ((p.becomeAbsent b x).link b).line, e.who ≠ p.requester b x) ∧
    (∀ y, y ≠ x → (p.becomeAbsent b x).ctx b y = p.ctx b y)) ∧
  (∀ (s : State) (o : OrderSlot) (rest : List OrderSlot) (bytes : List Byte) (b : Bay),
    let l := 0 :: bytes
    s.part.sweep = .copying o rest → byteAt l 1 = 0x14 → byteAt l 4 = b.val →
    (s.part.bay b).state ∉ [.empty, .withdrawing] →
    ∃ q, Owes (.orderCopyComplete bytes) s s.book q ∧
      (q.bay b).state = .withdrawing ∧ (q.bay b).cause = some .withdrawn ∧ (q.bay b).pendingOrder = some o ∧
      (∀ h, (s.part.bay b).pendingOrder = some h → q.answers[h].any (fun a => a.code == .superseded) = true) ∧
      (q.bay b).busQueue = [] ∧ (∀ e ∈ q.chanQueue, e.bay ≠ b) ∧
      (∀ x, (s.part.ctx b x).WithdrawnAs .withdrawn (q.ctx b x)) ∧
      ∀ c, c ≠ b → q.bay c = s.part.bay c) ∧
  ∀ (s : State) (g : Settings) (b : Bay) (n : Nat), s.part.settings = some g →
    (s.part.bay b).state = .withdrawing → (s.part.bay b).currentPage = some n → (s.part.bay b).fullWrites = [n] →
    (s.part.bay b).buffer = [] → (s.part.bay b).line = [] → (∀ x, (s.part.ctx b x).state = .absent) →
    (∀ x : Slot, (s.part.bay b).standby[x] = none) →
    ∃ q, Does (.fullMarkWritten b) s (s.book.writeBytes (s.part.base + g.poolOffset * 4096 + 4096 * n) [2]) q ∧
      (q.bay b).state = .empty ∧ (q.bay b).cause = none ∧ (q.bay b).pendingOrder = none ∧
      (q.bay b).firstPage = none ∧ (q.bay b).currentPage = none ∧ (q.bay b).busHolder = none ∧
      ∀ o, (s.part.bay b).pendingOrder = some o → q.answers[o].any (fun a => a.code == .done) = true

/-- ZONE_SCHEDULE (R132): taken in REST or FAULTED with its fields in range, the zone moves toward plateau 0 of the schedule, and
the answer is DONE; a zone above 1 or a field out of range is REFUSED_RANGE, and any other zone state REFUSED_BUSY. -/
def Obligations.ZoneScheduleMovesTheZone : Prop :=
  ∀ (s : State) (o : OrderSlot) (rest : List OrderSlot) (bytes : List Byte),
    let l := 0 :: bytes
    let tag := BitVec.ofNat 16 (halfAt l 2)
    let refuses := fun code fields =>
      Does (.orderCopyComplete bytes) s s.book (s.part.answeredWith o tag rest code fields)
    s.part.sweep = .copying o rest → byteAt l 1 = 0x20 →
    (2 ≤ byteAt l 4 → refuses .refusedRange [(0x44, 1, 0)]) ∧
    ∀ z : ZoneNo, byteAt l 4 = z.val →
      ((s.part.zone z).state ∉ [.rest, .faulted] → refuses .refusedBusy []) ∧
      ((s.part.zone z).state ∈ [.rest, .faulted] →
        (∀ f, badScheduleField l = some f → refuses .refusedRange [(0x44, 1, f.1), (0x45, 1, f.2)]) ∧
        (badScheduleField l = none →
          ∃ q, Does (.orderCopyComplete bytes) s s.book q ∧
            q.answers[o] = some ⟨if s.part.takenWrite = some o then .waiting else .fields, .done, answerFields []⟩ ∧
            (q.zone z).state = .moving ∧ (q.zone z).schedule = some (orderPlateaus l) ∧ (q.zone z).index = 0 ∧
            (q.zone z).rest = signed16 (halfAt l 0x06) ∧ (q.zone z).band = some (halfAt l 0x08 : Int) ∧
            (∀ p ps, orderPlateaus l = p :: ps → (q.zone z).target = p.temp) ∧
            (q.zone z).settle = none ∧ (q.zone z).limit = none ∧
            (∀ y, y ≠ z → q.zone y = s.part.zone y) ∧ q.bays = s.part.bays ∧ q.chans = s.part.chans))

/-! ### Writes into the Book (R29, R171 to R173, R188, R193, R194) -/

/-- Bytes written from an address on read back, and every other byte is as before. -/
def Obligations.MemoryWritesReadBack : Prop :=
  ∀ (m : Memory) (a : Nat) (l : List Byte),
    (m.wf = true → ∀ i (h : i < l.length), (m.writeBytes a l).read (a + i) = some l[i]) ∧
    ∀ x, x < a ∨ a + l.length ≤ x → (m.writeBytes a l).read x = m.read x

/-- Every command completes in every state, and leaves the commands that wait as they were. It changes no byte of host memory outside
the writes that are in progress when it comes, and, unless it is a reset, a halt or the completion of a write, none at all
(R177, R182, R188). That a command whose event cannot come changes nothing is the model's choice (log entry 2), and which bytes of a
write that is cut short land is free, but for a page's record count and a board's write count (log entry 5). -/
def Obligations.CommandsCompleteAndTouchOnlyBytesBeingWritten : Prop :=
  ∀ (c : Instr) (s : State), ∃ t, exec c s = .next t ∧ t.pending = s.pending ∧
    (∀ a, (∀ w ∈ s.part.writesInProgress, a < w.1 ∨ w.1 + w.2.length ≤ a) → t.book.read a = s.book.read a) ∧
    (c.endsAWrite = false → t.book = s.book)

/-- The writes of TAKEN and of an answer (R188, R193): the TAKEN mark, then answer fields, answer code and host tag copy, each at
its place in the slot and each followed by the next. With the TAKEN mark an answer that waits for it begins. -/
def Obligations.TakenMarkAndAnswerFields : Prop :=
  ∀ (s : State) (o : OrderSlot),
    let at0 := s.part.base + 0x0200 + 128 * o.val
    (s.part.takenWrite = some o →
      ∃ q, Owes (.takenMarkWritten o) s (s.book.writeBytes at0 [2]) q ∧ q.takenWrite = none ∧
        (∀ a, s.part.answers[o] = some a → q.answers[o] = some { a with stage := if a.stage = .waiting then .fields else a.stage }) ∧
        (∀ rest, s.part.sweep = .handling o rest → q.todo = [.nextTaking rest])) ∧
    ∀ a, s.part.answers[o] = some a →
      (a.stage = .fields →
        Does (.answerFieldsWritten o) s (s.book.writeBytes (at0 + 0x44) a.fields)
          { s.part.fresh with answers := s.part.answers.set o (some { a with stage := .code }) }) ∧
      (a.stage = .code →
        Does (.answerCodeWritten o) s (s.book.writeBytes (at0 + 0x40) [BitVec.ofNat 8 a.code.code])
          { s.part.fresh with answers := s.part.answers.set o (some { a with stage := .tag }) }) ∧
      (a.stage = .tag →
        Does (.hostTagCopyWritten o) s
          (s.book.writeBytes (at0 + 0x42) [s.part.slotTags[o].extractLsb' 0 8, s.part.slotTags[o].extractLsb' 8 8])
          { s.part.fresh with answers := s.part.answers.set o (some { a with stage := .mark }) })

/-- The ANSWERED mark (R188): it is written over the slot's first byte, the answer is done, and ANSWERED is raised; where the sweep
waits for this order it takes its next (R191). -/
def Obligations.AnsweredMarkEndsTheAnswer : Prop :=
  ∀ (s : State) (o : OrderSlot) (a : Answering), s.part.answers[o] = some a → a.stage = .mark →
    ∃ q, Owes (.answeredMarkWritten o) s (s.book.writeBytes (s.part.base + 0x0200 + 128 * o.val) [3]) q ∧
      q.answers = s.part.answers.set o none ∧
      (s.part.phase ≠ .starting → q.pendingSet = s.part.pendingSet ||| BitVec.twoPow 7 0) ∧
      (∀ rest, s.part.sweep = .handling o rest → q.todo = [.nextTaking rest]) ∧
      ((∀ rest, s.part.sweep ≠ .handling o rest) → q.todo = [])

/-- A sweep that picks no order, finds no bay waiting and no record unwritten, goes on to its rewrites at once (R194): the boards
changed since they were last written, those that its own command changed included (R29). That they are those changed when the
rewrites begin, in ascending order, whatever changes meanwhile, is the model's choice (log entry 14). A board's rewrite completes
(R29, R194, R198): its 254 bytes of content as taken when the rewrite began, and its write count increased by one, stand at its
place; no mark but the next board's is cleared; the next board of the list follows with the content it then has, and after the last
the sweep or stopping pass ends: a further sweep when nudged in RUNNING, else the sweep timer starts (R185, R190), unless the final
pass of a stop is now due. The end of the final pass takes the part from STOPPING to IDLE, the sweep timer stopped (R185), once no
access to the Book is in progress (the model's choice, log entry 13); RUN written 0 with every bay EMPTY and none in progress does
so at once, or begins the final pass with the changed boards. -/
def Obligations.BoardsAreRewritten : Prop :=
  (∀ (p : Part) (b : Bay), (fieldBytes (p.boardFields b)).length = 254) ∧
  (∀ (old p : Part) (b : Bay), b ∈ old.changedSince p ↔ (p.bay b).boardChanged = true ∨
    p.boardFields b ≠ old.boardFields b ∧ ∀ k l, p.sweep ≠ .boards k b (p.boardFields b) l) ∧
  (∀ (s : State) (marks : List Byte), s.part.phase = .running → s.part.sweep = .marks →
    marks.length = (s.part.settings.map Settings.slotCount).getD 0 → s.part.pickSlots marks = [] →
    (∀ b, (s.part.bay b).waiting = false ∧ (s.part.bay b).buffer = []) →
    ∃ t, exec (.slotMarksRead marks) s = .next t ∧ t.part.phase = .running ∧
      (∀ b rest, allBays.filter (fun b => (s.part.bay b).boardChanged) = b :: rest →
        t.part.sweep = .boards .sweep b (s.part.boardFields b) rest ∧ t.part.sweepTimer = none ∧ t.part.nudge = s.part.nudge ∧
        ∀ c, (t.part.bay c).boardChanged = decide (c ∈ rest)) ∧
      ((∀ b, (s.part.bay b).boardChanged = false) →
        (∀ c, (t.part.bay c).boardChanged = false) ∧
        (s.part.nudge = true → t.part.sweep = .marks ∧ t.part.sweepTimer = none ∧ t.part.nudge = false) ∧
        (s.part.nudge = false →
          t.part.sweep = .idle ∧ t.part.sweepTimer = some ⟨s.part.tick, sweepTicks s.part.sweepCode⟩))) ∧
  (∀ (s : State) (k : PassKind) (b : Bay) (content : List (Nat × Nat)) (rest : List Bay),
    s.part.sweep = .boards k b content rest →
    ∃ q, Does (.boardWritten b) s
        (s.book.writeBytes (s.part.base + 0x1000 + 256 * b.val)
          (fieldBytes content ++ leBytes 2 ((s.part.bay b).writeCount + 1))) q ∧
      (q.bay b).writeCount = ((s.part.bay b).writeCount + 1) % 65536 ∧ q.phase = s.part.phase ∧
      (∀ c, rest.head? ≠ some c → (q.bay c).boardChanged = (s.part.bay c).boardChanged) ∧
      (∀ c l, rest = c :: l → q.sweep = .boards k c (s.part.boardFields c) l ∧ (q.bay c).boardChanged = false) ∧
      (rest = [] → k ≠ .final → s.part.nudge = true → s.part.phase = .running → q.sweep = .marks ∧ q.nudge = false) ∧
      (rest = [] → k ≠ .final → s.part.nudge = false →
        q.sweep = .idle ∧ q.sweepTimer = some ⟨s.part.tick, sweepTicks s.part.sweepCode⟩) ∧
      (rest = [] → k = .final → q.sweep = .finished ∧ q.sweepTimer = none)) ∧
  (∀ (s : State) (k : PassKind) (b : Bay) (content : List (Nat × Nat)) (rest : List Bay),
    s.part.sweep = .boards k b content rest →
    ∃ t, exec (.boardWritten b) s = .next t ∧
      (∀ c l, rest = c :: l → t.part.phase = s.part.phase ∧ t.part.sweep = .boards k c (s.part.boardFields c) l ∧
        t.part.sweepTimer = s.part.sweepTimer ∧ t.part.nudge = s.part.nudge) ∧
      (rest = [] → k ≠ .final → ¬ (s.part.nudge = true ∧ s.part.phase = .running) →
        ¬ (s.part.phase = .stopping ∧ s.part.stopOwed = false ∧ ∀ c, (s.part.bay c).state = .empty) →
        t.part.phase = s.part.phase ∧ t.part.sweep = .idle ∧
        t.part.sweepTimer = some ⟨s.part.tick, sweepTicks s.part.sweepCode⟩ ∧ t.part.nudge = s.part.nudge ∧
        ∀ c, (t.part.bay c).boardChanged = (s.part.bay c).boardChanged)) ∧
  (∀ (s : State) (b : Bay) (content : List (Nat × Nat)), s.part.sweep = .boards .final b content [] → s.part.phase = .stopping →
    s.part.quiet = true →
    ∃ t, exec (.boardWritten b) s = .next t ∧ t.part.phase = .idle ∧ t.part.sweep = .idle ∧ t.part.sweepTimer = none ∧
      t.part.settings = s.part.settings ∧ t.part.dir = s.part.dir ∧ t.part.cursor = s.part.cursor) ∧
  ∀ s : State, s.part.phase = .running → s.part.sweep = .idle → (∀ b, (s.part.bay b).state = .empty) → s.part.quiet = true →
    ∃ t, exec .runStop s = .next t ∧
      ((∀ z, (s.part.zone z).state ∈ [.rest, .returning, .faulted]) →
        (∀ b rest, allBays.filter (fun b => (s.part.bay b).boardChanged) = b :: rest →
          t.part.phase = .stopping ∧ t.part.sweep = .boards .final b (s.part.boardFields b) rest ∧ t.part.sweepTimer = none) ∧
        ((∀ b, (s.part.bay b).boardChanged = false) →
          t.part.phase = .idle ∧ t.part.sweep = .idle ∧ t.part.sweepTimer = none)) ∧
      (t.part.phase = .idle ∧ t.part.sweepTimer = none ∨
        t.part.phase = .stopping ∧ ∃ b content rest, t.part.sweep = .boards .final b content rest)

/-- A page mark is read (R170, R174): a FREE page is claimed and its head write begins; any other is passed over, on to the next
page that is no bay's current page, or the scan ends dry. -/
def Obligations.PageMarksAreRead : Prop :=
  ∀ (s : State) (c : Scan) (mark : Byte), s.part.scan = some c →
    (mark = 0 →
      ∃ q, Does (.pageMarkRead mark) s s.book q ∧ q.scan = none ∧ q.claim = some ⟨c.bay, c.page, .head⟩ ∧
        q.bays = s.part.bays ∧ q.cursor = s.part.cursor) ∧
    (mark ≠ 0 →
      (∀ page left, nextToRead s.part.poolCount s.part.isCurrent (pageAfter s.part.poolCount c.page) c.left = some (page, left) →
        Does (.pageMarkRead mark) s s.book { s.part.fresh with scan := some ⟨c.bay, page, left, c.rescan⟩ }) ∧
      (nextToRead s.part.poolCount s.part.isCurrent (pageAfter s.part.poolCount c.page) c.left = none →
        ∃ q, Owes (.pageMarkRead mark) s s.book q ∧ q.scan = none ∧ (q.bay c.bay).waiting = true ∧ q.dry = true ∧
          q.cursor = s.part.cursor ∧ (q.bay c.bay).buffer = (s.part.bay c.bay).buffer ∧
          (s.part.dry = true → q.pendingSet = s.part.pendingSet) ∧
          (s.part.dry = false → s.part.phase ≠ .starting → q.pendingSet = s.part.pendingSet ||| BitVec.twoPow 7 3)))

/-- The writes of a claim (R171, R200): the head's fields (bay, page sequence count, next page index 0xFFFF at byte 0x04, record
count 0 at byte 0x06; that byte 0x07 is written 0 is the model's choice, log entry 40), the FILLING mark, and the link in the page
before, if there is one; then the page is the bay's current page, empty, with the next page sequence count, and the cursor stands
behind it. -/
def Obligations.PageClaimsAreWritten : Prop :=
  ∀ (s : State) (g : Settings) (c : Claim), s.part.settings = some g → s.part.claim = some c →
    let page := fun n : Nat => s.part.base + g.poolOffset * 4096 + 4096 * n
    let claimed := fun q : Part =>
      q.claim = none ∧ q.cursor = (if c.page + 1 < g.poolCount then c.page + 1 else 0) ∧
      (q.bay c.bay).currentPage = some c.page ∧ (q.bay c.bay).pageCount = 0 ∧ (q.bay c.bay).waiting = false ∧
      (q.bay c.bay).pageSeq = ((s.part.bay c.bay).pageSeq + 1) % 65536 ∧
      (q.bay c.bay).firstPage = some ((s.part.bay c.bay).firstPage.getD c.page)
    (c.stage = .head →
      Does .pageHeadWritten s
        (s.book.writeBytes (page c.page + 1)
          (fieldBytes [(1, c.bay.val), (2, (s.part.bay c.bay).pageSeq), (2, 0xFFFF), (1, 0), (1, 0)]))
        { s.part.fresh with claim := some { c with stage := .filling } }) ∧
    (c.stage = .filling →
      (∀ n, (s.part.bay c.bay).currentPage = some n →
        Does .fillingMarkWritten s (s.book.writeBytes (page c.page) [1])
          { s.part.fresh with claim := some { c with stage := .link } }) ∧
      ((s.part.bay c.bay).currentPage = none →
        ∃ q, Owes .fillingMarkWritten s (s.book.writeBytes (page c.page) [1]) q ∧ claimed q)) ∧
    (c.stage = .link → ∀ n, (s.part.bay c.bay).currentPage = some n →
      ∃ q, Owes .chainLinkWritten s (s.book.writeBytes (page n + 4) (leBytes 2 c.page)) q ∧ claimed q)

/-- The writes of a record (R172, R173, R200): its 64 bytes with the DONE mark clear at its position, the DONE mark, which raises
VERDICT for a VERDICT record, and the page's record count; then the record has left the buffer, the front of the entry line
has entered, and after the 63rd record the FULL mark follows, which raises RESULTS. -/
def Obligations.RecordsAreWritten : Prop :=
  (∀ (k : Nat) (r : Record), (r.bytes k).length = 64 ∧ (r.bytes k)[0x3F]? = some 0) ∧
  ∀ (s : State) (g : Settings) (b : Bay), s.part.settings = some g →
    let page := fun n : Nat => s.part.base + g.poolOffset * 4096 + 4096 * n
    let u := s.part.bay b
    (∀ r l n, u.buffer = r :: l → u.currentPage = some n →
      (u.drain = .fields →
        ∃ q, Does (.recordFieldsWritten b) s
            (s.book.writeBytes (page n + 64 * (u.pageCount + 1)) (r.bytes s.part.free)) q ∧
          (q.bay b).drain = .done ∧ (q.bay b).buffer = u.buffer) ∧
      (u.drain = .done →
        ∃ q, Does (.doneMarkWritten b) s (s.book.writeBytes (page n + 64 * (u.pageCount + 1) + 0x3F) [1]) q ∧
          (q.bay b).drain = .count ∧
          (r.kind = .verdict → s.part.phase ≠ .starting → q.pendingSet = s.part.pendingSet ||| BitVec.twoPow 7 2) ∧
          (r.kind ≠ .verdict → q.pendingSet = s.part.pendingSet)) ∧
      (u.drain = .count →
        ∃ q, Owes (.recordCountWritten b) s (s.book.writeBytes (page n + 6) [BitVec.ofNat 8 (u.pageCount + 1)]) q ∧
          (q.bay b).drain = .idle ∧ (q.bay b).pageCount = u.pageCount + 1 ∧
          (u.line = [] → (q.bay b).buffer = l) ∧
          (∀ e es, u.line = e :: es → (q.bay b).buffer = l ++ [e.record] ∧ (q.bay b).line = es) ∧
          (q.bay b).fullWrites = u.fullWrites ++ (if u.pageCount + 1 = 63 then [n] else []))) ∧
    ∀ n l, u.fullWrites = n :: l →
      ∃ q, Owes (.fullMarkWritten b) s (s.book.writeBytes (page n) [2]) q ∧ (q.bay b).fullWrites = l ∧
        (u.currentPage = some n → (q.bay b).pageFull = true) ∧
        (s.part.phase ≠ .starting → q.pendingSet = s.part.pendingSet ||| BitVec.twoPow 7 1)

/-! ### Presence (R4 to R6, R15, R160, R167) -/

/-- A filtered rise comes once the raw line has differed from the filtered state for the 50 ms that are 5000 samples, and has no
effect before (R4). Outside HALTED (R5, R8, R12, R167), whoever holds the bay's bus: in an admitted bay the ABSENT context becomes
IDENTIFYING with the next admission number and hands an IDENTITY_READ to the link, where it starts or is queued; elsewhere it stays;
a context not yet ABSENT has the rise held. PRESENCE is raised in RUNNING and STOPPING. The other contexts but the holder's, the
other bays and the zones stay, and with no check to disturb the channels too. In HALTED the filtered state alone changes (R2). In an
admitted bay the rise of another slot disturbs a sensitive check of the bus holder (R5, R89): cut short into RELEASE, or run to its
end, by its phase; a check that is not sensitive goes on. A disturbed check with its retry left stands at a boundary to run again
(R90); that its phase reads none there is the model's choice (log entry 57), and that its marks stay is DEDUCED (log entry 35). One
without writes its DISTURBED record (R90). -/
def Obligations.RiseIdentifiesTheModule : Prop :=
  (∀ (s : State) (b : Bay) (x : Slot), (s.part.bay b).presence[x].count < 5000 → exec (.filteredRise b x) s = .next s) ∧
  (∀ (s : State) (b : Bay) (x : Slot), (s.part.bay b).present x = false → 5000 ≤ (s.part.bay b).presence[x].count →
    (s.part.phase = .halted →
      Does (.filteredRise b x) s s.book (s.part.fresh.mapBay b (fun u =>
        { u with presence := u.presence.set x { u.presence[x] with filtered := true, count := 0 } }))) ∧
    (s.part.phase ≠ .halted →
      let alone := ∀ y, (s.part.bay b).busHolder = some y → y = x
      ∃ q, Owes (.filteredRise b x) s s.book q ∧ (q.bay b).present x = true ∧ (alone → q.chans = s.part.chans) ∧
        q.zones = s.part.zones ∧ (∀ c, c ≠ b → q.bay c = s.part.bay c) ∧
        (∀ y, y ≠ x → (s.part.bay b).state ∈ [.empty, .withdrawing] ∨ (s.part.bay b).busHolder ≠ some y →
          q.ctx b y = s.part.ctx b y) ∧
        (q.bay b).state = (s.part.bay b).state ∧ (q.bay b).busHolder = (s.part.bay b).busHolder ∧
        (q.bay b).busQueue = (s.part.bay b).busQueue ∧ (q.bay b).standby = (s.part.bay b).standby ∧
        (s.part.phase = .running ∨ s.part.phase = .stopping → q.pendingSet = s.part.pendingSet ||| BitVec.twoPow 7 4) ∧
        (s.part.phase = .idle → q.pendingSet = s.part.pendingSet) ∧
        ((s.part.ctx b x).state ≠ .absent →
          (q.bay b).presence[x].heldRise = true ∧ q.ctx b x = s.part.ctx b x ∧ q.nextAdm = s.part.nextAdm ∧
          (alone → q.todo = [])) ∧
        ((s.part.ctx b x).state = .absent → (s.part.bay b).state ∈ [.empty, .withdrawing] →
          q.ctx b x = s.part.ctx b x ∧ q.nextAdm = s.part.nextAdm ∧ q.todo = []) ∧
        ((s.part.ctx b x).state = .absent → (s.part.bay b).state ∉ [.empty, .withdrawing] →
          q.ctx b x = { Ctx.reset with state := .identifying, adm := some s.part.nextAdm, attempts := 1 } ∧
          q.nextAdm = (if s.part.nextAdm = 65535 then 1 else s.part.nextAdm + 1) ∧
          (alone → (s.part.bay b).muted x = false → q.todo = []) ∧
          ((s.part.bay b).muted x = false → (s.part.link b).line = [] →
            ∃ e : Entry, e.target = x ∧ e.kind = .identityRead ∧ e.cmd = s.part.identityCmd ∧ e.who = ⟨b, x, s.part.nextAdm⟩ ∧
              e.purpose = .identify ∧
              ((s.part.link b).state = .idle → (s.part.link b).queue = [] →
                (q.link b).inFlight = some e ∧ (q.link b).state = .busy) ∧
              ((s.part.link b).state ≠ .idle → (s.part.link b).queue.length < 12 →
                (q.link b).inFlight = (s.part.link b).inFlight ∧ ∃ l, (q.link b).queue = l ++ [e] ∧
                  (alone → l = (s.part.link b).queue))))) ∧
    (∀ y k, s.part.phase ≠ .halted → (s.part.bay b).state ∉ [.empty, .withdrawing] → (s.part.bay b).busHolder = some y → y ≠ x →
      let c := s.part.ctx b y
      let cut := c.phase ∈ [.prepare, .apply] ∧ k.isDerate = false ∨
        c.phase = .measure ∧ ((∃ o, k.body = .steady o) ∨ ∃ o, k.body = .share o)
      let goes := c.phase ∈ [.observe, .recover] ∧ (∃ o, k.body = .ocp o) ∨ c.phase = .recover ∧ ∃ o, k.body = .ovp o
      c.check = some k → c.work.aborting = none → c.work.outcome ≠ .disturbed →
      ∃ q, Owes (.filteredRise b x) s s.book q ∧
        (cut ∨ goes → (q.ctx b y).work.outcome = .disturbed ∧ (q.ctx b y).work.stamp = some s.part.stamp) ∧
        (cut → (q.ctx b y).phase = .release) ∧ (goes → (q.ctx b y).phase = c.phase) ∧
        (¬ (cut ∨ goes) → q.ctx b y = c))) ∧
  ∀ (p : Part) (b : Bay) (x : Slot) (k : Check), (p.ctx b x).check = some k → k.isDerate = false → (p.ctx b x).work.aborting = none →
    (p.ctx b x).work.outcome = .disturbed →
    ((p.ctx b x).retry = 1 →
      (p.afterBus b x).todo = p.todo ++ [.boundary b x] ∧
      (p.afterBus b x).ctx b x = { p.ctx b x with
        retry := 0, loop := k.loops, phase := .none, work := { Work.reset with retrying := true } }) ∧
    ((p.ctx b x).retry ≠ 1 → ((p.afterBus b x).ctx b x).phase = .record ∧
      ∃ l r, ((p.afterBus b x).ctx b x).out = (p.ctx b x).out ++ l ++ [.record r, .applyResult] ∧
        r.kind = k.recordKind ∧ r.outcome = .disturbed ∧ r.limits = ⟨none, none, none⟩ ∧ r.last = true)

/-- A filtered fall (R4, R6, R160), once the count has run for 50 ms and not before: in HALTED the filtered state alone changes.
Elsewhere, whoever holds the bus, the MUTE mark is cleared, the slot leaves the standby set, and its entries leave the link, each
discarded as GONE but those that a disturbed PREPARE withdraws; an IDENTIFYING context goes to ABSENT behind its PRESENCE record
marked removed, an ABSENT one stays; a PLANNED or PAUSED one, one at a boundary or waiting for its STOP_OUTPUT goes behind its
INCOMPLETE verdict and that record, an UNPLANNED or ENDED one behind that record alone. A context within a check takes the abort
path (R91 to R93): spans and windows stop, what it has queued leaves the link, its channel drops and opens and it waits in RELEASE
(which phase shows is the model's choice, log entry 15), in a RELEASE without a channel the path goes on there, or it holds nothing
and its records are due: of a STEADY check its passes, then one record ABORTED with the cause and LAST, no limits or values, a taken
trip's capture (DEDUCED, log entry 21), then its verdict and the PRESENCE record; in RECORD what it was writing comes first. The
same records follow when the path has released the bus. The number of the ABORTED record past the last STEADY pass is free (log
entry 9), before the first pass 1 (model's choice, log entry 53). That a disturbed check held at its re-entry by a full buffer goes as
one at a boundary, without an ABORTED record, is the model's choice (log entry 57). In an admitted bay the fall disturbs a sensitive check of another
slot that holds the bus (R89). In a bay that is EMPTY or WITHDRAWING the fall does what R6 lists whatever the state (DEDUCED, log
entry 17). -/
def Obligations.FallTakesTheModuleAway : Prop :=
  let aborted := fun (c : Ctx) (k : Check) (l : List OutItem) =>
    ∃ v, l = (if k.isDerate then [] else c.work.passes.map OutItem.record) ++ [.record v] ∧
      v.kind = k.recordKind ∧ v.outcome = .aborted ∧ v.last = true ∧ v.limits = ⟨none, none, none⟩ ∧ v.value1 = none ∧
      v.value2 = none ∧ v.value3 = none ∧ v.capture = c.work.capture ∧ v.adm = c.adm.getD 0 ∧ v.checkIndex = some c.checkIndex
  (∀ (s : State) (b : Bay) (x : Slot), (s.part.bay b).presence[x].count < 5000 → exec (.filteredFall b x) s = .next s) ∧
  (∀ (s : State) (b : Bay) (x : Slot), (s.part.bay b).present x = true → 5000 ≤ (s.part.bay b).presence[x].count →
    (s.part.phase = .halted →
      Does (.filteredFall b x) s s.book (s.part.fresh.mapBay b (fun u =>
        { u with presence := u.presence.set x { u.presence[x] with filtered := false, count := 0 } }))) ∧
    let kept := fun e : Entry => ∀ y, (s.part.bay b).busHolder = some y → y ≠ x → (s.part.ctx b y).phase = .prepare →
      e.who = s.part.requester b y → e.purpose ∈ [.restore, .identify]
    (s.part.phase ≠ .halted →
      ((s.part.ctx b x).state = .absent ∨ (s.part.bay b).state ∈ [.empty, .withdrawing] →
        ∃ q, Owes (.filteredFall b x) s s.book q ∧ (q.bay b).present x = false ∧ (q.bay b).presence[x].heldRise = false ∧
          (q.bay b).muted x = false ∧ (q.bay b).standby[x] = none ∧
          (∀ e ∈ (q.link b).queue ++ (q.link b).line, e.target ≠ x) ∧
          (∀ e ∈ (s.part.link b).queue ++ (s.part.link b).line, e.target = x → kept e → Conseq.report b e .discardGone ∈ q.todo) ∧
          (∀ y, (s.part.bay b).state ∈ [.empty, .withdrawing] ∨ y = x ∨ (s.part.bay b).busHolder ≠ some y →
            q.ctx b y = s.part.ctx b y) ∧
          (∀ c, c ≠ b → q.bay c = s.part.bay c) ∧
          (∀ y, (s.part.bay b).busHolder = some y → Conseq.releaseGo b y ∈ q.todo) ∧
          (s.part.phase = .running ∨ s.part.phase = .stopping → q.pendingSet = s.part.pendingSet ||| BitVec.twoPow 7 4)) ∧
      ((s.part.ctx b x).state = .identifying → (s.part.ctx b x).exit = .stay → (s.part.ctx b x).out = [] →
        (s.part.bay b).state ∉ [.empty, .withdrawing] →
        ∃ q r, Owes (.filteredFall b x) s s.book q ∧ (q.bay b).present x = false ∧ (q.ctx b x).exit = .leaving ∧
          (q.ctx b x).out = [.record r, .becomeAbsent] ∧ r.kind = .presence ∧ r.direction = some .removed ∧
          r.adm = (s.part.ctx b x).adm.getD 0 ∧ r.stamp = s.part.stamp ∧ Conseq.output b x ∈ q.todo ∧
          (∀ e ∈ (s.part.link b).queue ++ (s.part.link b).line, e.target = x → kept e → Conseq.report b e .discardGone ∈ q.todo) ∧
          (∀ e ∈ (q.link b).queue ++ (q.link b).line, e.target ≠ x))) ∧
    (s.part.phase ≠ .halted → (s.part.bay b).state ∉ [.empty, .withdrawing] →
      let c := s.part.ctx b x
      ∃ q r, Owes (.filteredFall b x) s s.book q ∧ (q.bay b).present x = false ∧ (q.bay b).standby[x] = none ∧
        (q.bay b).muted x = false ∧ (∀ e ∈ (q.link b).queue ++ (q.link b).line, e.target ≠ x) ∧
        r.kind = .presence ∧ r.direction = some .removed ∧ r.bay = b ∧ r.slot = x ∧ r.adm = c.adm.getD 0 ∧
        r.stamp = s.part.stamp ∧ Conseq.output b x ∈ q.todo ∧
        (∀ e ∈ (s.part.link b).queue ++ (s.part.link b).line, e.target = x → kept e → Conseq.report b e .discardGone ∈ q.todo) ∧
        (c.exit = .stay →
          c.state = .planned ∨ c.state = .paused ∨ c.atBoundary = true ∨ c.atPlateau = true ∨ c.stopping = true →
          q.ctx b x = { c with
            exit := .leaving, out := c.out ++ [.verdict .incomplete (some .removed), .record r, .becomeAbsent] }) ∧
        (c.state = .unplanned ∧ c.exit = .stay ∨ c.state = .ended ∧ c.exit ≠ .leaving →
          q.ctx b x = { c with exit := .leaving, out := c.out ++ [.record r, .becomeAbsent] }) ∧
        (c.inCheck = true → c.work.aborting = none →
          (q.ctx b x).exit = .leaving ∧ (q.ctx b x).work.aborting = some .removed ∧
          (∀ e ∈ (q.link b).queue ++ (q.link b).line, e.who = s.part.requester b x → e.purpose = .restore) ∧
          (c.phase ≠ .record → (q.ctx b x).work.span = none ∧ (q.ctx b x).work.meas = none ∧ (q.ctx b x).work.watch = none) ∧
          (∀ k, c.phase ∈ [.busWait, .channelWait, .plateauWait] → c.check = some k →
            (c.phase = .channelWait → ∀ e ∈ (s.part.bay b).busQueue, e.slot ≠ x) →
            (q.ctx b x).phase = .record ∧ ∃ l, aborted c k l ∧
              (q.ctx b x).out = c.owedRecords ++ l ++ [.verdict .incomplete (some .removed), .record r, .becomeAbsent] ∧
              ∀ v, OutItem.record v ∈ l.getLast? → v.cause = some .removed ∧ v.stamp = s.part.stamp ∧
                v.number = (match k.body with
                  | .steady _ => c.work.passes.length + 1
                  | .derate _ => c.derate.plateau
                  | _ => 1)) ∧
          (c.phase = .release → c.work.release = .restoring → s.part.chanOf b x = none →
            (q.ctx b x).phase = .release ∧ (q.ctx b x).work.release = .restoring ∧ (q.ctx b x).fellAt = some s.part.stamp ∧
            .releaseGo b x ∈ q.todo) ∧
          (c.phase = .record →
            (q.ctx b x).out = c.owedRecords ++ [.verdict .incomplete (some .removed), .record r, .becomeAbsent]) ∧
          (∀ k, c.phase ∉ [.busWait, .channelWait, .plateauWait, .record] → s.part.chanOf b x = some k →
            (q.ctx b x).phase = .release ∧ (q.ctx b x).work.release = .opening ∧ (q.ctx b x).fellAt = some s.part.stamp ∧
            (q.chan k).relay ≠ .closed ∧ ((s.part.chan k).Quiet → (q.chan k).setpoint = 0)))) ∧
    (∀ y k, s.part.phase ≠ .halted → (s.part.bay b).state ∉ [.empty, .withdrawing] → (s.part.bay b).busHolder = some y → y ≠ x →
      let c := s.part.ctx b y
      let cut := c.phase ∈ [.prepare, .apply] ∧ k.isDerate = false ∨
        c.phase = .measure ∧ ((∃ o, k.body = .steady o) ∨ ∃ o, k.body = .share o)
      let goes := c.phase ∈ [.observe, .recover] ∧ (∃ o, k.body = .ocp o) ∨ c.phase = .recover ∧ ∃ o, k.body = .ovp o
      c.check = some k → c.work.aborting = none → c.work.outcome ≠ .disturbed →
      ∃ q, Owes (.filteredFall b x) s s.book q ∧ (q.bay b).standby[x] = none ∧
        (cut ∨ goes → (q.ctx b y).work.outcome = .disturbed ∧ (q.ctx b y).work.stamp = some s.part.stamp) ∧
        (cut → (q.ctx b y).phase = .release) ∧ (goes → (q.ctx b y).phase = c.phase) ∧
        (¬ (cut ∨ goes) → q.ctx b y = c) ∧ .releaseGo b y ∈ q.todo)) ∧
  ∀ (p : Part) (b : Bay) (x : Slot) (k : Check) (cause : Cause), (p.ctx b x).check = some k →
    (p.ctx b x).work.aborting = some cause →
    ((p.afterBus b x).ctx b x).phase = .record ∧ ∃ l tail, aborted (p.ctx b x) k l ∧
      ((p.afterBus b x).ctx b x).out = (p.ctx b x).owedRecords ++ l ++ [.verdict .incomplete (some cause)] ++ tail ∧
      (∀ v, OutItem.record v ∈ l.getLast? → v.cause = some cause ∧ v.number = (p.ctx b x).work.number) ∧
      ((p.ctx b x).exit ≠ .leaving → tail = []) ∧
      ((p.ctx b x).exit = .leaving → (p.ctx b x).fellAt = none → tail = [.becomeAbsent]) ∧
      (∀ t, (p.ctx b x).exit = .leaving → (p.ctx b x).fellAt = some t →
        ∃ r, tail = [.record r, .becomeAbsent] ∧ r.kind = .presence ∧ r.direction = some .removed ∧ r.stamp = t)

/-! ### The module links (R152 to R158, R162) -/

/-- A transaction completes (R152, R158, R162): the report is owed and then the next entry. When its requester is gone the report is
dropped, and the link starts its next queued entry, or is IDLE; in HALTED nothing is reported, and the link is IDLE and empty.
An OUTPUT_ON completed OK clears the output-left-off mark of its module (R25), though the slot has fallen meanwhile (R92), unless it
is a participating or isolating one, which is then a GONE discard (R160). That the report is owed before the next entry starts
is the model's choice: R152 and R158 give both at the completion (log entry 18). -/
def Obligations.LinkCompletionsFreeTheLink : Prop :=
  ∀ (s : State) (b : Bay) (e : Entry) (reply : LinkReply), (s.part.link b).inFlight = some e →
    (s.part.link b).mayEnd e reply = true →
    (s.part.phase = .halted →
      Does (.linkTransactionComplete b reply) s s.book (s.part.fresh.mapLink b (fun l =>
        { l with state := .idle, inFlight := none, second := false, timer := none, queue := [], line := [] }))) ∧
    (s.part.phase ≠ .halted →
      (∃ q, Owes (.linkTransactionComplete b reply) s s.book q ∧ (q.link b).inFlight = none ∧
        q.todo = [.report b e (reportOf reply), .linkNext b] ∧
        (∀ data, reply = .ok data → e.kind = .outputOn → e.fell = false ∨ e.purpose ∉ [.isolate, .participate] →
          (q.ctx b e.target).outputOff = false) ∧
        (e.kind ≠ .outputOn ∨ e.fell = true ∧ e.purpose ∈ [.isolate, .participate] ∨ (∀ data, reply ≠ .ok data) →
          ∀ x, q.ctx b x = s.part.ctx b x)) ∧
      (e.kind ≠ .outputOn → (s.part.ctx b e.who.slot).isRequester e.who = false → (s.part.link b).state = .busy →
        ((s.part.link b).queue = [] →
          Does (.linkTransactionComplete b reply) s s.book (s.part.fresh.mapLink b (fun l =>
            { l with state := .idle, inFlight := none, second := false, timer := none }))) ∧
        (∀ f l, (s.part.link b).queue = f :: l → (s.part.link b).line = [] →
          Does (.linkTransactionComplete b reply) s s.book (s.part.fresh.mapLink b (fun k =>
            { k with
              state := .busy, inFlight := some f, second := false, timer := some s.part.samples, queue := l, line := [] })))))

/-- A NACK of the first attempt begins the second, with the timeout timer running on (R155). A timeout frees the link for recovery
and owes the report, the MUTE mark and the module's end in that order (R156); the MUTE mark takes every entry for its slot out of
the link, each discarded as MUTE. The end of recovery starts the next entry or leaves the link IDLE (R157), in HALTED empty. -/
def Obligations.RetriesTimeoutsAndRecovery : Prop :=
  (∀ (s : State) (b : Bay) (e : Entry), (s.part.link b).inFlight = some e →
    ((s.part.link b).second = false →
      Does (.attemptNacked b) s s.book (s.part.fresh.mapLink b (fun l => { l with second := true }))) ∧
    (s.part.phase ≠ .halted →
      ∃ q, Owes (.linkTimeout b) s s.book q ∧ (q.link b).state = .recovering ∧ (q.link b).inFlight = none ∧
        (q.link b).timer = none ∧ q.todo = [.report b e .timeout, .muteSlot b e.target, .moduleMute b e.target])) ∧
  (∀ (p : Part) (b : Bay) (x : Slot),
    ((p.muteSlot b x).bay b).muted x = true ∧
    (∀ e ∈ ((p.muteSlot b x).link b).queue ++ ((p.muteSlot b x).link b).line, e.target ≠ x) ∧
    (p.muteSlot b x).todo = p.todo ++
      (((p.link b).queue ++ (p.link b).line).filter (fun e => e.target == x)).map (fun e => .report b e .discardMute)) ∧
  (∀ (s : State) (b : Bay), (s.part.link b).state = .recovering →
    (s.part.phase = .halted →
      Does (.busRecoveryEnd b) s s.book (s.part.fresh.mapLink b (fun l =>
        { l with state := .idle, inFlight := none, second := false, timer := none, queue := [], line := [] }))) ∧
    (s.part.phase ≠ .halted → (s.part.link b).queue = [] →
      Does (.busRecoveryEnd b) s s.book (s.part.fresh.mapLink b (fun l =>
        { l with state := .idle, inFlight := none, second := false, timer := none }))) ∧
    (s.part.phase ≠ .halted → ∀ e l, (s.part.link b).queue = e :: l → (s.part.link b).line = [] →
      Does (.busRecoveryEnd b) s s.book (s.part.fresh.mapLink b (fun k =>
        { k with state := .busy, inFlight := some e, second := false, timer := some s.part.samples, queue := l, line := [] }))))

/-! ### Admission (R13, R15, R39, R40, R66) -/

/-- An identity answer of a context that still identifies (R12, R13): a valid block gives its identity and digests and is looked up;
with no plan the context is UNPLANNED behind its PRESENCE record, else the byte of the sampling table that the low 6 bits of the
serial digest name is read (R40, R196). Any other completion makes a second attempt, and after it BAD_IDENTITY. A sampling byte
is read for a context that still identifies (R13, R40): its low two bits choose the variant, variant 0 is used where the chosen
one is absent, and the plan record of the reference used is read at its place in the shelf (R50, R199); a reference beyond the
plan shelf ends the context BAD_PLAN with bad check index 15 (R66). -/
def Obligations.SamplingByteChoosesTheVariant : Prop :=
  (∀ (s : State) (b : Bay) (e : Entry) (reply : LinkReply),
    let x := e.who.slot
    let c := s.part.ctx b x
    (s.part.link b).inFlight = some e → (s.part.link b).mayEnd e reply = true → s.part.phase ≠ .halted →
    e.kind = .identityRead → e.purpose = .identify → c.isRequester e.who = true → c.state = .identifying → c.exit = .stay →
    ∃ q, Reaches 1 (.linkTransactionComplete b reply) s s.book q ∧
      (∀ data m d, reply = .ok data → validBlock data = true → blockIdentity data = m →
        digestsOf s.part.dir.key s.part.dir.mask m = d →
        (s.part.dir.lookup m.identity = none →
          ∃ r, q.ctx b x = { c with ident := some m, digests := some d, state := .unplanned, out := c.out ++ [.record r] } ∧
            r.kind = .presence ∧ r.direction = some .inserted ∧ r.identity = some m ∧ r.bay = b ∧ r.slot = x ∧
            r.stamp = s.part.stamp) ∧
        (∀ l, s.part.dir.lookup m.identity = some l →
          q.ctx b x = { c with ident := some m, digests := some d, lookup := some l, entryIndex := some l.index } ∧
          q.admReads = s.part.admReads ++ [⟨false, ⟨b, x, e.who.adm⟩, s.part.base + 0x40 + d.serial.toNat % 64⟩])) ∧
      ((∀ data, reply = .ok data → validBlock data = false) →
        (c.attempts = 1 → q.ctx b x = { c with attempts := 2 } ∧ q.handovers = s.part.handovers + 1) ∧
        (c.attempts ≠ 1 → (q.ctx b x).ident = none ∧ (q.ctx b x).out = c.out ++ [.verdict .incomplete (some .badIdentity)]))) ∧
  ∀ (s : State) (who : Requester) (v : Byte) (l : Lookup),
    let c := s.part.ctx who.bay who.slot
    let chosen : Fin 4 := ⟨v.toNat % 4, Nat.mod_lt _ (by decide)⟩
    let used : Fin 4 × Nat := ((l.refs.get chosen).map (fun n => (chosen, n))).getD (0, l.refs.v0)
    s.part.admReads.any (AdmRead.is false who) = true → c.isRequester who = true → c.state = .identifying → c.exit = .stay →
    c.lookup = some l →
    (used.2 < s.part.shelfCount →
      ∃ q, Does (.samplingReadComplete who v) s s.book q ∧
        q.admReads = s.part.admReads.eraseP (AdmRead.is false who) ++
          [⟨true, who, s.part.base + (s.part.settings.map Settings.shelfOffset).getD 0 * 4096 + 512 * used.2⟩] ∧
        q.ctx who.bay who.slot = { c with variant := some used.1, usedRef := some used.2 }) ∧
    (s.part.shelfCount ≤ used.2 →
      ∃ q, Owes (.samplingReadComplete who v) s s.book q ∧ q.admReads = s.part.admReads.eraseP (AdmRead.is false who) ∧
        (q.ctx who.bay who.slot).badCheck = some 15 ∧ (q.ctx who.bay who.slot).usedRef = some used.2 ∧
        (q.ctx who.bay who.slot).out = c.out ++ [.verdict .incomplete (some .badPlan)])

/-- A plan record is read for a context that still identifies (R13, R15, R17, R66): a valid one is its plan copy, and it is PLANNED,
or RUNNING at once in a RUNNING or FINISHED bay under JOIN, and owes its PRESENCE record; an invalid one ends it BAD_PLAN. -/
def Obligations.PlanReadPlansTheContext : Prop :=
  ∀ (s : State) (who : Requester) (bytes : List Byte),
    let c := s.part.ctx who.bay who.slot
    let u := s.part.bay who.bay
    s.part.admReads.any (AdmRead.is true who) = true → c.isRequester who = true → c.state = .identifying → c.exit = .stay →
    (∀ plan, validate bytes = .valid plan →
      ∃ q r, Owes (.admissionPlanReadComplete who bytes) s s.book q ∧
        q.admReads = s.part.admReads.eraseP (AdmRead.is true who) ∧
        q.ctx who.bay who.slot = { c with
          state := if u.insert = .join ∧ (u.state = .running ∨ u.state = .finished) then .running else .planned
          plan := some plan, checkIndex := 0, failed := 0, out := c.out ++ [.record r] } ∧
        r.kind = .presence ∧ r.direction = some .inserted ∧ r.bay = who.bay ∧ r.slot = who.slot ∧ r.stamp = s.part.stamp) ∧
    (∀ i, validate bytes = .invalid i →
      ∃ q, Owes (.admissionPlanReadComplete who bytes) s s.book q ∧
        (q.ctx who.bay who.slot).badCheck = some i ∧ (q.ctx who.bay who.slot).plan = c.plan ∧
        (q.ctx who.bay who.slot).out = c.out ++ [.verdict .incomplete (some .badPlan)])

/-! ### The load channels (R112 to R121) -/

/-- The relays of a channel close or open (R112, R117, R121): CLOSED and reported, or on to OPENING when an open is pending; OPEN with
the ramp idle and reported, but for HALTED. The report of OPEN releases the channel of a check (R84, R103): it goes to the head of the
channel grant queue, CLOSING to that bay (R104, R112), or is free, and the check restores its standby set,
in RELEASE; that an aborting check shows RELEASE there as well is the model's choice (log entry 15). A request for a free
bus is granted at once, one for a held bus waits in its queue behind the others, a plateau request behind the plateau requests
(R97, R99); a bus granted asks for a channel, the lowest free one or a place in the channel grant queue (R100, R102); a release
hands the bus to the head of its queue, or leaves it free (R100), and is taken only when the bay owns and awaits no channel
(R105). -/
def Obligations.RelaysMove : Prop :=
  (∀ (s : State) (c : Chan),
    ((s.part.chan c).relay = .closing →
      ((s.part.chan c).openPending = false →
        Owes (.relaysClosed c) s s.book
          { s.part.fresh.mapChan c (fun ch => { ch with relay := .closed }) with todo := [.chanClosed c] }) ∧
      ((s.part.chan c).openPending = true →
        Does (.relaysClosed c) s s.book (s.part.fresh.mapChan c (fun ch =>
          { ch with relay := .opening, moved := s.part.samples, openPending := false })))) ∧
    ((s.part.chan c).relay = .opening →
      (s.part.phase ≠ .halted →
        Owes (.relaysOpen c) s s.book
          { s.part.fresh.mapChan c (fun ch => { ch with relay := .opened, ramp := .idle, params := none }) with
            todo := [.chanOpen c] }) ∧
      (s.part.phase = .halted →
        Does (.relaysOpen c) s s.book
          (s.part.fresh.mapChan c (fun ch => { ch with relay := .opened, ramp := .idle, params := none }))) ∧
      (∀ b x, s.part.phase ≠ .halted → (s.part.chan c).owner = some (b, x) →
        ∃ q, Reaches 1 (.relaysOpen c) s s.book q ∧
          (q.ctx b x).phase = .release ∧ (q.ctx b x).work.release = .restoring ∧
          (s.part.chanQueue = [] → (q.chan c).owner = none ∧ (q.chan c).bay = none) ∧
          (∀ e l, s.part.chanQueue = e :: l →
            q.chanQueue = l ∧ (q.chan c).owner = some (e.bay, e.slot) ∧ (q.chan c).bay = some e.bay ∧
            (q.chan c).relay = .closing ∧ (q.chan c).setpoint = 0 ∧
            (e.bay ≠ b → (q.ctx e.bay e.slot).phase = .connect))))) ∧
    ∀ (p : Part) (b : Bay) (x : Slot),
      (∀ y, (p.bay b).busHolder = some y →
        ((p.requestBus b x).bay b).busHolder = some y ∧ ((p.requestBus b x).ctx b x).phase = .busWait ∧
        (p.plateauRequest b x = false → ((p.requestBus b x).bay b).busQueue = (p.bay b).busQueue ++ [⟨x, false⟩]) ∧
        (p.plateauRequest b x = true → ∀ l r, (p.bay b).busQueue = l ++ r → (∀ e ∈ r, e.plateau = false) →
          (∀ e ∈ l.getLast?, e.plateau = true) → ((p.requestBus b x).bay b).busQueue = l ++ ⟨x, true⟩ :: r)) ∧
      ((p.bay b).busHolder = none →
        ((p.requestBus b x).bay b).busHolder = some x ∧
        (∀ k, p.freeChan = some k →
          ((p.requestBus b x).chan k).owner = some (b, x) ∧ ((p.requestBus b x).chan k).relay = .closing ∧
          ((p.requestBus b x).ctx b x).phase = .connect) ∧
        (p.freeChan = none → ((p.requestBus b x).ctx b x).phase = .channelWait ∧ (p.requestBus b x).chans = p.chans ∧
          ∃ e, e.bay = b ∧ e.slot = x ∧ (p.requestBus b x).chanQueue.Perm (e :: p.chanQueue))) ∧
      (∀ k, p.freeChan = some k → (p.chan k).owner = none ∧ ∀ j, j < k → (p.chan j).owner ≠ none) ∧
      ((∀ k, (p.chan k).owner.map Prod.fst ≠ some b) → (∀ e ∈ p.chanQueue, e.bay ≠ b) →
        ((p.bay b).busQueue = [] → ((p.releaseBus b).bay b).busHolder = none) ∧
        (∀ e l, (p.bay b).busQueue = e :: l →
          ((p.releaseBus b).bay b).busHolder = some e.slot ∧ ((p.releaseBus b).bay b).busQueue = l)) ∧
      ((∃ k, (p.chan k).owner.map Prod.fst = some b) ∨ (∃ e ∈ p.chanQueue, e.bay = b) → p.releaseBus b = p)

/-- A ramp step (R114, R120): the setpoint rises by the step, or to the ceiling where the step would pass it; each step restarts the
peak interval of an armed detector, and the one that brings the ceiling starts the ceiling hold, whose end is reported. An
unload step (R115): the setpoint falls by 50, or to 0 where 50 or less remains; at 0 the unload is reported complete. -/
def Obligations.SetpointsStepUpAndDown : Prop :=
  ∀ (s : State) (c : Chan),
    (∀ r, (s.part.chan c).relay = .closed → (s.part.chan c).ramp = .rampingUp → (s.part.chan c).params = some r →
      ((s.part.chan c).setpoint + r.step < r.ceiling →
        Does (.rampStep c) s s.book (s.part.fresh.mapChan c (fun ch =>
          { ch with setpoint := ch.setpoint + r.step, detector := ch.detector.map TripDetector.restartPeak }))) ∧
      (r.ceiling ≤ (s.part.chan c).setpoint + r.step →
        Does (.rampStep c) s s.book (s.part.fresh.mapChan c (fun ch =>
          { ch with
            setpoint := r.ceiling, ramp := .holdingLevel, ceilingHold := true
            detector := ch.detector.map TripDetector.restartPeak })))) ∧
    ((s.part.chan c).ceilingHold = true →
      Owes (.ceilingHoldEnd c) s s.book
        { s.part.fresh.mapChan c (fun ch => { ch with ceilingHold := false, params := none }) with todo := [.holdEnded c] }) ∧
    ((s.part.chan c).relay = .closed → (s.part.chan c).ramp = .rampingDown →
      (50 < (s.part.chan c).setpoint →
        Does (.unloadStep c) s s.book (s.part.fresh.mapChan c (fun ch => { ch with setpoint := ch.setpoint - 50 }))) ∧
      ((s.part.chan c).setpoint ≤ 50 →
        Owes (.unloadStep c) s s.book
          { s.part.fresh.mapChan c (fun ch => { ch with setpoint := 0, ramp := .idle }) with todo := [.unloadDone c] }))

/-- A trip firing (R77, R116, R119): the channel drops its setpoint to 0 and its detector is disarmed; an overcurrent check in APPLY
keeps the capture, judges limit A on the peak, and observes the behaviour; an overvoltage check in APPLY keeps it, judges limit A on
the peak bus voltage, and recovers, its nominal trim next, behind a TRIM_SET in flight (R81); a plateau in APPLY or MEASURE keeps it,
fails limit C, and brings the module back (R143). -/
def Obligations.TripDropsTheChannel : Prop :=
  ∀ (s : State) (c : Chan) (d : TripDetector) (f : Firing),
    (s.part.chan c).detector = some d → d.firing = some f → (s.part.chan c).relay = .closed →
    ∃ q, Owes (.tripFiring c) s s.book q ∧
      (q.chan c).setpoint = 0 ∧ (q.chan c).ramp = .dropped ∧ (q.chan c).detector = none ∧ (q.chan c).ceilingHold = false ∧
      (∀ b x plan k o, (s.part.chan c).owner = some (b, x) → (s.part.ctx b x).work.aborting = none →
        (s.part.ctx b x).plan = some plan → (s.part.ctx b x).check = some ⟨k, .ocp o⟩ → (s.part.ctx b x).phase = .apply →
        let peak := (d.peaks.getD (f.current, f.voltage)).1
        (q.ctx b x).phase = .observe ∧
        (q.ctx b x).work.capture = some ⟨(s.part.chan c).setpoint, peak, f.time, f.detector⟩ ∧
        (q.ctx b x).work.limits.a = some (decide (peak < o.window.low ∨ o.window.high < peak)) ∧
        (q.ctx b x).work.span = some ⟨.restartWindow, s.part.timer o.restartWindow.ticks⟩) ∧
    (∀ b x plan k o, (s.part.chan c).owner = some (b, x) → (s.part.ctx b x).work.aborting = none →
      (s.part.ctx b x).plan = some plan → (s.part.ctx b x).check = some ⟨k, .ovp o⟩ → (s.part.ctx b x).phase = .apply →
      let peak := d.peaks.getD (f.current, f.voltage)
      let w := (q.ctx b x).work
      (q.ctx b x).phase = .recover ∧ w.capture = some ⟨(s.part.chan c).setpoint, peak.1, f.time, f.detector⟩ ∧
      w.value1 = some peak.2 ∧ w.limits.a = some (decide (peak.2 < o.window.low ∨ o.window.high < peak.2)) ∧
      w.span = some ⟨.recovery, s.part.timer o.recovery.ticks⟩ ∧ w.recoverTick = s.part.tick ∧
      ((s.part.ctx b x).work.await.any (s.part.link b).flying = true → w.step = .restoreWait) ∧
      ((s.part.ctx b x).work.await.any (s.part.link b).flying = false → w.step = .restoreTrim ∧ w.trim = plan.nominal)) ∧
    ∀ b x plan k o, (s.part.chan c).owner = some (b, x) → (s.part.ctx b x).work.aborting = none →
      (s.part.ctx b x).plan = some plan → (s.part.ctx b x).check = some ⟨k, .derate o⟩ →
      (s.part.ctx b x).phase ∈ [.apply, .measure] →
      let peak := (d.peaks.getD (f.current, f.voltage)).1
      (q.ctx b x).phase = .recover ∧ (q.ctx b x).work.step = .derateClear ∧ (q.ctx b x).work.limits.c = some true ∧
      (q.ctx b x).work.capture = some ⟨(s.part.chan c).setpoint, peak, f.time, f.detector⟩ ∧ (q.ctx b x).derate.tripped = true

/-! ### Checks (R72 to R81, R83, R143) -/

/-- A complete measurement (R72, R73, R74, R75): the isolation test passes into APPLY, or its first failing slot makes the check
NOT_ISOLATED and releases; a STEADY pass is kept as a MEASURE record, the loop counter falls by one, and the loop ends in
RELEASE or the next pass begins in APPLY with its settle span; a SHARE check is judged on its own imbalance against the mean of
its participants (R83), a plateau on its window and without a trip (R143), and both release. When the last record of a check has
entered the buffer its result is applied (R87): a failed check counts and acts as its on-fail action says (R88), and the next
check follows, or the plan ends with its verdict (R27). So it does whether that record enters from the entry line or straight
into a buffer with room (R166). -/
def Obligations.MeasurementsAreJudged : Prop :=
  let applied := fun (b : Bay) (x : Slot) (c : Ctx) (k : Check) (plan : Plan) (q : Part) =>
    let w := c.work
    let failed := if k.isDerate then decide (0 < c.derate.failed) || c.derate.outcome == .noPlateau
      else w.limits.a == some true || w.limits.b == some true || w.limits.c == some true ||
        w.outcome == .notIsolated || w.outcome == .disturbed || w.outcome == .noTrip
    let noPlateau := k.isDerate && c.derate.outcome == .noPlateau
    (q.ctx b x).failed = c.failed + (if failed then 1 else 0) ∧ (q.ctx b x).phase = .none ∧
    (failed = true → noPlateau = true → (q.ctx b x).out = [.verdict .incomplete (some .noPlateau)]) ∧
    (failed = true → noPlateau = false → k.onFail = .skipRest → (q.ctx b x).out = [.verdict .fail none]) ∧
    (failed = true → noPlateau = false → k.onFail = .stopOutput →
      (q.ctx b x).outputOff = true ∧ (q.ctx b x).work.step = .stopOutput ∧ (q.ctx b x).out = []) ∧
    (failed = false ∨ noPlateau = false ∧ k.onFail = .continue →
      (c.checkIndex + 1 < plan.checks.length →
        (q.ctx b x).checkIndex = c.checkIndex + 1 ∧ (q.ctx b x).out = [] ∧ q.todo.head? = some (.boundary b x)) ∧
      (plan.checks.length ≤ c.checkIndex + 1 →
        (q.ctx b x).out = [.verdict (if c.failed + (if failed then 1 else 0) = 0 then .pass else .fail) none]))
  (∀ (s : State) (b : Bay) (x : Slot) (plan : Plan) (k : Check) (m : Measurement) (t : Stamp),
    let c := s.part.ctx b x
    c.work.meas = some m → m.done = some t → c.plan = some plan → c.check = some k →
    (c.phase = .prepare →
      (m.windows.all (fun w => decide (w.mean < plan.isolation)) = true →
        ∃ q, Owes (.measurementComplete b x) s s.book q ∧ (q.ctx b x).phase = .apply) ∧
      (∀ w, m.windows.find? (fun w => decide (plan.isolation ≤ w.mean)) = some w → k.isDerate = false →
        ∃ q, Owes (.measurementComplete b x) s s.book q ∧ (q.ctx b x).phase = .release ∧
          (q.ctx b x).work.outcome = .notIsolated ∧ (q.ctx b x).work.value2 = some Reason.current.code ∧
          (q.ctx b x).work.value3 = some w.mean)) ∧
    (∀ o v i, c.phase = .measure → k.body = .steady o → m.windows = [v, i] →
      ∃ q r, Owes (.measurementComplete b x) s s.book q ∧ (q.ctx b x).work.passes = c.work.passes ++ [r] ∧
        r.kind = .measure ∧ r.number = c.work.passes.length + 1 ∧ r.value1 = some v.mean ∧ r.value2 = some i.mean ∧
        r.stamp = t ∧ r.limits.a = some (decide (v.mean < o.window.low ∨ o.window.high < v.mean)) ∧
        r.limits.b = some (decide (o.tolerance < max i.mean o.load - min i.mean o.load)) ∧ r.limits.c = none ∧
        (q.ctx b x).loop = c.loop - 1 ∧
        (if c.loop - 1 = 0 ∨ o.exit.holds o.window v.mean v.clipped v.drifted = true then (q.ctx b x).phase = .release
         else (q.ctx b x).phase = .apply ∧ (q.ctx b x).work.span = some ⟨.steadySettle, s.part.timer o.settle.ticks⟩)) ∧
    (∀ o own, c.phase = .measure → k.body = .share o → m.windows.find? (fun w => w.point == some x) = some own →
      let mean := (m.windows.map PointWindow.mean).sum / m.windows.length
      let apart := max own.mean mean - min own.mean mean
      let imbalance := if mean = 0 then 0 else apart * 1000 / mean
      ∃ q, Owes (.measurementComplete b x) s s.book q ∧ (q.ctx b x).phase = .release ∧
        (q.ctx b x).work.limits = ⟨some (decide (o.imbalance < imbalance)), none, none⟩ ∧
        (q.ctx b x).work.value1 = some own.mean ∧ (q.ctx b x).work.value2 = some mean ∧
        (q.ctx b x).work.value3 = some imbalance ∧ (q.ctx b x).work.stamp = some t) ∧
    (∀ o v, c.phase = .measure → k.body = .derate o → m.windows = [v] →
      ∃ q, Owes (.measurementComplete b x) s s.book q ∧ (q.ctx b x).phase = .release ∧
        (q.ctx b x).work.limits.a = c.work.limits.a ∧
        (q.ctx b x).work.limits.b = some (decide (v.mean < o.window.low ∨ o.window.high < v.mean)) ∧
        (q.ctx b x).work.limits.c = some false ∧ (q.ctx b x).work.value2 = some v.mean ∧ (q.ctx b x).work.stamp = some t ∧
        (q.ctx b x).derate.exitHolds = o.exit.holds o.window v.mean v.clipped v.drifted)) ∧
  (∀ (p : Part) (b : Bay) (x : Slot), p.todo = [] →
    let c := p.ctx b x
    let u := p.bay b
    c.inLine = false → (∀ e ∈ u.line, e.slot ≠ x) →
    let q := consequence (.output b x) p
    (∀ r l, c.out = .record r :: l → u.buffer.length < 8 → u.line = [] →
      (q.bay b).buffer = u.buffer ++ [r] ∧ (q.bay b).line = [] ∧ q.ctx b x = { c with out := l } ∧
      q.todo = [.writer, .output b x]) ∧
    (∀ l, c.out = .applyResult :: l →
      (q.bay b).buffer = u.buffer ∧ q.ctx b x = { c with out := l } ∧ q.todo = [.checkResult b x]) ∧
    (∀ k plan, c.phase = .record → c.exit = .stay → c.out = [] → c.plan = some plan → c.check = some k →
      applied b x c k plan (consequence (.checkResult b x) p))) ∧
  ∀ (s : State) (g : Settings) (b : Bay) (r : Record) (l : List Record) (n : Nat) (e : LineEntry) (es : List LineEntry)
    (k : Check) (plan : Plan),
    let u := s.part.bay b
    let c := s.part.ctx b e.slot
    s.part.settings = some g → u.drain = .count → u.buffer = r :: l → u.currentPage = some n → u.line = e :: es →
    (∀ f ∈ es, f.slot ≠ e.slot) → c.phase = .record → c.exit = .stay → c.out = [.applyResult] →
    c.plan = some plan → c.check = some k →
    ∃ q, Reaches 2 (.recordCountWritten b) s
        (s.book.writeBytes (s.part.base + g.poolOffset * 4096 + 4096 * n + 6) [BitVec.ofNat 8 (u.pageCount + 1)]) q ∧
      applied b e.slot c k plan q

/-- What a watch has recognised decides its check (R78, R79): a restart is judged against the expected behaviour and keeps its delay;
power-good keeps the ticks since RECOVER began. Limit C then holds, and the check releases. -/
def Obligations.WatchesDecideTheCheck : Prop :=
  ∀ (s : State) (b : Bay) (x : Slot),
    let c := s.part.ctx b x
    (∀ k o v n fired run first d, c.phase = .observe → c.check = some ⟨k, .ocp o⟩ →
      c.work.watch = some (.restart v n fired run first (some d)) →
      ∃ q, Owes (.restartRecognised b x) s s.book q ∧ (q.ctx b x).phase = .release ∧
        (q.ctx b x).work.limits.b = some (decide (o.expected ≠ .restart)) ∧ (q.ctx b x).work.limits.c = some false ∧
        (q.ctx b x).work.value2 = some d) ∧
    (∀ t, c.phase = .recover → c.work.watch = some (.powerGood (some t)) →
      ∃ q, Owes (.powerGoodRecognised b x) s s.book q ∧ (q.ctx b x).phase = .release ∧
        (q.ctx b x).work.limits.c = some false ∧ (q.ctx b x).work.value3 = some (t - c.work.recoverTick))

/-- A span of a check runs out once it has run for its length, and not before (R205). The settle span of a STEADY pass, that of a SHARE
check and the load dwell of a plateau run out (R74, R83, R143): the check enters MEASURE with the drift tolerance of its plan and its
windows: the bus and its own slot, every participant's slot, the bus. -/
def Obligations.SettledChecksMeasure : Prop :=
  ∀ (s : State) (b : Bay) (x : Slot) (plan : Plan) (f : OnFail),
    let c := s.part.ctx b x
    let measures := fun (e : Instr) (need : Nat) (windows : List PointWindow) =>
      Does e s s.book (s.part.fresh.mapCtx b x (fun c =>
        { c with
          phase := .measure
          work := { c.work with span := none, meas := some ⟨need, plan.drift, windows, none⟩ } }))
    (∀ k, c.spanDue s.part.tick k = true ↔
      ∃ t : SpanTimer, c.work.span = some ⟨k, t⟩ ∧ t.start + t.length ≤ s.part.tick) ∧
    (c.spanDue s.part.tick .steadySettle = false → exec (.steadySettleExpiry b x) s = .next s) ∧
    (c.spanDue s.part.tick .shareSettle = false → exec (.shareSettleExpiry b x) s = .next s) ∧
    (c.spanDue s.part.tick .loadDwell = false → exec (.loadDwellExpiry b x) s = .next s) ∧
    (c.plan = some plan →
    (∀ o, c.spanDue s.part.tick .steadySettle = true → c.check = some ⟨f, .steady o⟩ →
      measures (.steadySettleExpiry b x) o.samples
        [⟨none, some o.window, none, 0, 0, false, false⟩, ⟨some x, none, none, 0, 0, false, false⟩]) ∧
    (∀ o, c.spanDue s.part.tick .shareSettle = true → c.check = some ⟨f, .share o⟩ →
      measures (.shareSettleExpiry b x) o.samples
        (c.work.participants.map (fun t => ⟨some t, none, none, 0, 0, false, false⟩))) ∧
    (∀ o, c.spanDue s.part.tick .loadDwell = true → c.check = some ⟨f, .derate o⟩ →
      measures (.loadDwellExpiry b x) o.samples [⟨none, some o.window, none, 0, 0, false, false⟩]))

/-- The restart window runs out (R78, R79): LATCH is judged against the expected behaviour, and RECOVER begins with its span and a
FAULT_CLEAR. The recovery span runs out (R79, R81, R25): limit C fails, the output stays off, and the check releases. Neither runs out
before its time (R205). -/
def Obligations.RestartWindowAndRecoveryRunOut : Prop :=
  ∀ (s : State) (b : Bay) (x : Slot),
    let c := s.part.ctx b x
    (c.spanDue s.part.tick .restartWindow = false → exec (.restartWindowExpiry b x) s = .next s) ∧
    (c.spanDue s.part.tick .recovery = false → exec (.recoverySpanExpiry b x) s = .next s) ∧
    (∀ plan k o, c.spanDue s.part.tick .restartWindow = true → c.plan = some plan → c.check = some ⟨k, .ocp o⟩ →
      ∃ q, Owes (.restartWindowExpiry b x) s s.book q ∧ (q.ctx b x).phase = .recover ∧
        (q.ctx b x).work.limits.b = some (decide (o.expected ≠ .latch)) ∧ (q.ctx b x).work.step = .restoreClear ∧
        (q.ctx b x).work.recoverTick = s.part.tick ∧
        (q.ctx b x).work.span = some ⟨.recovery, s.part.timer o.recovery.ticks⟩) ∧
    (c.spanDue s.part.tick .recovery = true →
      ∃ q, Owes (.recoverySpanExpiry b x) s s.book q ∧ (q.ctx b x).phase = .release ∧
        (q.ctx b x).work.limits.c = some true ∧ (q.ctx b x).outputOff = true)

/-- The trim interval runs out (R80): below the trim ceiling the next trim is handed over, the step higher but not above the ceiling;
at the ceiling the check is NO_TRIP with limit A failed, and recovers. It does not run out before its time (R205). -/
def Obligations.TrimIntervalsStepTheTrim : Prop :=
  ∀ (s : State) (b : Bay) (x : Slot) (plan : Plan) (k : OnFail) (o : OvpCheck),
    let c := s.part.ctx b x
    (c.spanDue s.part.tick .trimInterval = false → exec (.trimIntervalExpiry b x) s = .next s) ∧
    (c.spanDue s.part.tick .trimInterval = true → c.plan = some plan → c.check = some ⟨k, .ovp o⟩ →
    (c.work.trim ≠ o.trimCeiling →
      ∃ q, Owes (.trimIntervalExpiry b x) s s.book q ∧ (q.ctx b x).work.trim = min (c.work.trim + o.trimStep) o.trimCeiling ∧
        (q.ctx b x).work.step = .trimSent ∧ (q.ctx b x).phase = c.phase) ∧
    (c.work.trim = o.trimCeiling →
      ∃ q, Owes (.trimIntervalExpiry b x) s s.book q ∧ (q.ctx b x).phase = .recover ∧
        (q.ctx b x).work.outcome = .noTrip ∧ (q.ctx b x).work.limits = ⟨some true, none, none⟩ ∧
        (q.ctx b x).work.trim = plan.nominal))

/-! ### Zones (R129 to R137) -/

/-- A reading's temperature, SPLIT and fault marks, and when it is in band (R130). -/
def Obligations.ReadingsAreJudged : Prop :=
  (∀ x y : BitVec 16, judgeReading (.temp x) (.temp y) =
    ⟨.temp x, .temp y, some ((x.toInt + y.toInt) / 2), decide (30 < (x.toInt - y.toInt).natAbs), false⟩) ∧
  (∀ a b : SensorResult, a = .openCircuit ∨ a = .shortCircuit ∨ b = .openCircuit ∨ b = .shortCircuit →
    judgeReading a b = ⟨a, b, none, false, true⟩) ∧
  (∀ (r : Reading) (t target band : Int), r.temp = some t → 0 ≤ band →
    (r.inBand target (some band) = true ↔
      r.fault = false ∧ r.split = false ∧ target - band ≤ t ∧ t ≤ target + band))

/-- A reading acts by the zone's state (R130, R133, R134, R136, R137). In HALTED it is recorded alone. A fault reading takes a zone
that is not FAULTED to FAULTED, with no schedule, no spans and no members, and raises ZONE. A member whose measurement is started
and not settled has it cut by its phase (R146): it settles MISSED at once, or releases and settles behind its release; one that owes
a plateau of a zone in a schedule is given MISSED at once; and the loop of each that is not cut ends with a SUMMARY, NO_PLATEAU or,
with its counter at 0 after that plateau, PERFORMED (R137, R145). Said of a list that names each context once, of contexts of its
bays (R139), with nothing waiting for a bus that a cut releases. In band, MOVING settles and RETURNING rests with ZONE raised; out
of band, a settling zone's span starts again, and in OPEN and CLOSING the members still measuring are marked OFF_BAND. Any other
reading is recorded alone: in REST, in FAULTED one that is no fault, in OPEN and CLOSING one in band. -/
def Obligations.ReadingsMoveTheZone : Prop :=
  ∀ (s : State) (z : ZoneNo) (a b : SensorResult),
    let r := judgeReading a b
    let y := s.part.zone z
    let measuring := fun m : Member => m.measured = false ∧ (m.started = true ∨ (s.part.ctx m.bay m.slot).derate.started = true)
    let becomes := fun f : Zone → Zone =>
      Does (.zoneReading z a b) s s.book (s.part.fresh.mapZone z (fun y => f { y with latest := some r }))
    let span := (y.schedule.bind (fun l => l[y.index]?)).map (fun q => (⟨s.part.tick, q.settle.ticks⟩ : SpanTimer))
    (s.part.phase = .halted ∨ (r.fault = true ∧ y.state = .faulted) → becomes id) ∧
    (s.part.phase ≠ .halted → r.fault = true → y.state ≠ .faulted →
      ∃ q, Owes (.zoneReading z a b) s s.book q ∧ (q.zone z).state = .faulted ∧ (q.zone z).schedule = none ∧
        (q.zone z).settle = none ∧ (q.zone z).limit = none ∧ (q.zone z).joined = [] ∧
        (q.zone z).target = (q.zone z).rest ∧
        (s.part.phase ≠ .starting → q.pendingSet &&& BitVec.twoPow 7 5 ≠ 0) ∧
        ((y.joined.map (fun m => (m.bay, m.slot))).Nodup → (∀ m ∈ y.joined, zoneOf m.bay = z) →
          (∀ m ∈ y.joined, (s.part.ctx m.bay m.slot).phase = .channelWait → (s.part.bay m.bay).busQueue = []) →
          ∀ m ∈ y.joined,
            let c := s.part.ctx m.bay m.slot
            let d := q.ctx m.bay m.slot
            let missed := fun n : Nat =>
              d.phase = .record ∧ ∃ r, .record r ∈ d.out ∧ r.kind = .plateau ∧ r.outcome = .missed ∧ r.number = n
            let summed := fun o : CheckOutcome =>
              ∃ r, .record r ∈ d.out ∧ r.kind = .summary ∧ r.outcome = o ∧ r.last = true ∧ .applyResult ∈ d.out
            let last := if c.loop - 1 = 0 then CheckOutcome.performed else .noPlateau
            (measuring m →
              (c.phase ∈ [.plateauWait, .busWait, .channelWait] → missed c.derate.plateau ∧ summed last) ∧
              (c.phase ∈ [.prepare, .apply, .measure] → d.phase = .release ∧ d.derate.cut = true) ∧
              (c.phase ∈ [.connect, .recover, .release] → d.phase = c.phase ∧ d.derate.cut = true)) ∧
            (m.measured = false → ¬ measuring m → y.state ∈ [.moving, .settling, .opened, .closing] →
              missed (y.index + 1) ∧ summed last) ∧
            (¬ measuring m → m.measured = true ∨ y.state ∉ [.moving, .settling, .opened, .closing] →
              d.phase = .record ∧ summed .noPlateau))) ∧
    (s.part.phase ≠ .halted → r.fault = false → r.inBand y.target y.band = true →
      (y.state = .moving → becomes (fun y => { y with state := .settling, settle := span })) ∧
      (y.state ∈ [.settling, .opened, .closing] → becomes id) ∧
      (y.state = .returning → s.part.phase ≠ .starting →
        Does (.zoneReading z a b) s s.book
          ((s.part.fresh.mapZone z (fun y => { y with latest := some r, state := .rest, schedule := none })).notify .zone))) ∧
    (s.part.phase ≠ .halted → r.fault = false → r.inBand y.target y.band = false →
      (y.state = .moving → becomes id) ∧
      (y.state = .settling → becomes (fun y => { y with settle := span })) ∧
      (y.state = .returning → becomes id) ∧
      (y.state ∈ [.opened, .closing] →
        ∃ q, Does (.zoneReading z a b) s s.book q ∧ q.zones = (s.part.mapZone z (fun y => { y with latest := some r })).zones ∧
          ∀ b x, q.ctx b x =
            (if y.joined.any (fun m => m.bay == b && m.slot == x && (m.started || (s.part.ctx b x).derate.started) && !m.measured) then
              { s.part.ctx b x with marks := { (s.part.ctx b x).marks with offBand := true } }
             else s.part.ctx b x))) ∧
    (s.part.phase ≠ .halted → r.fault = false → y.state ∈ [.rest, .faulted] → becomes id)

/-- The settle span of a zone runs out (R134): OPEN with the plateau limit span running; the members' measurements start in list
order, and the closing test follows. The plateau limit span runs out (R135): the members still measuring are marked LATE, those
whose measurement is not started are given MISSED; with any member still measuring the zone is CLOSING and holds that member
(a list names each context once, R139), with none it goes on from the plateau. Neither runs out before its time (R205). -/
def Obligations.PlateausOpenAndClose : Prop :=
  ∀ (s : State) (z : ZoneNo),
    let y := s.part.zone z
    let measuring := fun m : Member => m.started = true ∨ (s.part.ctx m.bay m.slot).derate.started = true
    (∀ t, y.settle = some t → s.part.tick < t.start + t.length → exec (.zoneSettleExpiry z) s = .next s) ∧
    (∀ t, y.limit = some t → s.part.tick < t.start + t.length → exec (.plateauLimitExpiry z) s = .next s) ∧
    (∀ t, y.settle = some t → t.start + t.length ≤ s.part.tick → y.state = .settling →
      Owes (.zoneSettleExpiry z) s s.book
        { s.part.fresh.mapZone z (fun y =>
            { y with
              state := .opened, settle := none
              limit := (y.schedule.bind (fun l => l[y.index]?)).map (fun q => (⟨s.part.tick, q.limit.ticks⟩ : SpanTimer)) }) with
          todo := y.joined.map (fun m => .startPlateau m.bay m.slot) ++ [.closingTest z] }) ∧
    (∀ t, y.limit = some t → t.start + t.length ≤ s.part.tick → y.state = .opened →
      ∃ q, Owes (.plateauLimitExpiry z) s s.book q ∧ (q.zone z).limit = none ∧
        (q.zone z).state ∈ [.closing, .moving, .returning] ∧
        (∀ m ∈ y.joined, m.measured = false → measuring m → (q.ctx m.bay m.slot).marks.late = true) ∧
        (∀ m ∈ y.joined, m.measured = false → ¬ measuring m → zoneOf m.bay = z →
          ∃ r, .record r ∈ (q.ctx m.bay m.slot).out ∧ r.kind = .plateau ∧ r.outcome = .missed ∧ r.number = y.index + 1) ∧
        (y.joined ≠ [] → (∀ m ∈ y.joined, m.measured = false ∧ measuring m) → (q.zone z).state = .closing) ∧
        ((y.joined.map (fun m => (m.bay, m.slot))).Nodup → (∃ m ∈ y.joined, m.measured = false ∧ measuring m) →
          (q.zone z).state = .closing ∧
          ∀ m ∈ y.joined, m.measured = false → measuring m → (q.ctx m.bay m.slot).marks.late = true ∧ m ∈ (q.zone z).joined) ∧
        ((∀ m ∈ y.joined, zoneOf m.bay = z ∧ (m.measured = true ∨ ¬ measuring m)) → (q.zone z).state ≠ .closing))

/-- The chamber line (R131): a frame is four bytes, the zone, the target as a signed 16-bit value with its low byte first, and a check
byte that makes the sum 0 modulo 256; the repeat, 4096 ticks after the start of the last frame and not before, sends a frame at
once, or after the one being sent; a frame that ends is followed by one that is owed. -/
def Obligations.ChamberFramesAreSent : Prop :=
  (∀ (z : ZoneNo) (t : Int), (chamberFrame z t).length = 4 ∧ (chamberFrame z t)[0]? = some (BitVec.ofNat 8 z.val) ∧
    (chamberFrame z t)[1]? = some ((BitVec.ofInt 16 t).extractLsb' 0 8) ∧ (chamberFrame z t)[2]? = some ((BitVec.ofInt 16 t).extractLsb' 8 8) ∧
    (chamberFrame z t).foldl (· + ·) 0 = 0) ∧
  ∀ (s : State) (z : ZoneNo),
    let y := s.part.zone z
    let becomes := fun (c : Instr) (f : Zone → Zone) => Does c s s.book (s.part.fresh.mapZone z f)
    let sent := fun y : Zone =>
      { y with frame := some y.target, frameAgain := false, repeating := some (⟨s.part.tick, 4096⟩ : SpanTimer) }
    (∀ t, y.repeating = some t → s.part.tick < t.start + t.length → exec (.chamberFrameRepeat z) s = .next s) ∧
    (∀ t, y.repeating = some t → t.start + t.length ≤ s.part.tick →
      (y.frame = none → becomes (.chamberFrameRepeat z) sent) ∧
      (y.frame.isSome = true →
        becomes (.chamberFrameRepeat z) (fun y => { y with frameAgain := true, repeating := none }))) ∧
    (y.frame.isSome = true →
      (y.frameAgain = true → becomes (.chamberFrameEnd z) sent) ∧
      (y.frameAgain = false → becomes (.chamberFrameEnd z) (fun y => { y with frame := none })))

/-! ### Time and samples (R4, R122, R123, R202, R205) -/

/-- A monotonic tick advances the fraction, and from 4095 the seconds, from the last second of 2099 to 0 (R202); it changes nothing
else, in every part state (R205). SECOND_ADVANCE is the tick that finds the fraction at 4095 (log entry 11). -/
def Obligations.TicksAdvanceTheClock : Prop :=
  ∀ s : State,
    let p := s.part
    let second := if p.seconds = 3155759999 then 0 else p.seconds + 1
    (p.fraction ≠ 4095 →
      exec .monotonicTick s = .next { s with part := { p with tick := p.tick + 1, fraction := p.fraction + 1 } } ∧
      exec .secondAdvance s = .next s) ∧
    (p.fraction = 4095 →
      exec .monotonicTick s = .next { s with part := { p with tick := p.tick + 1, fraction := 0, seconds := second } } ∧
      exec .secondAdvance s = .next { s with part := { p with tick := p.tick + 1, fraction := 0, seconds := second } })

/-- A sample instant, in every part state (R4, R119, R122 to R128): the samples are counted, by a counter of the model's own (DESIGN
CHOICE, log entry 8); every presence count runs while the raw line differs from the filtered state and is 0 otherwise; every ranged
point moves by its own sample; the filtered states, the contexts but for their measurements and watches, the setpoints, relays and
owners, the zones and the clock keep. An armed detector that has not fired counts its collapse run, sees power-good, raises its peaks,
and fires on a fall of power-good seen, a full run, or both, with its trip time in us from arming (the us between arming and the sample
before it are free, log entry 8). A window in progress gathers a valid sample of its point, and takes CLIPPED from one that clips and
DRIFTED from one that differs from its first by more than the tolerance; with all windows full the measurement is complete at this
sample. A restart watch counts its run and hands over the delay from the firing to its first sample; a power-good watch ends on
power-good. -/
def Obligations.SampleInstantsSampleEverything : Prop :=
  ∀ (s : State) (x : Samples), ∃ t, exec (.sampleInstant x) s = .next t ∧ t.pending = s.pending ∧ t.book = s.book ∧
    t.part.samples = s.part.samples + 1 ∧ t.part.phase = s.part.phase ∧ t.part.tick = s.part.tick ∧
    t.part.seconds = s.part.seconds ∧ t.part.fraction = s.part.fraction ∧ t.part.zones = s.part.zones ∧
    (∀ c : Chan, (t.part.chan c).setpoint = (s.part.chan c).setpoint ∧ (t.part.chan c).relay = (s.part.chan c).relay ∧
      (t.part.chan c).ramp = (s.part.chan c).ramp ∧ (t.part.chan c).owner = (s.part.chan c).owner ∧
      ((s.part.chan c).detector = none → (t.part.chan c).detector = none) ∧
      ∀ b d, (s.part.chan c).bay = some b → (s.part.chan c).detector = some d →
        let volts := x.busFixed[b]
        let good := x.powerGood[b][d.slot]
        let amps := x.chanCurrent[c]
        let run := if volts < d.collapse then d.run + 1 else 0
        let fell := d.seen = true ∧ good = false
        let low := d.confirm ≤ run
        (d.firing ≠ none → (t.part.chan c).detector = some d) ∧
        (d.firing = none →
          (t.part.chan c).detector = some { d with
            samples := d.samples + 1, run := run, seen := d.seen || good
            peaks := some ((d.peaks.map (fun k => (max k.1 amps, max k.2 volts))).getD (amps, volts))
            firing :=
              if fell ∨ low then
                some ⟨s.part.samples + 1, amps, volts, min (10 * (d.samples + 1) - d.offset) 4294967295,
                  if fell ∧ low then .both else if fell then .powerGood else .collapse⟩
              else none })) ∧
    ∀ b : Bay,
      (t.part.bay b).busPoint = ((s.part.bay b).busPoint.sample voltScales x.busRanged[b]).point ∧
      (t.part.bay b).buffer = (s.part.bay b).buffer ∧ (t.part.bay b).link = (s.part.bay b).link ∧
      ∀ k : Slot,
        (t.part.bay b).slotPoints[k] = ((s.part.bay b).slotPoints[k].sample currentScales x.slotCurrent[b][k]).point ∧
        (t.part.bay b).present k = (s.part.bay b).present k ∧
        (t.part.bay b).presence[k].count =
          (if x.present[b][k] = (s.part.bay b).present k then 0
           else min ((s.part.bay b).presence[k].count + 1) 5000) ∧
        { t.part.ctx b k with work := { (t.part.ctx b k).work with
            meas := (s.part.ctx b k).work.meas, watch := (s.part.ctx b k).work.watch } } = s.part.ctx b k ∧
        let w := (s.part.ctx b k).work
        let v := (t.part.ctx b k).work
        let reads := fun i : Option Slot => match i with
          | none => ((s.part.bay b).busPoint.sample voltScales x.busRanged[b], x.busRanged[b])
          | some y => ((s.part.bay b).slotPoints[y].sample currentScales x.slotCurrent[b][y], x.slotCurrent[b][y])
        (w.meas = none → v.meas = none) ∧ (w.watch = none → v.watch = none) ∧
        (∀ m, w.meas = some m → m.done ≠ none → v.meas = some m) ∧
        (∀ m, w.meas = some m → m.done = none →
          ∃ l, l.length = m.windows.length ∧
            v.meas = some { m with
              windows := l, done := if l.all (fun e => decide (m.need ≤ e.count)) then some s.part.stamp else none } ∧
            ∀ (i : Nat) (e : PointWindow), m.windows[i]? = some e → ∃ f, l[i]? = some f ∧
              let r := reads e.point
              (e.count = m.need → f = e) ∧
              (e.count ≠ m.need → r.1.valid = false → f = { e with clipped := e.clipped || r.1.clips }) ∧
              (e.count ≠ m.need → r.1.valid = true → e.first = none →
                f = { e with clipped := e.clipped || r.1.clips, first := some r.2, sum := r.2, count := 1 }) ∧
              (∀ a, e.count ≠ m.need → r.1.valid = true → e.first = some a →
                f = { e with
                  clipped := e.clipped || r.1.clips, sum := e.sum + r.2, count := e.count + 1
                  drifted := e.drifted || decide (m.tol < max r.2 a - min r.2 a) })) ∧
        (∀ volts confirm fired run at0, w.watch = some (.restart volts confirm fired run at0 none) →
          let first := if run = 0 then s.part.samples + 1 else at0
          v.watch = some (if volts < x.busFixed[b] ∧ x.powerGood[b][k] = true then
              .restart volts confirm fired (run + 1) first (if run + 1 = confirm then some (10 * (first - fired)) else none)
            else .restart volts confirm fired 0 0 none)) ∧
        (w.watch = some (.powerGood none) →
          v.watch = some (.powerGood (if x.powerGood[b][k] = true then some s.part.tick else none))) ∧
        (∀ volts confirm fired run at0 d, w.watch = some (.restart volts confirm fired run at0 (some d)) → v.watch = w.watch) ∧
        (∀ d, w.watch = some (.powerGood (some d)) → v.watch = w.watch)

/-- A sample of a ranged point (R122 to R124): in the top range it clips from 98 % of full scale on; after a move it is discarded;
at or above 95 % of full scale below the top range it is not valid and moves the point up; valid below 40 % above the bottom range
it counts, and the sixteenth moves the point down, itself valid; valid at or above 40 %, or in the bottom range, the count is 0. -/
def Obligations.RangedPointsMove : Prop :=
  ∀ (scales : List Nat) (pt : Point) (v : Nat),
    let full := scales.getD pt.range 0
    let top := scales.length - 1
    let r := pt.sample scales v
    (r.clips = true ↔ pt.range = top ∧ full * 98 ≤ v * 100) ∧
    (pt.discard = true → r.valid = false ∧ r.point = { pt with discard := false }) ∧
    (pt.discard = false →
      (pt.range < top → full * 95 ≤ v * 100 → r.valid = false ∧ r.point = ⟨pt.range + 1, 0, true⟩) ∧
      (¬ (pt.range < top ∧ full * 95 ≤ v * 100) →
        r.valid = true ∧
        (pt.range = 0 → r.point = ⟨0, 0, false⟩) ∧
        (0 < pt.range → full * 40 ≤ v * 100 → r.point = ⟨pt.range, 0, false⟩) ∧
        (0 < pt.range → v * 100 < full * 40 →
          r.point = (if pt.down + 1 = 16 then ⟨pt.range - 1, 0, true⟩ else ⟨pt.range, pt.down + 1, false⟩))))

/-- A value is within a window at or above its low bound and at or below its high bound, above it beyond the high bound and below it
under the low bound; a window with low equal to high admits that one value (R57). -/
def Obligations.WindowsHoldTheirBounds : Prop :=
  ∀ (w : Window) (v : Nat), w.low ≤ w.high →
    (w.has v = true ↔ w.low ≤ v ∧ v ≤ w.high) ∧ (w.judge v = .above ↔ w.high < v) ∧ (w.judge v = .below ↔ v < w.low) ∧
    (w.low = w.high → (w.has v = true ↔ v = w.low))

/-! ### Invariants -/

/-- Host memory as the part has written it keeps its canonical form through every step. -/
def Obligations.MemoryStaysCanonical : Prop :=
  ∀ s t : State, s.book.wf = true → step s = .next t → t.book.wf = true

/-- A load channel's setpoint is zero whenever its relays are not CLOSED, through every step (R113). -/
def Obligations.ChannelsStayQuiet : Prop :=
  ∀ s t : State, s.part.QuietChannels → step s = .next t → t.part.QuietChannels

/-- Record buffers, entry lines, link queues and waiting lines keep their sizes through every step: 8 records and 12 entries, and
lines in use only behind a full buffer or queue, of at most 6 records, one for each slot, and 36 hand-overs (R149, R151, R166; a
hand-over that would be the 37th is dropped, log entry 41). The tables of the arbiter agree through every step: a channel's
connected bay is its owner's, whose bay's bus its owner holds; a bay owns at most one channel; a place in the channel grant queue is
a bus holder's that owns none; a bus that is free has nothing waiting (R95, R96, R99 to R105). -/
def Obligations.QueuesStayInSize : Prop :=
  (∀ s t : State, s.part.QueuesInSize → step s = .next t → t.part.QueuesInSize) ∧
  ∀ s t : State, s.part.GrantsAgree → step s = .next t → t.part.GrantsAgree

/-- The time of day stays on the calendar (R202), and bits 11:0 of BOOKLO stay 0 (R179), through every step. -/
def Obligations.RegistersStayInRange : Prop :=
  ∀ s t : State, s.part.RegistersInRange → step s = .next t → t.part.RegistersInRange

/-- The state after reset meets every invariant. -/
def Obligations.ResetMeetsTheInvariants : Prop :=
  State.reset.book.wf = true ∧ State.reset.part.QuietChannels ∧ State.reset.part.QueuesInSize ∧
    State.reset.part.RegistersInRange ∧ State.reset.part.DirectoryInOrder ∧ State.reset.part.GrantsAgree
end

