-- ==== Sys2Proof/Laws/State.lean ====
section
/-! SUPPORT. The fields that each named update leaves alone, and the reads of what an update wrote: later proofs rewrite with these and
do not unfold a record update. -/

namespace Sys2Proof.Machine

/-! ### The state -/
@[simp] theorem State.withPendingKeeps_part (s : State) (l : List Instr) : ({ s with pending := l } : State).part = s.part := rfl
@[simp] theorem State.withPendingKeeps_book (s : State) (l : List Instr) : ({ s with pending := l } : State).book = s.book := rfl

/-! ### Part.mapBay -/
@[simp] theorem Part.mapBay_phase (p : Part) (b : Bay) (f : BayUnit → BayUnit) : (p.mapBay b f).phase = p.phase := rfl
@[simp] theorem Part.mapBay_attempt (p : Part) (b : Bay) (f : BayUnit → BayUnit) : (p.mapBay b f).attempt = p.attempt := rfl
@[simp] theorem Part.mapBay_staleReads (p : Part) (b : Bay) (f : BayUnit → BayUnit) : (p.mapBay b f).staleReads = p.staleReads := rfl
@[simp] theorem Part.mapBay_sweepCode (p : Part) (b : Bay) (f : BayUnit → BayUnit) : (p.mapBay b f).sweepCode = p.sweepCode := rfl
@[simp] theorem Part.mapBay_headRejected (p : Part) (b : Bay) (f : BayUnit → BayUnit) : (p.mapBay b f).headRejected = p.headRejected := rfl
@[simp] theorem Part.mapBay_headCause (p : Part) (b : Bay) (f : BayUnit → BayUnit) : (p.mapBay b f).headCause = p.headCause := rfl
@[simp] theorem Part.mapBay_haltCause (p : Part) (b : Bay) (f : BayUnit → BayUnit) : (p.mapBay b f).haltCause = p.haltCause := rfl
@[simp] theorem Part.mapBay_bookLo (p : Part) (b : Bay) (f : BayUnit → BayUnit) : (p.mapBay b f).bookLo = p.bookLo := rfl
@[simp] theorem Part.mapBay_bookHi (p : Part) (b : Bay) (f : BayUnit → BayUnit) : (p.mapBay b f).bookHi = p.bookHi := rfl
@[simp] theorem Part.mapBay_pendingSet (p : Part) (b : Bay) (f : BayUnit → BayUnit) : (p.mapBay b f).pendingSet = p.pendingSet := rfl
@[simp] theorem Part.mapBay_enableSet (p : Part) (b : Bay) (f : BayUnit → BayUnit) : (p.mapBay b f).enableSet = p.enableSet := rfl
@[simp] theorem Part.mapBay_messages (p : Part) (b : Bay) (f : BayUnit → BayUnit) : (p.mapBay b f).messages = p.messages := rfl
@[simp] theorem Part.mapBay_settings (p : Part) (b : Bay) (f : BayUnit → BayUnit) : (p.mapBay b f).settings = p.settings := rfl
@[simp] theorem Part.mapBay_sweepTimer (p : Part) (b : Bay) (f : BayUnit → BayUnit) : (p.mapBay b f).sweepTimer = p.sweepTimer := rfl
@[simp] theorem Part.mapBay_nudge (p : Part) (b : Bay) (f : BayUnit → BayUnit) : (p.mapBay b f).nudge = p.nudge := rfl
@[simp] theorem Part.mapBay_sweep (p : Part) (b : Bay) (f : BayUnit → BayUnit) : (p.mapBay b f).sweep = p.sweep := rfl
@[simp] theorem Part.mapBay_stopOwed (p : Part) (b : Bay) (f : BayUnit → BayUnit) : (p.mapBay b f).stopOwed = p.stopOwed := rfl
@[simp] theorem Part.mapBay_slotTags (p : Part) (b : Bay) (f : BayUnit → BayUnit) : (p.mapBay b f).slotTags = p.slotTags := rfl
@[simp] theorem Part.mapBay_takenWrite (p : Part) (b : Bay) (f : BayUnit → BayUnit) : (p.mapBay b f).takenWrite = p.takenWrite := rfl
@[simp] theorem Part.mapBay_answers (p : Part) (b : Bay) (f : BayUnit → BayUnit) : (p.mapBay b f).answers = p.answers := rfl
@[simp] theorem Part.mapBay_planEnter (p : Part) (b : Bay) (f : BayUnit → BayUnit) : (p.mapBay b f).planEnter = p.planEnter := rfl
@[simp] theorem Part.mapBay_admReads (p : Part) (b : Bay) (f : BayUnit → BayUnit) : (p.mapBay b f).admReads = p.admReads := rfl
@[simp] theorem Part.mapBay_dir (p : Part) (b : Bay) (f : BayUnit → BayUnit) : (p.mapBay b f).dir = p.dir := rfl
@[simp] theorem Part.mapBay_nextAdm (p : Part) (b : Bay) (f : BayUnit → BayUnit) : (p.mapBay b f).nextAdm = p.nextAdm := rfl
@[simp] theorem Part.mapBay_chans (p : Part) (b : Bay) (f : BayUnit → BayUnit) : (p.mapBay b f).chans = p.chans := rfl
@[simp] theorem Part.mapBay_chanQueue (p : Part) (b : Bay) (f : BayUnit → BayUnit) : (p.mapBay b f).chanQueue = p.chanQueue := rfl
@[simp] theorem Part.mapBay_zones (p : Part) (b : Bay) (f : BayUnit → BayUnit) : (p.mapBay b f).zones = p.zones := rfl
@[simp] theorem Part.mapBay_cursor (p : Part) (b : Bay) (f : BayUnit → BayUnit) : (p.mapBay b f).cursor = p.cursor := rfl
@[simp] theorem Part.mapBay_dry (p : Part) (b : Bay) (f : BayUnit → BayUnit) : (p.mapBay b f).dry = p.dry := rfl
@[simp] theorem Part.mapBay_scan (p : Part) (b : Bay) (f : BayUnit → BayUnit) : (p.mapBay b f).scan = p.scan := rfl
@[simp] theorem Part.mapBay_claim (p : Part) (b : Bay) (f : BayUnit → BayUnit) : (p.mapBay b f).claim = p.claim := rfl
@[simp] theorem Part.mapBay_seconds (p : Part) (b : Bay) (f : BayUnit → BayUnit) : (p.mapBay b f).seconds = p.seconds := rfl
@[simp] theorem Part.mapBay_fraction (p : Part) (b : Bay) (f : BayUnit → BayUnit) : (p.mapBay b f).fraction = p.fraction := rfl
@[simp] theorem Part.mapBay_trusted (p : Part) (b : Bay) (f : BayUnit → BayUnit) : (p.mapBay b f).trusted = p.trusted := rfl
@[simp] theorem Part.mapBay_tick (p : Part) (b : Bay) (f : BayUnit → BayUnit) : (p.mapBay b f).tick = p.tick := rfl
@[simp] theorem Part.mapBay_samples (p : Part) (b : Bay) (f : BayUnit → BayUnit) : (p.mapBay b f).samples = p.samples := rfl
@[simp] theorem Part.mapBay_handovers (p : Part) (b : Bay) (f : BayUnit → BayUnit) : (p.mapBay b f).handovers = p.handovers := rfl
@[simp] theorem Part.mapBay_free (p : Part) (b : Bay) (f : BayUnit → BayUnit) : (p.mapBay b f).free = p.free := rfl
@[simp] theorem Part.mapBay_todo (p : Part) (b : Bay) (f : BayUnit → BayUnit) : (p.mapBay b f).todo = p.todo := rfl

/-! ### Part.mapCtx -/
@[simp] theorem Part.mapCtx_phase (p : Part) (b : Bay) (s : Slot) (f : Ctx → Ctx) : (p.mapCtx b s f).phase = p.phase := rfl
@[simp] theorem Part.mapCtx_attempt (p : Part) (b : Bay) (s : Slot) (f : Ctx → Ctx) : (p.mapCtx b s f).attempt = p.attempt := rfl
@[simp] theorem Part.mapCtx_staleReads (p : Part) (b : Bay) (s : Slot) (f : Ctx → Ctx) : (p.mapCtx b s f).staleReads = p.staleReads := rfl
@[simp] theorem Part.mapCtx_sweepCode (p : Part) (b : Bay) (s : Slot) (f : Ctx → Ctx) : (p.mapCtx b s f).sweepCode = p.sweepCode := rfl
@[simp] theorem Part.mapCtx_headRejected (p : Part) (b : Bay) (s : Slot) (f : Ctx → Ctx) : (p.mapCtx b s f).headRejected = p.headRejected := rfl
@[simp] theorem Part.mapCtx_headCause (p : Part) (b : Bay) (s : Slot) (f : Ctx → Ctx) : (p.mapCtx b s f).headCause = p.headCause := rfl
@[simp] theorem Part.mapCtx_haltCause (p : Part) (b : Bay) (s : Slot) (f : Ctx → Ctx) : (p.mapCtx b s f).haltCause = p.haltCause := rfl
@[simp] theorem Part.mapCtx_bookLo (p : Part) (b : Bay) (s : Slot) (f : Ctx → Ctx) : (p.mapCtx b s f).bookLo = p.bookLo := rfl
@[simp] theorem Part.mapCtx_bookHi (p : Part) (b : Bay) (s : Slot) (f : Ctx → Ctx) : (p.mapCtx b s f).bookHi = p.bookHi := rfl
@[simp] theorem Part.mapCtx_pendingSet (p : Part) (b : Bay) (s : Slot) (f : Ctx → Ctx) : (p.mapCtx b s f).pendingSet = p.pendingSet := rfl
@[simp] theorem Part.mapCtx_enableSet (p : Part) (b : Bay) (s : Slot) (f : Ctx → Ctx) : (p.mapCtx b s f).enableSet = p.enableSet := rfl
@[simp] theorem Part.mapCtx_messages (p : Part) (b : Bay) (s : Slot) (f : Ctx → Ctx) : (p.mapCtx b s f).messages = p.messages := rfl
@[simp] theorem Part.mapCtx_settings (p : Part) (b : Bay) (s : Slot) (f : Ctx → Ctx) : (p.mapCtx b s f).settings = p.settings := rfl
@[simp] theorem Part.mapCtx_sweepTimer (p : Part) (b : Bay) (s : Slot) (f : Ctx → Ctx) : (p.mapCtx b s f).sweepTimer = p.sweepTimer := rfl
@[simp] theorem Part.mapCtx_nudge (p : Part) (b : Bay) (s : Slot) (f : Ctx → Ctx) : (p.mapCtx b s f).nudge = p.nudge := rfl
@[simp] theorem Part.mapCtx_sweep (p : Part) (b : Bay) (s : Slot) (f : Ctx → Ctx) : (p.mapCtx b s f).sweep = p.sweep := rfl
@[simp] theorem Part.mapCtx_stopOwed (p : Part) (b : Bay) (s : Slot) (f : Ctx → Ctx) : (p.mapCtx b s f).stopOwed = p.stopOwed := rfl
@[simp] theorem Part.mapCtx_slotTags (p : Part) (b : Bay) (s : Slot) (f : Ctx → Ctx) : (p.mapCtx b s f).slotTags = p.slotTags := rfl
@[simp] theorem Part.mapCtx_takenWrite (p : Part) (b : Bay) (s : Slot) (f : Ctx → Ctx) : (p.mapCtx b s f).takenWrite = p.takenWrite := rfl
@[simp] theorem Part.mapCtx_answers (p : Part) (b : Bay) (s : Slot) (f : Ctx → Ctx) : (p.mapCtx b s f).answers = p.answers := rfl
@[simp] theorem Part.mapCtx_planEnter (p : Part) (b : Bay) (s : Slot) (f : Ctx → Ctx) : (p.mapCtx b s f).planEnter = p.planEnter := rfl
@[simp] theorem Part.mapCtx_admReads (p : Part) (b : Bay) (s : Slot) (f : Ctx → Ctx) : (p.mapCtx b s f).admReads = p.admReads := rfl
@[simp] theorem Part.mapCtx_dir (p : Part) (b : Bay) (s : Slot) (f : Ctx → Ctx) : (p.mapCtx b s f).dir = p.dir := rfl
@[simp] theorem Part.mapCtx_nextAdm (p : Part) (b : Bay) (s : Slot) (f : Ctx → Ctx) : (p.mapCtx b s f).nextAdm = p.nextAdm := rfl
@[simp] theorem Part.mapCtx_chans (p : Part) (b : Bay) (s : Slot) (f : Ctx → Ctx) : (p.mapCtx b s f).chans = p.chans := rfl
@[simp] theorem Part.mapCtx_chanQueue (p : Part) (b : Bay) (s : Slot) (f : Ctx → Ctx) : (p.mapCtx b s f).chanQueue = p.chanQueue := rfl
@[simp] theorem Part.mapCtx_zones (p : Part) (b : Bay) (s : Slot) (f : Ctx → Ctx) : (p.mapCtx b s f).zones = p.zones := rfl
@[simp] theorem Part.mapCtx_cursor (p : Part) (b : Bay) (s : Slot) (f : Ctx → Ctx) : (p.mapCtx b s f).cursor = p.cursor := rfl
@[simp] theorem Part.mapCtx_dry (p : Part) (b : Bay) (s : Slot) (f : Ctx → Ctx) : (p.mapCtx b s f).dry = p.dry := rfl
@[simp] theorem Part.mapCtx_scan (p : Part) (b : Bay) (s : Slot) (f : Ctx → Ctx) : (p.mapCtx b s f).scan = p.scan := rfl
@[simp] theorem Part.mapCtx_claim (p : Part) (b : Bay) (s : Slot) (f : Ctx → Ctx) : (p.mapCtx b s f).claim = p.claim := rfl
@[simp] theorem Part.mapCtx_seconds (p : Part) (b : Bay) (s : Slot) (f : Ctx → Ctx) : (p.mapCtx b s f).seconds = p.seconds := rfl
@[simp] theorem Part.mapCtx_fraction (p : Part) (b : Bay) (s : Slot) (f : Ctx → Ctx) : (p.mapCtx b s f).fraction = p.fraction := rfl
@[simp] theorem Part.mapCtx_trusted (p : Part) (b : Bay) (s : Slot) (f : Ctx → Ctx) : (p.mapCtx b s f).trusted = p.trusted := rfl
@[simp] theorem Part.mapCtx_tick (p : Part) (b : Bay) (s : Slot) (f : Ctx → Ctx) : (p.mapCtx b s f).tick = p.tick := rfl
@[simp] theorem Part.mapCtx_samples (p : Part) (b : Bay) (s : Slot) (f : Ctx → Ctx) : (p.mapCtx b s f).samples = p.samples := rfl
@[simp] theorem Part.mapCtx_handovers (p : Part) (b : Bay) (s : Slot) (f : Ctx → Ctx) : (p.mapCtx b s f).handovers = p.handovers := rfl
@[simp] theorem Part.mapCtx_free (p : Part) (b : Bay) (s : Slot) (f : Ctx → Ctx) : (p.mapCtx b s f).free = p.free := rfl
@[simp] theorem Part.mapCtx_todo (p : Part) (b : Bay) (s : Slot) (f : Ctx → Ctx) : (p.mapCtx b s f).todo = p.todo := rfl

/-! ### Part.mapWork -/
@[simp] theorem Part.mapWork_phase (p : Part) (b : Bay) (s : Slot) (f : Work → Work) : (p.mapWork b s f).phase = p.phase := rfl
@[simp] theorem Part.mapWork_attempt (p : Part) (b : Bay) (s : Slot) (f : Work → Work) : (p.mapWork b s f).attempt = p.attempt := rfl
@[simp] theorem Part.mapWork_staleReads (p : Part) (b : Bay) (s : Slot) (f : Work → Work) : (p.mapWork b s f).staleReads = p.staleReads := rfl
@[simp] theorem Part.mapWork_sweepCode (p : Part) (b : Bay) (s : Slot) (f : Work → Work) : (p.mapWork b s f).sweepCode = p.sweepCode := rfl
@[simp] theorem Part.mapWork_headRejected (p : Part) (b : Bay) (s : Slot) (f : Work → Work) : (p.mapWork b s f).headRejected = p.headRejected := rfl
@[simp] theorem Part.mapWork_headCause (p : Part) (b : Bay) (s : Slot) (f : Work → Work) : (p.mapWork b s f).headCause = p.headCause := rfl
@[simp] theorem Part.mapWork_haltCause (p : Part) (b : Bay) (s : Slot) (f : Work → Work) : (p.mapWork b s f).haltCause = p.haltCause := rfl
@[simp] theorem Part.mapWork_bookLo (p : Part) (b : Bay) (s : Slot) (f : Work → Work) : (p.mapWork b s f).bookLo = p.bookLo := rfl
@[simp] theorem Part.mapWork_bookHi (p : Part) (b : Bay) (s : Slot) (f : Work → Work) : (p.mapWork b s f).bookHi = p.bookHi := rfl
@[simp] theorem Part.mapWork_pendingSet (p : Part) (b : Bay) (s : Slot) (f : Work → Work) : (p.mapWork b s f).pendingSet = p.pendingSet := rfl
@[simp] theorem Part.mapWork_enableSet (p : Part) (b : Bay) (s : Slot) (f : Work → Work) : (p.mapWork b s f).enableSet = p.enableSet := rfl
@[simp] theorem Part.mapWork_messages (p : Part) (b : Bay) (s : Slot) (f : Work → Work) : (p.mapWork b s f).messages = p.messages := rfl
@[simp] theorem Part.mapWork_settings (p : Part) (b : Bay) (s : Slot) (f : Work → Work) : (p.mapWork b s f).settings = p.settings := rfl
@[simp] theorem Part.mapWork_sweepTimer (p : Part) (b : Bay) (s : Slot) (f : Work → Work) : (p.mapWork b s f).sweepTimer = p.sweepTimer := rfl
@[simp] theorem Part.mapWork_nudge (p : Part) (b : Bay) (s : Slot) (f : Work → Work) : (p.mapWork b s f).nudge = p.nudge := rfl
@[simp] theorem Part.mapWork_sweep (p : Part) (b : Bay) (s : Slot) (f : Work → Work) : (p.mapWork b s f).sweep = p.sweep := rfl
@[simp] theorem Part.mapWork_stopOwed (p : Part) (b : Bay) (s : Slot) (f : Work → Work) : (p.mapWork b s f).stopOwed = p.stopOwed := rfl
@[simp] theorem Part.mapWork_slotTags (p : Part) (b : Bay) (s : Slot) (f : Work → Work) : (p.mapWork b s f).slotTags = p.slotTags := rfl
@[simp] theorem Part.mapWork_takenWrite (p : Part) (b : Bay) (s : Slot) (f : Work → Work) : (p.mapWork b s f).takenWrite = p.takenWrite := rfl
@[simp] theorem Part.mapWork_answers (p : Part) (b : Bay) (s : Slot) (f : Work → Work) : (p.mapWork b s f).answers = p.answers := rfl
@[simp] theorem Part.mapWork_planEnter (p : Part) (b : Bay) (s : Slot) (f : Work → Work) : (p.mapWork b s f).planEnter = p.planEnter := rfl
@[simp] theorem Part.mapWork_admReads (p : Part) (b : Bay) (s : Slot) (f : Work → Work) : (p.mapWork b s f).admReads = p.admReads := rfl
@[simp] theorem Part.mapWork_dir (p : Part) (b : Bay) (s : Slot) (f : Work → Work) : (p.mapWork b s f).dir = p.dir := rfl
@[simp] theorem Part.mapWork_nextAdm (p : Part) (b : Bay) (s : Slot) (f : Work → Work) : (p.mapWork b s f).nextAdm = p.nextAdm := rfl
@[simp] theorem Part.mapWork_chans (p : Part) (b : Bay) (s : Slot) (f : Work → Work) : (p.mapWork b s f).chans = p.chans := rfl
@[simp] theorem Part.mapWork_chanQueue (p : Part) (b : Bay) (s : Slot) (f : Work → Work) : (p.mapWork b s f).chanQueue = p.chanQueue := rfl
@[simp] theorem Part.mapWork_zones (p : Part) (b : Bay) (s : Slot) (f : Work → Work) : (p.mapWork b s f).zones = p.zones := rfl
@[simp] theorem Part.mapWork_cursor (p : Part) (b : Bay) (s : Slot) (f : Work → Work) : (p.mapWork b s f).cursor = p.cursor := rfl
@[simp] theorem Part.mapWork_dry (p : Part) (b : Bay) (s : Slot) (f : Work → Work) : (p.mapWork b s f).dry = p.dry := rfl
@[simp] theorem Part.mapWork_scan (p : Part) (b : Bay) (s : Slot) (f : Work → Work) : (p.mapWork b s f).scan = p.scan := rfl
@[simp] theorem Part.mapWork_claim (p : Part) (b : Bay) (s : Slot) (f : Work → Work) : (p.mapWork b s f).claim = p.claim := rfl
@[simp] theorem Part.mapWork_seconds (p : Part) (b : Bay) (s : Slot) (f : Work → Work) : (p.mapWork b s f).seconds = p.seconds := rfl
@[simp] theorem Part.mapWork_fraction (p : Part) (b : Bay) (s : Slot) (f : Work → Work) : (p.mapWork b s f).fraction = p.fraction := rfl
@[simp] theorem Part.mapWork_trusted (p : Part) (b : Bay) (s : Slot) (f : Work → Work) : (p.mapWork b s f).trusted = p.trusted := rfl
@[simp] theorem Part.mapWork_tick (p : Part) (b : Bay) (s : Slot) (f : Work → Work) : (p.mapWork b s f).tick = p.tick := rfl
@[simp] theorem Part.mapWork_samples (p : Part) (b : Bay) (s : Slot) (f : Work → Work) : (p.mapWork b s f).samples = p.samples := rfl
@[simp] theorem Part.mapWork_handovers (p : Part) (b : Bay) (s : Slot) (f : Work → Work) : (p.mapWork b s f).handovers = p.handovers := rfl
@[simp] theorem Part.mapWork_free (p : Part) (b : Bay) (s : Slot) (f : Work → Work) : (p.mapWork b s f).free = p.free := rfl
@[simp] theorem Part.mapWork_todo (p : Part) (b : Bay) (s : Slot) (f : Work → Work) : (p.mapWork b s f).todo = p.todo := rfl

/-! ### Part.mapLink -/
@[simp] theorem Part.mapLink_phase (p : Part) (b : Bay) (f : Link → Link) : (p.mapLink b f).phase = p.phase := rfl
@[simp] theorem Part.mapLink_attempt (p : Part) (b : Bay) (f : Link → Link) : (p.mapLink b f).attempt = p.attempt := rfl
@[simp] theorem Part.mapLink_staleReads (p : Part) (b : Bay) (f : Link → Link) : (p.mapLink b f).staleReads = p.staleReads := rfl
@[simp] theorem Part.mapLink_sweepCode (p : Part) (b : Bay) (f : Link → Link) : (p.mapLink b f).sweepCode = p.sweepCode := rfl
@[simp] theorem Part.mapLink_headRejected (p : Part) (b : Bay) (f : Link → Link) : (p.mapLink b f).headRejected = p.headRejected := rfl
@[simp] theorem Part.mapLink_headCause (p : Part) (b : Bay) (f : Link → Link) : (p.mapLink b f).headCause = p.headCause := rfl
@[simp] theorem Part.mapLink_haltCause (p : Part) (b : Bay) (f : Link → Link) : (p.mapLink b f).haltCause = p.haltCause := rfl
@[simp] theorem Part.mapLink_bookLo (p : Part) (b : Bay) (f : Link → Link) : (p.mapLink b f).bookLo = p.bookLo := rfl
@[simp] theorem Part.mapLink_bookHi (p : Part) (b : Bay) (f : Link → Link) : (p.mapLink b f).bookHi = p.bookHi := rfl
@[simp] theorem Part.mapLink_pendingSet (p : Part) (b : Bay) (f : Link → Link) : (p.mapLink b f).pendingSet = p.pendingSet := rfl
@[simp] theorem Part.mapLink_enableSet (p : Part) (b : Bay) (f : Link → Link) : (p.mapLink b f).enableSet = p.enableSet := rfl
@[simp] theorem Part.mapLink_messages (p : Part) (b : Bay) (f : Link → Link) : (p.mapLink b f).messages = p.messages := rfl
@[simp] theorem Part.mapLink_settings (p : Part) (b : Bay) (f : Link → Link) : (p.mapLink b f).settings = p.settings := rfl
@[simp] theorem Part.mapLink_sweepTimer (p : Part) (b : Bay) (f : Link → Link) : (p.mapLink b f).sweepTimer = p.sweepTimer := rfl
@[simp] theorem Part.mapLink_nudge (p : Part) (b : Bay) (f : Link → Link) : (p.mapLink b f).nudge = p.nudge := rfl
@[simp] theorem Part.mapLink_sweep (p : Part) (b : Bay) (f : Link → Link) : (p.mapLink b f).sweep = p.sweep := rfl
@[simp] theorem Part.mapLink_stopOwed (p : Part) (b : Bay) (f : Link → Link) : (p.mapLink b f).stopOwed = p.stopOwed := rfl
@[simp] theorem Part.mapLink_slotTags (p : Part) (b : Bay) (f : Link → Link) : (p.mapLink b f).slotTags = p.slotTags := rfl
@[simp] theorem Part.mapLink_takenWrite (p : Part) (b : Bay) (f : Link → Link) : (p.mapLink b f).takenWrite = p.takenWrite := rfl
@[simp] theorem Part.mapLink_answers (p : Part) (b : Bay) (f : Link → Link) : (p.mapLink b f).answers = p.answers := rfl
@[simp] theorem Part.mapLink_planEnter (p : Part) (b : Bay) (f : Link → Link) : (p.mapLink b f).planEnter = p.planEnter := rfl
@[simp] theorem Part.mapLink_admReads (p : Part) (b : Bay) (f : Link → Link) : (p.mapLink b f).admReads = p.admReads := rfl
@[simp] theorem Part.mapLink_dir (p : Part) (b : Bay) (f : Link → Link) : (p.mapLink b f).dir = p.dir := rfl
@[simp] theorem Part.mapLink_nextAdm (p : Part) (b : Bay) (f : Link → Link) : (p.mapLink b f).nextAdm = p.nextAdm := rfl
@[simp] theorem Part.mapLink_chans (p : Part) (b : Bay) (f : Link → Link) : (p.mapLink b f).chans = p.chans := rfl
@[simp] theorem Part.mapLink_chanQueue (p : Part) (b : Bay) (f : Link → Link) : (p.mapLink b f).chanQueue = p.chanQueue := rfl
@[simp] theorem Part.mapLink_zones (p : Part) (b : Bay) (f : Link → Link) : (p.mapLink b f).zones = p.zones := rfl
@[simp] theorem Part.mapLink_cursor (p : Part) (b : Bay) (f : Link → Link) : (p.mapLink b f).cursor = p.cursor := rfl
@[simp] theorem Part.mapLink_dry (p : Part) (b : Bay) (f : Link → Link) : (p.mapLink b f).dry = p.dry := rfl
@[simp] theorem Part.mapLink_scan (p : Part) (b : Bay) (f : Link → Link) : (p.mapLink b f).scan = p.scan := rfl
@[simp] theorem Part.mapLink_claim (p : Part) (b : Bay) (f : Link → Link) : (p.mapLink b f).claim = p.claim := rfl
@[simp] theorem Part.mapLink_seconds (p : Part) (b : Bay) (f : Link → Link) : (p.mapLink b f).seconds = p.seconds := rfl
@[simp] theorem Part.mapLink_fraction (p : Part) (b : Bay) (f : Link → Link) : (p.mapLink b f).fraction = p.fraction := rfl
@[simp] theorem Part.mapLink_trusted (p : Part) (b : Bay) (f : Link → Link) : (p.mapLink b f).trusted = p.trusted := rfl
@[simp] theorem Part.mapLink_tick (p : Part) (b : Bay) (f : Link → Link) : (p.mapLink b f).tick = p.tick := rfl
@[simp] theorem Part.mapLink_samples (p : Part) (b : Bay) (f : Link → Link) : (p.mapLink b f).samples = p.samples := rfl
@[simp] theorem Part.mapLink_handovers (p : Part) (b : Bay) (f : Link → Link) : (p.mapLink b f).handovers = p.handovers := rfl
@[simp] theorem Part.mapLink_free (p : Part) (b : Bay) (f : Link → Link) : (p.mapLink b f).free = p.free := rfl
@[simp] theorem Part.mapLink_todo (p : Part) (b : Bay) (f : Link → Link) : (p.mapLink b f).todo = p.todo := rfl

/-! ### Part.setPhase -/
@[simp] theorem Part.setPhase_phase (p : Part) (b : Bay) (s : Slot) (h : Phase) : (p.setPhase b s h).phase = p.phase := rfl
@[simp] theorem Part.setPhase_attempt (p : Part) (b : Bay) (s : Slot) (h : Phase) : (p.setPhase b s h).attempt = p.attempt := rfl
@[simp] theorem Part.setPhase_staleReads (p : Part) (b : Bay) (s : Slot) (h : Phase) : (p.setPhase b s h).staleReads = p.staleReads := rfl
@[simp] theorem Part.setPhase_sweepCode (p : Part) (b : Bay) (s : Slot) (h : Phase) : (p.setPhase b s h).sweepCode = p.sweepCode := rfl
@[simp] theorem Part.setPhase_headRejected (p : Part) (b : Bay) (s : Slot) (h : Phase) : (p.setPhase b s h).headRejected = p.headRejected := rfl
@[simp] theorem Part.setPhase_headCause (p : Part) (b : Bay) (s : Slot) (h : Phase) : (p.setPhase b s h).headCause = p.headCause := rfl
@[simp] theorem Part.setPhase_haltCause (p : Part) (b : Bay) (s : Slot) (h : Phase) : (p.setPhase b s h).haltCause = p.haltCause := rfl
@[simp] theorem Part.setPhase_bookLo (p : Part) (b : Bay) (s : Slot) (h : Phase) : (p.setPhase b s h).bookLo = p.bookLo := rfl
@[simp] theorem Part.setPhase_bookHi (p : Part) (b : Bay) (s : Slot) (h : Phase) : (p.setPhase b s h).bookHi = p.bookHi := rfl
@[simp] theorem Part.setPhase_pendingSet (p : Part) (b : Bay) (s : Slot) (h : Phase) : (p.setPhase b s h).pendingSet = p.pendingSet := rfl
@[simp] theorem Part.setPhase_enableSet (p : Part) (b : Bay) (s : Slot) (h : Phase) : (p.setPhase b s h).enableSet = p.enableSet := rfl
@[simp] theorem Part.setPhase_messages (p : Part) (b : Bay) (s : Slot) (h : Phase) : (p.setPhase b s h).messages = p.messages := rfl
@[simp] theorem Part.setPhase_settings (p : Part) (b : Bay) (s : Slot) (h : Phase) : (p.setPhase b s h).settings = p.settings := rfl
@[simp] theorem Part.setPhase_sweepTimer (p : Part) (b : Bay) (s : Slot) (h : Phase) : (p.setPhase b s h).sweepTimer = p.sweepTimer := rfl
@[simp] theorem Part.setPhase_nudge (p : Part) (b : Bay) (s : Slot) (h : Phase) : (p.setPhase b s h).nudge = p.nudge := rfl
@[simp] theorem Part.setPhase_sweep (p : Part) (b : Bay) (s : Slot) (h : Phase) : (p.setPhase b s h).sweep = p.sweep := rfl
@[simp] theorem Part.setPhase_stopOwed (p : Part) (b : Bay) (s : Slot) (h : Phase) : (p.setPhase b s h).stopOwed = p.stopOwed := rfl
@[simp] theorem Part.setPhase_slotTags (p : Part) (b : Bay) (s : Slot) (h : Phase) : (p.setPhase b s h).slotTags = p.slotTags := rfl
@[simp] theorem Part.setPhase_takenWrite (p : Part) (b : Bay) (s : Slot) (h : Phase) : (p.setPhase b s h).takenWrite = p.takenWrite := rfl
@[simp] theorem Part.setPhase_answers (p : Part) (b : Bay) (s : Slot) (h : Phase) : (p.setPhase b s h).answers = p.answers := rfl
@[simp] theorem Part.setPhase_planEnter (p : Part) (b : Bay) (s : Slot) (h : Phase) : (p.setPhase b s h).planEnter = p.planEnter := rfl
@[simp] theorem Part.setPhase_admReads (p : Part) (b : Bay) (s : Slot) (h : Phase) : (p.setPhase b s h).admReads = p.admReads := rfl
@[simp] theorem Part.setPhase_dir (p : Part) (b : Bay) (s : Slot) (h : Phase) : (p.setPhase b s h).dir = p.dir := rfl
@[simp] theorem Part.setPhase_nextAdm (p : Part) (b : Bay) (s : Slot) (h : Phase) : (p.setPhase b s h).nextAdm = p.nextAdm := rfl
@[simp] theorem Part.setPhase_chans (p : Part) (b : Bay) (s : Slot) (h : Phase) : (p.setPhase b s h).chans = p.chans := rfl
@[simp] theorem Part.setPhase_chanQueue (p : Part) (b : Bay) (s : Slot) (h : Phase) : (p.setPhase b s h).chanQueue = p.chanQueue := rfl
@[simp] theorem Part.setPhase_zones (p : Part) (b : Bay) (s : Slot) (h : Phase) : (p.setPhase b s h).zones = p.zones := rfl
@[simp] theorem Part.setPhase_cursor (p : Part) (b : Bay) (s : Slot) (h : Phase) : (p.setPhase b s h).cursor = p.cursor := rfl
@[simp] theorem Part.setPhase_dry (p : Part) (b : Bay) (s : Slot) (h : Phase) : (p.setPhase b s h).dry = p.dry := rfl
@[simp] theorem Part.setPhase_scan (p : Part) (b : Bay) (s : Slot) (h : Phase) : (p.setPhase b s h).scan = p.scan := rfl
@[simp] theorem Part.setPhase_claim (p : Part) (b : Bay) (s : Slot) (h : Phase) : (p.setPhase b s h).claim = p.claim := rfl
@[simp] theorem Part.setPhase_seconds (p : Part) (b : Bay) (s : Slot) (h : Phase) : (p.setPhase b s h).seconds = p.seconds := rfl
@[simp] theorem Part.setPhase_fraction (p : Part) (b : Bay) (s : Slot) (h : Phase) : (p.setPhase b s h).fraction = p.fraction := rfl
@[simp] theorem Part.setPhase_trusted (p : Part) (b : Bay) (s : Slot) (h : Phase) : (p.setPhase b s h).trusted = p.trusted := rfl
@[simp] theorem Part.setPhase_tick (p : Part) (b : Bay) (s : Slot) (h : Phase) : (p.setPhase b s h).tick = p.tick := rfl
@[simp] theorem Part.setPhase_samples (p : Part) (b : Bay) (s : Slot) (h : Phase) : (p.setPhase b s h).samples = p.samples := rfl
@[simp] theorem Part.setPhase_handovers (p : Part) (b : Bay) (s : Slot) (h : Phase) : (p.setPhase b s h).handovers = p.handovers := rfl
@[simp] theorem Part.setPhase_free (p : Part) (b : Bay) (s : Slot) (h : Phase) : (p.setPhase b s h).free = p.free := rfl
@[simp] theorem Part.setPhase_todo (p : Part) (b : Bay) (s : Slot) (h : Phase) : (p.setPhase b s h).todo = p.todo := rfl

/-! ### Part.mapChan -/
@[simp] theorem Part.mapChan_phase (p : Part) (c : Chan) (f : Channel → Channel) : (p.mapChan c f).phase = p.phase := rfl
@[simp] theorem Part.mapChan_attempt (p : Part) (c : Chan) (f : Channel → Channel) : (p.mapChan c f).attempt = p.attempt := rfl
@[simp] theorem Part.mapChan_staleReads (p : Part) (c : Chan) (f : Channel → Channel) : (p.mapChan c f).staleReads = p.staleReads := rfl
@[simp] theorem Part.mapChan_sweepCode (p : Part) (c : Chan) (f : Channel → Channel) : (p.mapChan c f).sweepCode = p.sweepCode := rfl
@[simp] theorem Part.mapChan_headRejected (p : Part) (c : Chan) (f : Channel → Channel) : (p.mapChan c f).headRejected = p.headRejected := rfl
@[simp] theorem Part.mapChan_headCause (p : Part) (c : Chan) (f : Channel → Channel) : (p.mapChan c f).headCause = p.headCause := rfl
@[simp] theorem Part.mapChan_haltCause (p : Part) (c : Chan) (f : Channel → Channel) : (p.mapChan c f).haltCause = p.haltCause := rfl
@[simp] theorem Part.mapChan_bookLo (p : Part) (c : Chan) (f : Channel → Channel) : (p.mapChan c f).bookLo = p.bookLo := rfl
@[simp] theorem Part.mapChan_bookHi (p : Part) (c : Chan) (f : Channel → Channel) : (p.mapChan c f).bookHi = p.bookHi := rfl
@[simp] theorem Part.mapChan_pendingSet (p : Part) (c : Chan) (f : Channel → Channel) : (p.mapChan c f).pendingSet = p.pendingSet := rfl
@[simp] theorem Part.mapChan_enableSet (p : Part) (c : Chan) (f : Channel → Channel) : (p.mapChan c f).enableSet = p.enableSet := rfl
@[simp] theorem Part.mapChan_messages (p : Part) (c : Chan) (f : Channel → Channel) : (p.mapChan c f).messages = p.messages := rfl
@[simp] theorem Part.mapChan_settings (p : Part) (c : Chan) (f : Channel → Channel) : (p.mapChan c f).settings = p.settings := rfl
@[simp] theorem Part.mapChan_sweepTimer (p : Part) (c : Chan) (f : Channel → Channel) : (p.mapChan c f).sweepTimer = p.sweepTimer := rfl
@[simp] theorem Part.mapChan_nudge (p : Part) (c : Chan) (f : Channel → Channel) : (p.mapChan c f).nudge = p.nudge := rfl
@[simp] theorem Part.mapChan_sweep (p : Part) (c : Chan) (f : Channel → Channel) : (p.mapChan c f).sweep = p.sweep := rfl
@[simp] theorem Part.mapChan_stopOwed (p : Part) (c : Chan) (f : Channel → Channel) : (p.mapChan c f).stopOwed = p.stopOwed := rfl
@[simp] theorem Part.mapChan_slotTags (p : Part) (c : Chan) (f : Channel → Channel) : (p.mapChan c f).slotTags = p.slotTags := rfl
@[simp] theorem Part.mapChan_takenWrite (p : Part) (c : Chan) (f : Channel → Channel) : (p.mapChan c f).takenWrite = p.takenWrite := rfl
@[simp] theorem Part.mapChan_answers (p : Part) (c : Chan) (f : Channel → Channel) : (p.mapChan c f).answers = p.answers := rfl
@[simp] theorem Part.mapChan_planEnter (p : Part) (c : Chan) (f : Channel → Channel) : (p.mapChan c f).planEnter = p.planEnter := rfl
@[simp] theorem Part.mapChan_admReads (p : Part) (c : Chan) (f : Channel → Channel) : (p.mapChan c f).admReads = p.admReads := rfl
@[simp] theorem Part.mapChan_dir (p : Part) (c : Chan) (f : Channel → Channel) : (p.mapChan c f).dir = p.dir := rfl
@[simp] theorem Part.mapChan_bays (p : Part) (c : Chan) (f : Channel → Channel) : (p.mapChan c f).bays = p.bays := rfl
@[simp] theorem Part.mapChan_nextAdm (p : Part) (c : Chan) (f : Channel → Channel) : (p.mapChan c f).nextAdm = p.nextAdm := rfl
@[simp] theorem Part.mapChan_chanQueue (p : Part) (c : Chan) (f : Channel → Channel) : (p.mapChan c f).chanQueue = p.chanQueue := rfl
@[simp] theorem Part.mapChan_zones (p : Part) (c : Chan) (f : Channel → Channel) : (p.mapChan c f).zones = p.zones := rfl
@[simp] theorem Part.mapChan_cursor (p : Part) (c : Chan) (f : Channel → Channel) : (p.mapChan c f).cursor = p.cursor := rfl
@[simp] theorem Part.mapChan_dry (p : Part) (c : Chan) (f : Channel → Channel) : (p.mapChan c f).dry = p.dry := rfl
@[simp] theorem Part.mapChan_scan (p : Part) (c : Chan) (f : Channel → Channel) : (p.mapChan c f).scan = p.scan := rfl
@[simp] theorem Part.mapChan_claim (p : Part) (c : Chan) (f : Channel → Channel) : (p.mapChan c f).claim = p.claim := rfl
@[simp] theorem Part.mapChan_seconds (p : Part) (c : Chan) (f : Channel → Channel) : (p.mapChan c f).seconds = p.seconds := rfl
@[simp] theorem Part.mapChan_fraction (p : Part) (c : Chan) (f : Channel → Channel) : (p.mapChan c f).fraction = p.fraction := rfl
@[simp] theorem Part.mapChan_trusted (p : Part) (c : Chan) (f : Channel → Channel) : (p.mapChan c f).trusted = p.trusted := rfl
@[simp] theorem Part.mapChan_tick (p : Part) (c : Chan) (f : Channel → Channel) : (p.mapChan c f).tick = p.tick := rfl
@[simp] theorem Part.mapChan_samples (p : Part) (c : Chan) (f : Channel → Channel) : (p.mapChan c f).samples = p.samples := rfl
@[simp] theorem Part.mapChan_handovers (p : Part) (c : Chan) (f : Channel → Channel) : (p.mapChan c f).handovers = p.handovers := rfl
@[simp] theorem Part.mapChan_free (p : Part) (c : Chan) (f : Channel → Channel) : (p.mapChan c f).free = p.free := rfl
@[simp] theorem Part.mapChan_todo (p : Part) (c : Chan) (f : Channel → Channel) : (p.mapChan c f).todo = p.todo := rfl

/-! ### Part.mapZone -/
@[simp] theorem Part.mapZone_phase (p : Part) (z : ZoneNo) (f : Zone → Zone) : (p.mapZone z f).phase = p.phase := rfl
@[simp] theorem Part.mapZone_attempt (p : Part) (z : ZoneNo) (f : Zone → Zone) : (p.mapZone z f).attempt = p.attempt := rfl
@[simp] theorem Part.mapZone_staleReads (p : Part) (z : ZoneNo) (f : Zone → Zone) : (p.mapZone z f).staleReads = p.staleReads := rfl
@[simp] theorem Part.mapZone_sweepCode (p : Part) (z : ZoneNo) (f : Zone → Zone) : (p.mapZone z f).sweepCode = p.sweepCode := rfl
@[simp] theorem Part.mapZone_headRejected (p : Part) (z : ZoneNo) (f : Zone → Zone) : (p.mapZone z f).headRejected = p.headRejected := rfl
@[simp] theorem Part.mapZone_headCause (p : Part) (z : ZoneNo) (f : Zone → Zone) : (p.mapZone z f).headCause = p.headCause := rfl
@[simp] theorem Part.mapZone_haltCause (p : Part) (z : ZoneNo) (f : Zone → Zone) : (p.mapZone z f).haltCause = p.haltCause := rfl
@[simp] theorem Part.mapZone_bookLo (p : Part) (z : ZoneNo) (f : Zone → Zone) : (p.mapZone z f).bookLo = p.bookLo := rfl
@[simp] theorem Part.mapZone_bookHi (p : Part) (z : ZoneNo) (f : Zone → Zone) : (p.mapZone z f).bookHi = p.bookHi := rfl
@[simp] theorem Part.mapZone_pendingSet (p : Part) (z : ZoneNo) (f : Zone → Zone) : (p.mapZone z f).pendingSet = p.pendingSet := rfl
@[simp] theorem Part.mapZone_enableSet (p : Part) (z : ZoneNo) (f : Zone → Zone) : (p.mapZone z f).enableSet = p.enableSet := rfl
@[simp] theorem Part.mapZone_messages (p : Part) (z : ZoneNo) (f : Zone → Zone) : (p.mapZone z f).messages = p.messages := rfl
@[simp] theorem Part.mapZone_settings (p : Part) (z : ZoneNo) (f : Zone → Zone) : (p.mapZone z f).settings = p.settings := rfl
@[simp] theorem Part.mapZone_sweepTimer (p : Part) (z : ZoneNo) (f : Zone → Zone) : (p.mapZone z f).sweepTimer = p.sweepTimer := rfl
@[simp] theorem Part.mapZone_nudge (p : Part) (z : ZoneNo) (f : Zone → Zone) : (p.mapZone z f).nudge = p.nudge := rfl
@[simp] theorem Part.mapZone_sweep (p : Part) (z : ZoneNo) (f : Zone → Zone) : (p.mapZone z f).sweep = p.sweep := rfl
@[simp] theorem Part.mapZone_stopOwed (p : Part) (z : ZoneNo) (f : Zone → Zone) : (p.mapZone z f).stopOwed = p.stopOwed := rfl
@[simp] theorem Part.mapZone_slotTags (p : Part) (z : ZoneNo) (f : Zone → Zone) : (p.mapZone z f).slotTags = p.slotTags := rfl
@[simp] theorem Part.mapZone_takenWrite (p : Part) (z : ZoneNo) (f : Zone → Zone) : (p.mapZone z f).takenWrite = p.takenWrite := rfl
@[simp] theorem Part.mapZone_answers (p : Part) (z : ZoneNo) (f : Zone → Zone) : (p.mapZone z f).answers = p.answers := rfl
@[simp] theorem Part.mapZone_planEnter (p : Part) (z : ZoneNo) (f : Zone → Zone) : (p.mapZone z f).planEnter = p.planEnter := rfl
@[simp] theorem Part.mapZone_admReads (p : Part) (z : ZoneNo) (f : Zone → Zone) : (p.mapZone z f).admReads = p.admReads := rfl
@[simp] theorem Part.mapZone_dir (p : Part) (z : ZoneNo) (f : Zone → Zone) : (p.mapZone z f).dir = p.dir := rfl
@[simp] theorem Part.mapZone_bays (p : Part) (z : ZoneNo) (f : Zone → Zone) : (p.mapZone z f).bays = p.bays := rfl
@[simp] theorem Part.mapZone_nextAdm (p : Part) (z : ZoneNo) (f : Zone → Zone) : (p.mapZone z f).nextAdm = p.nextAdm := rfl
@[simp] theorem Part.mapZone_chans (p : Part) (z : ZoneNo) (f : Zone → Zone) : (p.mapZone z f).chans = p.chans := rfl
@[simp] theorem Part.mapZone_chanQueue (p : Part) (z : ZoneNo) (f : Zone → Zone) : (p.mapZone z f).chanQueue = p.chanQueue := rfl
@[simp] theorem Part.mapZone_cursor (p : Part) (z : ZoneNo) (f : Zone → Zone) : (p.mapZone z f).cursor = p.cursor := rfl
@[simp] theorem Part.mapZone_dry (p : Part) (z : ZoneNo) (f : Zone → Zone) : (p.mapZone z f).dry = p.dry := rfl
@[simp] theorem Part.mapZone_scan (p : Part) (z : ZoneNo) (f : Zone → Zone) : (p.mapZone z f).scan = p.scan := rfl
@[simp] theorem Part.mapZone_claim (p : Part) (z : ZoneNo) (f : Zone → Zone) : (p.mapZone z f).claim = p.claim := rfl
@[simp] theorem Part.mapZone_seconds (p : Part) (z : ZoneNo) (f : Zone → Zone) : (p.mapZone z f).seconds = p.seconds := rfl
@[simp] theorem Part.mapZone_fraction (p : Part) (z : ZoneNo) (f : Zone → Zone) : (p.mapZone z f).fraction = p.fraction := rfl
@[simp] theorem Part.mapZone_trusted (p : Part) (z : ZoneNo) (f : Zone → Zone) : (p.mapZone z f).trusted = p.trusted := rfl
@[simp] theorem Part.mapZone_tick (p : Part) (z : ZoneNo) (f : Zone → Zone) : (p.mapZone z f).tick = p.tick := rfl
@[simp] theorem Part.mapZone_samples (p : Part) (z : ZoneNo) (f : Zone → Zone) : (p.mapZone z f).samples = p.samples := rfl
@[simp] theorem Part.mapZone_handovers (p : Part) (z : ZoneNo) (f : Zone → Zone) : (p.mapZone z f).handovers = p.handovers := rfl
@[simp] theorem Part.mapZone_free (p : Part) (z : ZoneNo) (f : Zone → Zone) : (p.mapZone z f).free = p.free := rfl
@[simp] theorem Part.mapZone_todo (p : Part) (z : ZoneNo) (f : Zone → Zone) : (p.mapZone z f).todo = p.todo := rfl

/-! ### Part.later -/
@[simp] theorem Part.later_phase (p : Part) (l : List Conseq) : (p.later l).phase = p.phase := rfl
@[simp] theorem Part.later_attempt (p : Part) (l : List Conseq) : (p.later l).attempt = p.attempt := rfl
@[simp] theorem Part.later_staleReads (p : Part) (l : List Conseq) : (p.later l).staleReads = p.staleReads := rfl
@[simp] theorem Part.later_sweepCode (p : Part) (l : List Conseq) : (p.later l).sweepCode = p.sweepCode := rfl
@[simp] theorem Part.later_headRejected (p : Part) (l : List Conseq) : (p.later l).headRejected = p.headRejected := rfl
@[simp] theorem Part.later_headCause (p : Part) (l : List Conseq) : (p.later l).headCause = p.headCause := rfl
@[simp] theorem Part.later_haltCause (p : Part) (l : List Conseq) : (p.later l).haltCause = p.haltCause := rfl
@[simp] theorem Part.later_bookLo (p : Part) (l : List Conseq) : (p.later l).bookLo = p.bookLo := rfl
@[simp] theorem Part.later_bookHi (p : Part) (l : List Conseq) : (p.later l).bookHi = p.bookHi := rfl
@[simp] theorem Part.later_pendingSet (p : Part) (l : List Conseq) : (p.later l).pendingSet = p.pendingSet := rfl
@[simp] theorem Part.later_enableSet (p : Part) (l : List Conseq) : (p.later l).enableSet = p.enableSet := rfl
@[simp] theorem Part.later_messages (p : Part) (l : List Conseq) : (p.later l).messages = p.messages := rfl
@[simp] theorem Part.later_settings (p : Part) (l : List Conseq) : (p.later l).settings = p.settings := rfl
@[simp] theorem Part.later_sweepTimer (p : Part) (l : List Conseq) : (p.later l).sweepTimer = p.sweepTimer := rfl
@[simp] theorem Part.later_nudge (p : Part) (l : List Conseq) : (p.later l).nudge = p.nudge := rfl
@[simp] theorem Part.later_sweep (p : Part) (l : List Conseq) : (p.later l).sweep = p.sweep := rfl
@[simp] theorem Part.later_stopOwed (p : Part) (l : List Conseq) : (p.later l).stopOwed = p.stopOwed := rfl
@[simp] theorem Part.later_slotTags (p : Part) (l : List Conseq) : (p.later l).slotTags = p.slotTags := rfl
@[simp] theorem Part.later_takenWrite (p : Part) (l : List Conseq) : (p.later l).takenWrite = p.takenWrite := rfl
@[simp] theorem Part.later_answers (p : Part) (l : List Conseq) : (p.later l).answers = p.answers := rfl
@[simp] theorem Part.later_planEnter (p : Part) (l : List Conseq) : (p.later l).planEnter = p.planEnter := rfl
@[simp] theorem Part.later_admReads (p : Part) (l : List Conseq) : (p.later l).admReads = p.admReads := rfl
@[simp] theorem Part.later_dir (p : Part) (l : List Conseq) : (p.later l).dir = p.dir := rfl
@[simp] theorem Part.later_bays (p : Part) (l : List Conseq) : (p.later l).bays = p.bays := rfl
@[simp] theorem Part.later_nextAdm (p : Part) (l : List Conseq) : (p.later l).nextAdm = p.nextAdm := rfl
@[simp] theorem Part.later_chans (p : Part) (l : List Conseq) : (p.later l).chans = p.chans := rfl
@[simp] theorem Part.later_chanQueue (p : Part) (l : List Conseq) : (p.later l).chanQueue = p.chanQueue := rfl
@[simp] theorem Part.later_zones (p : Part) (l : List Conseq) : (p.later l).zones = p.zones := rfl
@[simp] theorem Part.later_cursor (p : Part) (l : List Conseq) : (p.later l).cursor = p.cursor := rfl
@[simp] theorem Part.later_dry (p : Part) (l : List Conseq) : (p.later l).dry = p.dry := rfl
@[simp] theorem Part.later_scan (p : Part) (l : List Conseq) : (p.later l).scan = p.scan := rfl
@[simp] theorem Part.later_claim (p : Part) (l : List Conseq) : (p.later l).claim = p.claim := rfl
@[simp] theorem Part.later_seconds (p : Part) (l : List Conseq) : (p.later l).seconds = p.seconds := rfl
@[simp] theorem Part.later_fraction (p : Part) (l : List Conseq) : (p.later l).fraction = p.fraction := rfl
@[simp] theorem Part.later_trusted (p : Part) (l : List Conseq) : (p.later l).trusted = p.trusted := rfl
@[simp] theorem Part.later_tick (p : Part) (l : List Conseq) : (p.later l).tick = p.tick := rfl
@[simp] theorem Part.later_samples (p : Part) (l : List Conseq) : (p.later l).samples = p.samples := rfl
@[simp] theorem Part.later_handovers (p : Part) (l : List Conseq) : (p.later l).handovers = p.handovers := rfl
@[simp] theorem Part.later_free (p : Part) (l : List Conseq) : (p.later l).free = p.free := rfl

/-! ### BayUnit.mapCtx -/
@[simp] theorem BayUnit.mapCtx_state (u : BayUnit) (s : Slot) (f : Ctx → Ctx) : (u.mapCtx s f).state = u.state := rfl
@[simp] theorem BayUnit.mapCtx_start (u : BayUnit) (s : Slot) (f : Ctx → Ctx) : (u.mapCtx s f).start = u.start := rfl
@[simp] theorem BayUnit.mapCtx_insert (u : BayUnit) (s : Slot) (f : Ctx → Ctx) : (u.mapCtx s f).insert = u.insert := rfl
@[simp] theorem BayUnit.mapCtx_cause (u : BayUnit) (s : Slot) (f : Ctx → Ctx) : (u.mapCtx s f).cause = u.cause := rfl
@[simp] theorem BayUnit.mapCtx_standby (u : BayUnit) (s : Slot) (f : Ctx → Ctx) : (u.mapCtx s f).standby = u.standby := rfl
@[simp] theorem BayUnit.mapCtx_pendingOrder (u : BayUnit) (s : Slot) (f : Ctx → Ctx) : (u.mapCtx s f).pendingOrder = u.pendingOrder := rfl
@[simp] theorem BayUnit.mapCtx_firstPage (u : BayUnit) (s : Slot) (f : Ctx → Ctx) : (u.mapCtx s f).firstPage = u.firstPage := rfl
@[simp] theorem BayUnit.mapCtx_currentPage (u : BayUnit) (s : Slot) (f : Ctx → Ctx) : (u.mapCtx s f).currentPage = u.currentPage := rfl
@[simp] theorem BayUnit.mapCtx_pageCount (u : BayUnit) (s : Slot) (f : Ctx → Ctx) : (u.mapCtx s f).pageCount = u.pageCount := rfl
@[simp] theorem BayUnit.mapCtx_pageSeq (u : BayUnit) (s : Slot) (f : Ctx → Ctx) : (u.mapCtx s f).pageSeq = u.pageSeq := rfl
@[simp] theorem BayUnit.mapCtx_waiting (u : BayUnit) (s : Slot) (f : Ctx → Ctx) : (u.mapCtx s f).waiting = u.waiting := rfl
@[simp] theorem BayUnit.mapCtx_pageFull (u : BayUnit) (s : Slot) (f : Ctx → Ctx) : (u.mapCtx s f).pageFull = u.pageFull := rfl
@[simp] theorem BayUnit.mapCtx_writeCount (u : BayUnit) (s : Slot) (f : Ctx → Ctx) : (u.mapCtx s f).writeCount = u.writeCount := rfl
@[simp] theorem BayUnit.mapCtx_boardChanged (u : BayUnit) (s : Slot) (f : Ctx → Ctx) : (u.mapCtx s f).boardChanged = u.boardChanged := rfl
@[simp] theorem BayUnit.mapCtx_presence (u : BayUnit) (s : Slot) (f : Ctx → Ctx) : (u.mapCtx s f).presence = u.presence := rfl
@[simp] theorem BayUnit.mapCtx_link (u : BayUnit) (s : Slot) (f : Ctx → Ctx) : (u.mapCtx s f).link = u.link := rfl
@[simp] theorem BayUnit.mapCtx_busHolder (u : BayUnit) (s : Slot) (f : Ctx → Ctx) : (u.mapCtx s f).busHolder = u.busHolder := rfl
@[simp] theorem BayUnit.mapCtx_busQueue (u : BayUnit) (s : Slot) (f : Ctx → Ctx) : (u.mapCtx s f).busQueue = u.busQueue := rfl
@[simp] theorem BayUnit.mapCtx_buffer (u : BayUnit) (s : Slot) (f : Ctx → Ctx) : (u.mapCtx s f).buffer = u.buffer := rfl
@[simp] theorem BayUnit.mapCtx_line (u : BayUnit) (s : Slot) (f : Ctx → Ctx) : (u.mapCtx s f).line = u.line := rfl
@[simp] theorem BayUnit.mapCtx_drain (u : BayUnit) (s : Slot) (f : Ctx → Ctx) : (u.mapCtx s f).drain = u.drain := rfl
@[simp] theorem BayUnit.mapCtx_fullWrites (u : BayUnit) (s : Slot) (f : Ctx → Ctx) : (u.mapCtx s f).fullWrites = u.fullWrites := rfl
@[simp] theorem BayUnit.mapCtx_busPoint (u : BayUnit) (s : Slot) (f : Ctx → Ctx) : (u.mapCtx s f).busPoint = u.busPoint := rfl
@[simp] theorem BayUnit.mapCtx_slotPoints (u : BayUnit) (s : Slot) (f : Ctx → Ctx) : (u.mapCtx s f).slotPoints = u.slotPoints := rfl

/-! ### Reading what was written -/

@[simp] theorem Part.later_todo (p : Part) (l : List Conseq) : (p.later l).todo = p.todo ++ l := rfl

@[simp] theorem Part.bay_mapBay (p : Part) (b : Bay) (f : BayUnit → BayUnit) : (p.mapBay b f).bay b = f (p.bay b) := by
  simp [Part.mapBay, Part.bay]

theorem Part.bay_mapBay_other (p : Part) (f : BayUnit → BayUnit) {b b' : Bay} (h : b ≠ b') :
    (p.mapBay b f).bay b' = p.bay b' := by
  have h' : b.val ≠ b'.val := fun e => h (Fin.ext e)
  simp [Part.mapBay, Part.bay, Vector.getElem_set_ne, h']

/-- Two changes of one bay are one change. -/
theorem Part.mapBay_mapBay (p : Part) (b : Bay) (f g : BayUnit → BayUnit) :
    (p.mapBay b f).mapBay b g = p.mapBay b (fun u => g (f u)) := by
  unfold Part.mapBay
  congr 1
  have h : (p.bays.set b (f (p.bay b)))[b] = f (p.bay b) := Vector.getElem_set_self _
  simp only [Part.bay, Fin.getElem_fin, Vector.getElem_set_self, Vector.set_set]

@[simp] theorem Part.chan_mapChan (p : Part) (c : Chan) (f : Channel → Channel) : (p.mapChan c f).chan c = f (p.chan c) := by
  simp [Part.mapChan, Part.chan]

theorem Part.chan_mapChan_other (p : Part) (f : Channel → Channel) {c c' : Chan} (h : c ≠ c') :
    (p.mapChan c f).chan c' = p.chan c' := by
  have h' : c.val ≠ c'.val := fun e => h (Fin.ext e)
  simp [Part.mapChan, Part.chan, Vector.getElem_set_ne, h']

@[simp] theorem Part.zone_mapZone (p : Part) (z : ZoneNo) (f : Zone → Zone) : (p.mapZone z f).zone z = f (p.zone z) := by
  simp [Part.mapZone, Part.zone]

theorem Part.zone_mapZone_other (p : Part) (f : Zone → Zone) {z z' : ZoneNo} (h : z ≠ z') :
    (p.mapZone z f).zone z' = p.zone z' := by
  have h' : z.val ≠ z'.val := fun e => h (Fin.ext e)
  simp [Part.mapZone, Part.zone, Vector.getElem_set_ne, h']

@[simp] theorem BayUnit.ctx_mapCtx (u : BayUnit) (s : Slot) (f : Ctx → Ctx) : (u.mapCtx s f).ctx s = f (u.ctx s) := by
  simp [BayUnit.mapCtx, BayUnit.ctx]

theorem BayUnit.ctx_mapCtx_other (u : BayUnit) (f : Ctx → Ctx) {s s' : Slot} (h : s ≠ s') :
    (u.mapCtx s f).ctx s' = u.ctx s' := by
  have h' : s.val ≠ s'.val := fun e => h (Fin.ext e)
  simp [BayUnit.mapCtx, BayUnit.ctx, Vector.getElem_set_ne, h']

@[simp] theorem Part.ctx_mapCtx (p : Part) (b : Bay) (s : Slot) (f : Ctx → Ctx) : (p.mapCtx b s f).ctx b s = f (p.ctx b s) := by
  simp [Part.mapCtx, Part.ctx]

@[simp] theorem Part.link_mapLink (p : Part) (b : Bay) (f : Link → Link) : (p.mapLink b f).link b = f (p.link b) := by
  simp [Part.mapLink, Part.link]

/-! ### Changes that agree on what they change are one change -/

theorem Part.mapBay_congr (p : Part) (b : Bay) {f g : BayUnit → BayUnit} (h : f (p.bay b) = g (p.bay b)) :
    p.mapBay b f = p.mapBay b g := by
  unfold Part.mapBay
  rw [h]

theorem Part.mapCtx_congr (p : Part) (b : Bay) (s : Slot) {f g : Ctx → Ctx} (h : f (p.ctx b s) = g (p.ctx b s)) :
    p.mapCtx b s f = p.mapCtx b s g := by
  refine Part.mapBay_congr p b ?_
  have h' : f ((p.bay b).ctx s) = g ((p.bay b).ctx s) := h
  unfold BayUnit.mapCtx
  rw [h']

theorem Part.mapLink_congr (p : Part) (b : Bay) {f g : Link → Link} (h : f (p.link b) = g (p.link b)) :
    p.mapLink b f = p.mapLink b g := by
  refine Part.mapBay_congr p b ?_
  have h' : f (p.bay b).link = g (p.bay b).link := h
  show ({ p.bay b with link := f (p.bay b).link } : BayUnit) = { p.bay b with link := g (p.bay b).link }
  rw [h']

theorem Part.mapChan_congr (p : Part) (c : Chan) {f g : Channel → Channel} (h : f (p.chan c) = g (p.chan c)) :
    p.mapChan c f = p.mapChan c g := by
  unfold Part.mapChan
  rw [h]

theorem Part.mapZone_congr (p : Part) (z : ZoneNo) {f g : Zone → Zone} (h : f (p.zone z) = g (p.zone z)) :
    p.mapZone z f = p.mapZone z g := by
  unfold Part.mapZone
  rw [h]

/-! ### Other bays and slots -/

theorem Part.bay_mapCtx_other (p : Part) (s : Slot) (f : Ctx → Ctx) {b b' : Bay} (h : b ≠ b') :
    (p.mapCtx b s f).bay b' = p.bay b' := Part.bay_mapBay_other p _ h

theorem Part.bay_mapLink_other (p : Part) (f : Link → Link) {b b' : Bay} (h : b ≠ b') :
    (p.mapLink b f).bay b' = p.bay b' := Part.bay_mapBay_other p _ h

theorem Part.ctx_mapCtx_other (p : Part) (b : Bay) (f : Ctx → Ctx) {s s' : Slot} (h : s ≠ s') :
    (p.mapCtx b s f).ctx b s' = p.ctx b s' := by
  unfold Part.mapCtx Part.ctx
  rw [Part.bay_mapBay, BayUnit.ctx_mapCtx_other _ _ h]

@[simp] theorem Part.ctx_mapWork (p : Part) (b : Bay) (s : Slot) (f : Work → Work) :
    (p.mapWork b s f).ctx b s = (p.ctx b s).mapWork f := Part.ctx_mapCtx p b s _

@[simp] theorem Part.ctx_mapLink (p : Part) (b : Bay) (f : Link → Link) (b' : Bay) (s : Slot) :
    (p.mapLink b f).ctx b' s = p.ctx b' s := by
  unfold Part.ctx
  by_cases h : b = b'
  · subst h
    unfold Part.mapLink
    rw [Part.bay_mapBay]
    rfl
  · rw [Part.bay_mapLink_other p f h]

@[simp] theorem Part.link_mapCtx (p : Part) (b : Bay) (s : Slot) (f : Ctx → Ctx) (b' : Bay) :
    (p.mapCtx b s f).link b' = p.link b' := by
  unfold Part.link
  by_cases h : b = b'
  · subst h
    unfold Part.mapCtx
    rw [Part.bay_mapBay]
    rfl
  · rw [Part.bay_mapCtx_other p s f h]

theorem Part.later_later (p : Part) (a b : List Conseq) : (p.later a).later b = p.later (a ++ b) := by
  unfold Part.later
  simp

end Sys2Proof.Machine
end

