-- ==== Sys2Proof/Laws/Grants.lean ====
section
/-! SUPPORT. The tables of the Stimulus Arbiter (R95 to R105): what each of its operations does to them, and that each keeps them in
agreement (`Part.GrantsAgree`). -/

namespace Sys2Proof.Machine

/-! ### What the tables are -/

/-- The arbiter's tables: owners and connected bays of the channels, bus holders, bus-lock queues, the channel grant queue. -/
@[ext] structure Tables where
  owner : Chan → Option (Bay × Slot)
  conn : Chan → Option Bay
  holder : Bay → Option Slot
  waits : Bay → List BusEntry
  queue : List ChanEntry

/-- The tables of the part. -/
def Part.tables (p : Part) : Tables :=
  ⟨fun c => (p.chan c).owner, fun c => (p.chan c).bay, fun b => (p.bay b).busHolder, fun b => (p.bay b).busQueue, p.chanQueue⟩

/-- The tables agree, but that bay `b` may be free with entries in its bus-lock queue. -/
def Tables.AgreeBut (t : Tables) (b : Option Bay) : Prop :=
  (∀ c, t.conn c = (t.owner c).map Prod.fst) ∧
  (∀ c b x, t.owner c = some (b, x) → t.holder b = some x) ∧
  (∀ c d b x y, t.owner c = some (b, x) → t.owner d = some (b, y) → c = d) ∧
  (∀ e ∈ t.queue, t.holder e.bay = some e.slot ∧ ∀ c x, t.owner c ≠ some (e.bay, x)) ∧
  (t.queue.map ChanEntry.bay).Nodup ∧
  (∀ b', b ≠ some b' → t.holder b' = none → t.waits b' = [])

theorem Part.grantsAgree_iff (p : Part) : p.GrantsAgree ↔ p.tables.AgreeBut none := by
  unfold Part.GrantsAgree Tables.AgreeBut
  simp only [ne_eq, reduceCtorEq, not_false_eq_true, true_implies]
  rfl

/-- The fields of a bay that the arbiter does not change, as far as they matter to an invariant. -/
def BayUnit.rest (u : BayUnit) : List Record × List LineEntry × Link := (u.buffer, u.line, u.link)

/-- Whose a channel is. -/
def Channel.grant (c : Channel) : Option (Bay × Slot) × Option Bay := (c.owner, c.bay)

/-! ### What changes of the part do to the tables -/

theorem Part.tables_mapBay (p : Part) (b : Bay) (f : BayUnit → BayUnit) :
    (p.mapBay b f).tables = { p.tables with
      holder := fun b' => if b' = b then (f (p.bay b)).busHolder else p.tables.holder b'
      waits := fun b' => if b' = b then (f (p.bay b)).busQueue else p.tables.waits b' } := by
  unfold Part.tables
  congr 1
  · funext b'
    by_cases h : b' = b
    · subst h
      simp
    · simp only [if_neg h]
      rw [Part.bay_mapBay_other _ _ (fun e => h e.symm)]
  · funext b'
    by_cases h : b' = b
    · subst h
      simp
    · simp only [if_neg h]
      rw [Part.bay_mapBay_other _ _ (fun e => h e.symm)]

theorem Part.tables_mapBay_same (p : Part) (b : Bay) (f : BayUnit → BayUnit)
    (hh : (f (p.bay b)).busHolder = (p.bay b).busHolder) (hq : (f (p.bay b)).busQueue = (p.bay b).busQueue) :
    (p.mapBay b f).tables = p.tables := by
  rw [Part.tables_mapBay, hh, hq]
  refine Tables.ext rfl rfl (funext fun b' => ?_) (funext fun b' => ?_) rfl
  · dsimp only
    split
    · rename_i h
      subst h
      rfl
    · rfl
  · dsimp only
    split
    · rename_i h
      subst h
      rfl
    · rfl

theorem Part.tables_mapCtx (p : Part) (b : Bay) (s : Slot) (f : Ctx → Ctx) : (p.mapCtx b s f).tables = p.tables :=
  Part.tables_mapBay_same p b _ rfl rfl

theorem Part.tables_mapChan (p : Part) (c : Chan) (f : Channel → Channel) :
    (p.mapChan c f).tables = { p.tables with
      owner := fun c' => if c' = c then (f (p.chan c)).owner else p.tables.owner c'
      conn := fun c' => if c' = c then (f (p.chan c)).bay else p.tables.conn c' } := by
  unfold Part.tables
  congr 1
  · funext c'
    by_cases h : c' = c
    · subst h
      simp
    · simp only [if_neg h]
      rw [Part.chan_mapChan_other _ _ (fun e => h e.symm)]
  · funext c'
    by_cases h : c' = c
    · subst h
      simp
    · simp only [if_neg h]
      rw [Part.chan_mapChan_other _ _ (fun e => h e.symm)]

theorem Part.tables_mapChan_same (p : Part) (c : Chan) (f : Channel → Channel) (h : (f (p.chan c)).grant = (p.chan c).grant) :
    (p.mapChan c f).tables = p.tables := by
  rw [Part.tables_mapChan]
  obtain ⟨h1, h2⟩ := Prod.mk.inj h
  rw [h1, h2]
  refine Tables.ext (funext fun c' => ?_) (funext fun c' => ?_) rfl rfl rfl
  · dsimp only
    split
    · rename_i h
      subst h
      rfl
    · rfl
  · dsimp only
    split
    · rename_i h
      subst h
      rfl
    · rfl

/-! ### The operations keep the tables in agreement -/

theorem placeEntry_perm {α : Type} (marked : α → Bool) (e : α) (l : List α) : (placeEntry marked e l).Perm (e :: l) := by
  unfold placeEntry
  split
  · extract_lets n
    refine (List.perm_middle).trans ?_
    rw [List.take_append_drop]
  · exact List.perm_append_singleton e l

theorem Tables.AgreeBut.grantChan {t : Tables} {o : Option Bay} (h : t.AgreeBut o) {b : Bay} {s : Slot} {c : Chan}
    (hs : t.holder b = some s) (hb : ∀ c x, t.owner c ≠ some (b, x)) (hq : ∀ e ∈ t.queue, e.bay ≠ b) :
    Tables.AgreeBut { t with
      owner := fun c' => if c' = c then some (b, s) else t.owner c'
      conn := fun c' => if c' = c then some b else t.conn c' } o := by
  obtain ⟨h1, h2, h3, h4, h5, h6⟩ := h
  refine ⟨?_, ?_, ?_, ?_, h5, h6⟩
  · intro c'
    dsimp only
    split
    · rfl
    · exact h1 c'
  · intro c' b' x hx
    dsimp only at hx
    split at hx
    · obtain ⟨rfl, rfl⟩ := Prod.mk.inj (Option.some.inj hx)
      exact hs
    · exact h2 c' b' x hx
  · intro c1 c2 b' x y hx hy
    dsimp only at hx hy
    split at hx
    · obtain ⟨rfl, rfl⟩ := Prod.mk.inj (Option.some.inj hx)
      split at hy
      · simp_all
      · exact absurd hy (hb _ _)
    · split at hy
      · obtain ⟨rfl, rfl⟩ := Prod.mk.inj (Option.some.inj hy)
        exact absurd hx (hb _ _)
      · exact h3 c1 c2 b' x y hx hy
  · intro e he
    refine ⟨(h4 e he).1, fun c' x hx => ?_⟩
    dsimp only at hx
    split at hx
    · exact hq e he (Prod.mk.inj (Option.some.inj hx)).1.symm
    · exact (h4 e he).2 c' x hx

theorem Part.tables_setPhase (p : Part) (b : Bay) (s : Slot) (ph : Phase) : (p.setPhase b s ph).tables = p.tables :=
  Part.tables_mapCtx p b s _

theorem Part.tables_grantChan (p : Part) (b : Bay) (s : Slot) (c : Chan) :
    (p.grantChan b s c).tables = { p.tables with
      owner := fun c' => if c' = c then some (b, s) else p.tables.owner c'
      conn := fun c' => if c' = c then some b else p.tables.conn c' } := by
  unfold Part.grantChan
  rw [Part.tables_setPhase, Part.tables_mapChan]
  rfl

theorem Part.requestChan_agree {p : Part} {o : Option Bay} (h : p.tables.AgreeBut o) {b : Bay} {s : Slot}
    (hs : p.tables.holder b = some s) (hb : ∀ c x, p.tables.owner c ≠ some (b, x)) (hq : ∀ e ∈ p.chanQueue, e.bay ≠ b) :
    (p.requestChan b s).tables.AgreeBut o := by
  unfold Part.requestChan
  split
  · rw [Part.tables_grantChan]
    exact h.grantChan hs hb hq
  · obtain ⟨h1, h2, h3, h4, h5, h6⟩ := h
    refine ⟨h1, h2, h3, ?_, ?_, h6⟩
    · intro e he
      have he' : e ∈ placeEntry ChanEntry.plateau ⟨b, s, p.plateauRequest b s⟩ p.chanQueue := he
      rw [(placeEntry_perm _ _ _).mem_iff, List.mem_cons] at he'
      rcases he' with rfl | he'
      · exact ⟨hs, hb⟩
      · exact h4 e he'
    · change ((placeEntry ChanEntry.plateau ⟨b, s, p.plateauRequest b s⟩ p.chanQueue).map ChanEntry.bay).Nodup
      rw [((placeEntry_perm _ _ _).map ChanEntry.bay).nodup_iff]
      simp only [List.map_cons, List.nodup_cons, List.mem_map, not_exists, not_and]
      exact ⟨fun e he hb => hq e he hb, h5⟩

theorem Part.grantBus_agree {p : Part} {b : Bay} {s : Slot} (h : p.tables.AgreeBut (some b))
    (hb : ∀ c x, p.tables.owner c ≠ some (b, x)) (hq : ∀ e ∈ p.chanQueue, e.bay ≠ b) :
    (p.grantBus b s).GrantsAgree := by
  rw [Part.grantsAgree_iff]
  unfold Part.grantBus
  have ht : ((p.mapBay b (fun u => { u with busHolder := some s })).setPhase b s .channelWait).tables =
      { p.tables with holder := fun b' => if b' = b then some s else p.tables.holder b' } := by
    rw [Part.tables_setPhase, Part.tables_mapBay]
    refine Tables.ext rfl rfl rfl (funext fun b' => ?_) rfl
    dsimp only
    split
    · rename_i hb'
      subst hb'
      rfl
    · rfl
  apply Part.requestChan_agree
  · rw [ht]
    obtain ⟨h1, h2, h3, h4, h5, h6⟩ := h
    refine ⟨h1, ?_, h3, ?_, h5, ?_⟩
    · intro c b' x hx
      dsimp only
      split
      · rename_i hb'
        subst hb'
        exact absurd hx (hb _ _)
      · exact h2 c b' x hx
    · intro e he
      refine ⟨?_, (h4 e he).2⟩
      dsimp only
      rw [if_neg (hq e he)]
      exact (h4 e he).1
    · intro b' _ hn
      dsimp only at hn
      split at hn
      · exact absurd hn (by simp)
      · rename_i hb'
        exact h6 b' (fun e => hb' (Option.some.inj e).symm) hn
  · rw [ht]
    simp
  · rw [ht]
    exact hb
  · exact hq

theorem Part.GrantsAgree.requestBus {p : Part} (h : p.GrantsAgree) (b : Bay) (s : Slot) : (p.requestBus b s).GrantsAgree := by
  unfold Part.requestBus
  extract_lets q
  have hq : q.tables = p.tables := Part.tables_setPhase _ _ _ _
  rw [Part.grantsAgree_iff, ← hq] at h
  clear_value q
  obtain ⟨h1, h2, h3, h4, h5, h6⟩ := h
  split
  · rename_i hn
    apply Part.grantBus_agree
    · exact ⟨h1, h2, h3, h4, h5, fun b' _ => h6 b' (by simp)⟩
    · intro c x hc
      exact absurd (hn.symm.trans (h2 c b x hc)) (by simp)
    · intro e he hb
      subst hb
      exact absurd (hn.symm.trans (h4 e he).1) (by simp)
  · rename_i x hn
    rw [Part.grantsAgree_iff, Part.tables_mapBay]
    refine ⟨h1, ?_, h3, ?_, h5, ?_⟩
    · intro c b' y hy
      have := h2 c b' y hy
      dsimp only
      split
      · rename_i hb
        subst hb
        exact this
      · exact this
    · intro e he
      refine ⟨?_, (h4 e he).2⟩
      have := (h4 e he).1
      dsimp only
      split
      · rename_i hb
        rw [hb] at this
        exact this
      · exact this
    · intro b' _ hb'
      dsimp only at hb' ⊢
      split
      · rename_i hb
        subst hb
        rw [if_pos rfl] at hb'
        exact absurd (hn.symm.trans hb') (by simp)
      · rename_i hb
        rw [if_neg hb] at hb'
        exact h6 b' (by simp) hb'

/-- What an acceptable release of a bus finds: nothing granted or asked for in the bay. -/
theorem Part.mayReleaseBus_iff (p : Part) (b : Bay) :
    p.mayReleaseBus b = true ↔ (∀ c x, p.tables.owner c ≠ some (b, x)) ∧ ∀ e ∈ p.chanQueue, e.bay ≠ b := by
  unfold Part.mayReleaseBus Part.connected
  simp only [Bool.and_eq_true, Option.isNone_iff_eq_none, List.find?_eq_none, List.all_eq_true, bne_iff_ne, ne_eq]
  refine and_congr_left' ⟨fun h c x hc => ?_, fun h c _ => ?_⟩
  · have hm : ∀ c : Chan, c ∈ allChans := by decide
    have := h c (hm c)
    have hc' : (p.chan c).owner = some (b, x) := hc
    rw [hc'] at this
    simp at this
  · split
    · rename_i b' x hx
      intro hb
      rw [beq_iff_eq] at hb
      subst hb
      exact h c x hx
    · simp

theorem Part.GrantsAgree.releaseBus {p : Part} (h : p.GrantsAgree) (b : Bay) : (p.releaseBus b).GrantsAgree := by
  unfold Part.releaseBus
  split
  · rename_i hm
    rw [Part.mayReleaseBus_iff] at hm
    rw [Part.grantsAgree_iff] at h
    obtain ⟨h1, h2, h3, h4, h5, h6⟩ := h
    have key : ∀ l : List BusEntry,
        (p.mapBay b (fun u => { u with busHolder := none, busQueue := l })).tables.AgreeBut (some b) ∧
        (l = [] → (p.mapBay b (fun u => { u with busHolder := none, busQueue := l })).tables.AgreeBut none) := by
      intro l
      rw [Part.tables_mapBay]
      have hw : ∀ b', b' ≠ b → (if b' = b then (none : Option Slot) else p.tables.holder b') = none →
          (if b' = b then l else p.tables.waits b') = [] := by
        intro b' hb hn
        rw [if_neg hb] at hn ⊢
        exact h6 b' (by simp) hn
      have h2' : ∀ c b' x, p.tables.owner c = some (b', x) →
          (if b' = b then (none : Option Slot) else p.tables.holder b') = some x := by
        intro c b' x hx
        split
        · rename_i hb
          subst hb
          exact absurd hx (hm.1 _ _)
        · exact h2 c b' x hx
      have h4' : ∀ e ∈ p.tables.queue, (if e.bay = b then (none : Option Slot) else p.tables.holder e.bay) = some e.slot ∧
          ∀ c x, p.tables.owner c ≠ some (e.bay, x) := by
        intro e he
        refine ⟨?_, (h4 e he).2⟩
        rw [if_neg (hm.2 e he)]
        exact (h4 e he).1
      refine ⟨⟨h1, h2', h3, h4', h5, fun b' hb => hw b' (fun e => hb (by rw [e]))⟩, fun hl =>
        ⟨h1, h2', h3, h4', h5, fun b' _ hn => ?_⟩⟩
      by_cases hb : b' = b
      · subst hb
        simp only [if_true]
        exact hl
      · exact hw b' hb hn
    split
    · rename_i hn
      rw [Part.grantsAgree_iff]
      have := (key []).2 rfl
      rw [Part.tables_mapBay] at this ⊢
      simpa [hn] using this
    · rename_i e q hn
      refine Part.grantBus_agree (key q).1 ?_ hm.2
      rw [Part.tables_mapBay]
      exact hm.1
  · exact h

theorem Part.GrantsAgree.releaseChan {p : Part} (h : p.GrantsAgree) (c : Chan) : (p.releaseChan c).GrantsAgree := by
  unfold Part.releaseChan
  extract_lets q
  have hq : q.tables = { p.tables with
      owner := fun c' => if c' = c then none else p.tables.owner c'
      conn := fun c' => if c' = c then none else p.tables.conn c' } := by
    unfold q
    rw [Part.tables_mapChan]
    rfl
  have h0 : q.tables.AgreeBut none := by
    rw [Part.grantsAgree_iff] at h
    rw [hq]
    obtain ⟨h1, h2, h3, h4, h5, h6⟩ := h
    refine ⟨?_, ?_, ?_, ?_, h5, h6⟩
    · intro c'
      dsimp only
      split
      · rfl
      · exact h1 c'
    · intro c' b x hx
      dsimp only at hx
      split at hx
      · exact absurd hx (by simp)
      · exact h2 c' b x hx
    · intro c1 c2 b x y hx hy
      dsimp only at hx hy
      split at hx
      · exact absurd hx (by simp)
      · split at hy
        · exact absurd hy (by simp)
        · exact h3 c1 c2 b x y hx hy
    · intro e he
      refine ⟨(h4 e he).1, fun c' x hx => ?_⟩
      dsimp only at hx
      split at hx
      · exact absurd hx (by simp)
      · exact (h4 e he).2 c' x hx
  clear_value q
  split
  · exact (Part.grantsAgree_iff q).mpr h0
  · rename_i e l hl
    have hl' : q.tables.queue = e :: l := hl
    rw [Part.grantsAgree_iff, Part.tables_grantChan]
    obtain ⟨h1, h2, h3, h4, h5, h6⟩ := h0
    rw [hl'] at h4 h5
    simp only [List.map_cons, List.nodup_cons, List.mem_map, not_exists, not_and] at h5
    have hb : Tables.AgreeBut ({ q with chanQueue := l } : Part).tables none :=
      ⟨h1, h2, h3, fun e' he' => h4 e' (List.mem_cons_of_mem _ he'), h5.2, h6⟩
    exact hb.grantChan (h4 e List.mem_cons_self).1 (h4 e List.mem_cons_self).2 (fun e' he' hb => h5.1 e' he' hb)

/-- Fewer entries in the queues agree. -/
theorem Tables.AgreeBut.fewer {t u : Tables} (h : t.AgreeBut none) (ho : u.owner = t.owner) (hc : u.conn = t.conn)
    (hh : u.holder = t.holder) (hw : ∀ b, t.waits b = [] → u.waits b = []) (hq : u.queue.Sublist t.queue) : u.AgreeBut none := by
  obtain ⟨h1, h2, h3, h4, h5, h6⟩ := h
  unfold Tables.AgreeBut
  rw [ho, hc, hh]
  exact ⟨h1, h2, h3, fun e he => h4 e (hq.subset he), h5.sublist (hq.map _), fun b hb hn => hw b (h6 b hb hn)⟩

theorem Part.GrantsAgree.leaveBusQueue {p : Part} (h : p.GrantsAgree) (b : Bay) (s : Slot) : (p.leaveBusQueue b s).GrantsAgree := by
  rw [Part.grantsAgree_iff] at h ⊢
  unfold Part.leaveBusQueue
  rw [Part.tables_mapBay]
  refine h.fewer rfl rfl ?_ ?_ (List.Sublist.refl _)
  · funext b'
    dsimp only
    split
    · rename_i hb
      subst hb
      rfl
    · rfl
  · intro b' hb'
    dsimp only
    split
    · rename_i hb
      subst hb
      have : (p.bay b').busQueue = [] := hb'
      rw [this]
      rfl
    · exact hb'

theorem Part.GrantsAgree.leaveChanQueue {p : Part} (h : p.GrantsAgree) (b : Bay) (s : Slot) :
    (p.leaveChanQueue b s).GrantsAgree := by
  rw [Part.grantsAgree_iff] at h ⊢
  exact h.fewer rfl rfl rfl (fun _ h => h) List.filter_sublist

theorem Part.GrantsAgree.clearQueues {p : Part} (h : p.GrantsAgree) (b : Bay) : (p.clearQueues b).GrantsAgree := by
  rw [Part.grantsAgree_iff] at h ⊢
  have ht : (p.clearQueues b).tables =
      { (p.mapBay b (fun u => { u with busQueue := [] })).tables with queue := p.chanQueue.filter (fun e => e.bay != b) } := rfl
  rw [ht, Part.tables_mapBay]
  refine h.fewer rfl rfl ?_ ?_ List.filter_sublist
  · funext b'
    dsimp only
    split
    · rename_i hb
      subst hb
      rfl
    · rfl
  · intro b' hb'
    dsimp only
    split
    · rfl
    · exact hb'

theorem Channel.withoutBay_grant (b : Bay) (c : Channel) :
    (c.withoutBay b).owner = (match c.owner with
      | some (b', x) => if b' = b then none else some (b', x)
      | none => none) ∧
    (c.bay = c.owner.map Prod.fst → (c.withoutBay b).bay = (c.withoutBay b).owner.map Prod.fst) := by
  unfold Channel.withoutBay
  rcases ho : c.owner with _ | ⟨b', x⟩
  · exact ⟨ho, fun h => by rw [ho]; exact h⟩
  · dsimp only
    split
    · exact ⟨rfl, fun _ => rfl⟩
    · exact ⟨ho, fun h => by rw [ho]; exact h⟩

theorem Channel.withoutBay_quiet {b : Bay} {c : Channel} (h : c.Quiet) : (c.withoutBay b).Quiet := by
  unfold Channel.withoutBay
  split
  · split
    · exact h
    · exact h
  · exact h

theorem Part.chan_clearGrants (p : Part) (b : Bay) (c : Chan) : (p.clearGrants b).chan c = (p.chan c).withoutBay b := by
  revert c
  unfold Part.clearGrants Part.chan tab4
  intro c
  match c with
  | 0 => rfl
  | 1 => rfl
  | 2 => rfl
  | 3 => rfl

/-- A bay that is free of the bus and of queue entries, and whose grants are cleared, agrees. -/
theorem Part.GrantsAgree.emptied {p : Part} (h : p.GrantsAgree) (b : Bay) (f : BayUnit → BayUnit)
    (hf : (f (p.bay b)).busHolder = none ∧ (f (p.bay b)).busQueue = []) : ((p.mapBay b f).clearGrants b).GrantsAgree := by
  rw [Part.grantsAgree_iff] at h ⊢
  obtain ⟨h1, h2, h3, h4, h5, h6⟩ := h
  have ho : ∀ c, ((p.mapBay b f).clearGrants b).tables.owner c = (match p.tables.owner c with
      | some (b', x) => if b' = b then none else some (b', x)
      | none => none) := fun c => by
    change (((p.mapBay b f).clearGrants b).chan c).owner = _
    rw [Part.chan_clearGrants]
    exact (Channel.withoutBay_grant b (p.chan c)).1
  have hsome : ∀ c b' x, ((p.mapBay b f).clearGrants b).tables.owner c = some (b', x) →
      p.tables.owner c = some (b', x) ∧ b' ≠ b := by
    intro c b' x hx
    rw [ho] at hx
    rcases hc : p.tables.owner c with _ | ⟨b'', y⟩
    · rw [hc] at hx
      exact absurd hx (by simp)
    · rw [hc] at hx
      dsimp only at hx
      split at hx
      · exact absurd hx (by simp)
      · rename_i hb
        obtain ⟨rfl, rfl⟩ := Prod.mk.inj (Option.some.inj hx)
        exact ⟨rfl, hb⟩
  have hh : ((p.mapBay b f).clearGrants b).tables.holder = fun b' => if b' = b then none else p.tables.holder b' := by
    change (p.mapBay b f).tables.holder = _
    rw [Part.tables_mapBay, hf.1]
  have hw : ((p.mapBay b f).clearGrants b).tables.waits = fun b' => if b' = b then [] else p.tables.waits b' := by
    change (p.mapBay b f).tables.waits = _
    rw [Part.tables_mapBay, hf.2]
  have hq : ((p.mapBay b f).clearGrants b).tables.queue = p.tables.queue.filter (fun e => e.bay != b) := rfl
  refine ⟨?_, ?_, ?_, ?_, ?_, ?_⟩
  · intro c
    change (((p.mapBay b f).clearGrants b).chan c).bay = (((p.mapBay b f).clearGrants b).chan c).owner.map Prod.fst
    rw [Part.chan_clearGrants]
    exact (Channel.withoutBay_grant b (p.chan c)).2 (h1 c)
  · intro c b' x hx
    obtain ⟨hx, hb⟩ := hsome c b' x hx
    rw [hh]
    simp only [if_neg hb]
    exact h2 c b' x hx
  · intro c d b' x y hx hy
    exact h3 c d b' x y (hsome c b' x hx).1 (hsome d b' y hy).1
  · intro e he
    rw [hq, List.mem_filter, bne_iff_ne] at he
    rw [hh]
    simp only [if_neg he.2]
    exact ⟨(h4 e he.1).1, fun c x hx => (h4 e he.1).2 c x (hsome c _ x hx).1⟩
  · rw [hq]
    exact h5.sublist (List.filter_sublist.map _)
  · intro b' _ hn
    rw [hh] at hn
    rw [hw]
    dsimp only at hn ⊢
    split
    · rfl
    · rename_i hb
      rw [if_neg hb] at hn
      exact h6 b' (by simp) hn

/-- The fields of the part that no consequence touches. -/
structure Still where
  phase : PartState
  attempt : Bool
  staleReads : Nat
  sweepCode : BitVec 2
  headRejected : Bool
  headCause : Option HeadCause
  haltCause : Option FailedAccess
  bookLo : Word
  bookHi : Word
  enableSet : BitVec 7
  settings : Option Settings
  slotTags : Vector Half 16
  planEnter : Option PlanEnter
  dir : Directory
  cursor : Nat
  seconds : Nat
  fraction : Nat
  trusted : Bool
  tick : Nat
  samples : Nat

/-- The fields of the part that no consequence touches. -/
def Part.still (p : Part) : Still :=
  ⟨p.phase, p.attempt, p.staleReads, p.sweepCode, p.headRejected, p.headCause, p.haltCause, p.bookLo, p.bookHi, p.enableSet,
    p.settings, p.slotTags, p.planEnter, p.dir, p.cursor, p.seconds, p.fraction, p.trusted, p.tick, p.samples⟩

/-! ### The operations change only what the tables hold, and contexts -/

/-- What the arbiter's operations leave of the part. -/
def Part.ArbiterOnly (p q : Part) : Prop :=
  (∀ b, (p.bay b).rest = (q.bay b).rest) ∧ (∀ c, (p.chan c).Quiet → (q.chan c).Quiet) ∧ p.still = q.still

theorem Part.ArbiterOnly.refl (p : Part) : p.ArbiterOnly p := ⟨fun _ => rfl, fun _ h => h, rfl⟩

theorem Part.ArbiterOnly.trans {p q r : Part} (h : p.ArbiterOnly q) (k : q.ArbiterOnly r) : p.ArbiterOnly r :=
  ⟨fun b => (h.1 b).trans (k.1 b), fun c hc => k.2.1 c (h.2.1 c hc), h.2.2.trans k.2.2⟩

theorem Part.ArbiterOnly.mapBay (p : Part) (b : Bay) (f : BayUnit → BayUnit) (hf : (f (p.bay b)).rest = (p.bay b).rest) :
    p.ArbiterOnly (p.mapBay b f) := by
  refine ⟨fun b' => ?_, fun _ h => h, rfl⟩
  by_cases hb : b = b'
  · subst hb
    rw [Part.bay_mapBay, hf]
  · rw [Part.bay_mapBay_other _ _ hb]

theorem Part.ArbiterOnly.mapChan (p : Part) (c : Chan) (f : Channel → Channel) (hf : (p.chan c).Quiet → (f (p.chan c)).Quiet) :
    p.ArbiterOnly (p.mapChan c f) := by
  refine ⟨fun _ => rfl, fun c' h => ?_, rfl⟩
  by_cases hc : c = c'
  · subst hc
    rw [Part.chan_mapChan]
    exact hf h
  · rw [Part.chan_mapChan_other _ _ hc]
    exact h

theorem Part.ArbiterOnly.setPhase (p : Part) (b : Bay) (s : Slot) (ph : Phase) : p.ArbiterOnly (p.setPhase b s ph) :=
  Part.ArbiterOnly.mapBay p b _ rfl

theorem Part.ArbiterOnly.grantChan (p : Part) (b : Bay) (s : Slot) (c : Chan) : p.ArbiterOnly (p.grantChan b s c) :=
  (Part.ArbiterOnly.mapChan p c _ (fun _ => .inr rfl)).trans (Part.ArbiterOnly.setPhase _ _ _ _)

theorem Part.ArbiterOnly.requestChan (p : Part) (b : Bay) (s : Slot) : p.ArbiterOnly (p.requestChan b s) := by
  unfold Part.requestChan
  split
  · exact Part.ArbiterOnly.grantChan _ _ _ _
  · exact ⟨fun _ => rfl, fun _ h => h, rfl⟩

theorem Part.ArbiterOnly.grantBus (p : Part) (b : Bay) (s : Slot) : p.ArbiterOnly (p.grantBus b s) :=
  ((Part.ArbiterOnly.mapBay p b (fun u => { u with busHolder := some s }) rfl).trans (Part.ArbiterOnly.setPhase _ _ _ _)).trans
    (Part.ArbiterOnly.requestChan _ _ _)

theorem Part.ArbiterOnly.requestBus (p : Part) (b : Bay) (s : Slot) : p.ArbiterOnly (p.requestBus b s) := by
  unfold Part.requestBus
  extract_lets q
  have hq : p.ArbiterOnly q := Part.ArbiterOnly.setPhase _ _ _ _
  split
  · exact hq.trans (Part.ArbiterOnly.grantBus _ _ _)
  · exact hq.trans (Part.ArbiterOnly.mapBay _ _ _ rfl)

theorem Part.ArbiterOnly.releaseBus (p : Part) (b : Bay) : p.ArbiterOnly (p.releaseBus b) := by
  unfold Part.releaseBus
  split
  · split
    · exact Part.ArbiterOnly.mapBay _ _ _ rfl
    · rename_i e q _
      exact (Part.ArbiterOnly.mapBay p b (fun u => { u with busHolder := none, busQueue := q }) rfl).trans
        (Part.ArbiterOnly.grantBus _ _ _)
  · exact Part.ArbiterOnly.refl p

theorem Part.ArbiterOnly.releaseChan (p : Part) (c : Chan) : p.ArbiterOnly (p.releaseChan c) := by
  unfold Part.releaseChan
  extract_lets q
  have hq : p.ArbiterOnly q := Part.ArbiterOnly.mapChan p c _ (fun h => h)
  split
  · exact hq
  · rename_i e l _
    have hl : q.ArbiterOnly { q with chanQueue := l } := ⟨fun _ => rfl, fun _ h => h, rfl⟩
    exact (hq.trans hl).trans (Part.ArbiterOnly.grantChan _ _ _ _)

theorem Part.ArbiterOnly.leaveBusQueue (p : Part) (b : Bay) (s : Slot) : p.ArbiterOnly (p.leaveBusQueue b s) :=
  Part.ArbiterOnly.mapBay p b _ rfl

theorem Part.ArbiterOnly.leaveChanQueue (p : Part) (b : Bay) (s : Slot) : p.ArbiterOnly (p.leaveChanQueue b s) :=
  ⟨fun _ => rfl, fun _ h => h, rfl⟩

theorem Part.ArbiterOnly.clearQueues (p : Part) (b : Bay) : p.ArbiterOnly (p.clearQueues b) := by
  have h := Part.ArbiterOnly.mapBay p b (fun u => { u with busQueue := [] }) rfl
  exact ⟨h.1, h.2.1, h.2.2⟩

theorem Part.ArbiterOnly.clearGrants (p : Part) (b : Bay) : p.ArbiterOnly (p.clearGrants b) := by
  refine ⟨fun _ => rfl, fun c h => ?_, rfl⟩
  rw [Part.chan_clearGrants]
  exact Channel.withoutBay_quiet h

/-! ### The channel's own operations leave whose it is -/

theorem Channel.drop_grant (c : Channel) : c.drop.grant = c.grant := by
  unfold Channel.drop
  split <;> rfl

theorem Channel.unload_grant (c : Channel) : c.unload.1.grant = c.grant := by
  unfold Channel.unload
  split
  · split
    · rfl
    · rfl
    · rfl
    · split <;> rfl
  · rfl

theorem Channel.halt_grant (now : Nat) (c : Channel) : (c.halt now).grant = c.grant := by
  unfold Channel.halt
  split
  · exact Channel.drop_grant c
  · exact Channel.drop_grant c

theorem Channel.holdLevel_grant (v : Nat) (c : Channel) : (c.holdLevel v).grant = c.grant := by
  unfold Channel.holdLevel
  split <;> rfl

theorem Channel.startRamp_grant (a b d e : Nat) (c : Channel) : (c.startRamp a b d e).grant = c.grant := by
  unfold Channel.startRamp
  split <;> rfl

theorem Channel.rampStep_grant (c : Channel) : c.rampStep.grant = c.grant := by
  unfold Channel.rampStep
  split
  · dsimp only
    split <;> rfl
  · rfl

/-- What a change of a channel must keep, by the lemmas above or because it does not touch it. -/
theorem Channel.grant_map {c d : Channel} (ho : d.owner = c.owner) (hb : d.bay = c.bay) : d.grant = c.grant := by
  unfold Channel.grant
  rw [ho, hb]

theorem Channel.sample_grant (n : Chan) (x : Samples) (number : Nat) (c : Channel) :
    (c.sample n x number).grant = c.grant := by
  unfold Channel.sample
  split <;> rfl

end Sys2Proof.Machine
end

