-- ==== Sys2Proof/Laws/Closed.lean ====
section
/-! SUPPORT. What the consequences of a command can do to the part, said once: a property of the part that the few basic changes keep
(`Closed`) is kept by every consequence and by everything that a command owes (`Closed.settle`). -/

namespace Sys2Proof.Machine

/-- A property of the part that the basic changes keep. -/
structure Closed (P : Part → Prop) : Prop where
  /-- it depends on the bays, the channels, the channel grant queue and the still fields alone -/
  rest : ∀ p q : Part, p.bays = q.bays → p.chans = q.chans → p.chanQueue = q.chanQueue → p.still = q.still → P p → P q
  /-- it does not look into a bay but for its buffer, entry line, link and bus -/
  bay : ∀ (p : Part) (b : Bay) (f : BayUnit → BayUnit),
    (∀ u : BayUnit, (f u).buffer = u.buffer ∧ (f u).line = u.line ∧ (f u).link = u.link ∧ (f u).busHolder = u.busHolder ∧
      (f u).busQueue = u.busQueue) → P p → P (p.mapBay b f)
  /-- it is kept by a change of a bay that keeps its buffer in order -/
  buffer : ∀ (p : Part) (b : Bay) (f : BayUnit → BayUnit),
    ((p.bay b).BufferOk → (f (p.bay b)).BufferOk) → (f (p.bay b)).link = (p.bay b).link ∧
      (f (p.bay b)).busHolder = (p.bay b).busHolder ∧ (f (p.bay b)).busQueue = (p.bay b).busQueue → P p → P (p.mapBay b f)
  /-- it is kept by a change of a link that keeps its queue in order -/
  link : ∀ (p : Part) (b : Bay) (f : Link → Link),
    ((p.link b).QueueOk → (f (p.link b)).QueueOk) → P p → P (p.mapLink b f)
  /-- it is kept by a change of a channel that keeps it quiet, and whose it is -/
  owned : ∀ (p : Part) (c : Chan) (f : Channel → Channel),
    ((p.chan c).Quiet → (f (p.chan c)).Quiet) → (f (p.chan c)).grant = (p.chan c).grant → P p → P (p.mapChan c f)
  /-- it is kept by a change of the arbiter's tables that keeps them in agreement -/
  arbiter : ∀ p q : Part, p.ArbiterOnly q → (p.GrantsAgree → q.GrantsAgree) → P p → P q

namespace Closed

variable {P : Part → Prop}

theorem chan (h : Closed P) (p : Part) (c : Chan) (f : Channel → Channel) (hq : (p.chan c).Quiet → (f (p.chan c)).Quiet)
    (hp : P p) (hg : (f (p.chan c)).grant = (p.chan c).grant := by rfl) : P (p.mapChan c f) := h.owned p c f hq hg hp

theorem ctx (h : Closed P) (p : Part) (b : Bay) (s : Slot) (f : Ctx → Ctx) (hp : P p) : P (p.mapCtx b s f) :=
  h.bay p b _ (fun _ => ⟨rfl, rfl, rfl, rfl, rfl⟩) hp

theorem work (h : Closed P) (p : Part) (b : Bay) (s : Slot) (f : Work → Work) (hp : P p) : P (p.mapWork b s f) :=
  h.ctx p b s _ hp

theorem zone (h : Closed P) (p : Part) (z : ZoneNo) (f : Zone → Zone) (hp : P p) : P (p.mapZone z f) :=
  h.rest p _ rfl rfl rfl rfl hp

theorem later (h : Closed P) (p : Part) (l : List Conseq) (hp : P p) : P (p.later l) := h.rest p _ rfl rfl rfl rfl hp

theorem fold {α : Type} {f : Part → α → Part} (hf : ∀ p x, P p → P (f p x)) (l : List α) (p : Part) (hp : P p) :
    P (l.foldl f p) := by
  induction l generalizing p with
  | nil => exact hp
  | cons x l ih => exact ih _ (hf p x hp)

end Closed

/-! ### Links -/

theorem Link.QueueOk.refill {l : Link} (h : l.queue.length ≤ 12) (hl : l.line.length ≤ 36) : l.refill.QueueOk := by
  unfold Link.refill Link.QueueOk Config.linkQueueSize
  simp only [List.length_append, List.length_take, List.length_drop, ne_eq, List.drop_eq_nil_iff]
  omega

theorem Link.QueueOk.remove {l : Link} (f : Entry → Bool) (h : l.QueueOk) : (l.remove f).QueueOk := by
  unfold Link.remove
  apply Link.QueueOk.refill
  · exact Nat.le_trans (List.length_filter_le _ _) h.1
  · exact Nat.le_trans (List.length_filter_le _ _) h.2.2

theorem Link.QueueOk.next {l : Link} (now : Nat) (h : l.QueueOk) : (l.next now).QueueOk := by
  unfold Link.next
  split
  · exact h
  · rename_i e q hq
    apply Link.QueueOk.refill
    · have := h.1
      rw [hq] at this
      simp only [Link.start]
      simp only [List.length_cons] at this
      omega
    · exact h.2.2

/-! ### Buffers -/

/-- At most one record for each slot: at most six. -/
theorem slots_length {l : List LineEntry} (h : (l.map LineEntry.slot).Nodup) : l.length ≤ 6 := by
  have := h.length_le_card
  simpa using this

/-- A record of a slot that has none in the line joins the line behind a full buffer. -/
theorem BayUnit.BufferOk.enqueue {u : BayUnit} (h : u.BufferOk) (h8 : u.buffer.length = 8) {s : Slot} {n : Nat} {r : Record}
    (hs : u.lineHas s = false) : ({ u with line := u.line ++ [⟨s, n, r⟩] } : BayUnit).BufferOk := by
  have hn : ((u.line ++ [(⟨s, n, r⟩ : LineEntry)]).map LineEntry.slot).Nodup := by
    rw [List.map_append, List.nodup_append]
    refine ⟨h.2.2.2, by simp, ?_⟩
    intro x hx y hy hxy
    simp only [List.map_cons, List.map_nil, List.mem_singleton] at hy
    subst hy
    subst hxy
    obtain ⟨e, he, hes⟩ := List.mem_map.mp hx
    simp only [BayUnit.lineHas, List.any_eq_false, beq_iff_eq] at hs
    exact hs e he hes
  exact ⟨h.1, fun _ => h8, slots_length hn, hn⟩

/-! ### Channels -/

theorem Channel.Quiet.drop {c : Channel} (_ : c.Quiet) : c.drop.Quiet := by
  unfold Channel.drop
  split
  · assumption
  · exact .inr rfl
  · exact .inr rfl
  · assumption

theorem Channel.Quiet.unload {c : Channel} (h : c.Quiet) : c.unload.1.Quiet := by
  unfold Channel.unload
  split
  · rename_i hc
    repeat' split
    all_goals exact .inl hc
  · exact h

theorem Channel.Quiet.halt {c : Channel} (now : Nat) (h : c.Quiet) : (c.halt now).Quiet := by
  unfold Channel.halt
  split
  · rename_i hc
    right
    simp [Channel.drop, hc, Channel.beginOpen]
  · exact h.drop

theorem Channel.Quiet.holdLevel {c : Channel} (v : Nat) (h : c.Quiet) : (c.holdLevel v).Quiet := by
  unfold Channel.holdLevel
  split
  · rename_i hc
    exact .inl hc
  · exact h

theorem Channel.Quiet.startRamp {c : Channel} (a b d e : Nat) (h : c.Quiet) : (c.startRamp a b d e).Quiet := by
  unfold Channel.startRamp
  split
  · rename_i hc
    exact .inl hc
  · exact h


/-! ### The operations keep a closed property -/

namespace Closed

variable {P : Part → Prop}

theorem set_free (h : Closed P) (p : Part) (n : Nat) (hp : P p) : P { p with free := n } := h.rest p _ rfl rfl rfl rfl hp

theorem set_answers (h : Closed P) (p : Part) (l : Vector (Option Answering) 16) (hp : P p) : P { p with answers := l } :=
  h.rest p _ rfl rfl rfl rfl hp

theorem set_admReads (h : Closed P) (p : Part) (l : List AdmRead) (hp : P p) : P { p with admReads := l } :=
  h.rest p _ rfl rfl rfl rfl hp

theorem set_nextAdm (h : Closed P) (p : Part) (n : Nat) (hp : P p) : P { p with nextAdm := n } := h.rest p _ rfl rfl rfl rfl hp

theorem set_scan (h : Closed P) (p : Part) (x : Option Scan) (hp : P p) : P { p with scan := x } := h.rest p _ rfl rfl rfl rfl hp

theorem set_dry (h : Closed P) (p : Part) (x : Bool) (hp : P p) : P { p with dry := x } := h.rest p _ rfl rfl rfl rfl hp

theorem set_takenWrite (h : Closed P) (p : Part) (x : Option OrderSlot) (hp : P p) : P { p with takenWrite := x } :=
  h.rest p _ rfl rfl rfl rfl hp

theorem set_sweep (h : Closed P) (p : Part) (x : Sweep) (hp : P p) : P { p with sweep := x } := h.rest p _ rfl rfl rfl rfl hp

theorem set_handovers (h : Closed P) (p : Part) (n : Nat) (hp : P p) : P { p with handovers := n } :=
  h.rest p _ rfl rfl rfl rfl hp

theorem choose {α : Type} (h : Closed P) (p : Part) (l : List α) (hp : P p) : P (p.choose l).2 := by
  unfold Part.choose
  split
  · exact hp
  · exact hp
  · exact h.set_free p _ hp

theorem freeOrder {α : Type} (h : Closed P) (p : Part) (l : List α) (hp : P p) : P (p.freeOrder l).2 := h.set_free p _ hp

theorem handOver (h : Closed P) (p : Part) (b : Bay) (e : Entry) (hp : P p) : P (p.handOver b e).2 := by
  unfold Part.handOver
  extract_lets n e q l
  have hq : P q := h.set_handovers p _ hp
  split
  · exact h.later _ _ hq
  · split
    · rename_i hf
      split
      · exact h.link q b (Link.start e p.samples) (fun hk => hk) hq
      · refine h.link q b (fun l => { l with queue := l.queue ++ [e] }) (fun hk => ?_) hq
        simp only [Bool.and_eq_true, List.isEmpty_iff, Config.linkQueueSize] at hf
        refine ⟨?_, fun hl => absurd hf.1 hl, hk.2.2⟩
        have : (q.link b).queue.length < 12 := of_decide_eq_true hf.2
        simp only [List.length_append, List.length_cons, List.length_nil]
        omega
    · split
      swap
      · exact hq
      rename_i hf h36
      refine h.link q b (fun l => { l with line := l.line ++ [e] }) (fun hk => ⟨hk.1, fun _ => ?_, ?_⟩) hq
      swap
      · have : (q.link b).line.length < 36 := h36
        simp only [List.length_append, List.length_cons, List.length_nil]
        omega
      simp only [Bool.and_eq_true, List.isEmpty_iff, Config.linkQueueSize, not_and] at hf
      rcases Decidable.em ((q.link b).line = []) with hl | hl
      · have h1 := hk.1
        have h2 := hf hl
        change (q.link b).queue.length = 12
        have h3 : ¬ (q.link b).queue.length < 12 := fun hlt => h2 (decide_eq_true hlt)
        omega
      · exact hk.2.1 hl

theorem notify (h : Closed P) (p : Part) (n : Notice) (hp : P p) : P (p.notify n) := by
  unfold Part.notify
  split
  · exact hp
  · extract_lets q
    split
    · exact h.rest p _ rfl rfl rfl rfl hp
    · exact h.rest p _ rfl rfl rfl rfl hp

theorem endWith (h : Closed P) (p : Part) (b : Bay) (s : Slot) (v : Verdict) (cause : Option Cause) (hp : P p) :
    P (p.endWith b s v cause) := by
  unfold Part.endWith
  repeat' first
    | with_reducible assumption
    | with_reducible apply h.ctx

theorem failIdentity (h : Closed P) (p : Part) (b : Bay) (s : Slot) (cause : Cause) (hp : P p) :
    P (p.failIdentity b s cause) := by
  unfold Part.failIdentity
  repeat' first
    | with_reducible assumption
    | with_reducible apply h.ctx
    | with_reducible apply h.later
    | with_reducible apply h.endWith

theorem handIdentityRead (h : Closed P) (p : Part) (b : Bay) (s : Slot) (hp : P p) :
    P (p.handIdentityRead b s) := by
  unfold Part.handIdentityRead
  repeat' first
    | with_reducible assumption
    | with_reducible apply h.handOver

theorem badIdentity (h : Closed P) (p : Part) (b : Bay) (s : Slot) (hp : P p) :
    P (p.badIdentity b s) := by
  unfold Part.badIdentity
  repeat' first
    | with_reducible assumption
    | with_reducible apply h.ctx
    | with_reducible apply h.handIdentityRead
    | with_reducible apply h.failIdentity
    | split

theorem goodIdentity (h : Closed P) (p : Part) (b : Bay) (s : Slot) (m : ModuleId) (hp : P p) :
    P (p.goodIdentity b s m) := by
  unfold Part.goodIdentity
  extract_lets d q
  have hq : P q := h.ctx _ _ _ _ hp
  clear_value q
  split
  · exact h.later _ _ (h.ctx _ _ _ _ hq)
  · exact h.set_admReads _ _ (h.ctx _ _ _ _ hq)

theorem onIdentity (h : Closed P) (p : Part) (b : Bay) (s : Slot) (r : Report) (hp : P p) :
    P (p.onIdentity b s r) := by
  unfold Part.onIdentity
  repeat' first
    | with_reducible assumption
    | with_reducible apply h.failIdentity
    | with_reducible apply h.badIdentity
    | with_reducible apply h.goodIdentity
    | split

theorem handRestore (h : Closed P) (p : Part) (b : Bay) (s t : Slot) (hp : P p) :
    P (p.handRestore b s t) := by
  unfold Part.handRestore
  repeat' first
    | with_reducible assumption
    | with_reducible apply h.handOver
    | split

theorem withdrawEntries (h : Closed P) (p : Part) (b : Bay) (s : Slot) (f : Entry → Bool) (hp : P p) :
    P (p.withdrawEntries b s f) :=
  h.link p b _ (fun hk => hk.remove _) hp

theorem keepFlying (h : Closed P) (p : Part) (b : Bay) (s : Slot) (hp : P p) : P (p.keepFlying b s) := h.work p b s _ hp

theorem unloadChan (h : Closed P) (p : Part) (c : Chan) (hp : P p) : P (p.unloadChan c) := by
  unfold Part.unloadChan
  extract_lets r q
  have hq : P q := h.chan p c _ (fun hk => hk.unload) hp (Channel.unload_grant _)
  split
  · exact h.later _ _ hq
  · exact hq

theorem setPhase (h : Closed P) (p : Part) (b : Bay) (s : Slot) (ph : Phase) (hp : P p) :
    P (p.setPhase b s ph) := by
  unfold Part.setPhase
  repeat' first
    | with_reducible assumption
    | with_reducible apply h.ctx

theorem enterRelease (h : Closed P) (p : Part) (b : Bay) (s : Slot) (hp : P p) : P (p.enterRelease b s) := by
  unfold Part.enterRelease
  extract_lets shares q
  have hq : P q := h.work _ _ _ _ (h.setPhase _ _ _ _ hp)
  split
  · exact h.unloadChan _ _ (h.chan _ _ _ (fun hk => hk) hq)
  · exact h.later _ _ (h.work _ _ _ _ hq)

theorem notIsolated (h : Closed P) (p : Part) (b : Bay) (s t : Slot) (reason : Reason) (mean : Option Nat) (hp : P p) :
    P (p.notIsolated b s t reason mean) := by
  unfold Part.notIsolated
  extract_lets derating1 p2 p3 p4
  clear_value derating1
  have hp2 : P p2 := by
    unfold p2
    repeat' first
      | with_reducible assumption
      | with_reducible apply h.work
      | with_reducible apply h.withdrawEntries
  clear_value p2
  have hp3 : P p3 := by
    unfold p3
    repeat' first
      | with_reducible assumption
      | with_reducible apply h.work
      | with_reducible apply h.withdrawEntries
      | with_reducible apply h.keepFlying
  clear_value p3
  have hp4 : P p4 := by
    unfold p4
    repeat' first
      | with_reducible assumption
      | with_reducible apply h.work
  clear_value p4
  repeat' first
    | with_reducible assumption
    | with_reducible apply h.work
    | with_reducible apply h.withdrawEntries
    | with_reducible apply h.keepFlying
    | with_reducible apply h.enterRelease

theorem handOwn (h : Closed P) (p : Part) (b : Bay) (s : Slot) (kind : TxKind) (trim : Nat) (step : SubStep) (hp : P p) :
    P (p.handOwn b s kind trim step) := by
  unfold Part.handOwn
  dsimp only
  repeat' first
    | with_reducible assumption
    | with_reducible apply h.work
    | with_reducible apply h.handOver
    | split

theorem prepareOwn (h : Closed P) (p : Part) (b : Bay) (s : Slot) (hp : P p) :
    P (p.prepareOwn b s) := by
  unfold Part.prepareOwn
  repeat' first
    | with_reducible assumption
    | with_reducible apply h.handOwn

theorem onIsolate (h : Closed P) (p : Part) (b : Bay) (s : Slot) (e : Entry) (r : Report) (hp : P p) :
    P (p.onIsolate b s e r) := by
  unfold Part.onIsolate
  extract_lets current p1 c waiting goOn q
  have hp1 : P p1 := h.work _ _ _ _ hp
  have hq : P q := h.bay _ _ _ (fun _ => ⟨rfl, rfl, rfl, rfl, rfl⟩) hp1
  have hg : ∀ p, P p → P (goOn p) := by
    intro p hp
    unfold goOn
    split
    · split
      · exact h.prepareOwn _ _ _ hp
      · exact hp
    · exact h.later _ _ hp
  clear_value p1 q goOn waiting
  repeat' first
    | with_reducible assumption
    | with_reducible apply hg
    | with_reducible apply h.later
    | with_reducible apply h.handRestore
    | with_reducible apply h.notIsolated
    | split

theorem startSpan (h : Closed P) (p : Part) (b : Bay) (s : Slot) (k : SpanKind) (span : Span) (hp : P p) :
    P (p.startSpan b s k span) := by
  unfold Part.startSpan
  repeat' first
    | with_reducible assumption
    | with_reducible apply h.work

theorem arm (h : Closed P) (p : Part) (c : Chan) (slot : Slot) (collapse confirm : Nat) (hp : P p) :
    P (p.arm c slot collapse confirm) := by
  unfold Part.arm
  split
  · exact h.set_free _ _ (h.chan p c _ (fun hk => hk) hp)
  · exact hp

theorem enterApply (h : Closed P) (p : Part) (b : Bay) (s : Slot) (hp : P p) : P (p.enterApply b s) := by
  unfold Part.enterApply
  extract_lets c q
  have hq : P q := h.work _ _ _ _ (h.setPhase _ _ _ _ hp)
  clear_value q
  split
  · split
    · exact h.startSpan _ _ _ _ _ (h.chan _ _ _ (fun hk => hk.holdLevel _) (h.ctx _ _ _ _ hq) (Channel.holdLevel_grant _ _))
    · exact h.arm _ _ _ _ _ (h.chan _ _ _ (fun hk => hk.startRamp _ _ _ _) hq (Channel.startRamp_grant _ _ _ _ _))
    · exact h.handOwn _ _ _ _ _ _ (h.arm _ _ _ _ _ (h.chan _ _ _ (fun hk => hk.holdLevel _) hq (Channel.holdLevel_grant _ _)))
    · exact h.startSpan _ _ _ _ _ (h.chan _ _ _ (fun hk => hk.holdLevel _) hq (Channel.holdLevel_grant _ _))
    · exact h.startSpan _ _ _ _ _ (h.arm _ _ _ _ _ (h.chan _ _ _ (fun hk => hk.holdLevel _) hq (Channel.holdLevel_grant _ _)))
  · exact hq

theorem fixParticipants (h : Closed P) (p : Part) (b : Bay) (s : Slot) (hp : P p) :
    P (p.fixParticipants b s) := by
  unfold Part.fixParticipants
  extract_lets n1
  clear_value n1
  repeat' first
    | with_reducible assumption
    | with_reducible apply h.work
    | with_reducible apply h.enterRelease
    | with_reducible apply h.enterApply
    | split

theorem onCandidate (h : Closed P) (p : Part) (b : Bay) (s : Slot) (e : Entry) (r : Report) (hp : P p) :
    P (p.onCandidate b s e r) := by
  unfold Part.onCandidate
  extract_lets current p1 c own fix
  have hp1 : P p1 := h.work _ _ _ _ hp
  have hf : ∀ p, P p → P (fix p) := by
    intro p hp
    unfold fix
    split
    · exact h.fixParticipants _ _ _ hp
    · exact hp
  clear_value p1 fix own
  repeat' first
    | with_reducible assumption
    | with_reducible apply hf
    | with_reducible apply h.work
    | with_reducible apply h.notIsolated
    | split

theorem onRestore (h : Closed P) (p : Part) (b : Bay) (s : Slot) (e : Entry) (r : Report) (hp : P p) :
    P (p.onRestore b s e r) := by
  unfold Part.onRestore
  extract_lets member1 p2 p3
  clear_value member1
  have hp2 : P p2 := by
    unfold p2
    repeat' first
      | with_reducible assumption
      | (with_reducible refine h.bay _ _ _ (fun _ => ⟨rfl, rfl, rfl, rfl, rfl⟩) ?_)
  clear_value p2
  have hp3 : P p3 := by
    unfold p3
    repeat' first
      | with_reducible assumption
      | (with_reducible refine h.bay _ _ _ (fun _ => ⟨rfl, rfl, rfl, rfl, rfl⟩) ?_)
      | with_reducible apply h.ctx
      | with_reducible apply h.later
      | split
  clear_value p3
  repeat' first
    | with_reducible assumption
    | (with_reducible refine h.bay _ _ _ (fun _ => ⟨rfl, rfl, rfl, rfl, rfl⟩) ?_)
    | with_reducible apply h.ctx
    | with_reducible apply h.later

theorem measure (h : Closed P) (p : Part) (b : Bay) (s : Slot) (need : Nat) (windows : List PointWindow) (hp : P p) :
    P (p.measure b s need windows) := by
  unfold Part.measure
  extract_lets tol1
  clear_value tol1
  repeat' first
    | with_reducible assumption
    | with_reducible apply h.work

theorem isolationTest (h : Closed P) (p : Part) (b : Bay) (s : Slot) (hp : P p) :
    P (p.isolationTest b s) := by
  unfold Part.isolationTest
  repeat' first
    | with_reducible assumption
    | with_reducible apply h.work
    | with_reducible apply h.measure
    | with_reducible apply h.enterApply
    | split

theorem recoverDecided (h : Closed P) (p : Part) (b : Bay) (s : Slot) (failed : Bool) (time : Option Nat) (hp : P p) :
    P (p.recoverDecided b s failed time) := by
  unfold Part.recoverDecided
  extract_lets p1
  have hp1 : P p1 := by
    unfold p1
    repeat' first
      | with_reducible assumption
      | with_reducible apply h.ctx
  clear_value p1
  repeat' first
    | with_reducible assumption
    | with_reducible apply h.ctx
    | with_reducible apply h.enterRelease

theorem requestBus (h : Closed P) (p : Part) (b : Bay) (s : Slot) (hp : P p) : P (p.requestBus b s) :=
  h.arbiter p _ (Part.ArbiterOnly.requestBus p b s) (fun hg => hg.requestBus b s) hp

theorem limitRead (h : Closed P) (p : Part) (b : Bay) (s : Slot) (reported : Option Nat) (hp : P p) :
    P (p.limitRead b s reported) := by
  unfold Part.limitRead
  extract_lets p1
  have hp1 : P p1 := by
    unfold p1
    repeat' first
      | with_reducible assumption
      | with_reducible apply h.ctx
  clear_value p1
  repeat' first
    | with_reducible assumption
    | with_reducible apply h.ctx
    | with_reducible apply h.work
    | with_reducible apply h.requestBus

theorem onStatus (h : Closed P) (p : Part) (b : Bay) (s : Slot) (data : List Byte) (hp : P p) :
    P (p.onStatus b s data) := by
  unfold Part.onStatus
  extract_lets mask1
  clear_value mask1
  repeat' first
    | with_reducible assumption
    | with_reducible apply h.notIsolated
    | with_reducible apply h.isolationTest
    | split

theorem onTrim (h : Closed P) (p : Part) (b : Bay) (s : Slot) (hp : P p) : P (p.onTrim b s) := by
  unfold Part.onTrim
  extract_lets c q
  have hq : P q := by
    unfold q
    split
    · exact h.chan _ _ _ (fun hk => hk) hp
    · exact hp
  clear_value c q
  split
  · exact h.startSpan _ _ _ _ _ (h.work _ _ _ _ hq)
  · exact hp

theorem watchPowerGood (h : Closed P) (p : Part) (b : Bay) (s : Slot) (hp : P p) :
    P (p.watchPowerGood b s) := by
  unfold Part.watchPowerGood
  repeat' first
    | with_reducible assumption
    | with_reducible apply h.work

theorem onOwn (h : Closed P) (p : Part) (b : Bay) (s : Slot) (e : Entry) (r : Report) (hp : P p) :
    P (p.onOwn b s e r) := by
  unfold Part.onOwn
  extract_lets c1 nominal2
  clear_value c1 nominal2
  repeat' first
    | with_reducible assumption
    | with_reducible apply h.ctx
    | with_reducible apply h.later
    | with_reducible apply h.handOwn
    | with_reducible apply h.enterRelease
    | with_reducible apply h.endWith
    | with_reducible apply h.notIsolated
    | with_reducible apply h.isolationTest
    | with_reducible apply h.recoverDecided
    | with_reducible apply h.limitRead
    | with_reducible apply h.onCandidate
    | with_reducible apply h.onStatus
    | with_reducible apply h.onTrim
    | with_reducible apply h.watchPowerGood
    | split

theorem onReport (h : Closed P) (p : Part) (b : Bay) (e : Entry) (r : Report) (hp : P p) :
    P (p.onReport b e r) := by
  unfold Part.onReport
  extract_lets s1
  clear_value s1
  repeat' first
    | with_reducible assumption
    | with_reducible apply h.onIdentity
    | with_reducible apply h.onIsolate
    | with_reducible apply h.onCandidate
    | with_reducible apply h.onRestore
    | with_reducible apply h.onOwn
    | split

theorem linkNext (h : Closed P) (p : Part) (b : Bay) (hp : P p) : P (p.linkNext b) := by
  unfold Part.linkNext
  split
  · exact h.link p b _ (fun hk => hk.next _) hp
  · exact hp

theorem muteSlot (h : Closed P) (p : Part) (b : Bay) (s : Slot) (hp : P p) : P (p.muteSlot b s) :=
  h.later _ _ (h.link p b _ (fun hk => hk.remove _) hp)

theorem leaveBusQueue (h : Closed P) (p : Part) (b : Bay) (s : Slot) (hp : P p) : P (p.leaveBusQueue b s) :=
  h.arbiter p _ (Part.ArbiterOnly.leaveBusQueue p b s) (fun hg => hg.leaveBusQueue b s) hp

theorem leaveChanQueue (h : Closed P) (p : Part) (b : Bay) (s : Slot) (hp : P p) : P (p.leaveChanQueue b s) :=
  h.arbiter p _ (Part.ArbiterOnly.leaveChanQueue p b s) (fun hg => hg.leaveChanQueue b s) hp

theorem releaseBus (h : Closed P) (p : Part) (b : Bay) (hp : P p) : P (p.releaseBus b) :=
  h.arbiter p _ (Part.ArbiterOnly.releaseBus p b) (fun hg => hg.releaseBus b) hp

theorem giveUpBus (h : Closed P) (p : Part) (b : Bay) (s : Slot) (hp : P p) :
    P (p.giveUpBus b s) := by
  unfold Part.giveUpBus
  repeat' first
    | with_reducible assumption
    | with_reducible apply h.releaseBus
    | split

theorem leaveZone (h : Closed P) (p : Part) (b : Bay) (s : Slot) (hp : P p) :
    P (p.leaveZone b s) := by
  unfold Part.leaveZone
  extract_lets z1
  clear_value z1
  repeat' first
    | with_reducible assumption
    | with_reducible apply h.zone
    | with_reducible apply h.later
    | split

theorem composeAbort (h : Closed P) (p : Part) (b : Bay) (s : Slot) (hp : P p) :
    P (p.composeAbort b s) := by
  unfold Part.composeAbort
  extract_lets c1
  clear_value c1
  repeat' first
    | with_reducible assumption
    | with_reducible apply h.ctx
    | split

theorem dropChan (h : Closed P) (p : Part) (c : Chan) (hp : P p) : P (p.dropChan c) := by
  unfold Part.dropChan
  have hq : P (p.mapChan c Channel.drop) := h.chan p c _ (fun hk => hk.drop) hp (Channel.drop_grant _)
  extract_lets q
  split
  · exact h.later _ _ hq
  · exact hq

theorem openChan (h : Closed P) (p : Part) (c : Chan) (hp : P p) : P (p.openChan c) := by
  unfold Part.openChan
  extract_lets ch q
  split
  · exact h.later _ _ hp
  · exact hp
  · exact h.chan p c _ (fun hk => hk) hp
  · rename_i hc
    have hq : P q ∧ ((q.chan c).setpoint = 0) := by
      unfold q
      split
      · rename_i h0
        exact ⟨hp, h0⟩
      · refine ⟨h.dropChan p c hp, ?_⟩
        have hd : ((p.mapChan c Channel.drop).chan c).setpoint = 0 := by
          rw [Part.chan_mapChan]
          change (p.chan c).relay = .closed at hc
          simp [Channel.drop, hc]
        unfold Part.dropChan
        split
        · exact hd
        · exact hd
    exact h.chan q c (Channel.beginOpen p.samples) (fun _ => .inr hq.2) hq.1

theorem abortChannel (h : Closed P) (p : Part) (c : Chan) (hp : P p) :
    P (p.abortChannel c) := by
  unfold Part.abortChannel
  repeat' first
    | with_reducible assumption
    | with_reducible apply h.dropChan
    | with_reducible apply h.openChan

theorem abortBefore (h : Closed P) (p : Part) (b : Bay) (s : Slot) (cause : Cause) (hp : P p) :
    P (p.abortBefore b s cause) := by
  unfold Part.abortBefore
  extract_lets c number started stage p1 p2 p3 p4 p5
  have h5 : P p5 :=
    h.leaveZone _ _ _ (h.keepFlying _ _ _ (h.withdrawEntries _ _ _ _ (h.work _ _ _ _ (h.set_free p _ hp))))
  clear_value p5 started stage
  split
  · exact h.composeAbort _ _ _ (h.leaveBusQueue _ _ _ h5)
  · exact h.giveUpBus _ _ _ (h.composeAbort _ _ _ (h.leaveChanQueue _ _ _ h5))
  · exact h.composeAbort _ _ _ h5
  · split
    · exact h.abortChannel _ _ (h.work _ _ _ _ (h.setPhase _ _ _ _ h5))
    · split
      · exact h.later _ _ h5
      · exact h.composeAbort _ _ _ h5

theorem abortInRecord (h : Closed P) (p : Part) (b : Bay) (s : Slot) (cause : Cause) (hp : P p) :
    P (p.abortInRecord b s cause) := by
  unfold Part.abortInRecord
  extract_lets p0 p1
  have hp1 : P p1 := h.leaveZone _ _ _ (h.withdrawEntries _ _ _ _ hp)
  clear_value p1
  repeat' first
    | with_reducible assumption
    | with_reducible apply h.ctx

theorem abort (h : Closed P) (p : Part) (b : Bay) (s : Slot) (cause : Cause) (hp : P p) :
    P (p.abort b s cause) := by
  unfold Part.abort
  extract_lets c1
  clear_value c1
  repeat' first
    | with_reducible assumption
    | with_reducible apply h.abortBefore
    | with_reducible apply h.abortInRecord
    | split

theorem endAtBoundary (h : Closed P) (p : Part) (b : Bay) (s : Slot) (cause : Cause) (hp : P p) :
    P (p.endAtBoundary b s cause) := by
  unfold Part.endAtBoundary
  repeat' first
    | with_reducible assumption
    | with_reducible apply h.leaveZone
    | with_reducible apply h.endWith

theorem joinZone (h : Closed P) (p : Part) (b : Bay) (s : Slot) (hp : P p) :
    P (p.joinZone b s) := by
  unfold Part.joinZone
  extract_lets z1
  clear_value z1
  repeat' first
    | with_reducible assumption
    | with_reducible apply h.zone
    | with_reducible apply h.later
    | with_reducible apply h.setPhase

theorem begin (h : Closed P) (p : Part) (b : Bay) (s : Slot) (hp : P p) :
    P (p.begin b s) := by
  unfold Part.begin
  extract_lets c1
  clear_value c1
  repeat' first
    | with_reducible assumption
    | with_reducible apply h.ctx
    | with_reducible apply h.work
    | with_reducible apply h.requestBus
    | with_reducible apply h.joinZone
    | split

theorem atBoundary (h : Closed P) (p : Part) (b : Bay) (s : Slot) (hp : P p) :
    P (p.atBoundary b s) := by
  unfold Part.atBoundary
  repeat' first
    | with_reducible assumption
    | with_reducible apply h.ctx
    | with_reducible apply h.later
    | with_reducible apply h.begin
    | split

theorem moduleMute (h : Closed P) (p : Part) (b : Bay) (s : Slot) (hp : P p) :
    P (p.moduleMute b s) := by
  unfold Part.moduleMute
  extract_lets c1 p2
  clear_value c1
  have hp2 : P p2 := by
    unfold p2
    repeat' first
      | with_reducible assumption
      | with_reducible apply h.later
      | with_reducible apply h.abort
      | with_reducible apply h.endAtBoundary
      | with_reducible apply h.notIsolated
      | with_reducible apply h.atBoundary
      | with_reducible apply h.failIdentity
      | split
  clear_value p2
  repeat' first
    | with_reducible assumption
    | with_reducible apply h.later
    | with_reducible apply h.abort
    | with_reducible apply h.endAtBoundary
    | with_reducible apply h.notIsolated
    | with_reducible apply h.atBoundary
    | with_reducible apply h.failIdentity
    | split

theorem handOther (h : Closed P) (p : Part) (b : Bay) (s t : Slot) (kind : TxKind) (purpose : Purpose) (hp : P p) :
    P (p.handOther b s t kind purpose) := by
  unfold Part.handOther
  dsimp only
  repeat' first
    | with_reducible assumption
    | with_reducible apply h.work
    | with_reducible apply h.handOver
    | split

theorem prepareIsolating (h : Closed P) (p : Part) (b : Bay) (s : Slot) (hp : P p) :
    P (p.prepareIsolating b s) := by
  unfold Part.prepareIsolating
  extract_lets u1 others2
  clear_value u1 others2
  repeat' first
    | with_reducible assumption
    | with_reducible apply h.work
    | with_reducible apply h.handOther
    | with_reducible apply h.notIsolated
    | with_reducible apply h.prepareOwn
    | with_reducible apply h.choose
    | (with_reducible refine fold (fun p x hp => ?_) _ _ ?_)
    | split

theorem prepareShare (h : Closed P) (p : Part) (b : Bay) (s : Slot) (hp : P p) :
    P (p.prepareShare b s) := by
  unfold Part.prepareShare
  extract_lets candidates1 p2
  clear_value candidates1
  have hp2 : P p2 := by
    unfold p2
    repeat' first
      | with_reducible assumption
      | with_reducible apply h.work
  clear_value p2
  repeat' first
    | with_reducible assumption
    | with_reducible apply h.work
    | with_reducible apply h.handOther
    | (with_reducible refine fold (fun p x hp => ?_) _ _ ?_)

theorem onClosed (h : Closed P) (p : Part) (c : Chan) (hp : P p) :
    P (p.onClosed c) := by
  unfold Part.onClosed
  dsimp only
  repeat' first
    | with_reducible assumption
    | with_reducible apply h.setPhase
    | with_reducible apply h.prepareIsolating
    | with_reducible apply h.prepareShare
    | split

theorem onUnloaded (h : Closed P) (p : Part) (c : Chan) (hp : P p) :
    P (p.onUnloaded c) := by
  unfold Part.onUnloaded
  dsimp only
  repeat' first
    | with_reducible assumption
    | with_reducible apply h.work
    | with_reducible apply h.openChan
    | split

theorem onHoldEnded (h : Closed P) (p : Part) (c : Chan) (hp : P p) :
    P (p.onHoldEnded c) := by
  unfold Part.onHoldEnded
  dsimp only
  repeat' first
    | with_reducible assumption
    | with_reducible apply h.work
    | with_reducible apply h.enterRelease
    | split

theorem releaseChan (h : Closed P) (p : Part) (c : Chan) (hp : P p) : P (p.releaseChan c) :=
  h.arbiter p _ (Part.ArbiterOnly.releaseChan p c) (fun hg => hg.releaseChan c) hp

theorem restoreStandby (h : Closed P) (p : Part) (b : Bay) (s : Slot) (hp : P p) :
    P (p.restoreStandby b s) := by
  unfold Part.restoreStandby
  repeat' first
    | with_reducible assumption
    | with_reducible apply h.handRestore
    | (with_reducible refine fold (fun p x hp => ?_) _ _ ?_)

theorem onOpen (h : Closed P) (p : Part) (c : Chan) (hp : P p) :
    P (p.onOpen c) := by
  unfold Part.onOpen
  dsimp only
  repeat' first
    | with_reducible assumption
    | with_reducible apply h.work
    | with_reducible apply h.later
    | with_reducible apply h.setPhase
    | with_reducible apply h.releaseChan
    | with_reducible apply h.restoreStandby
    | split

theorem settleWith (h : Closed P) (p : Part) (b : Bay) (s : Slot) (r : Record) (missed : Bool) (hp : P p) :
    P (p.settleWith b s r missed) := by
  unfold Part.settleWith
  extract_lets c left failed ended c2 out q
  exact h.zone _ _ _ (h.ctx p b s _ hp)

theorem settleStarted (h : Closed P) (p : Part) (b : Bay) (s : Slot) (hp : P p) :
    P (p.settleStarted b s) := by
  unfold Part.settleStarted
  extract_lets c1
  clear_value c1
  repeat' first
    | with_reducible assumption
    | with_reducible apply h.settleWith
    | split

theorem afterSettling (h : Closed P) (p : Part) (b : Bay) (s : Slot) (hp : P p) :
    P (p.afterSettling b s) := by
  unfold Part.afterSettling
  repeat' first
    | with_reducible assumption
    | with_reducible apply h.later

theorem afterBus (h : Closed P) (p : Part) (b : Bay) (s : Slot) (hp : P p) :
    P (p.afterBus b s) := by
  unfold Part.afterBus
  extract_lets c1
  clear_value c1
  repeat' first
    | with_reducible assumption
    | with_reducible apply h.ctx
    | with_reducible apply h.later
    | with_reducible apply h.settleStarted
    | with_reducible apply h.afterSettling
    | with_reducible apply h.composeAbort
    | split

theorem releaseGo (h : Closed P) (p : Part) (b : Bay) (s : Slot) (hp : P p) :
    P (p.releaseGo b s) := by
  unfold Part.releaseGo
  extract_lets c1
  clear_value c1
  repeat' first
    | with_reducible assumption
    | with_reducible apply h.work
    | with_reducible apply h.releaseBus
    | with_reducible apply h.afterBus
    | split

/-- A record of a slot with none in the entry line is made ready. -/
theorem makeReady (h : Closed P) (p : Part) (b : Bay) (s : Slot) (r : Record) (hs : (p.bay b).lineHas s = false) (hp : P p) :
    P (p.makeReady b s r) := by
  unfold Part.makeReady
  extract_lets u
  have hu : u = p.bay b := rfl
  clear_value u
  subst hu
  split
  · rename_i hr
    simp only [BayUnit.hasRoom, Bool.and_eq_true, List.isEmpty_iff, Config.bufferSize] at hr
    refine h.later _ _ (h.buffer p b _ (fun hk => ⟨?_, fun hl => absurd hr.2 hl, hk.2.2⟩) ⟨rfl, rfl, rfl⟩ hp)
    have : (p.bay b).buffer.length < 8 := of_decide_eq_true hr.1
    simp only [List.length_append, List.length_cons, List.length_nil]
    omega
  · rename_i hr
    simp only [BayUnit.hasRoom, Bool.and_eq_true, List.isEmpty_iff, Config.bufferSize, not_and] at hr
    refine h.ctx _ _ _ _ (h.buffer p b _ (fun hk => ?_) ⟨rfl, rfl, rfl⟩ hp)
    refine BayUnit.BufferOk.enqueue hk ?_ hs
    rcases Decidable.em ((p.bay b).line = []) with hl | hl
    · have h1 : (p.bay b).buffer.length ≤ 8 := hk.1
      by_contra hn
      exact hr (decide_eq_true (show (p.bay b).buffer.length < 8 by omega)) hl
    · exact hk.2.1 hl

theorem becomeAbsent (h : Closed P) (p : Part) (b : Bay) (s : Slot) (hp : P p) :
    P (p.becomeAbsent b s) := by
  unfold Part.becomeAbsent
  repeat' first
    | with_reducible assumption
    | with_reducible apply h.ctx
    | with_reducible apply h.later
    | with_reducible apply h.withdrawEntries

theorem output (h : Closed P) (p : Part) (b : Bay) (s : Slot) (hp : P p) : P (p.output b s) := by
  unfold Part.output
  extract_lets c
  split
  · exact hp
  · rename_i hg
    simp only [Bool.or_eq_true, not_or, Bool.not_eq_true] at hg
    have hl : ∀ f : Ctx → Ctx, ((p.mapCtx b s f).bay b).lineHas s = false := fun f => by
      unfold Part.mapCtx
      rw [Part.bay_mapBay]
      exact hg.2
    split
    · exact hp
    · extract_lets q
      have hq : P q := h.ctx _ _ _ _ hp
      split
      · exact h.makeReady _ _ _ _ (hl _) hq
      · extract_lets q2
        have hq2 : P q2 := h.ctx _ _ _ _ hq
        refine h.later _ _ (h.makeReady _ _ _ _ ?_ hq2)
        unfold q2 q Part.mapCtx
        rw [Part.bay_mapBay, Part.bay_mapBay]
        exact hg.2
      · exact h.later _ _ hq
      · exact h.later _ _ hq
      · exact h.becomeAbsent _ _ _ hq

theorem roomMade (h : Closed P) (p : Part) (b : Bay) (hp : P p) :
    P (p.roomMade b) := by
  unfold Part.roomMade
  repeat' first
    | with_reducible assumption
    | with_reducible apply h.later

theorem nextCheck (h : Closed P) (p : Part) (b : Bay) (s : Slot) (hp : P p) :
    P (p.nextCheck b s) := by
  unfold Part.nextCheck
  extract_lets c1 count2
  clear_value c1 count2
  repeat' first
    | with_reducible assumption
    | with_reducible apply h.ctx
    | with_reducible apply h.later
    | with_reducible apply h.setPhase
    | with_reducible apply h.endWith
    | split

theorem checkResult (h : Closed P) (p : Part) (b : Bay) (s : Slot) (hp : P p) :
    P (p.checkResult b s) := by
  unfold Part.checkResult
  extract_lets c1
  clear_value c1
  repeat' first
    | with_reducible assumption
    | with_reducible apply h.ctx
    | with_reducible apply h.later
    | with_reducible apply h.setPhase
    | with_reducible apply h.handOwn
    | with_reducible apply h.endWith
    | with_reducible apply h.nextCheck
    | split

theorem pauseAtPlateau (h : Closed P) (p : Part) (b : Bay) (s : Slot) (hp : P p) :
    P (p.pauseAtPlateau b s) := by
  unfold Part.pauseAtPlateau
  repeat' first
    | with_reducible assumption
    | with_reducible apply h.ctx
    | with_reducible apply h.later
    | with_reducible apply h.leaveZone

theorem returnToPlateau (h : Closed P) (p : Part) (b : Bay) (s : Slot) (hp : P p) :
    P (p.returnToPlateau b s) := by
  unfold Part.returnToPlateau
  extract_lets c1
  clear_value c1
  repeat' first
    | with_reducible assumption
    | with_reducible apply h.later
    | with_reducible apply h.setPhase
    | with_reducible apply h.pauseAtPlateau
    | split

theorem judgeIsolation (h : Closed P) (p : Part) (b : Bay) (s : Slot) (plan : Plan) (m : Measurement) (hp : P p) :
    P (p.judgeIsolation b s plan m) := by
  unfold Part.judgeIsolation
  extract_lets failing1
  clear_value failing1
  repeat' first
    | with_reducible assumption
    | with_reducible apply h.notIsolated
    | with_reducible apply h.enterApply
    | split

theorem judgePass (h : Closed P) (p : Part) (b : Bay) (s : Slot) (q : SteadyCheck) (m : Measurement) (t : Stamp) (hp : P p) :
    P (p.judgePass b s q m t) := by
  unfold Part.judgePass
  dsimp only
  repeat' first
    | with_reducible assumption
    | with_reducible apply h.ctx
    | with_reducible apply h.startSpan
    | with_reducible apply h.setPhase
    | with_reducible apply h.enterRelease
    | split

theorem judgeShare (h : Closed P) (p : Part) (b : Bay) (s : Slot) (q : ShareCheck) (m : Measurement) (t : Stamp) (hp : P p) :
    P (p.judgeShare b s q m t) := by
  unfold Part.judgeShare
  extract_lets mean1
  clear_value mean1
  repeat' first
    | with_reducible assumption
    | with_reducible apply h.ctx
    | with_reducible apply h.enterRelease
    | split

theorem judgePlateau (h : Closed P) (p : Part) (b : Bay) (s : Slot) (q : DerateCheck) (m : Measurement) (t : Stamp) (hp : P p) :
    P (p.judgePlateau b s q m t) := by
  unfold Part.judgePlateau
  dsimp only
  repeat' first
    | with_reducible assumption
    | with_reducible apply h.ctx
    | with_reducible apply h.enterRelease
    | split

theorem measured (h : Closed P) (p : Part) (b : Bay) (s : Slot) (hp : P p) :
    P (p.measured b s) := by
  unfold Part.measured
  extract_lets c1
  clear_value c1
  repeat' first
    | with_reducible assumption
    | with_reducible apply h.work
    | with_reducible apply h.judgeIsolation
    | with_reducible apply h.judgePass
    | with_reducible apply h.judgeShare
    | with_reducible apply h.judgePlateau
    | split

theorem startPlateau (h : Closed P) (p : Part) (b : Bay) (s : Slot) (hp : P p) :
    P (p.startPlateau b s) := by
  unfold Part.startPlateau
  extract_lets z1 zone2 c3 owes4
  clear_value z1 zone2 c3 owes4
  repeat' first
    | with_reducible assumption
    | with_reducible apply h.ctx
    | with_reducible apply h.zone
    | with_reducible apply h.handOwn
    | with_reducible apply h.measured
    | with_reducible apply h.pauseAtPlateau
    | split

theorem noPlateau (h : Closed P) (p : Part) (b : Bay) (s : Slot) (hp : P p) :
    P (p.noPlateau b s) := by
  unfold Part.noPlateau
  repeat' first
    | with_reducible assumption
    | with_reducible apply h.ctx

theorem outputs (h : Closed P) (p : Part) (l : List (Bay × Slot)) (hp : P p) : P (p.outputs l) :=
  h.later _ _ (h.freeOrder p _ hp)

theorem closePlateau (h : Closed P) (p : Part) (z : ZoneNo) (hp : P p) :
    P (p.closePlateau z) := by
  unfold Part.closePlateau
  extract_lets zone1
  clear_value zone1
  repeat' first
    | with_reducible assumption
    | with_reducible apply h.zone
    | with_reducible apply h.noPlateau
    | with_reducible apply h.outputs
    | (with_reducible refine fold (fun p x hp => ?_) _ _ ?_)
    | split

theorem closingTest (h : Closed P) (p : Part) (z : ZoneNo) (hp : P p) :
    P (p.closingTest z) := by
  unfold Part.closingTest
  extract_lets zone1
  clear_value zone1
  repeat' first
    | with_reducible assumption
    | with_reducible apply h.closePlateau
    | split

theorem answer (h : Closed P) (p : Part) (o : OrderSlot) (code : AnswerCode) (fields : List (Nat × Nat × Nat)) (hp : P p) :
    P (p.answer o code fields) :=
  h.set_answers p _ hp

theorem answerPending (h : Closed P) (p : Part) (b : Bay) (code : AnswerCode) (fields : List (Nat × Nat × Nat)) (hp : P p) :
    P (p.answerPending b code fields) := by
  unfold Part.answerPending
  repeat' first
    | with_reducible assumption
    | (with_reducible refine h.bay _ _ _ (fun _ => ⟨rfl, rfl, rfl, rfl, rfl⟩) ?_)
    | with_reducible apply h.answer
    | split

theorem startCtxs (h : Closed P) (p : Part) (b : Bay) (f : Ctx → Bool) (hp : P p) :
    P (p.startCtxs b f) := by
  unfold Part.startCtxs
  extract_lets l1 p2
  clear_value l1
  have hp2 : P p2 := by
    unfold p2
    repeat' first
      | with_reducible assumption
      | with_reducible apply h.ctx
      | with_reducible apply h.later
      | (with_reducible refine fold (fun p x hp => ?_) _ _ ?_)
  clear_value p2
  repeat' first
    | with_reducible assumption
    | with_reducible apply h.ctx
    | with_reducible apply h.later

theorem admitted (h : Closed P) (p : Part) (b : Bay) (hp : P p) :
    P (p.admitted b) := by
  unfold Part.admitted
  extract_lets u1 counts2 p3 p4
  clear_value u1 counts2
  have hp3 : P p3 := by
    unfold p3
    repeat' first
      | with_reducible assumption
      | (with_reducible refine h.bay _ _ _ (fun _ => ⟨rfl, rfl, rfl, rfl, rfl⟩) ?_)
  clear_value p3
  have hp4 : P p4 := by
    unfold p4
    repeat' first
      | with_reducible assumption
      | (with_reducible refine h.bay _ _ _ (fun _ => ⟨rfl, rfl, rfl, rfl, rfl⟩) ?_)
      | with_reducible apply h.later
      | with_reducible apply h.answerPending
  clear_value p4
  repeat' first
    | with_reducible assumption
    | (with_reducible refine h.bay _ _ _ (fun _ => ⟨rfl, rfl, rfl, rfl, rfl⟩) ?_)
    | with_reducible apply h.later
    | with_reducible apply h.answerPending
    | with_reducible apply h.startCtxs
    | split

theorem enterEmpty (h : Closed P) (p : Part) (b : Bay) (hp : P p) : P (p.enterEmpty b) := by
  have h1 : P (p.mapBay b (fun u => { u.emptied with busHolder := u.busHolder, busQueue := u.busQueue })) :=
    h.buffer p b _ (fun _ => ⟨by simp [BayUnit.emptied], fun hl => absurd rfl hl, by simp [BayUnit.emptied],
      by simp [BayUnit.emptied]⟩) ⟨rfl, rfl, rfl⟩ hp
  have h2 : (p.mapBay b (fun u => { u.emptied with busHolder := u.busHolder, busQueue := u.busQueue })).mapBay b
      (fun u => { u with busHolder := none, busQueue := [] }) = p.mapBay b BayUnit.emptied := by
    rw [Part.mapBay_mapBay]
    rfl
  unfold Part.enterEmpty
  rw [← h2]
  exact h.arbiter _ _ ((Part.ArbiterOnly.mapBay _ _ _ rfl).trans (Part.ArbiterOnly.clearGrants _ _))
    (fun hg => hg.emptied b _ ⟨rfl, rfl⟩) h1

theorem withdrawTest (h : Closed P) (p : Part) (b : Bay) (hp : P p) : P (p.withdrawTest b) := by
  unfold Part.withdrawTest
  extract_lets u
  repeat' first
    | assumption
    | apply h.enterEmpty
    | apply h.answerPending
    | (refine h.bay _ _ _ (fun _ => ⟨rfl, rfl, rfl, rfl, rfl⟩) ?_)
    | split

theorem bayTest (h : Closed P) (p : Part) (b : Bay) (hp : P p) :
    P (p.bayTest b) := by
  unfold Part.bayTest
  extract_lets u1
  clear_value u1
  repeat' first
    | with_reducible assumption
    | (with_reducible refine h.bay _ _ _ (fun _ => ⟨rfl, rfl, rfl, rfl, rfl⟩) ?_)
    | with_reducible apply h.answerPending
    | with_reducible apply h.admitted
    | with_reducible apply h.withdrawTest
    | split

theorem identify (h : Closed P) (p : Part) (b : Bay) (s : Slot) (hp : P p) : P (p.identify b s) :=
  h.handIdentityRead _ _ _ (h.ctx _ _ _ _ (h.set_nextAdm p _ hp))

theorem heldRise (h : Closed P) (p : Part) (b : Bay) (s : Slot) (hp : P p) :
    P (p.heldRise b s) := by
  unfold Part.heldRise
  extract_lets u1
  clear_value u1
  repeat' first
    | with_reducible assumption
    | (with_reducible refine h.bay _ _ _ (fun _ => ⟨rfl, rfl, rfl, rfl, rfl⟩) ?_)
    | with_reducible apply h.identify
    | split

theorem rescanOver (h : Closed P) (p : Part) (b : Bay) (hp : P p) : P (p.rescanOver b) := by
  unfold Part.rescanOver
  split
  · exact h.set_sweep p _ hp
  · exact hp

theorem scanDry (h : Closed P) (p : Part) (b : Bay) (rescan : Bool) (hp : P p) : P (p.scanDry b rescan) := by
  unfold Part.scanDry
  extract_lets p1 p2 p3
  have h2 : P p2 := h.bay _ _ _ (fun _ => ⟨rfl, rfl, rfl, rfl, rfl⟩) (h.set_scan p _ hp)
  have h3 : P p3 := by
    simp only [p3]
    split
    · exact h2
    · exact h.notify _ _ (h.set_dry p2 _ h2)
  refine h.later _ _ ?_
  split
  · exact h.rescanOver _ _ h3
  · exact h3

theorem scanFrom (h : Closed P) (p : Part) (b : Bay) (rescan : Bool) (n left : Nat) (hp : P p) :
    P (p.scanFrom b rescan n left) := by
  unfold Part.scanFrom
  split
  · exact h.set_scan p _ hp
  · exact h.scanDry _ _ _ hp

theorem writer (h : Closed P) (p : Part) (hp : P p) :
    P (p.writer) := by
  unfold Part.writer
  extract_lets p1
  have hp1 : P p1 := by
    unfold p1
    repeat' first
      | with_reducible assumption
      | (with_reducible refine h.bay _ _ _ (fun _ => ⟨rfl, rfl, rfl, rfl, rfl⟩) ?_)
      | with_reducible apply h.scanFrom
      | with_reducible apply h.choose
      | (with_reducible refine fold (fun p x hp => ?_) _ _ ?_)
      | split
  clear_value p1
  repeat' first
    | with_reducible assumption
    | (with_reducible refine h.bay _ _ _ (fun _ => ⟨rfl, rfl, rfl, rfl, rfl⟩) ?_)
    | with_reducible apply h.scanFrom
    | with_reducible apply h.choose
    | (with_reducible refine fold (fun p x hp => ?_) _ _ ?_)
    | split

theorem orderHandled (h : Closed P) (p : Part) (o : OrderSlot) (hp : P p) : P (p.orderHandled o) := by
  unfold Part.orderHandled
  split
  · exact hp
  · exact h.set_takenWrite p _ hp

theorem rescan (h : Closed P) (p : Part) (k : PassKind) (hp : P p) : P (p.rescan k) :=
  h.later _ _ (h.rest p _ rfl rfl rfl rfl hp)

theorem leaveBehind (h : Closed P) (p : Part) (b : Bay) (s : Slot) (fall : Option Stamp) (hp : P p) :
    P (p.leaveBehind b s fall) := by
  unfold Part.leaveBehind
  repeat' first
    | with_reducible assumption
    | with_reducible apply h.ctx

theorem removeCtx (h : Closed P) (p : Part) (b : Bay) (s : Slot) (cause : Cause) (fall : Option Stamp) (hp : P p) :
    P (p.removeCtx b s cause fall) := by
  unfold Part.removeCtx
  extract_lets c1
  clear_value c1
  repeat' first
    | with_reducible assumption
    | with_reducible apply h.ctx
    | with_reducible apply h.withdrawEntries
    | with_reducible apply h.abort
    | with_reducible apply h.endWith
    | with_reducible apply h.endAtBoundary
    | with_reducible apply h.atBoundary
    | with_reducible apply h.leaveBehind
    | with_reducible apply h.becomeAbsent
    | split

theorem withdrawCtxs (h : Closed P) (p : Part) (b : Bay) (cause : Cause) (hp : P p) :
    P (p.withdrawCtxs b cause) := by
  unfold Part.withdrawCtxs
  extract_lets p1 owing2 rest3 p4
  clear_value owing2 rest3
  have hp1 : P p1 := by
    unfold p1
    repeat' first
      | with_reducible assumption
      | with_reducible apply h.later
      | with_reducible apply h.outputs
      | with_reducible apply h.removeCtx
      | (with_reducible refine fold (fun p x hp => ?_) _ _ ?_)
  clear_value p1
  have hp4 : P p4 := by
    unfold p4
    repeat' first
      | with_reducible assumption
      | with_reducible apply h.later
  clear_value p4
  repeat' first
    | with_reducible assumption
    | with_reducible apply h.later
    | with_reducible apply h.outputs

theorem clearQueues (h : Closed P) (p : Part) (b : Bay) (hp : P p) : P (p.clearQueues b) :=
  h.arbiter p _ (Part.ArbiterOnly.clearQueues p b) (fun hg => hg.clearQueues b) hp

theorem beginWithdraw (h : Closed P) (p : Part) (b : Bay) (cause : Cause) (hp : P p) :
    P (p.beginWithdraw b cause) := by
  unfold Part.beginWithdraw
  repeat' first
    | with_reducible assumption
    | (with_reducible refine h.bay _ _ _ (fun _ => ⟨rfl, rfl, rfl, rfl, rfl⟩) ?_)
    | with_reducible apply h.clearQueues
    | split

theorem beginStops (h : Closed P) (p : Part) (hp : P p) :
    P (p.beginStops) := by
  unfold Part.beginStops
  repeat' first
    | with_reducible assumption
    | with_reducible apply h.answerPending
    | with_reducible apply h.beginWithdraw
    | (with_reducible refine fold (fun p x hp => ?_) _ _ ?_)
    | split

theorem stopWithdrawals (h : Closed P) (p : Part) (hp : P p) : P p.stopWithdrawals := by
  unfold Part.stopWithdrawals
  extract_lets p1 p2
  have h1 : P p1 := h.rest p _ rfl rfl rfl rfl hp
  have h2 : P p2 := h.beginStops _ h1
  refine fold (fun p x hp => ?_) _ _ h2
  split
  · exact h.withdrawCtxs _ _ _ hp
  · exact hp

theorem nextTaking (h : Closed P) (p : Part) (rest : List OrderSlot) (hp : P p) : P (p.nextTaking rest) := by
  unfold Part.nextTaking
  split
  · refine h.rescan _ _ ?_
    split
    · exact h.stopWithdrawals _ hp
    · exact hp
  · split
    · exact h.rescan _ _ hp
    · exact h.set_sweep p _ hp

/-- Every consequence keeps a closed property. -/
theorem consequence (h : Closed P) (c : Conseq) (p : Part) (hp : P p) : P (Machine.consequence c p) := by
  unfold Machine.consequence
  cases c with
  | report b e r => exact h.onReport _ _ _ _ hp
  | linkNext b => exact h.linkNext _ _ hp
  | muteSlot b s => exact h.muteSlot _ _ _ hp
  | moduleMute b s => exact h.moduleMute _ _ _ hp
  | chanClosed c => exact h.onClosed _ _ hp
  | unloadDone c => exact h.onUnloaded _ _ hp
  | holdEnded c => exact h.onHoldEnded _ _ hp
  | chanOpen c => exact h.onOpen _ _ hp
  | releaseGo b s => exact h.releaseGo _ _ _ hp
  | output b s => exact h.output _ _ _ hp
  | boundary b s => exact h.atBoundary _ _ _ hp
  | roomMade b => exact h.roomMade _ _ hp
  | checkResult b s => exact h.checkResult _ _ _ hp
  | plateauReturn b s => exact h.returnToPlateau _ _ _ hp
  | startPlateau b s => exact h.startPlateau _ _ _ hp
  | closingTest z => exact h.closingTest _ _ hp
  | bayTest b => exact h.bayTest _ _ hp
  | heldRise b s => exact h.heldRise _ _ _ hp
  | writer => exact h.writer _ hp
  | orderHandled o => exact h.orderHandled _ _ hp
  | nextTaking rest => exact h.nextTaking _ _ hp

theorem set_todo (h : Closed P) (p : Part) (l : List Conseq) (hp : P p) : P { p with todo := l } := h.rest p _ rfl rfl rfl rfl hp

/-- Everything that a command owes keeps a closed property. -/
theorem settle (h : Closed P) (n : Nat) (p : Part) (hp : P p) : P (Machine.settle n p) := by
  induction n generalizing p with
  | zero => exact h.set_todo p _ hp
  | succ n ih =>
    unfold Machine.settle
    split
    · exact hp
    · exact ih _ (h.set_todo _ _ (h.consequence _ _ (h.set_todo p _ hp)))

end Closed

end Sys2Proof.Machine
end

