-- ==== Sys2Proof/Laws/Bays.lean ====
section
/-! SUPPORT. What leaving does to contexts, said once: the operations that change no context, what a withdrawal or a fall leaves
of the rest of the part (`Part.Within`), and what it makes of the context itself. -/

namespace Sys2Proof.Machine

/-! ### Operations that change no context -/

@[simp] theorem Part.ctx_mapZone (p : Part) (z : ZoneNo) (f : Zone → Zone) (b : Bay) (x : Slot) :
    (p.mapZone z f).ctx b x = p.ctx b x := rfl

@[simp] theorem Part.ctx_mapChan (p : Part) (c : Chan) (f : Channel → Channel) (b : Bay) (x : Slot) :
    (p.mapChan c f).ctx b x = p.ctx b x := rfl

@[simp] theorem Part.ctx_later (p : Part) (l : List Conseq) (b : Bay) (x : Slot) : (p.later l).ctx b x = p.ctx b x := rfl

@[simp] theorem Part.ctx_leaveZone (p : Part) (b : Bay) (s : Slot) (b' : Bay) (x : Slot) :
    (p.leaveZone b s).ctx b' x = p.ctx b' x := by
  unfold Part.leaveZone
  dsimp only
  split
  · split <;> rfl
  · rfl

@[simp] theorem Part.ctx_withdrawEntries (p : Part) (b : Bay) (s : Slot) (f : Entry → Bool) (b' : Bay) (x : Slot) :
    (p.withdrawEntries b s f).ctx b' x = p.ctx b' x := Part.ctx_mapLink _ _ _ _ _

/-- A change of a bay that leaves its contexts leaves every context. -/
theorem Part.ctx_mapBay_ctxs (p : Part) (b : Bay) (f : BayUnit → BayUnit) (hf : (f (p.bay b)).ctxs = (p.bay b).ctxs) (b' : Bay)
    (x : Slot) : (p.mapBay b f).ctx b' x = p.ctx b' x := by
  unfold Part.ctx BayUnit.ctx
  by_cases h : b = b'
  · subst h
    rw [Part.bay_mapBay, hf]
  · rw [Part.bay_mapBay_other _ _ h]

@[simp] theorem Part.ctx_leaveBusQueue (p : Part) (b : Bay) (s : Slot) (b' : Bay) (x : Slot) :
    (p.leaveBusQueue b s).ctx b' x = p.ctx b' x := Part.ctx_mapBay_ctxs p b _ rfl b' x

@[simp] theorem Part.ctx_leaveChanQueue (p : Part) (b : Bay) (s : Slot) (b' : Bay) (x : Slot) :
    (p.leaveChanQueue b s).ctx b' x = p.ctx b' x := rfl

@[simp] theorem Part.ctx_dropChan (p : Part) (c : Chan) (b : Bay) (x : Slot) : (p.dropChan c).ctx b x = p.ctx b x := by
  unfold Part.dropChan
  dsimp only
  split <;> rfl

@[simp] theorem Part.ctx_openChan (p : Part) (c : Chan) (b : Bay) (x : Slot) : (p.openChan c).ctx b x = p.ctx b x := by
  unfold Part.openChan
  dsimp only
  split
  · rfl
  · rfl
  · rfl
  · split
    · rfl
    · exact p.ctx_dropChan c b x

@[simp] theorem Part.ctx_abortChannel (p : Part) (c : Chan) (b : Bay) (x : Slot) : (p.abortChannel c).ctx b x = p.ctx b x := by
  unfold Part.abortChannel
  rw [Part.ctx_openChan, Part.ctx_dropChan]

@[simp] theorem Part.ctx_linkFall (p : Part) (b : Bay) (s : Slot) (b' : Bay) (x : Slot) :
    (p.linkFall b s).ctx b' x = p.ctx b' x := by
  unfold Part.linkFall
  exact (Part.ctx_later _ _ _ _).trans (Part.ctx_mapLink _ _ _ _ _)

/-- A notice changes the pending set and the messages alone. -/
theorem Part.notify_eq (p : Part) (n : Notice) : ∃ a m, p.notify n = { p with pendingSet := a, messages := m } := by
  unfold Part.notify
  split
  · exact ⟨p.pendingSet, p.messages, rfl⟩
  · dsimp only
    split
    · exact ⟨_, _, rfl⟩
    · exact ⟨_, _, rfl⟩

/-- A hand-over changes the link of its bay, the count of hand-overs and what is owed. -/
theorem Part.handOver_eq (p : Part) (b : Bay) (e : Entry) :
    ∃ l t, (p.handOver b e).2 = { p.mapLink b (fun _ => l) with handovers := p.handovers + 1, todo := t } := by
  have hid : ∀ q : Part, q.mapLink b (fun _ => q.link b) = q := by
    intro q
    have h : q.bays.set b.val { q.bay b with link := (q.bay b).link } b.isLt = q.bays := by
      show q.bays.set b.val q.bays[b.val] b.isLt = q.bays
      simp
    show ({ q with bays := q.bays.set b.val { q.bay b with link := (q.bay b).link } b.isLt } : Part) = q
    rw [h]
  unfold Part.handOver
  dsimp only
  split
  · exact ⟨p.link b, _, by rw [hid]; rfl⟩
  · split
    · split
      · exact ⟨_, p.todo, rfl⟩
      · exact ⟨_, p.todo, rfl⟩
    · split
      · exact ⟨_, p.todo, rfl⟩
      · exact ⟨p.link b, p.todo, by rw [hid]⟩

/-- With no entry in the bus-lock queue a bus given up is free, and no context changes. -/
theorem Part.giveUpBus_eq (p : Part) (b : Bay) (s : Slot) (h : (p.bay b).busQueue = []) :
    p.giveUpBus b s = p ∨ p.giveUpBus b s = p.mapBay b (fun u => { u with busHolder := none }) := by
  unfold Part.giveUpBus Part.releaseBus
  split
  · split
    · rw [h]
      exact .inr rfl
    · exact .inl rfl
  · exact .inl rfl

/-- The entries of a link whose line has filled the room in its queue. -/
theorem Link.mem_refill (l : Link) (e : Entry) : e ∈ l.refill.queue ++ l.refill.line ↔ e ∈ l.queue ++ l.line := by
  unfold Link.refill
  simp only [List.append_assoc, List.take_append_drop]

/-- The entries that stay in a link when those that meet `f` are taken out. -/
theorem Link.mem_remove (f : Entry → Bool) (l : Link) (e : Entry) :
    e ∈ (l.remove f).queue ++ (l.remove f).line ↔ e ∈ l.queue ++ l.line ∧ f e = false := by
  unfold Link.remove
  rw [Link.mem_refill]
  simp only [List.mem_append, List.mem_filter, Bool.not_eq_true']
  tauto

/-! ### What a disturbance changes (R89) -/

theorem Channel.unload_owner (c : Channel) : c.unload.1.owner = c.owner := by
  unfold Channel.unload
  split
  · split <;> first | rfl | (split <;> rfl)
  · rfl

theorem Part.chanOf_owner {p : Part} {b : Bay} {x : Slot} {k : Chan} (h : p.chanOf b x = some k) :
    (p.chan k).owner = some (b, x) := by
  unfold Part.chanOf at h
  simpa using List.find?_some h

theorem BayUnit.mapCtx_self (u : BayUnit) (s : Slot) : u.mapCtx s (fun _ => u.ctx s) = u := by
  unfold BayUnit.mapCtx BayUnit.ctx
  simp

theorem Part.mapBay_self (p : Part) (b : Bay) : p.mapBay b (fun _ => p.bay b) = p := by
  unfold Part.mapBay Part.bay
  simp

theorem Part.mapBay_ctx_self (p : Part) (b : Bay) (y : Slot) : p.mapBay b (fun u => u.mapCtx y (fun _ => p.ctx b y)) = p :=
  (Part.mapBay_congr p b (g := fun _ => p.bay b) (BayUnit.mapCtx_self _ _)).trans (Part.mapBay_self p b)

/-- What a check does to itself alone: `q` is `p` with the context of slot `y`, the channel that it owns and what is owed changed. -/
structure Part.CheckOnly (b : Bay) (y : Slot) (p q : Part) : Prop where
  eq    : ∃ c chans l, q = { p.mapBay b (fun u => u.mapCtx y (fun _ => c)) with chans := chans, todo := p.todo ++ l }
  owner : ∀ k, (q.chan k).owner = (p.chan k).owner
  chan  : ∀ k, (p.chan k).owner ≠ some (b, y) → q.chan k = p.chan k

namespace Part.CheckOnly

variable {b : Bay} {y : Slot} {p q r : Part}

theorem mapCtx (p : Part) (f : Ctx → Ctx) : p.CheckOnly b y (p.mapCtx b y f) where
  eq := ⟨f (p.ctx b y), p.chans, [], by
    rw [List.append_nil]
    exact Part.mapBay_congr p b rfl⟩
  owner _ := rfl
  chan _ _ := rfl

theorem trans (h : p.CheckOnly b y q) (k : q.CheckOnly b y r) : p.CheckOnly b y r where
  eq := by
    obtain ⟨c, ch, l, rfl⟩ := h.eq
    obtain ⟨c', ch', l', rfl⟩ := k.eq
    refine ⟨c', ch', l ++ l', ?_⟩
    have h1 := Part.mapBay_mapBay p b (fun u => u.mapCtx y (fun _ => c)) (fun u => u.mapCtx y (fun _ => c'))
    have h2 : (fun u : BayUnit => (u.mapCtx y (fun _ => c)).mapCtx y (fun _ => c')) = (fun u => u.mapCtx y (fun _ => c')) := by
      funext u
      unfold BayUnit.mapCtx
      simp
    rw [h2] at h1
    have h3 : Part.mapBay { p.mapBay b (fun u => u.mapCtx y (fun _ => c)) with chans := ch, todo := p.todo ++ l } b
        (fun u => u.mapCtx y (fun _ => c')) =
        { (p.mapBay b (fun u => u.mapCtx y (fun _ => c))).mapBay b (fun u => u.mapCtx y (fun _ => c')) with
          chans := ch, todo := p.todo ++ l } := rfl
    rw [h3, h1, List.append_assoc]
  owner i := (k.owner i).trans (h.owner i)
  chan i hi := (k.chan i (by rw [h.owner]; exact hi)).trans (h.chan i hi)

theorem later (p : Part) (l : List Conseq) : p.CheckOnly b y (p.later l) where
  eq := ⟨p.ctx b y, p.chans, l, by
    rw [Part.mapBay_ctx_self]
    rfl⟩
  owner _ := rfl
  chan _ _ := rfl

theorem mapChan (p : Part) (k : Chan) (f : Channel → Channel) (hk : (p.chan k).owner = some (b, y))
    (hf : (f (p.chan k)).owner = (p.chan k).owner) : p.CheckOnly b y (p.mapChan k f) where
  eq := ⟨p.ctx b y, (p.mapChan k f).chans, [], by
    rw [Part.mapBay_ctx_self, List.append_nil]
    rfl⟩
  owner i := by
    by_cases h : k = i
    · subst h
      rw [Part.chan_mapChan]
      exact hf
    · rw [Part.chan_mapChan_other _ _ h]
  chan i hi := by
    by_cases h : k = i
    · subst h
      exact absurd hk hi
    · rw [Part.chan_mapChan_other _ _ h]

theorem unloadChan (p : Part) (k : Chan) (hk : (p.chan k).owner = some (b, y)) : p.CheckOnly b y (p.unloadChan k) := by
  unfold Part.unloadChan
  dsimp only
  have h := mapChan (b := b) (y := y) p k (fun _ => (p.chan k).unload.1) hk (Channel.unload_owner _)
  split
  · exact h.trans (later _ _)
  · exact h

theorem enterRelease (p : Part) : p.CheckOnly b y (p.enterRelease b y) := by
  unfold Part.enterRelease
  extract_lets shares q
  have h : p.CheckOnly b y q := (mapCtx p _).trans (mapCtx _ _)
  split
  · rename_i k hk
    have ho := Part.chanOf_owner hk
    refine h.trans ((mapChan _ k Channel.disarm ho rfl).trans (unloadChan _ k ?_))
    rw [Part.chan_mapChan]
    exact ho
  · exact h.trans ((mapCtx _ _).trans (later _ _))

end Part.CheckOnly

/-- The presence change of slot `x` does nothing to a check, or disturbs that of another slot `y`, the bus holder; in PREPARE its
isolating, participating and own entries are taken out of the link as well. -/
theorem Part.disturbBay_only (p : Part) (b : Bay) (x : Slot) :
    p.disturbBay b x = p ∨ ∃ y, (p.bay b).busHolder = some y ∧ y ≠ x ∧
      (p.CheckOnly b y (p.disturbBay b x) ∨ (p.ctx b y).phase = .prepare ∧ ∃ f : Entry → Bool,
        (∀ e, f e = true → e.who = p.requester b y ∧ e.purpose ∉ [.restore, .identify]) ∧
        (p.mapLink b (Link.remove f)).CheckOnly b y (p.disturbBay b x)) := by
  unfold Part.disturbBay
  split
  · exact .inl rfl
  · rename_i y hy
    dsimp only
    split
    · rename_i hc
      simp only [Bool.and_eq_true, bne_iff_ne] at hc
      refine .inr ⟨y, hy, hc.1.1.1, ?_⟩
      unfold Part.disturb
      extract_lets c q
      have h0 : p.CheckOnly b y q := .mapCtx p _
      split
      · rename_i hp
        let own : Entry → Bool := fun e => e.purpose == .isolate || e.purpose == .participate || e.purpose == .own
        refine .inr ⟨hp, (fun e => e.who == p.requester b y && own e), ?_, ?_⟩
        · intro e he
          simp only [own, Bool.and_eq_true, Bool.or_eq_true, beq_iff_eq] at he
          refine ⟨he.1, ?_⟩
          rcases he.2 with (h | h) | h <;> rw [h] <;> simp
        · have hw : q.requester b y = p.requester b y := by
            unfold Part.requester
            rw [show q.ctx b y = _ from Part.ctx_mapCtx p b y _]
            rfl
          have hs : q.withdrawEntries b y own = (p.mapLink b (Link.remove (fun e => e.who == p.requester b y && own e))).mapWork b y
              (fun w => { w with outcome := .disturbed, stamp := some p.stamp }) := by
            unfold Part.withdrawEntries
            dsimp only
            rw [hw]
            simp only [q]
            unfold Part.mapLink Part.mapWork Part.mapCtx
            rw [Part.mapBay_mapBay, Part.mapBay_mapBay]
            rfl
          refine Part.CheckOnly.trans ?_ ((Part.CheckOnly.mapCtx _ _).trans (Part.CheckOnly.enterRelease _))
          rw [hs]
          exact .mapCtx _ _
      · exact .inl (h0.trans (.enterRelease _))
      · exact .inl (h0.trans (.enterRelease _))
      · exact .inl h0
    · exact .inl rfl

/-- What the presence change of slot `x` leaves as it was in its bay and elsewhere (R5, R6, R89). -/
structure Part.Disturbance (b : Bay) (x : Slot) (p q : Part) : Prop where
  eq    : ∃ bays chans l, q = { p with bays := bays, chans := chans, todo := p.todo ++ l }
  bays  : ∀ c, c ≠ b → q.bay c = p.bay c
  bay   : ∃ cs l, q.bay b = { p.bay b with ctxs := cs, link := l }
  ctx   : ∀ y, y = x ∨ (p.bay b).busHolder ≠ some y → q.ctx b y = p.ctx b y
  link  : q.link b = p.link b ∨ ∃ y f, (p.bay b).busHolder = some y ∧ y ≠ x ∧ (p.ctx b y).phase = .prepare ∧
    q.link b = (p.link b).remove f ∧ ∀ e, f e = true → e.who = p.requester b y ∧ e.purpose ∉ [.restore, .identify]
  owner : ∀ k, (q.chan k).owner = (p.chan k).owner
  chan  : ∀ k, (p.chan k).owner = some (b, x) → q.chan k = p.chan k

theorem Part.Disturbance.refl (p : Part) (b : Bay) (x : Slot) : p.Disturbance b x p :=
  ⟨⟨p.bays, p.chans, [], by rw [List.append_nil]⟩, fun _ _ => rfl, ⟨_, _, rfl⟩, fun _ _ => rfl, .inl rfl, fun _ => rfl,
    fun _ _ => rfl⟩

/-- A check that changes itself alone, once the link of its bay is as `g` leaves it. -/
theorem Part.CheckOnly.disturbance {p q : Part} {b : Bay} {x y : Slot} {g : Link → Link} (hy : (p.bay b).busHolder = some y)
    (hx : y ≠ x)
    (hg : g (p.link b) = p.link b ∨ (p.ctx b y).phase = .prepare ∧ ∃ f, g (p.link b) = (p.link b).remove f ∧
      ∀ e, f e = true → e.who = p.requester b y ∧ e.purpose ∉ [.restore, .identify])
    (h : (p.mapLink b g).CheckOnly b y q) : p.Disturbance b x q := by
  obtain ⟨c, ch, l, hq⟩ := h.eq
  have hl : (p.mapLink b g).bay b = { p.bay b with link := g (p.bay b).link } :=
    Part.bay_mapBay p b (fun u => { u with link := g u.link })
  have hb : q.bay b = { (p.bay b).mapCtx y (fun _ => c) with link := g (p.link b) } := by
    rw [hq]
    have h1 := Part.bay_mapBay (p.mapLink b g) b (fun u => u.mapCtx y (fun _ => c))
    rw [hl] at h1
    exact h1
  refine ⟨⟨_, ch, l, hq⟩, fun d hd => ?_, ⟨_, _, hb⟩, fun z hz => ?_, ?_, h.owner, fun k hk => h.chan k ?_⟩
  · rw [hq]
    have h1 := Part.bay_mapBay_other (p.mapLink b g) (fun u => u.mapCtx y (fun _ => c)) (Ne.symm hd)
    have h2 := Part.bay_mapBay_other p (fun u => { u with link := g u.link }) (Ne.symm hd)
    exact h1.trans h2
  · have hzy : y ≠ z := by
      rintro rfl
      rcases hz with h | h
      · exact hx h
      · exact h hy
    unfold Part.ctx
    rw [hb]
    show ((p.bay b).mapCtx y (fun _ => c)).ctx z = _
    rw [BayUnit.ctx_mapCtx_other _ _ hzy]
  · unfold Part.link at *
    rw [hb]
    rcases hg with hg | ⟨h1, f, h2, h3⟩
    · exact .inl hg
    · exact .inr ⟨y, f, hy, hx, h1, h2, h3⟩
  · show (p.chan k).owner ≠ _
    rw [hk]
    intro e
    injection e with e
    injection e with _ e
    exact hx e.symm

theorem Part.disturbBay_does (p : Part) (b : Bay) (x : Slot) : p.Disturbance b x (p.disturbBay b x) := by
  rcases Part.disturbBay_only p b x with h | ⟨y, hy, hx, h | ⟨hp, f, hf, h⟩⟩
  · rw [h]
    exact .refl p b x
  · refine Part.CheckOnly.disturbance (g := id) hy hx (.inl rfl) ?_
    have hi : p.mapLink b id = p := (Part.mapBay_congr p b (g := fun _ => p.bay b) rfl).trans (Part.mapBay_self p b)
    rw [hi]
    exact h
  · exact Part.CheckOnly.disturbance hy hx (.inr ⟨hp, f, rfl, hf⟩) h

/-! ### What is within a context's reach -/

/-- A list of members replaced is all that leaving makes of a zone. -/
def Zone.SameBut (y z : Zone) : Prop := ∃ l, z = { y with joined := l }

theorem Zone.SameBut.refl (y : Zone) : y.SameBut y := ⟨y.joined, rfl⟩

theorem Zone.SameBut.trans {x y z : Zone} (h : x.SameBut y) (k : y.SameBut z) : x.SameBut z := by
  obtain ⟨_, rfl⟩ := h
  obtain ⟨_, rfl⟩ := k
  exact ⟨_, rfl⟩

/-- The state of a bay and its pending long order are the same. -/
def BayUnit.SameState (u v : BayUnit) : Prop := v.state = u.state ∧ v.pendingOrder = u.pendingOrder

/-- `q` is `p` as far as a context of bay `b`, leaving, does not reach: the other bays, the state and the pending order of its own, the
answers, the zones but for their lists. -/
structure Part.Apart (b : Bay) (p q : Part) : Prop where
  others  : ∀ c, c ≠ b → q.bay c = p.bay c
  own     : (p.bay b).SameState (q.bay b)
  answers : q.answers = p.answers
  still   : q.still = p.still
  zones   : ∀ z, (p.zone z).SameBut (q.zone z)

namespace Part.Apart

variable {b : Bay} {p q r : Part}

theorem refl (p : Part) : p.Apart b p := ⟨fun _ _ => rfl, ⟨rfl, rfl⟩, rfl, rfl, fun _ => .refl _⟩

theorem trans (h : p.Apart b q) (k : q.Apart b r) : p.Apart b r :=
  ⟨fun c hc => (k.others c hc).trans (h.others c hc), ⟨k.own.1.trans h.own.1, k.own.2.trans h.own.2⟩, k.answers.trans h.answers,
    k.still.trans h.still, fun z => (h.zones z).trans (k.zones z)⟩

theorem mapBay (p : Part) (f : BayUnit → BayUnit) (hf : ∀ u : BayUnit, u.SameState (f u) := by exact fun _ => ⟨rfl, rfl⟩) :
    p.Apart b (p.mapBay b f) :=
  ⟨fun _ hc => Part.bay_mapBay_other _ _ (Ne.symm hc), by rw [Part.bay_mapBay]; exact hf _, rfl, rfl, fun _ => .refl _⟩

theorem mapChan (p : Part) (c : Chan) (f : Channel → Channel) : p.Apart b (p.mapChan c f) :=
  ⟨fun _ _ => rfl, ⟨rfl, rfl⟩, rfl, rfl, fun _ => .refl _⟩

theorem queue (p : Part) (l : List ChanEntry) : p.Apart b { p with chanQueue := l } :=
  ⟨fun _ _ => rfl, ⟨rfl, rfl⟩, rfl, rfl, fun _ => .refl _⟩

theorem later (p : Part) (l : List Conseq) : p.Apart b (p.later l) := ⟨fun _ _ => rfl, ⟨rfl, rfl⟩, rfl, rfl, fun _ => .refl _⟩

theorem free (p : Part) (n : Nat) : p.Apart b { p with free := n } := ⟨fun _ _ => rfl, ⟨rfl, rfl⟩, rfl, rfl, fun _ => .refl _⟩

theorem leave (p : Part) (x : Bay) (s : Slot) (z : ZoneNo) : p.Apart b (p.mapZone z (Zone.leave x s)) where
  others _ _ := rfl
  own := ⟨rfl, rfl⟩
  answers := rfl
  still := rfl
  zones y := by
    by_cases h : z = y
    · subst h
      rw [Part.zone_mapZone]
      exact ⟨_, rfl⟩
    · rw [Part.zone_mapZone_other _ _ h]
      exact .refl _

theorem setPhase (p : Part) (s : Slot) (ph : Phase) : p.Apart b (p.setPhase b s ph) :=
  mapBay p (fun u => u.mapCtx s (fun c => { c with phase := ph }))

theorem requestChan (p : Part) (s : Slot) : p.Apart b (p.requestChan b s) := by
  unfold Part.requestChan
  split
  · exact (mapChan p _ _).trans (setPhase _ s .connect)
  · exact queue p _

theorem releaseBus (p : Part) : p.Apart b (p.releaseBus b) := by
  unfold Part.releaseBus
  split
  · split
    · exact mapBay p (fun u => { u with busHolder := none })
    · exact (((mapBay p (fun u => { u with busHolder := none, busQueue := _ })).trans
        (mapBay _ (fun u => { u with busHolder := some _ }))).trans (setPhase _ _ .channelWait)).trans (requestChan _ _)
  · exact refl p

end Part.Apart

/-- What a context of slot `s` of bay `b`, leaving, does not reach: `Part.Apart`; and, with no entry in the bay's bus-lock queue, the
other contexts of the bay and its state, and what stood in no queue before. -/
structure Part.Within (b : Bay) (s : Slot) (p q : Part) : Prop where
  apart : p.Apart b q
  bay   : (p.bay b).busQueue = [] → ∃ cs l h, q.bay b = { p.bay b with ctxs := cs, link := l, busHolder := h }
  ctxs  : (p.bay b).busQueue = [] → ∀ y, y ≠ s → q.ctx b y = p.ctx b y
  queue : (p.bay b).busQueue = [] → ∀ e ∈ q.chanQueue, e ∈ p.chanQueue

namespace Part.Within

variable {b : Bay} {s : Slot} {p q r : Part}

theorem busQueue (h : p.Within b s q) (hq : (p.bay b).busQueue = []) : (q.bay b).busQueue = [] := by
  obtain ⟨_, _, _, h1⟩ := h.bay hq
  rw [h1]
  exact hq

theorem refl (p : Part) : p.Within b s p := ⟨.refl p, fun _ => ⟨_, _, _, rfl⟩, fun _ _ _ => rfl, fun _ _ h => h⟩

theorem trans (h : p.Within b s q) (k : q.Within b s r) : p.Within b s r where
  apart := h.apart.trans k.apart
  bay hq := by
    obtain ⟨_, _, _, h1⟩ := h.bay hq
    obtain ⟨_, _, _, h2⟩ := k.bay (h.busQueue hq)
    exact ⟨_, _, _, by rw [h2, h1]⟩
  ctxs hq y hy := (k.ctxs (h.busQueue hq) y hy).trans (h.ctxs hq y hy)
  queue hq e he := h.queue hq e (k.queue (h.busQueue hq) e he)

theorem mapCtx (p : Part) (f : Ctx → Ctx) : p.Within b s (p.mapCtx b s f) where
  apart := .mapBay p _
  bay _ := ⟨_, (p.bay b).link, (p.bay b).busHolder, by unfold Part.mapCtx; rw [Part.bay_mapBay]; rfl⟩
  ctxs _ _ hy := Part.ctx_mapCtx_other _ _ _ (Ne.symm hy)
  queue _ _ h := h

theorem mapWork (p : Part) (f : Work → Work) : p.Within b s (p.mapWork b s f) := mapCtx p _

theorem mapLink (p : Part) (f : Link → Link) : p.Within b s (p.mapLink b f) where
  apart := .mapBay p _
  bay _ := ⟨(p.bay b).ctxs, _, (p.bay b).busHolder, by unfold Part.mapLink; rw [Part.bay_mapBay]⟩
  ctxs _ _ _ := Part.ctx_mapLink _ _ _ _ _
  queue _ _ h := h

theorem holder (p : Part) (f : Option Slot → Option Slot) :
    p.Within b s (p.mapBay b (fun u => { u with busHolder := f u.busHolder })) where
  apart := .mapBay p _
  bay _ := ⟨(p.bay b).ctxs, (p.bay b).link, _, by rw [Part.bay_mapBay]⟩
  ctxs _ y _ := Part.ctx_mapBay_ctxs p b _ rfl b y
  queue _ _ h := h

theorem later (p : Part) (l : List Conseq) : p.Within b s (p.later l) :=
  ⟨.later p l, fun _ => ⟨_, _, _, rfl⟩, fun _ _ _ => rfl, fun _ _ h => h⟩

theorem chans (p : Part) (c : Chan) (f : Channel → Channel) : p.Within b s (p.mapChan c f) :=
  ⟨.mapChan p c f, fun _ => ⟨_, _, _, rfl⟩, fun _ _ _ => rfl, fun _ _ h => h⟩

theorem leave (p : Part) (z : ZoneNo) : p.Within b s (p.mapZone z (Zone.leave b s)) :=
  ⟨.leave p b s z, fun _ => ⟨_, _, _, rfl⟩, fun _ _ _ => rfl, fun _ _ h => h⟩

theorem free (p : Part) (n : Nat) : p.Within b s { p with free := n } :=
  ⟨.free p n, fun _ => ⟨_, _, _, rfl⟩, fun _ _ _ => rfl, fun _ _ h => h⟩

theorem withdrawEntries (p : Part) (f : Entry → Bool) : p.Within b s (p.withdrawEntries b s f) := mapLink p _

theorem leaveZone (p : Part) : p.Within b s (p.leaveZone b s) := by
  unfold Part.leaveZone
  dsimp only
  split
  · split
    · exact (leave p _).trans (later _ _)
    · exact leave p _
  · exact refl p

theorem leaveBusQueue (p : Part) : p.Within b s (p.leaveBusQueue b s) where
  apart := .mapBay p _
  bay h := ⟨(p.bay b).ctxs, (p.bay b).link, (p.bay b).busHolder, by
    unfold Part.leaveBusQueue
    rw [Part.bay_mapBay, h, List.filter_nil]
    rw [← h]⟩
  ctxs _ _ _ := Part.ctx_leaveBusQueue _ _ _ _ _
  queue _ _ h := h

theorem leaveChanQueue (p : Part) : p.Within b s (p.leaveChanQueue b s) :=
  ⟨.queue p _, fun _ => ⟨_, _, _, rfl⟩, fun _ _ _ => rfl, fun _ _ h => (List.mem_filter.mp h).1⟩

theorem giveUpBus (p : Part) : p.Within b s (p.giveUpBus b s) where
  apart := by
    unfold Part.giveUpBus
    split
    · exact .releaseBus p
    · exact .refl p
  bay h := by
    rcases p.giveUpBus_eq b s h with h' | h' <;> rw [h']
    · exact (refl (b := b) (s := s) p).bay h
    · exact (holder (b := b) (s := s) p (fun _ => none)).bay h
  ctxs h := by
    rcases p.giveUpBus_eq b s h with h' | h' <;> rw [h']
    · exact (refl (b := b) (s := s) p).ctxs h
    · exact (holder (b := b) (s := s) p (fun _ => none)).ctxs h
  queue h := by
    rcases p.giveUpBus_eq b s h with h' | h' <;> rw [h']
    · exact (refl (b := b) (s := s) p).queue h
    · exact (holder (b := b) (s := s) p (fun _ => none)).queue h

theorem dropChan (p : Part) (c : Chan) : p.Within b s (p.dropChan c) := by
  unfold Part.dropChan
  dsimp only
  split
  · exact (chans p _ _).trans (later _ _)
  · exact chans p _ _

theorem openChan (p : Part) (c : Chan) : p.Within b s (p.openChan c) := by
  unfold Part.openChan
  dsimp only
  split
  · exact later p _
  · exact refl p
  · exact chans p _ _
  · split
    · exact chans p _ _
    · exact (dropChan p c).trans (chans _ _ _)

theorem abortChannel (p : Part) (c : Chan) : p.Within b s (p.abortChannel c) := (dropChan p c).trans (openChan _ c)

theorem composeAbort (p : Part) : p.Within b s (p.composeAbort b s) := by
  unfold Part.composeAbort
  dsimp only
  split
  · exact refl p
  · exact mapCtx p _

theorem leaveBehind (p : Part) (t : Option Stamp) : p.Within b s (p.leaveBehind b s t) := mapCtx p _

theorem endAtBoundary (p : Part) (cause : Cause) : p.Within b s (p.endAtBoundary b s cause) := (leaveZone p).trans (mapCtx _ _)

theorem becomeAbsent (p : Part) : p.Within b s (p.becomeAbsent b s) :=
  ((withdrawEntries p _).trans (mapCtx _ _)).trans (later _ _)

theorem abortBefore (p : Part) (cause : Cause) : p.Within b s (p.abortBefore b s cause) := by
  unfold Part.abortBefore
  extract_lets c number started stage p1 p2 p3 p4 p5
  have h5 : p.Within b s p5 :=
    ((((free p _).trans (mapWork _ _)).trans (withdrawEntries _ _)).trans (mapWork _ _)).trans (leaveZone _)
  clear_value p5 started stage
  split
  · exact (h5.trans (leaveBusQueue p5)).trans (composeAbort _)
  · exact ((h5.trans (leaveChanQueue p5)).trans (composeAbort _)).trans (giveUpBus _)
  · exact h5.trans (composeAbort _)
  · split
    · exact ((h5.trans (mapCtx p5 _)).trans (mapWork _ _)).trans (abortChannel _ _)
    · split
      · exact h5.trans (later _ _)
      · exact h5.trans (composeAbort _)

theorem abort (p : Part) (cause : Cause) : p.Within b s (p.abort b s cause) := by
  unfold Part.abort
  dsimp only
  split
  · exact refl p
  · split
    · exact ((withdrawEntries p _).trans (leaveZone _)).trans (mapCtx _ _)
    · exact abortBefore p cause

/-- A context that leaves reaches no further. -/
theorem removeCtx (p : Part) (cause : Cause) (t : Option Stamp) : p.Within b s (p.removeCtx b s cause t) := by
  unfold Part.removeCtx
  extract_lets c
  split
  · exact refl p
  · split
    · exact leaveBehind p t
    · split
      · exact (withdrawEntries p _).trans (leaveBehind _ _)
      · exact (endAtBoundary p _).trans (leaveBehind _ _)
      · exact (endAtBoundary p _).trans (leaveBehind _ _)
      · split
        · exact ((withdrawEntries p _).trans (mapCtx _ _)).trans (leaveBehind _ _)
        · split
          · exact (endAtBoundary p _).trans (leaveBehind _ _)
          · split
            · exact (abort p cause).trans (leaveBehind _ _)
            · exact (mapCtx p (fun c => { c with exit := .leaving, fellAt := t })).trans (abort _ cause)
      · split
        · exact becomeAbsent p
        · exact leaveBehind p t

end Part.Within

/-! ### What becomes of the context itself -/

theorem Part.ctx_composeAbort (p : Part) (b : Bay) (s : Slot) (h : (p.ctx b s).exit = .leaving) :
    ((p.composeAbort b s).ctx b s).state = (p.ctx b s).state ∧ ((p.composeAbort b s).ctx b s).exit = .leaving ∧
      ((p.composeAbort b s).ctx b s).work = (p.ctx b s).work := by
  unfold Part.composeAbort
  dsimp only
  split
  · exact ⟨rfl, h, rfl⟩
  · rw [Part.ctx_mapCtx]
    refine ⟨rfl, ?_, rfl⟩
    show (if (p.ctx b s).exit = .leaving then Exit.leaving else Exit.ending) = .leaving
    rw [if_pos h]

/-- A context within a check that leaves is aborted with its cause, whatever the phase it is found in. -/
theorem Part.ctx_abortBefore (p : Part) (b : Bay) (s : Slot) (cause : Cause) (hq : (p.bay b).busQueue = [])
    (h : (p.ctx b s).exit = .leaving) :
    ((p.abortBefore b s cause).ctx b s).state = (p.ctx b s).state ∧ ((p.abortBefore b s cause).ctx b s).exit = .leaving ∧
      ((p.abortBefore b s cause).ctx b s).work.aborting = some cause := by
  unfold Part.abortBefore
  extract_lets c number started stage p1 p2 p3 p4 p5
  have h5 : (p5.ctx b s).state = (p.ctx b s).state ∧ (p5.ctx b s).exit = .leaving ∧ (p5.ctx b s).work.aborting = some cause := by
    have e2 : (p2.ctx b s).state = (p.ctx b s).state ∧ (p2.ctx b s).exit = .leaving ∧ (p2.ctx b s).work.aborting = some cause := by
      rw [show p2.ctx b s = _ from Part.ctx_mapWork p1 b s _]
      exact ⟨rfl, h, rfl⟩
    have e3 : p3.ctx b s = p2.ctx b s := Part.ctx_withdrawEntries _ _ _ _ _ _
    have e4 : (p4.ctx b s).state = (p3.ctx b s).state ∧ (p4.ctx b s).exit = (p3.ctx b s).exit ∧
        (p4.ctx b s).work.aborting = (p3.ctx b s).work.aborting := by
      rw [show p4.ctx b s = _ from Part.ctx_mapWork p3 b s _]
      exact ⟨rfl, rfl, rfl⟩
    have e5 : p5.ctx b s = p4.ctx b s := Part.ctx_leaveZone _ _ _ _ _
    rw [e5, e4.1, e4.2.1, e4.2.2, e3]
    exact e2
  have hq5 : (p5.bay b).busQueue = [] :=
    ((((((Within.free p (p.free + 1)).trans (Within.mapWork p1 _)).trans (Within.withdrawEntries p2 _)).trans
      (Within.mapWork p3 _)).trans (Within.leaveZone p4)).busQueue (s := s)) hq
  clear_value p5 started stage
  obtain ⟨hs, hx, ha⟩ := h5
  split
  · obtain ⟨k1, k2, k3⟩ := (p5.leaveBusQueue b s).ctx_composeAbort b s (by rwa [Part.ctx_leaveBusQueue])
    rw [Part.ctx_leaveBusQueue] at k1 k3
    exact ⟨k1.trans hs, k2, by rw [k3, ha]⟩
  · obtain ⟨k1, k2, k3⟩ := (p5.leaveChanQueue b s).ctx_composeAbort b s (by rwa [Part.ctx_leaveChanQueue])
    rw [Part.ctx_leaveChanQueue] at k1 k3
    have hq6 : (((p5.leaveChanQueue b s).composeAbort b s).bay b).busQueue = [] :=
      ((Within.leaveChanQueue (s := s) p5).trans (Within.composeAbort _)).busQueue hq5
    have he : (((p5.leaveChanQueue b s).composeAbort b s).giveUpBus b s).ctx b s =
        ((p5.leaveChanQueue b s).composeAbort b s).ctx b s := by
      rcases Part.giveUpBus_eq _ b s hq6 with h | h
      · rw [h]
      · rw [h]
        exact Part.ctx_mapBay_ctxs _ _ _ rfl _ _
    rw [he]
    exact ⟨k1.trans hs, k2, by rw [k3, ha]⟩
  · obtain ⟨k1, k2, k3⟩ := p5.ctx_composeAbort b s hx
    exact ⟨k1.trans hs, k2, by rw [k3, ha]⟩
  · split
    · rw [Part.ctx_abortChannel, Part.ctx_mapWork]
      unfold Part.setPhase
      rw [Part.ctx_mapCtx]
      exact ⟨hs, hx, ha⟩
    · split
      · exact ⟨hs, hx, ha⟩
      · obtain ⟨k1, k2, k3⟩ := p5.ctx_composeAbort b s hx
        exact ⟨k1.trans hs, k2, by rw [k3, ha]⟩

/-- A context that waits for its STOP_OUTPUT is RUNNING. -/
theorem Ctx.stopping_running {c : Ctx} (h : c.stopping = true) : c.state = .running ∧ c.exit = .stay := by
  unfold Ctx.stopping at h
  simp only [Bool.and_eq_true, beq_iff_eq] at h
  exact ⟨h.1.1.1, h.2⟩

/-- What a withdrawal makes of a context (R22). -/
theorem Part.removeCtx_withdrawnAs (p : Part) (b : Bay) (s : Slot) (cause : Cause) (hq : (p.bay b).busQueue = []) :
    (p.ctx b s).WithdrawnAs cause ((p.removeCtx b s cause none).ctx b s) := by
  refine ⟨fun h => ?_, fun h => ?_, fun he hs => ?_, fun he hs => ?_, fun hi hr ha => ?_⟩
  · unfold Part.removeCtx
    dsimp only
    rw [if_pos (by rcases h with h | h <;> simp [h])]
  · have hne : ¬ (((p.ctx b s).state == .absent || (p.ctx b s).exit == .leaving) = true) := by
      rcases h with ⟨h1, h2⟩ | ⟨h1, h2⟩ <;> simp [h1, h2]
    have hn2 : ¬ (((p.ctx b s).exit == .ending && (p.ctx b s).state != .ended) = true) := by
      rcases h with ⟨h1, h2⟩ | ⟨h1, h2⟩ <;> simp [h1, h2]
    unfold Part.removeCtx
    dsimp only
    rw [if_neg hne, if_neg hn2]
    have hb : (p.becomeAbsent b s).ctx b s = Ctx.reset := by
      unfold Part.becomeAbsent
      rw [Part.ctx_later, Part.ctx_mapCtx]
    rcases h with ⟨h1, h2⟩ | ⟨h1, h2⟩
    · rw [h1]
      exact hb
    · rw [h1]
      exact hb
  · unfold Part.removeCtx Part.leaveBehind
    dsimp only
    rw [if_neg (by simp [hs, he]), if_neg (by simp [he]), hs]
    dsimp only
    rw [Part.ctx_mapCtx, Part.ctx_withdrawEntries]
    generalize p.ctx b s = c at hs
    obtain ⟨⟩ := c
    cases hs
    rfl
  · have hend : ((p.endAtBoundary b s cause).leaveBehind b s none).ctx b s =
        { p.ctx b s with exit := .leaving, out := (p.ctx b s).out ++ [.verdict .incomplete (some cause), .becomeAbsent] } := by
      unfold Part.leaveBehind Part.endAtBoundary Part.endWith
      rw [Part.ctx_mapCtx, Part.ctx_mapCtx, Part.ctx_leaveZone]
      simp only [Ctx.owe, Option.toList, List.map_nil, List.nil_append, List.append_assoc, List.cons_append]
    have hne : ¬ (((p.ctx b s).state == .absent || (p.ctx b s).exit == .leaving) = true) := by
      rcases hs with h | h | h | h | h
      · simp [h, he]
      · simp [h, he]
      · unfold Ctx.atBoundary at h
        simp only [Bool.and_eq_true, beq_iff_eq] at h
        simp [h.1.1.1, he]
      · unfold Ctx.atPlateau at h
        simp only [Bool.and_eq_true, beq_iff_eq] at h
        simp [h.1.1.1, he]
      · simp [(Ctx.stopping_running h).1, he]
    by_cases hstop : (p.ctx b s).stopping = true
    · unfold Part.removeCtx Part.leaveBehind Part.endWith
      dsimp only
      rw [if_neg hne, if_neg (by simp [he]), (Ctx.stopping_running hstop).1]
      dsimp only
      rw [if_pos hstop, Part.ctx_mapCtx, Part.ctx_mapCtx, Part.ctx_withdrawEntries]
      simp only [Ctx.owe, Option.toList, List.map_nil, List.nil_append, List.append_assoc, List.cons_append]
      rw [(Ctx.stopping_running hstop).1]
    replace hs : (p.ctx b s).state = .planned ∨ (p.ctx b s).state = .paused ∨ (p.ctx b s).atBoundary = true ∨
        (p.ctx b s).atPlateau = true := by
      rcases hs with h | h | h | h | h
      · exact .inl h
      · exact .inr (.inl h)
      · exact .inr (.inr (.inl h))
      · exact .inr (.inr (.inr h))
      · exact absurd h hstop
    suffices hsame : p.removeCtx b s cause none = (p.endAtBoundary b s cause).leaveBehind b s none by
      rw [hsame]
      exact hend
    unfold Part.removeCtx
    dsimp only
    rw [if_neg hne, if_neg (by simp [he])]
    rcases hs with h | h | h
    · rw [h]
    · rw [h]
    · have hr : (p.ctx b s).state = .running ∧ (p.ctx b s).stopping = false := by
        rcases h with h | h
        · unfold Ctx.atBoundary at h
          unfold Ctx.stopping
          simp only [Bool.and_eq_true, beq_iff_eq, bne_iff_ne] at h
          simp [h.1.1.1, h.1.2]
        · unfold Ctx.atPlateau at h
          unfold Ctx.stopping
          simp only [Bool.and_eq_true, beq_iff_eq] at h
          simp [h.1.1.1, h.1.1.2]
      rw [hr.1]
      dsimp only
      rw [if_neg (by simp [hr.2]), if_pos (by rcases h with h | h <;> simp [h])]
  · unfold Ctx.inCheck at hi
    simp only [Bool.and_eq_true, beq_iff_eq, bne_iff_ne, Bool.not_eq_true'] at hi
    obtain ⟨⟨⟨h1, h2⟩, h3⟩, h4⟩ := hi
    unfold Part.removeCtx
    dsimp only
    rw [if_neg (by simp [h1, h4]), if_neg (by simp [h4]), h1]
    dsimp only
    rw [if_neg (by unfold Ctx.stopping; simp [h2]), if_neg (by rw [h3]; unfold Ctx.atBoundary; simp [h2]), if_neg hr]
    have hx : ((p.mapCtx b s (fun c => { c with exit := .leaving, fellAt := none })).ctx b s) =
        { p.ctx b s with exit := .leaving, fellAt := none } := Part.ctx_mapCtx _ _ _ _
    unfold Part.abort
    dsimp only
    rw [hx, if_neg (by simp [ha]), if_neg hr]
    have hq' := (Part.Within.mapCtx (b := b) (s := s) p (fun c => { c with exit := .leaving, fellAt := none })).busQueue hq
    obtain ⟨k1, k2, k3⟩ := Part.ctx_abortBefore _ b s cause hq' (by rw [hx])
    rw [hx] at k1
    exact ⟨k1.trans h1, k2, k3⟩

/-- What is kept, and made of the slots of a list, when they are withdrawn one after the other. -/
structure Part.Withdrawn (b : Bay) (cause : Cause) (l : List Slot) (p q : Part) : Prop where
  apart : p.Apart b q
  bay   : (p.bay b).busQueue = [] → ∃ cs k h, q.bay b = { p.bay b with ctxs := cs, link := k, busHolder := h }
  ctxs  : (p.bay b).busQueue = [] → ∀ x ∈ l, (p.ctx b x).WithdrawnAs cause (q.ctx b x)
  rest  : (p.bay b).busQueue = [] → ∀ x ∉ l, q.ctx b x = p.ctx b x
  queue : (p.bay b).busQueue = [] → ∀ e ∈ q.chanQueue, e ∈ p.chanQueue

theorem Part.Withdrawn.fold (b : Bay) (cause : Cause) (l : List Slot) : ∀ p : Part, l.Nodup →
    p.Withdrawn b cause l (l.foldl (fun p s => p.removeCtx b s cause none) p) := by
  induction l with
  | nil => exact fun p _ => ⟨.refl p, fun _ => ⟨_, _, _, rfl⟩, by simp, fun _ _ _ => rfl, fun _ _ h => h⟩
  | cons s l ih =>
    intro p hn
    have hw : p.Within b s (p.removeCtx b s cause none) := Part.Within.removeCtx p cause none
    have hr := Part.removeCtx_withdrawnAs p b s cause
    rw [List.foldl_cons]
    generalize p.removeCtx b s cause none = r at hw hr
    have k := ih r (List.nodup_cons.mp hn).2
    generalize l.foldl (fun p s => p.removeCtx b s cause none) r = q at k
    have hs : s ∉ l := (List.nodup_cons.mp hn).1
    refine ⟨hw.apart.trans k.apart, fun hq => ?_, fun hq x hx => ?_, fun hq x hx => ?_,
      fun hq e he => hw.queue hq e (k.queue (hw.busQueue hq) e he)⟩
    · obtain ⟨_, _, _, hb⟩ := hw.bay hq
      obtain ⟨cs, n, h, hc⟩ := k.bay (hw.busQueue hq)
      exact ⟨cs, n, h, by rw [hc, hb]⟩
    · rcases List.mem_cons.mp hx with rfl | hx
      · rw [k.rest (hw.busQueue hq) x hs]
        exact hr hq
      · have := k.ctxs (hw.busQueue hq) x hx
        rwa [hw.ctxs hq x (fun e => hs (e ▸ hx))] at this
    · simp only [List.mem_cons, not_or] at hx
      rw [k.rest (hw.busQueue hq) x hx.2, hw.ctxs hq x hx.1]

/-- What the withdrawal of a bay's contexts reaches, and what it makes of them. -/
theorem Part.withdrawCtxs_withdrawn (p : Part) (b : Bay) (cause : Cause) :
    p.Withdrawn b cause allSlots (p.withdrawCtxs b cause) := by
  have h := Part.Withdrawn.fold b cause allSlots p (by decide)
  have he : ∃ n t, p.withdrawCtxs b cause =
      { allSlots.foldl (fun p s => p.removeCtx b s cause none) p with free := n, todo := t } := by
    have hl : ∀ (q : Part) (l k : List Conseq) (m : List (Bay × Slot)),
        ∃ n t, ((q.later l).outputs m).later k = { q with free := n, todo := t } := by
      intro q l k m
      obtain ⟨a, n, h⟩ : ∃ a n, freeOrderFrom m.length (q.later l).free m = (a, n) := ⟨_, _, rfl⟩
      refine ⟨n, q.todo ++ l ++ a.map (fun x => .output x.1 x.2) ++ k, ?_⟩
      unfold Part.outputs Part.freeOrder
      rw [h]
      rfl
    exact hl _ _ _ _
  obtain ⟨n, t, he⟩ := he
  rw [he]
  generalize allSlots.foldl (fun p s => p.removeCtx b s cause none) p = q at h
  exact ⟨⟨h.apart.others, h.apart.own, h.apart.answers, h.apart.still, h.apart.zones⟩, h.bay, h.ctxs, h.rest, h.queue⟩

theorem Part.bay_clearQueues (p : Part) (b : Bay) : (p.clearQueues b).bay b = { p.bay b with busQueue := [] } :=
  Part.bay_mapBay p b (fun u => { u with busQueue := [] })

theorem Part.bay_clearQueues_other (p : Part) {b c : Bay} (h : c ≠ b) : (p.clearQueues b).bay c = p.bay c :=
  Part.bay_mapBay_other p (fun u => { u with busQueue := [] }) (Ne.symm h)

/-- A bay that begins to be withdrawn (R22, R109). -/
theorem Part.bay_beginWithdraw (p : Part) (b : Bay) (cause : Cause) (h : (p.bay b).state ≠ .withdrawing) :
    (p.beginWithdraw b cause).bay b = { p.bay b with state := .withdrawing, cause := some cause, busQueue := [] } := by
  unfold Part.beginWithdraw
  rw [if_neg h]
  rw [Part.bay_clearQueues, Part.bay_mapBay]

theorem Part.bay_beginWithdraw_other (p : Part) {b c : Bay} (cause : Cause) (h : c ≠ b) :
    (p.beginWithdraw b cause).bay c = p.bay c := by
  unfold Part.beginWithdraw
  split
  · rfl
  · rw [Part.bay_clearQueues_other _ h, Part.bay_mapBay_other _ _ (Ne.symm h)]

theorem Part.chanQueue_beginWithdraw (p : Part) (b : Bay) (cause : Cause) (h : (p.bay b).state ≠ .withdrawing) :
    (p.beginWithdraw b cause).chanQueue = p.chanQueue.filter (fun e => e.bay != b) := by
  unfold Part.beginWithdraw
  rw [if_neg h]
  rfl

theorem Part.answers_beginWithdraw (p : Part) (b : Bay) (cause : Cause) : (p.beginWithdraw b cause).answers = p.answers := by
  unfold Part.beginWithdraw
  split <;> rfl

theorem Part.still_beginWithdraw (p : Part) (b : Bay) (cause : Cause) : (p.beginWithdraw b cause).still = p.still := by
  unfold Part.beginWithdraw
  split <;> rfl

end Sys2Proof.Machine
end

