-- ==== Sys2Proof/Laws/Cascade.lean ====
section
/-! SUPPORT. How a command runs, said once: what a part that owes nothing settles to, one consequence at a time, and what the end
of a command (`Part.finish`) can change. -/

namespace Sys2Proof.Machine

/-! ### Settling -/

theorem settle_nil (n : Nat) (p : Part) (h : p.todo = []) : settle n p = p := by
  cases n with
  | zero =>
    unfold settle
    cases p
    simp_all
  | succ n =>
    unfold settle
    rw [h]

theorem settle_cons (n : Nat) (p : Part) (c : Conseq) (rest : List Conseq) (h : p.todo = c :: rest) :
    settle (n + 1) p = settle n { consequence c { p with todo := [] } with
      todo := (consequence c { p with todo := [] }).todo ++ rest } := by
  conv => lhs; unfold settle
  rw [h]

theorem cascadeBound_succ : Config.cascadeBound = 18446744073709551615 + 1 := by
  unfold Config.cascadeBound
  rfl

/-- A command whose effect owes nothing ends at once. -/
theorem Part.after_quiet (p : Part) (f : Part → Part) (h : (f { p with todo := [] }).todo = []) :
    p.after f = Part.finish p (f { p with todo := [] }) := by
  unfold Part.after
  rw [settle_nil _ _ h]

/-- What no consequence touches stands after all of them. -/
theorem Part.still_settle (n : Nat) (p : Part) : (settle n p).still = p.still := by
  have h : Closed (fun q => q.still = p.still) :=
    { rest := fun _ _ _ _ _ h1 h2 => h1 ▸ h2
      bay := fun _ _ _ _ h2 => h2
      buffer := fun _ _ _ _ _ h2 => h2
      link := fun _ _ _ _ h2 => h2
      owned := fun _ _ _ _ _ h2 => h2
      arbiter := fun _ _ h _ h2 => h.2.2 ▸ h2 }
  exact h.settle n p rfl

/-! ### The end of a command -/

/-- Two parts that differ in the changed marks of the boards alone. -/
def Part.SameButMarks (p q : Part) : Prop :=
  ∃ bays : Vector BayUnit 8, q = { p with bays := bays } ∧
    ∀ b : Bay, ∃ x, bays[b] = { p.bay b with boardChanged := x }

theorem Part.SameButMarks.refl (p : Part) : p.SameButMarks p := ⟨p.bays, rfl, fun b => ⟨(p.bay b).boardChanged, rfl⟩⟩

theorem Part.SameButMarks.trans {p q r : Part} (h : p.SameButMarks q) (k : q.SameButMarks r) : p.SameButMarks r := by
  obtain ⟨u, rfl, hu⟩ := h
  obtain ⟨v, rfl, hv⟩ := k
  refine ⟨v, rfl, fun b => ?_⟩
  obtain ⟨x, hx⟩ := hu b
  obtain ⟨y, hy⟩ := hv b
  refine ⟨y, ?_⟩
  rw [hy]
  unfold Part.bay
  rw [show (u[b] : BayUnit) = _ from hx]
  rfl

theorem Part.SameButMarks.mark (p : Part) (b : Bay) (x : Bool) :
    p.SameButMarks (p.mapBay b (fun u => { u with boardChanged := x })) := by
  refine ⟨_, rfl, fun c => ?_⟩
  by_cases h : b = c
  · subst h
    exact ⟨x, Vector.getElem_set_self _⟩
  · refine ⟨(p.bay c).boardChanged, ?_⟩
    have hv : b.val ≠ c.val := fun e => h (Fin.ext e)
    exact Vector.getElem_set_ne _ _ hv

theorem Part.markBoard_same (old p : Part) (b : Bay) : p.SameButMarks (Part.markBoard old p b) := by
  unfold Part.markBoard
  extract_lets now
  split
  · exact .mark p b true
  · exact .refl p

theorem Part.markBoards_same (old p : Part) : p.SameButMarks (Part.markBoards old p) := by
  unfold Part.markBoards
  generalize allBays = l
  induction l generalizing p with
  | nil => exact .refl p
  | cons b l ih => exact (Part.markBoard_same old p b).trans (ih _)

/-- Two parts that differ in the changed marks of the boards and in where the sweep stands: the phase is the same, or STOPPING
has become IDLE. -/
def Part.Ended (p q : Part) : Prop :=
  ∃ (r : Part) (phase : PartState) (sweep : Sweep) (timer : Option SpanTimer) (nudge : Bool),
    p.SameButMarks r ∧ q = { r with phase := phase, sweep := sweep, sweepTimer := timer, nudge := nudge } ∧
    (phase = p.phase ∨ p.phase = .stopping ∧ phase = .idle)

theorem Part.SameButMarks.ended {p q : Part} (h : p.SameButMarks q) : p.Ended q := by
  refine ⟨q, p.phase, q.sweep, q.sweepTimer, q.nudge, h, ?_, .inl rfl⟩
  obtain ⟨u, rfl, _⟩ := h
  rfl

theorem Part.Ended.trans {p q r : Part} (h : p.Ended q) (k : q.Ended r) : p.Ended r := by
  obtain ⟨q', ph, sw, ti, nu, hs, rfl, hp⟩ := h
  obtain ⟨r', ph', sw', ti', nu', hs', rfl, hp'⟩ := k
  obtain ⟨u, rfl, hu⟩ := hs
  obtain ⟨v, rfl, hv⟩ := hs'
  refine ⟨{ p with bays := v }, ph', sw', ti', nu', ?_, rfl, ?_⟩
  · exact Part.SameButMarks.trans ⟨u, rfl, hu⟩ ⟨v, rfl, hv⟩
  · rcases hp' with h' | ⟨h1, h2⟩
    · rw [h']
      exact hp
    · rcases hp with h | ⟨_, h⟩
      · exact .inr ⟨h ▸ h1, h2⟩
      · have h3 : PartState.idle = PartState.stopping := h.symm.trans h1
        cases h3

theorem Part.Ended.refl (p : Part) : p.Ended p := (Part.SameButMarks.refl p).ended

theorem Part.Ended.move (p : Part) (sweep : Sweep) (timer : Option SpanTimer) (nudge : Bool) :
    p.Ended { p with sweep := sweep, sweepTimer := timer, nudge := nudge } :=
  ⟨p, p.phase, sweep, timer, nudge, .refl p, rfl, .inl rfl⟩

theorem Part.passOver_ended (p : Part) (k : PassKind) : p.Ended (p.passOver k) := by
  unfold Part.passOver
  split
  · exact .move p _ _ _
  · split
    · exact .move p _ _ _
    · exact .move p _ _ _

theorem Part.boardGo_ended (p : Part) (k : PassKind) (l : List Bay) : p.Ended (p.boardGo k l) := by
  unfold Part.boardGo
  split
  · exact p.passOver_ended k
  · exact (Part.SameButMarks.mark p _ _).ended.trans (.move _ _ _ _)

theorem Part.boardPass_ended (p : Part) : p.Ended p.boardPass := by
  unfold Part.boardPass
  split
  · exact p.boardGo_ended _ _
  · exact .refl p

theorem Part.finalPass_ended (p : Part) : p.Ended p.finalPass := by
  unfold Part.finalPass
  split
  · exact (Part.Ended.move p _ _ _).trans (Part.boardPass_ended _)
  · exact .refl p

theorem Part.idleTest_ended (p : Part) : p.Ended p.idleTest := by
  unfold Part.idleTest
  split
  · rename_i h
    simp only [Bool.and_eq_true, beq_iff_eq] at h
    exact ⟨p, .idle, .idle, none, false, .refl p, rfl, .inr ⟨h.1.1, rfl⟩⟩
  · exact .refl p

/-- What the end of a command can change: the changed marks of the boards, and where the sweep or the stop stands. -/
theorem Part.finish_ended (old p : Part) : p.Ended (Part.finish old p) := by
  unfold Part.finish
  exact (((Part.markBoards_same old p).ended.trans (Part.boardPass_ended _)).trans (Part.finalPass_ended _)).trans
    (Part.idleTest_ended _)

theorem Part.Ended.bay {p q : Part} (h : p.Ended q) (b : Bay) : ∃ x, q.bay b = { p.bay b with boardChanged := x } := by
  obtain ⟨_, _, _, _, _, ⟨u, rfl, hu⟩, rfl, _⟩ := h
  exact hu b

theorem Part.finish_bay (old p : Part) (b : Bay) :
    ∃ x, (Part.finish old p).bay b = { p.bay b with boardChanged := x } :=
  (Part.finish_ended old p).bay b

theorem Part.finish_phase (old p : Part) :
    (Part.finish old p).phase = p.phase ∨ p.phase = .stopping ∧ (Part.finish old p).phase = .idle := by
  obtain ⟨_, _, _, _, _, _, h, hp⟩ := Part.finish_ended old p
  rw [h]
  exact hp

@[simp] theorem Part.finish_ctx (old p : Part) (b : Bay) (s : Slot) : (Part.finish old p).ctx b s = p.ctx b s := by
  obtain ⟨x, hx⟩ := Part.finish_bay old p b
  unfold Part.ctx
  rw [hx]
  rfl

@[simp] theorem Part.finish_link (old p : Part) (b : Bay) : (Part.finish old p).link b = p.link b := by
  obtain ⟨x, hx⟩ := Part.finish_bay old p b
  unfold Part.link
  rw [hx]

@[simp] theorem Part.finish_chans (old p : Part) : (Part.finish old p).chans = p.chans := by
  obtain ⟨_, _, _, _, _, ⟨_, rfl, _⟩, h, _⟩ := Part.finish_ended old p
  rw [h]

@[simp] theorem Part.finish_zones (old p : Part) : (Part.finish old p).zones = p.zones := by
  obtain ⟨_, _, _, _, _, ⟨_, rfl, _⟩, h, _⟩ := Part.finish_ended old p
  rw [h]

@[simp] theorem Part.finish_chanQueue (old p : Part) : (Part.finish old p).chanQueue = p.chanQueue := by
  obtain ⟨_, _, _, _, _, ⟨_, rfl, _⟩, h, _⟩ := Part.finish_ended old p
  rw [h]

@[simp] theorem Part.finish_attempt (old p : Part) : (Part.finish old p).attempt = p.attempt := by
  obtain ⟨_, _, _, _, _, ⟨_, rfl, _⟩, h, _⟩ := Part.finish_ended old p
  rw [h]

@[simp] theorem Part.finish_staleReads (old p : Part) : (Part.finish old p).staleReads = p.staleReads := by
  obtain ⟨_, _, _, _, _, ⟨_, rfl, _⟩, h, _⟩ := Part.finish_ended old p
  rw [h]

@[simp] theorem Part.finish_sweepCode (old p : Part) : (Part.finish old p).sweepCode = p.sweepCode := by
  obtain ⟨_, _, _, _, _, ⟨_, rfl, _⟩, h, _⟩ := Part.finish_ended old p
  rw [h]

@[simp] theorem Part.finish_headRejected (old p : Part) : (Part.finish old p).headRejected = p.headRejected := by
  obtain ⟨_, _, _, _, _, ⟨_, rfl, _⟩, h, _⟩ := Part.finish_ended old p
  rw [h]

@[simp] theorem Part.finish_headCause (old p : Part) : (Part.finish old p).headCause = p.headCause := by
  obtain ⟨_, _, _, _, _, ⟨_, rfl, _⟩, h, _⟩ := Part.finish_ended old p
  rw [h]

@[simp] theorem Part.finish_haltCause (old p : Part) : (Part.finish old p).haltCause = p.haltCause := by
  obtain ⟨_, _, _, _, _, ⟨_, rfl, _⟩, h, _⟩ := Part.finish_ended old p
  rw [h]

@[simp] theorem Part.finish_bookLo (old p : Part) : (Part.finish old p).bookLo = p.bookLo := by
  obtain ⟨_, _, _, _, _, ⟨_, rfl, _⟩, h, _⟩ := Part.finish_ended old p
  rw [h]

@[simp] theorem Part.finish_bookHi (old p : Part) : (Part.finish old p).bookHi = p.bookHi := by
  obtain ⟨_, _, _, _, _, ⟨_, rfl, _⟩, h, _⟩ := Part.finish_ended old p
  rw [h]

@[simp] theorem Part.finish_pendingSet (old p : Part) : (Part.finish old p).pendingSet = p.pendingSet := by
  obtain ⟨_, _, _, _, _, ⟨_, rfl, _⟩, h, _⟩ := Part.finish_ended old p
  rw [h]

@[simp] theorem Part.finish_enableSet (old p : Part) : (Part.finish old p).enableSet = p.enableSet := by
  obtain ⟨_, _, _, _, _, ⟨_, rfl, _⟩, h, _⟩ := Part.finish_ended old p
  rw [h]

@[simp] theorem Part.finish_messages (old p : Part) : (Part.finish old p).messages = p.messages := by
  obtain ⟨_, _, _, _, _, ⟨_, rfl, _⟩, h, _⟩ := Part.finish_ended old p
  rw [h]

@[simp] theorem Part.finish_settings (old p : Part) : (Part.finish old p).settings = p.settings := by
  obtain ⟨_, _, _, _, _, ⟨_, rfl, _⟩, h, _⟩ := Part.finish_ended old p
  rw [h]

@[simp] theorem Part.finish_stopOwed (old p : Part) : (Part.finish old p).stopOwed = p.stopOwed := by
  obtain ⟨_, _, _, _, _, ⟨_, rfl, _⟩, h, _⟩ := Part.finish_ended old p
  rw [h]

@[simp] theorem Part.finish_slotTags (old p : Part) : (Part.finish old p).slotTags = p.slotTags := by
  obtain ⟨_, _, _, _, _, ⟨_, rfl, _⟩, h, _⟩ := Part.finish_ended old p
  rw [h]

@[simp] theorem Part.finish_takenWrite (old p : Part) : (Part.finish old p).takenWrite = p.takenWrite := by
  obtain ⟨_, _, _, _, _, ⟨_, rfl, _⟩, h, _⟩ := Part.finish_ended old p
  rw [h]

@[simp] theorem Part.finish_answers (old p : Part) : (Part.finish old p).answers = p.answers := by
  obtain ⟨_, _, _, _, _, ⟨_, rfl, _⟩, h, _⟩ := Part.finish_ended old p
  rw [h]

@[simp] theorem Part.finish_planEnter (old p : Part) : (Part.finish old p).planEnter = p.planEnter := by
  obtain ⟨_, _, _, _, _, ⟨_, rfl, _⟩, h, _⟩ := Part.finish_ended old p
  rw [h]

@[simp] theorem Part.finish_admReads (old p : Part) : (Part.finish old p).admReads = p.admReads := by
  obtain ⟨_, _, _, _, _, ⟨_, rfl, _⟩, h, _⟩ := Part.finish_ended old p
  rw [h]

@[simp] theorem Part.finish_dir (old p : Part) : (Part.finish old p).dir = p.dir := by
  obtain ⟨_, _, _, _, _, ⟨_, rfl, _⟩, h, _⟩ := Part.finish_ended old p
  rw [h]

@[simp] theorem Part.finish_nextAdm (old p : Part) : (Part.finish old p).nextAdm = p.nextAdm := by
  obtain ⟨_, _, _, _, _, ⟨_, rfl, _⟩, h, _⟩ := Part.finish_ended old p
  rw [h]

@[simp] theorem Part.finish_cursor (old p : Part) : (Part.finish old p).cursor = p.cursor := by
  obtain ⟨_, _, _, _, _, ⟨_, rfl, _⟩, h, _⟩ := Part.finish_ended old p
  rw [h]

@[simp] theorem Part.finish_dry (old p : Part) : (Part.finish old p).dry = p.dry := by
  obtain ⟨_, _, _, _, _, ⟨_, rfl, _⟩, h, _⟩ := Part.finish_ended old p
  rw [h]

@[simp] theorem Part.finish_scan (old p : Part) : (Part.finish old p).scan = p.scan := by
  obtain ⟨_, _, _, _, _, ⟨_, rfl, _⟩, h, _⟩ := Part.finish_ended old p
  rw [h]

@[simp] theorem Part.finish_claim (old p : Part) : (Part.finish old p).claim = p.claim := by
  obtain ⟨_, _, _, _, _, ⟨_, rfl, _⟩, h, _⟩ := Part.finish_ended old p
  rw [h]

@[simp] theorem Part.finish_seconds (old p : Part) : (Part.finish old p).seconds = p.seconds := by
  obtain ⟨_, _, _, _, _, ⟨_, rfl, _⟩, h, _⟩ := Part.finish_ended old p
  rw [h]

@[simp] theorem Part.finish_fraction (old p : Part) : (Part.finish old p).fraction = p.fraction := by
  obtain ⟨_, _, _, _, _, ⟨_, rfl, _⟩, h, _⟩ := Part.finish_ended old p
  rw [h]

@[simp] theorem Part.finish_trusted (old p : Part) : (Part.finish old p).trusted = p.trusted := by
  obtain ⟨_, _, _, _, _, ⟨_, rfl, _⟩, h, _⟩ := Part.finish_ended old p
  rw [h]

@[simp] theorem Part.finish_tick (old p : Part) : (Part.finish old p).tick = p.tick := by
  obtain ⟨_, _, _, _, _, ⟨_, rfl, _⟩, h, _⟩ := Part.finish_ended old p
  rw [h]

@[simp] theorem Part.finish_samples (old p : Part) : (Part.finish old p).samples = p.samples := by
  obtain ⟨_, _, _, _, _, ⟨_, rfl, _⟩, h, _⟩ := Part.finish_ended old p
  rw [h]

@[simp] theorem Part.finish_handovers (old p : Part) : (Part.finish old p).handovers = p.handovers := by
  obtain ⟨_, _, _, _, _, ⟨_, rfl, _⟩, h, _⟩ := Part.finish_ended old p
  rw [h]

@[simp] theorem Part.finish_free (old p : Part) : (Part.finish old p).free = p.free := by
  obtain ⟨_, _, _, _, _, ⟨_, rfl, _⟩, h, _⟩ := Part.finish_ended old p
  rw [h]

@[simp] theorem Part.finish_todo (old p : Part) : (Part.finish old p).todo = p.todo := by
  obtain ⟨_, _, _, _, _, ⟨_, rfl, _⟩, h, _⟩ := Part.finish_ended old p
  rw [h]

@[simp] theorem Part.finish_bay_state (old p : Part) (b : Bay) : ((Part.finish old p).bay b).state = (p.bay b).state := by
  obtain ⟨x, hx⟩ := Part.finish_bay old p b
  rw [hx]

@[simp] theorem Part.finish_bay_start (old p : Part) (b : Bay) : ((Part.finish old p).bay b).start = (p.bay b).start := by
  obtain ⟨x, hx⟩ := Part.finish_bay old p b
  rw [hx]

@[simp] theorem Part.finish_bay_insert (old p : Part) (b : Bay) : ((Part.finish old p).bay b).insert = (p.bay b).insert := by
  obtain ⟨x, hx⟩ := Part.finish_bay old p b
  rw [hx]

@[simp] theorem Part.finish_bay_cause (old p : Part) (b : Bay) : ((Part.finish old p).bay b).cause = (p.bay b).cause := by
  obtain ⟨x, hx⟩ := Part.finish_bay old p b
  rw [hx]

@[simp] theorem Part.finish_bay_standby (old p : Part) (b : Bay) : ((Part.finish old p).bay b).standby = (p.bay b).standby := by
  obtain ⟨x, hx⟩ := Part.finish_bay old p b
  rw [hx]

@[simp] theorem Part.finish_bay_pendingOrder (old p : Part) (b : Bay) : ((Part.finish old p).bay b).pendingOrder = (p.bay b).pendingOrder := by
  obtain ⟨x, hx⟩ := Part.finish_bay old p b
  rw [hx]

@[simp] theorem Part.finish_bay_firstPage (old p : Part) (b : Bay) : ((Part.finish old p).bay b).firstPage = (p.bay b).firstPage := by
  obtain ⟨x, hx⟩ := Part.finish_bay old p b
  rw [hx]

@[simp] theorem Part.finish_bay_currentPage (old p : Part) (b : Bay) : ((Part.finish old p).bay b).currentPage = (p.bay b).currentPage := by
  obtain ⟨x, hx⟩ := Part.finish_bay old p b
  rw [hx]

@[simp] theorem Part.finish_bay_pageCount (old p : Part) (b : Bay) : ((Part.finish old p).bay b).pageCount = (p.bay b).pageCount := by
  obtain ⟨x, hx⟩ := Part.finish_bay old p b
  rw [hx]

@[simp] theorem Part.finish_bay_pageSeq (old p : Part) (b : Bay) : ((Part.finish old p).bay b).pageSeq = (p.bay b).pageSeq := by
  obtain ⟨x, hx⟩ := Part.finish_bay old p b
  rw [hx]

@[simp] theorem Part.finish_bay_waiting (old p : Part) (b : Bay) : ((Part.finish old p).bay b).waiting = (p.bay b).waiting := by
  obtain ⟨x, hx⟩ := Part.finish_bay old p b
  rw [hx]

@[simp] theorem Part.finish_bay_pageFull (old p : Part) (b : Bay) : ((Part.finish old p).bay b).pageFull = (p.bay b).pageFull := by
  obtain ⟨x, hx⟩ := Part.finish_bay old p b
  rw [hx]

@[simp] theorem Part.finish_bay_writeCount (old p : Part) (b : Bay) : ((Part.finish old p).bay b).writeCount = (p.bay b).writeCount := by
  obtain ⟨x, hx⟩ := Part.finish_bay old p b
  rw [hx]

@[simp] theorem Part.finish_bay_presence (old p : Part) (b : Bay) : ((Part.finish old p).bay b).presence = (p.bay b).presence := by
  obtain ⟨x, hx⟩ := Part.finish_bay old p b
  rw [hx]

@[simp] theorem Part.finish_bay_busHolder (old p : Part) (b : Bay) : ((Part.finish old p).bay b).busHolder = (p.bay b).busHolder := by
  obtain ⟨x, hx⟩ := Part.finish_bay old p b
  rw [hx]

@[simp] theorem Part.finish_bay_busQueue (old p : Part) (b : Bay) : ((Part.finish old p).bay b).busQueue = (p.bay b).busQueue := by
  obtain ⟨x, hx⟩ := Part.finish_bay old p b
  rw [hx]

@[simp] theorem Part.finish_bay_buffer (old p : Part) (b : Bay) : ((Part.finish old p).bay b).buffer = (p.bay b).buffer := by
  obtain ⟨x, hx⟩ := Part.finish_bay old p b
  rw [hx]

@[simp] theorem Part.finish_bay_line (old p : Part) (b : Bay) : ((Part.finish old p).bay b).line = (p.bay b).line := by
  obtain ⟨x, hx⟩ := Part.finish_bay old p b
  rw [hx]

@[simp] theorem Part.finish_bay_drain (old p : Part) (b : Bay) : ((Part.finish old p).bay b).drain = (p.bay b).drain := by
  obtain ⟨x, hx⟩ := Part.finish_bay old p b
  rw [hx]

@[simp] theorem Part.finish_bay_fullWrites (old p : Part) (b : Bay) : ((Part.finish old p).bay b).fullWrites = (p.bay b).fullWrites := by
  obtain ⟨x, hx⟩ := Part.finish_bay old p b
  rw [hx]

@[simp] theorem Part.finish_bay_busPoint (old p : Part) (b : Bay) : ((Part.finish old p).bay b).busPoint = (p.bay b).busPoint := by
  obtain ⟨x, hx⟩ := Part.finish_bay old p b
  rw [hx]

@[simp] theorem Part.finish_bay_slotPoints (old p : Part) (b : Bay) : ((Part.finish old p).bay b).slotPoints = (p.bay b).slotPoints := by
  obtain ⟨x, hx⟩ := Part.finish_bay old p b
  rw [hx]

/-- Outside STOPPING, with no pass of boards to make, the end of a command leaves the sweep where it stands. -/
theorem Part.finish_still (old p : Part) (hp : p.phase ≠ .stopping) (hs : ∀ k, p.sweep ≠ .rescans k []) :
    (Part.finish old p).phase = p.phase ∧ (Part.finish old p).sweep = p.sweep ∧
      (Part.finish old p).sweepTimer = p.sweepTimer ∧ (Part.finish old p).nudge = p.nudge := by
  obtain ⟨u, hu, _⟩ := Part.markBoards_same old p
  have h1 : (Part.markBoards old p).boardPass = Part.markBoards old p := by
    unfold Part.boardPass
    rw [hu]
    split
    · rename_i k hk
      exact absurd hk (hs k)
    · rfl
  have h2 : (Part.markBoards old p).finalPass = Part.markBoards old p := by
    unfold Part.finalPass Part.finalDue
    rw [hu]
    simp [hp]
  have h3 : (Part.markBoards old p).idleTest = Part.markBoards old p := by
    unfold Part.idleTest
    rw [hu]
    simp [hp]
  unfold Part.finish
  rw [h1, h2, h3, hu]
  exact ⟨rfl, rfl, rfl, rfl⟩

/-! ### The end of a command, exactly -/

theorem tab8_get {α : Type} (f : Fin 8 → α) (b : Fin 8) : (tab8 f)[b] = f b :=
  match b with
  | 0 => rfl | 1 => rfl | 2 => rfl | 3 => rfl | 4 => rfl | 5 => rfl | 6 => rfl | 7 => rfl

theorem Part.SameButMarks.boardFields {p q : Part} (h : p.SameButMarks q) (b : Bay) : q.boardFields b = p.boardFields b := by
  obtain ⟨u, rfl, hu⟩ := h
  obtain ⟨x, hx⟩ := hu b
  unfold Part.boardFields Part.bay
  rw [show (u[b] : BayUnit) = _ from hx]
  rfl

theorem Part.SameButMarks.rewriting {p q : Part} (h : p.SameButMarks q) (b : Bay) : q.rewriting b = p.rewriting b := by
  obtain ⟨u, rfl, _⟩ := h
  rfl

theorem Part.SameButMarks.eq {p q : Part} (h : p.SameButMarks q) {l : List Bay} (hl : ∀ b, (q.bay b).boardChanged = decide (b ∈ l)) :
    q = p.stands l p.phase p.sweep p.sweepTimer p.nudge := by
  obtain ⟨u, rfl, hu⟩ := h
  have : u = tab8 (fun b => { p.bay b with boardChanged := decide (b ∈ l) }) := by
    apply Vector.ext
    intro i hi
    have h1 := hu ⟨i, hi⟩
    have h2 := hl ⟨i, hi⟩
    obtain ⟨x, hx⟩ := h1
    have h3 : x = decide ((⟨i, hi⟩ : Bay) ∈ l) := by
      rw [← h2]
      show x = (u[(⟨i, hi⟩ : Bay)] : BayUnit).boardChanged
      rw [hx]
    have h4 := tab8_get (fun b => { p.bay b with boardChanged := decide (b ∈ l) }) ⟨i, hi⟩
    show (u[(⟨i, hi⟩ : Bay)] : BayUnit) = (tab8 _)[(⟨i, hi⟩ : Bay)]
    rw [h4, hx, h3]
  subst this
  rfl

theorem mem_allBays (b : Bay) : b ∈ allBays := by
  revert b
  decide

@[simp] theorem Part.stands_bay (p : Part) (l : List Bay) (phase : PartState) (sweep : Sweep) (timer : Option SpanTimer) (nudge : Bool)
    (b : Bay) : (p.stands l phase sweep timer nudge).bay b = { p.bay b with boardChanged := decide (b ∈ l) } := tab8_get _ b

theorem Part.stands_boardFields (p : Part) (l : List Bay) (phase : PartState) (sweep : Sweep) (timer : Option SpanTimer)
    (nudge : Bool) (b : Bay) : (p.stands l phase sweep timer nudge).boardFields b = p.boardFields b := by
  unfold Part.boardFields
  rw [Part.stands_bay]
  rfl

/-- Of two ends of one part, the later is the one that counts. -/
theorem Part.stands_stands (p : Part) (l m : List Bay) (phase phase' : PartState) (sweep sweep' : Sweep)
    (timer timer' : Option SpanTimer) (nudge nudge' : Bool) :
    (p.stands l phase sweep timer nudge).stands m phase' sweep' timer' nudge' = p.stands m phase' sweep' timer' nudge' := rfl

theorem Part.stands_allEmpty (p : Part) (l : List Bay) (phase : PartState) (sweep : Sweep) (timer : Option SpanTimer)
    (nudge : Bool) : (p.stands l phase sweep timer nudge).allEmpty = true ↔ ∀ b, (p.bay b).state = .empty := by
  unfold Part.allEmpty
  simp only [List.all_eq_true, beq_iff_eq, Part.stands_bay]
  exact ⟨fun h b => h b (mem_allBays b), fun h b _ => h b⟩

theorem Part.stands_quiet (p : Part) (l : List Bay) (phase : PartState) (sweep : Sweep) (timer : Option SpanTimer)
    (nudge : Bool) : (p.stands l phase sweep timer nudge).quiet = p.quiet := by
  unfold Part.quiet
  simp only [Part.stands_bay]
  rfl

/-- The boards to mark are those of the list, and each is marked by its own test. -/
theorem Part.markBoards_changed (old p : Part) (b : Bay) :
    ((Part.markBoards old p).bay b).boardChanged = decide (b ∈ old.changedSince p) := by
  let test : Bay → Bool := fun b => p.boardFields b != old.boardFields b && p.rewriting b != some (p.boardFields b)
  have key : ∀ (l : List Bay) (q : Part), p.SameButMarks q →
      ((l.foldl (Part.markBoard old) q).bay b).boardChanged = ((q.bay b).boardChanged || (decide (b ∈ l) && test b)) := by
    intro l
    induction l with
    | nil => intro q _; simp
    | cons c l ih =>
      intro q h
      rw [List.foldl_cons, ih _ (h.trans (Part.markBoard_same old q c))]
      have hm : (Part.markBoard old q c).bay b = if test c = true then (q.mapBay c (fun u => { u with boardChanged := true })).bay b
          else q.bay b := by
        unfold Part.markBoard
        extract_lets now
        have ht : (now != old.boardFields c && q.rewriting c != some now) = test c := by
          show (q.boardFields c != _ && q.rewriting c != some (q.boardFields c)) = _
          rw [h.boardFields, h.rewriting]
        rw [ht]
        split <;> rfl
      rw [hm]
      by_cases hc : c = b
      · subst hc
        rw [Part.bay_mapBay]
        cases h1 : test c <;> simp
      · have hc' : ¬ b = c := fun e => hc e.symm
        rw [Part.bay_mapBay_other _ _ hc]
        simp [hc']
  unfold Part.markBoards
  rw [key _ p (.refl p)]
  unfold Part.changedSince
  rw [Bool.eq_iff_iff]
  simp [mem_allBays, test]

theorem Part.markBoards_eq (old p : Part) :
    Part.markBoards old p = p.stands (old.changedSince p) p.phase p.sweep p.sweepTimer p.nudge :=
  (Part.markBoards_same old p).eq (Part.markBoards_changed old p)

/-- The changed boards of a part that stands with those of `old.changedSince p` marked. -/
theorem Part.stands_changedBays (old p : Part) (phase : PartState) (sweep : Sweep) (timer : Option SpanTimer) (nudge : Bool) :
    (p.stands (old.changedSince p) phase sweep timer nudge).changedBays = old.changedSince p := by
  unfold Part.changedBays
  simp only [Part.stands_bay]
  have h : ∀ (test : Bay → Bool) (b : Bay), decide (b ∈ allBays.filter test) = test b := by
    intro test b
    rw [Bool.eq_iff_iff]
    simp [mem_allBays]
  unfold Part.changedSince
  simp only [h]

/-- The changed boards are in ascending order, so none stands twice. -/
theorem Part.changedSince_nodup (old p : Part) : (old.changedSince p).Nodup := by
  have h : allBays.Nodup := by decide
  exact h.filter _

/-- The rewrites of the changed boards begin with the first. -/
theorem Part.stands_boardGo (p : Part) (k : PassKind) (b : Bay) (rest : List Bay) (hl : (b :: rest).Nodup) (phase : PartState)
    (sweep : Sweep) (timer : Option SpanTimer) (nudge : Bool) :
    (p.stands (b :: rest) phase sweep timer nudge).boardGo k (b :: rest) =
      p.stands rest phase (.boards k b (p.boardFields b) rest) timer nudge := by
  have h : (p.stands (b :: rest) phase sweep timer nudge).mapBay b (fun u => { u with boardChanged := false })
      = p.stands rest phase sweep timer nudge := by
    refine (Part.SameButMarks.eq (p := { p with phase := phase, sweep := sweep, sweepTimer := timer, nudge := nudge })
      (q := _) ?_ (l := rest) ?_).trans rfl
    · refine Part.SameButMarks.trans ⟨_, rfl, fun c => ⟨decide (c ∈ b :: rest), tab8_get _ c⟩⟩ (.mark _ b false)
    · intro c
      by_cases hc : b = c
      · subst hc
        rw [Part.bay_mapBay]
        simpa using hl.notMem
      · rw [Part.bay_mapBay_other _ _ hc, Part.stands_bay]
        have hc' : ¬ c = b := fun e => hc e.symm
        simp [hc']
  have g : (p.stands (b :: rest) phase sweep timer nudge).boardGo k (b :: rest) =
      { (p.stands (b :: rest) phase sweep timer nudge).mapBay b (fun u => { u with boardChanged := false }) with
        sweep := .boards k b ((p.stands (b :: rest) phase sweep timer nudge).boardFields b) rest } := rfl
  rw [g, h, Part.stands_boardFields]
  rfl

theorem Part.stands_idleTest (p : Part) (l : List Bay) (phase : PartState) (sweep : Sweep) (timer : Option SpanTimer) (nudge : Bool) :
    (p.stands l phase sweep timer nudge).idleTest =
      if phase = .stopping ∧ sweep = .finished ∧ p.quiet = true then p.stands l .idle .idle none false
      else p.stands l phase sweep timer nudge := by
  unfold Part.idleTest
  rw [Part.stands_quiet]
  simp only [Bool.and_eq_true, beq_iff_eq, and_assoc]
  rfl

theorem Part.stands_finalDue (p : Part) (l : List Bay) (phase : PartState) (sweep : Sweep) (timer : Option SpanTimer)
    (nudge : Bool) : (p.stands l phase sweep timer nudge).finalDue = true ↔
      phase = .stopping ∧ sweep = .idle ∧ p.stopOwed = false ∧ ∀ b, (p.bay b).state = .empty := by
  unfold Part.finalDue
  simp only [Bool.and_eq_true, Part.stands_allEmpty, beq_iff_eq, and_assoc, Bool.not_eq_true']
  exact Iff.rfl

theorem Part.stands_boardPass (old p : Part) (k : PassKind) (phase : PartState) (timer : Option SpanTimer) (nudge : Bool) :
    (p.stands (old.changedSince p) phase (.rescans k []) timer nudge).boardPass =
      (p.stands (old.changedSince p) phase (.rescans k []) timer nudge).boardGo k (old.changedSince p) := by
  conv => lhs; unfold Part.boardPass
  show Part.boardGo _ k (Part.changedBays _) = _
  rw [Part.stands_changedBays]

/-- A pass that is no longer in its rescans, or none, is left as it stands. -/
theorem Part.boardPass_still (p : Part) (h : ∀ k, p.sweep ≠ .rescans k []) : p.boardPass = p := by
  unfold Part.boardPass
  split
  · rename_i k hk
    exact absurd hk (h k)
  · rfl

theorem Part.finalPass_still (p : Part) (h : ¬ p.finalDue = true) : p.finalPass = p := by
  unfold Part.finalPass
  rw [if_neg h]

theorem Part.finalPass_due (p : Part) (h : p.finalDue = true) :
    p.finalPass = { p with sweep := .rescans .final [], sweepTimer := none }.boardPass := by
  unfold Part.finalPass
  rw [if_pos h]

theorem Part.stands_finalPass (p : Part) (l : List Bay) (phase : PartState) (sweep : Sweep) (timer : Option SpanTimer)
    (nudge : Bool) (h : ¬ (phase = .stopping ∧ sweep = .idle ∧ p.stopOwed = false ∧ ∀ b, (p.bay b).state = .empty)) :
    (p.stands l phase sweep timer nudge).finalPass = p.stands l phase sweep timer nudge :=
  Part.finalPass_still _ (fun k => h ((Part.stands_finalDue _ _ _ _ _ _).1 k))

/-- How a command ends, whatever it did. -/
theorem Part.finish_endsAs (old p : Part) : Part.EndsAs old p (Part.finish old p) := by
  have hf : Part.finish old p =
      (p.stands (old.changedSince p) p.phase p.sweep p.sweepTimer p.nudge).boardPass.finalPass.idleTest := by
    unfold Part.finish
    rw [Part.markBoards_eq]
  have hn := Part.changedSince_nodup old p
  have hb := Part.stands_boardPass old p
  unfold Part.EndsAs
  extract_lets changed empties stopped nudged rewrites finished
  change changed.Nodup at hn
  change ∀ k phase timer nudge, (p.stands changed phase (.rescans k []) timer nudge).boardPass =
    (p.stands changed phase (.rescans k []) timer nudge).boardGo k changed at hb
  change Part.finish old p = (p.stands changed p.phase p.sweep p.sweepTimer p.nudge).boardPass.finalPass.idleTest at hf
  -- the rewrites of the changed boards, once begun, stand
  have first : ∀ k timer b rest, changed = b :: rest →
      ((p.stands changed p.phase (.rescans k []) timer p.nudge).boardPass.finalPass.idleTest
        = p.stands rest p.phase (.boards k b (p.boardFields b) rest) timer p.nudge) ∧
      ((p.stands changed p.phase (.rescans k []) timer p.nudge).boardPass.idleTest
        = p.stands rest p.phase (.boards k b (p.boardFields b) rest) timer p.nudge) := by
    intro k timer b rest h
    have hi : (p.stands rest p.phase (.boards k b (p.boardFields b) rest) timer p.nudge).idleTest =
        p.stands rest p.phase (.boards k b (p.boardFields b) rest) timer p.nudge := by
      rw [Part.stands_idleTest, if_neg (by simp)]
    rw [hb, h, Part.stands_boardGo _ _ _ _ (h ▸ hn)]
    refine ⟨?_, hi⟩
    rw [Part.stands_finalPass _ _ _ _ _ _ (by simp)]
    exact hi
  -- the final pass of a stop, with nothing to rewrite
  have last : ∀ timer, (p.stands [] p.phase .finished timer p.nudge).idleTest =
      if stopped then p.stands [] .idle .idle none false else p.stands [] p.phase .finished timer p.nudge := by
    intro timer
    rw [Part.stands_idleTest]
    simp only [true_and, stopped]
  have finishes : ∀ r : Part, r = (p.stands [] p.phase .finished none p.nudge).idleTest →
      (stopped → r = p.stands [] .idle .idle none false) ∧ (¬ stopped → r = p.stands [] p.phase .finished none p.nudge) := by
    intro r hr
    rw [last] at hr
    exact ⟨fun h => by rw [hr, if_pos h], fun h => by rw [hr, if_neg h]⟩
  have due : ∀ timer, empties → changed = [] → (p.stands [] p.phase .idle timer p.nudge).finalPass.idleTest =
      (p.stands [] p.phase .finished none p.nudge).idleTest := by
    intro timer he hc
    rw [Part.finalPass_due _ ((Part.stands_finalDue _ _ _ _ _ _).2 ⟨he.1, rfl, he.2⟩)]
    have := hb .final p.phase none p.nudge
    rw [hc] at this
    show ((p.stands [] p.phase (.rescans .final []) none p.nudge).boardPass).idleTest = _
    rw [this]
    rfl
  refine ⟨?_, ?_, ?_, ?_⟩
  · intro k hk
    rw [hk] at hf
    refine ⟨fun b rest h => hf.trans (first k _ b rest h).1, fun hc => ?_⟩
    have hg : Part.finish old p = ((p.stands [] p.phase (.rescans k []) p.sweepTimer p.nudge).passOver k).finalPass.idleTest := by
      rw [hf, hb, hc]
      rfl
    refine ⟨fun h => ?_, fun h => ?_⟩
    · subst h
      refine finishes _ (hg.trans ?_)
      show (Part.finalPass (p.stands [] p.phase .finished none p.nudge)).idleTest = _
      rw [Part.stands_finalPass _ _ _ _ _ _ (by simp)]
    · have hp : (p.stands [] p.phase (.rescans k []) p.sweepTimer p.nudge).passOver k =
          if nudged then p.stands [] p.phase .marks none false
          else p.stands [] p.phase .idle (some ⟨p.tick, sweepTicks p.sweepCode⟩) p.nudge := by
        unfold Part.passOver
        split
        · exact absurd rfl h
        · show (if (p.nudge && p.phase == .running) = true then _ else _) = _
          simp only [Bool.and_eq_true, beq_iff_eq, nudged]
          rfl
      rw [hp] at hg
      refine ⟨fun hm => ?_, fun hm he => ?_, fun hm he => ?_⟩
      · rw [hg, if_pos hm, Part.stands_finalPass _ _ _ _ _ _ (by simp), Part.stands_idleTest, if_neg (by simp)]
      · refine finishes _ (hg.trans ?_)
        rw [if_neg hm]
        exact due _ he hc
      · rw [hg, if_neg hm, Part.stands_finalPass _ _ _ _ _ _ (fun h => he ⟨h.1, h.2.2⟩), Part.stands_idleTest, if_neg (by simp)]
  · intro hs he
    rw [hs] at hf
    rw [Part.boardPass_still _ (by simp [Part.stands])] at hf
    have hd := Part.finalPass_due _ ((Part.stands_finalDue p changed p.phase .idle p.sweepTimer p.nudge).2 ⟨he.1, rfl, he.2⟩)
    refine ⟨fun b rest h => ?_, fun hc => finishes _ ?_⟩
    · rw [hf, hd]
      exact (first .final none b rest h).2
    · rw [hc] at hf
      rw [hf]
      exact due _ he hc
  · intro hs ht
    rw [hs] at hf
    rw [hf, Part.boardPass_still _ (by simp [Part.stands]),
      Part.stands_finalPass _ _ _ _ _ _ (by simp), Part.stands_idleTest, if_pos ⟨ht.1, rfl, ht.2⟩]
  · intro h1 h2 h3
    rw [hf, Part.boardPass_still (p.stands changed p.phase p.sweep p.sweepTimer p.nudge) h1,
      Part.stands_finalPass _ _ _ _ _ _ (fun h => h2 ⟨h.2.1, h.1, h.2.2⟩), Part.stands_idleTest,
      if_neg (fun h => h3 ⟨h.2.1, h.1, h.2.2⟩)]

/-! ### How the commands answer -/

theorem State.run_next (s : State) (f : Part → Part) : s.run f = .next { s with part := s.part.after f } := rfl

theorem State.runWith_next (s : State) (m : Memory) (f : Part → Part) :
    s.runWith m f = .next { s with part := s.part.after f, book := m } := rfl

theorem State.written_next (s : State) (w : BookWrite) (f : Part → Part) :
    s.written w f = .next { s with part := s.part.after f, book := s.book.put w } := rfl

theorem State.runIf_true (s : State) {g : Bool} (f : Part → Part) (h : g = true) : s.runIf g f = s.run f := by
  unfold State.runIf
  rw [if_pos h]

theorem State.runIf_false (s : State) {g : Bool} (f : Part → Part) (h : g = false) : s.runIf g f = .next s := by
  unfold State.runIf
  rw [if_neg (by simp [h])]

/-- A command that runs `f` on the part owes what `f` leaves owed. -/
theorem Owes.of_run {c : Instr} {s : State} {f : Part → Part} {m : Memory} (h : exec c s = s.runWith m f) :
    Owes c s m (f s.part.fresh) := by
  refine ⟨{ s with part := s.part.after f, book := m }, h, rfl, rfl, ?_⟩
  unfold Part.after
  exact Part.finish_endsAs _ _

/-- A command that owes nothing is done with its own effect. -/
theorem Owes.does {c : Instr} {s : State} {m : Memory} {q : Part} (h : Owes c s m q) (hq : q.todo = []) : Does c s m q := by
  obtain ⟨t, h1, h2, h3, h4⟩ := h
  rw [settle_nil _ _ hq] at h4
  exact ⟨t, h1, h2, h3, h4⟩

end Sys2Proof.Machine
end

