-- ==== Sys2Proof/Laws/Commands.lean ====
section
/-! SUPPORT. How the shapes of commands answer, said once: an effect run under a guard, a copied order and its owner, the answer
of an order, the target of a zone. Result statements are proved by naming the effect and rewriting with these. -/

namespace Sys2Proof.Machine

/-! ### An effect run, with or without a guard -/

theorem Owes.of_runWith {c : Instr} {s : State} {f : Part → Part} {q : Part} {m : Memory} (h : exec c s = s.runWith m f)
    (hq : f s.part.fresh = q) : Owes c s m q := by
  subst hq
  exact Owes.of_run h

theorem Does.of_runWith {c : Instr} {s : State} {f : Part → Part} {q : Part} {m : Memory} (h : exec c s = s.runWith m f)
    (hq : f s.part.fresh = q) (ht : q.todo = []) : Does c s m q := (Owes.of_runWith h hq).does ht

theorem Owes.of_runIf {c : Instr} {s : State} {g : Bool} {f : Part → Part} {q : Part} (h : exec c s = s.runIf g f)
    (hg : g = true) (hq : f s.part.fresh = q) : Owes c s s.book q := by
  refine Owes.of_runWith ?_ hq
  rw [h, State.runIf_true _ _ hg]
  rfl

theorem Does.of_runIf {c : Instr} {s : State} {g : Bool} {f : Part → Part} {q : Part} (h : exec c s = s.runIf g f)
    (hg : g = true) (hq : f s.part.fresh = q) (ht : q.todo = []) : Does c s s.book q := (Owes.of_runIf h hg hq).does ht

/-! ### A consequence carried out -/

/-- One consequence that owes nothing more. -/
theorem Owes.next {c : Instr} {s : State} {m : Memory} {q r : Part} {k : Conseq} (h : Owes c s m q) (hq : q.todo = [k])
    (hk : consequence k q.fresh = r) (hr : r.todo = []) : Does c s m r := by
  obtain ⟨t, h1, h2, h3, h4⟩ := h
  refine ⟨t, h1, h2, h3, ?_⟩
  have hs : settle Config.cascadeBound q = r := by
    rw [cascadeBound_succ, settle_cons _ _ _ _ hq]
    have hk' : consequence k { q with todo := [] } = r := hk
    rw [hk', hr, settle_nil _ _ rfl]
    show ({ r with todo := [] } : Part) = r
    rw [← hr]
  rwa [hs] at h4

/-- The first consequence that a command owes. -/
theorem Owes.first {c : Instr} {s : State} {m : Memory} {q r : Part} {k : Conseq} {rest : List Conseq} (h : Owes c s m q)
    (hq : q.todo = k :: rest) (hr : { consequence k q.fresh with todo := (consequence k q.fresh).todo ++ rest } = r) :
    Reaches 1 c s m r := by
  obtain ⟨t, h1, h2, h3, h4⟩ := h
  rw [cascadeBound_succ, settle_cons _ _ _ _ hq] at h4
  subst hr
  exact ⟨t, 18446744073709551615, h1, h2, h3, cascadeBound_succ, h4⟩

/-- The next consequence. -/
theorem Reaches.next {n : Nat} {c : Instr} {s : State} {m : Memory} {q r : Part} {k : Conseq} {rest : List Conseq}
    (h : Reaches n c s m q) (hn : n < 64) (hq : q.todo = k :: rest)
    (hr : { consequence k q.fresh with todo := (consequence k q.fresh).todo ++ rest } = r) : Reaches (n + 1) c s m r := by
  obtain ⟨t, j, h1, h2, h3, h4, h5⟩ := h
  obtain ⟨i, rfl⟩ : ∃ i, j = i + 1 := ⟨j - 1, by rw [cascadeBound_succ] at h4; omega⟩
  rw [settle_cons _ _ _ _ hq] at h5
  subst hr
  exact ⟨t, i, h1, h2, h3, by omega, h5⟩

/-- Once nothing is owed, the command is done. -/
theorem Reaches.does {n : Nat} {c : Instr} {s : State} {m : Memory} {q : Part} (h : Reaches n c s m q) (hq : q.todo = []) :
    Does c s m q := by
  obtain ⟨t, j, h1, h2, h3, _, h5⟩ := h
  rw [settle_nil _ _ hq] at h5
  exact ⟨t, h1, h2, h3, h5⟩

/-! ### The Result Writer with nothing to do, and the pass that follows (R168, R170, R194) -/

/-- With no bay waiting for a page and no record in a buffer, the Result Writer starts nothing. -/
theorem Part.writer_idle (p : Part) (h : ∀ b, (p.bay b).waiting = false ∧ (p.bay b).buffer = []) : p.writer = p := by
  have hd : ∀ l : List Bay,
      l.foldl (fun p b => if p.mayDrain b then p.mapBay b (fun u => { u with drain := .fields }) else p) p = p := by
    intro l
    induction l with
    | nil => rfl
    | cons b l ih =>
      have hb : ¬ p.mayDrain b = true := by
        unfold Part.mayDrain
        simp [(h b).2]
      rw [List.foldl_cons, if_neg hb]
      exact ih
  have hn : p.scanCandidates = [] := by
    have h1 : allBays.filter (fun b => (p.bay b).needsPage) = [] := by
      rw [List.filter_eq_nil_iff]
      intro b _
      unfold BayUnit.needsPage
      simp [(h b).2]
    unfold Part.scanCandidates
    rw [h1]
    split
    · rename_i k l _
      have h2 : l.filter (fun b => (p.bay b).waiting) = [] := by
        rw [List.filter_eq_nil_iff]
        intro b _
        simp [(h b).1]
      rw [h2]
      rfl
    · rfl
  unfold Part.writer
  rw [hd]
  dsimp only
  rw [hn]
  unfold Part.choose
  split <;> rfl

/-- A part with no bay waiting and no record in a buffer, as it stands once the rescans of a pass of kind `k` are over. -/
def State.atPass (s : State) (k : PassKind) : Part := { s.part.fresh with sweep := .rescans k [], sweepTimer := none }

/-- A command that begins the rescans of a pass, where no bay waits and no record is unwritten, ends with the pass's rewrites. -/
theorem Owes.rewrites {s : State} {c : Instr} {k : PassKind} (hw : ∀ b, (s.part.bay b).waiting = false ∧ (s.part.bay b).buffer = [])
    (h : Owes c s s.book (s.part.fresh.rescan k)) : ∃ t, exec c s = .next t ∧ Part.EndsAs s.part (s.atPass k) t.part := by
  have hl : s.part.fresh.waitingBays = [] := by
    unfold Part.waitingBays
    rw [List.filter_eq_nil_iff]
    intro b _
    simp [show ((s.part.fresh.bay b).waiting) = false from (hw b).1]
  have hf : (s.part.fresh.rescan k).fresh = s.atPass k := by
    unfold Part.rescan
    rw [hl]
    rfl
  have hk : consequence .writer (s.part.fresh.rescan k).fresh = s.atPass k := by
    rw [hf]
    exact Part.writer_idle (s.atPass k) hw
  obtain ⟨t, h1, _, _, h4⟩ := h.next rfl hk rfl
  exact ⟨t, h1, h4⟩

/-- The boards that such a pass rewrites are those that were changed. -/
theorem State.atPass_changed (s : State) (k : PassKind) :
    s.part.changedSince (s.atPass k) = allBays.filter (fun b => (s.part.bay b).boardChanged) := by
  unfold Part.changedSince
  apply List.filter_congr
  intro b _
  have h1 : (s.atPass k).boardFields b = s.part.boardFields b := rfl
  have h2 : (s.atPass k).bay b = s.part.bay b := rfl
  rw [h1, h2]
  simp

/-! ### Answers -/

/-- Writing the answer of one slot leaves those of the others. -/
theorem Part.answer_answers_other (p : Part) {o o' : OrderSlot} (code : AnswerCode) (l : List (Nat × Nat × Nat)) (h : o ≠ o') :
    (p.answer o code l).answers[o'.val] = p.answers[o'.val] := by
  have h' : o.val ≠ o'.val := fun e => h (Fin.ext e)
  unfold Part.answer
  simp [Vector.getElem_set_ne, h']

@[simp] theorem Part.answer_todo (p : Part) (o : OrderSlot) (code : AnswerCode) (l : List (Nat × Nat × Nat)) :
    (p.answer o code l).todo = p.todo := rfl

@[simp] theorem Part.answer_answers (p : Part) (o : OrderSlot) (code : AnswerCode) (l : List (Nat × Nat × Nat)) :
    (p.answer o code l).answers[o.val] =
      some ⟨if p.takenWrite = some o then .waiting else .fields, code, answerFields l⟩ := by
  unfold Part.answer
  simp

@[simp] theorem Part.answer_bays (p : Part) (o : OrderSlot) (code : AnswerCode) (l : List (Nat × Nat × Nat)) :
    (p.answer o code l).bays = p.bays := rfl

@[simp] theorem Part.answer_bay (p : Part) (o : OrderSlot) (code : AnswerCode) (l : List (Nat × Nat × Nat)) (b : Bay) :
    (p.answer o code l).bay b = p.bay b := rfl

@[simp] theorem Part.answer_ctx (p : Part) (o : OrderSlot) (code : AnswerCode) (l : List (Nat × Nat × Nat)) (b : Bay) (x : Slot) :
    (p.answer o code l).ctx b x = p.ctx b x := rfl

@[simp] theorem Part.answer_zone (p : Part) (o : OrderSlot) (code : AnswerCode) (l : List (Nat × Nat × Nat)) (z : ZoneNo) :
    (p.answer o code l).zone z = p.zone z := rfl

@[simp] theorem Part.answer_chans (p : Part) (o : OrderSlot) (code : AnswerCode) (l : List (Nat × Nat × Nat)) :
    (p.answer o code l).chans = p.chans := rfl

/-! ### A copied order (R191, R192) -/

/-- The part as it hands the copied order of slot `o` to its owner. -/
def Part.taking (p : Part) (o : OrderSlot) (rest : List OrderSlot) (bytes : List Byte) : Part :=
  { p.fresh with slotTags := p.slotTags.set o (BitVec.ofNat 16 (halfAt (0 :: bytes) 2)), sweep := .handling o rest }

/-- A copied order goes to its owner, and is then dealt with. -/
theorem Owes.copied {s : State} {o : OrderSlot} {rest : List OrderSlot} {bytes : List Byte}
    (hs : s.part.sweep = .copying o rest) :
    Owes (.orderCopyComplete bytes) s s.book
      (((s.part.taking o rest bytes).takeOrder o (0 :: bytes)).later [.orderHandled o]) := by
  refine Owes.of_runWith (f := fun p => p.orderCopied bytes) rfl ?_
  unfold Part.orderCopied
  rw [show s.part.fresh.sweep = .copying o rest from hs]
  rfl

/-- An order answered at its taking, or whose plans are now read, and that owes nothing else, is done. -/
theorem Does.copied {s : State} {o : OrderSlot} {rest : List OrderSlot} {bytes : List Byte} {q : Part}
    (hs : s.part.sweep = .copying o rest) (h : (s.part.taking o rest bytes).takeOrder o (0 :: bytes) = q) (ht : q.todo = [])
    (hq : q.answers[o].isSome ∨ q.planEnter.isSome) : Does (.orderCopyComplete bytes) s s.book q := by
  have ho := Owes.copied (bytes := bytes) hs
  rw [h] at ho
  refine ho.next (k := .orderHandled o) ?_ ?_ ht
  · rw [Part.later_todo, ht]
    rfl
  · show Part.orderHandled _ _ = _
    unfold Part.orderHandled
    rw [if_pos (by exact hq)]
    show ({ q with todo := [] } : Part) = q
    rw [← ht]

/-- The owner of an order of each code (R192). -/
theorem Part.takeOrder_planEnter (p : Part) (o : OrderSlot) (l : List Byte) (h : byteAt l 1 = 0x01) :
    p.takeOrder o l = p.orderPlanEnter o l := by
  unfold Part.takeOrder
  rw [h]
  rfl

theorem Part.takeOrder_planRemove (p : Part) (o : OrderSlot) (l : List Byte) (h : byteAt l 1 = 0x02) :
    p.takeOrder o l = p.orderPlanRemove o l := by
  unfold Part.takeOrder
  rw [h]
  rfl

theorem Part.takeOrder_planQuery (p : Part) (o : OrderSlot) (l : List Byte) (h : byteAt l 1 = 0x03) :
    p.takeOrder o l = p.orderPlanQuery o l := by
  unfold Part.takeOrder
  rw [h]
  rfl

/-- A bay order for a bay above 7. -/
theorem Part.takeOrder_noBay (p : Part) (o : OrderSlot) (l : List Byte) (h : byteAt l 1 ∈ [0x10, 0x11, 0x12, 0x13, 0x14])
    (hb : 8 ≤ byteAt l 4) : p.takeOrder o l = p.answer o .refusedRange [(0x44, 1, 0)] := by
  have hf : ∀ f : Bay → Part, p.orderBay o l f = p.answer o .refusedRange [(0x44, 1, 0)] := by
    intro f
    unfold Part.orderBay
    rw [dif_neg (by omega)]
  simp only [List.mem_cons, List.not_mem_nil, or_false] at h
  unfold Part.takeOrder
  rcases h with h | h | h | h | h <;> rw [h] <;> exact hf _

theorem Part.orderBay_eq (p : Part) (o : OrderSlot) (l : List Byte) (f : Bay → Part) {b : Bay} (h : byteAt l 4 = b.val) :
    p.orderBay o l f = f b := by
  unfold Part.orderBay
  rw [dif_pos (by rw [h]; exact b.isLt)]
  congr 1
  exact Fin.ext h

theorem Part.takeOrder_admit (p : Part) (o : OrderSlot) (l : List Byte) {b : Bay} (h : byteAt l 1 = 0x10)
    (hb : byteAt l 4 = b.val) : p.takeOrder o l = p.orderAdmit o b l := by
  unfold Part.takeOrder
  rw [h]
  exact p.orderBay_eq o l _ hb

theorem Part.takeOrder_start (p : Part) (o : OrderSlot) (l : List Byte) {b : Bay} (h : byteAt l 1 = 0x11)
    (hb : byteAt l 4 = b.val) : p.takeOrder o l = p.orderStart o b := by
  unfold Part.takeOrder
  rw [h]
  exact p.orderBay_eq o l _ hb

theorem Part.takeOrder_hold (p : Part) (o : OrderSlot) (l : List Byte) {b : Bay} (h : byteAt l 1 = 0x12)
    (hb : byteAt l 4 = b.val) : p.takeOrder o l = p.orderHold o b := by
  unfold Part.takeOrder
  rw [h]
  exact p.orderBay_eq o l _ hb

theorem Part.takeOrder_resume (p : Part) (o : OrderSlot) (l : List Byte) {b : Bay} (h : byteAt l 1 = 0x13)
    (hb : byteAt l 4 = b.val) : p.takeOrder o l = p.orderResume o b := by
  unfold Part.takeOrder
  rw [h]
  exact p.orderBay_eq o l _ hb

theorem Part.takeOrder_withdraw (p : Part) (o : OrderSlot) (l : List Byte) {b : Bay} (h : byteAt l 1 = 0x14)
    (hb : byteAt l 4 = b.val) : p.takeOrder o l = p.orderWithdraw o b := by
  unfold Part.takeOrder
  rw [h]
  exact p.orderBay_eq o l _ hb

theorem Part.takeOrder_schedule (p : Part) (o : OrderSlot) (l : List Byte) (h : byteAt l 1 = 0x20) :
    p.takeOrder o l = p.orderSchedule o l := by
  unfold Part.takeOrder
  rw [h]
  rfl

theorem Part.takeOrder_clock (p : Part) (o : OrderSlot) (l : List Byte) (h : byteAt l 1 = 0x30) :
    p.takeOrder o l = p.orderClock o l := by
  unfold Part.takeOrder
  rw [h]
  rfl

theorem startPolicyOf_none {n : Nat} : startPolicyOf n = none ↔ 2 ≤ n := by
  rcases n with _ | _ | n <;> simp [startPolicyOf]

theorem insertPolicyOf_none {n : Nat} : insertPolicyOf n = none ↔ 2 ≤ n := by
  rcases n with _ | _ | n <;> simp [insertPolicyOf]

/-! ### The target of a zone (R131) -/

/-- Setting the target changes the target and the chamber line alone. -/
theorem Zone.setTarget_eq (now : Nat) (t : Int) (z : Zone) :
    ∃ f g r, Zone.setTarget now t z = { z with target := t, frame := f, frameAgain := g, repeating := r } := by
  unfold Zone.setTarget Zone.askFrame Zone.startFrame
  split
  · rename_i h
    exact ⟨z.frame, z.frameAgain, z.repeating, by rw [← h]⟩
  · split
    · exact ⟨_, _, _, rfl⟩
    · exact ⟨_, _, _, rfl⟩

@[simp] theorem Zone.setTarget_target (now : Nat) (t : Int) (z : Zone) : (Zone.setTarget now t z).target = t := by
  obtain ⟨f, g, r, h⟩ := Zone.setTarget_eq now t z
  rw [h]

@[simp] theorem Zone.setTarget_state (now : Nat) (t : Int) (z : Zone) : (Zone.setTarget now t z).state = z.state := by
  obtain ⟨f, g, r, h⟩ := Zone.setTarget_eq now t z
  rw [h]

@[simp] theorem Zone.setTarget_rest (now : Nat) (t : Int) (z : Zone) : (Zone.setTarget now t z).rest = z.rest := by
  obtain ⟨f, g, r, h⟩ := Zone.setTarget_eq now t z
  rw [h]

@[simp] theorem Zone.setTarget_band (now : Nat) (t : Int) (z : Zone) : (Zone.setTarget now t z).band = z.band := by
  obtain ⟨f, g, r, h⟩ := Zone.setTarget_eq now t z
  rw [h]

@[simp] theorem Zone.setTarget_schedule (now : Nat) (t : Int) (z : Zone) : (Zone.setTarget now t z).schedule = z.schedule := by
  obtain ⟨f, g, r, h⟩ := Zone.setTarget_eq now t z
  rw [h]

@[simp] theorem Zone.setTarget_index (now : Nat) (t : Int) (z : Zone) : (Zone.setTarget now t z).index = z.index := by
  obtain ⟨f, g, r, h⟩ := Zone.setTarget_eq now t z
  rw [h]

@[simp] theorem Zone.setTarget_latest (now : Nat) (t : Int) (z : Zone) : (Zone.setTarget now t z).latest = z.latest := by
  obtain ⟨f, g, r, h⟩ := Zone.setTarget_eq now t z
  rw [h]

@[simp] theorem Zone.setTarget_settle (now : Nat) (t : Int) (z : Zone) : (Zone.setTarget now t z).settle = z.settle := by
  obtain ⟨f, g, r, h⟩ := Zone.setTarget_eq now t z
  rw [h]

@[simp] theorem Zone.setTarget_limit (now : Nat) (t : Int) (z : Zone) : (Zone.setTarget now t z).limit = z.limit := by
  obtain ⟨f, g, r, h⟩ := Zone.setTarget_eq now t z
  rw [h]

@[simp] theorem Zone.setTarget_joined (now : Nat) (t : Int) (z : Zone) : (Zone.setTarget now t z).joined = z.joined := by
  obtain ⟨f, g, r, h⟩ := Zone.setTarget_eq now t z
  rw [h]

end Sys2Proof.Machine
end

