-- ==== Sys2Proof/Laws/Memory.lean ====
section
/-! SUPPORT. Host memory as the part has written it: every operation keeps the canonical form, and a read gives what was written last. -/

namespace Sys2Proof.Machine

/-- A list that rises above an address rises above every lower one. -/
theorem Memory.risingAbove_lower {a b : Nat} {m : Memory} (h : a ≤ b) (hm : m.risingAbove b = true) :
    m.risingAbove a = true := by
  cases m with
  | nil => rfl
  | cons x m =>
    obtain ⟨c, v⟩ := x
    simp only [Memory.risingAbove, Bool.and_eq_true, decide_eq_true_eq] at hm ⊢
    exact ⟨by omega, hm.2⟩

/-- A rising list is canonical. -/
theorem Memory.wf_of_risingAbove {a : Nat} {m : Memory} (hm : m.risingAbove a = true) : m.wf = true := by
  cases m with
  | nil => rfl
  | cons x m =>
    obtain ⟨c, v⟩ := x
    simp only [Memory.risingAbove, Bool.and_eq_true] at hm
    exact hm.2

/-- A write above `a` keeps a list that rises above `a` so. -/
theorem Memory.risingAbove_write {a b : Nat} {v : Byte} {m : Memory} (hab : a < b) (hm : m.risingAbove a = true) :
    (m.write b v).risingAbove a = true := by
  induction m generalizing a with
  | nil => simp [Memory.write, Memory.risingAbove, hab]
  | cons x m ih =>
    obtain ⟨c, w⟩ := x
    simp only [Memory.risingAbove, Bool.and_eq_true, decide_eq_true_eq] at hm
    unfold Memory.write
    split
    · simp only [Memory.risingAbove, Bool.and_eq_true, decide_eq_true_eq]
      exact ⟨hab, by assumption, hm.2⟩
    · split
      · rename_i h
        subst h
        simp [Memory.risingAbove, hm.1, hm.2]
      · simp only [Memory.risingAbove, Bool.and_eq_true, decide_eq_true_eq]
        exact ⟨hm.1, ih (by omega) hm.2⟩

/-- A write keeps the canonical form. -/
theorem Memory.wf_write {a : Nat} {v : Byte} {m : Memory} (hm : m.wf = true) : (m.write a v).wf = true := by
  cases m with
  | nil => rfl
  | cons x m =>
    obtain ⟨c, w⟩ := x
    unfold Memory.write
    split
    · rename_i h
      simp only [Memory.wf, Memory.risingAbove, Bool.and_eq_true, decide_eq_true_eq]
      exact ⟨h, hm⟩
    · split
      · rename_i h
        subst h
        exact hm
      · exact Memory.risingAbove_write (by omega) hm

/-- A write of several bytes keeps the canonical form. -/
theorem Memory.wf_writeBytes {l : List Byte} {m : Memory} {a : Nat} (hm : m.wf = true) : (m.writeBytes a l).wf = true := by
  induction l generalizing m a with
  | nil => exact hm
  | cons v l ih => exact ih (Memory.wf_write hm)

/-- A write cut short keeps the canonical form. -/
theorem Memory.wf_writeLanded {l : List Byte} {k i a : Nat} {m : Memory} (hm : m.wf = true) :
    (m.writeLanded k a i l).wf = true := by
  induction l generalizing m a i with
  | nil => exact hm
  | cons v l ih =>
    unfold Memory.writeLanded
    apply ih
    split
    · exact Memory.wf_write hm
    · exact hm

/-- A completed write keeps the canonical form. -/
theorem Memory.wf_put {w : BookWrite} {m : Memory} (hm : m.wf = true) : (m.put w).wf = true := Memory.wf_writeBytes hm

/-- Writes cut short keep the canonical form. -/
theorem Memory.wf_cut {l : List BookWrite} {k : Nat} {m : Memory} (hm : m.wf = true) : (m.cut k l).wf = true := by
  induction l generalizing m k with
  | nil => exact hm
  | cons w l ih => exact ih (Memory.wf_writeLanded hm)

/-- A board's rewrite cut short keeps the canonical form. -/
theorem Memory.wf_cutBoard {m : Memory} {k a : Nat} {fields count : List Byte} (hm : m.wf = true) :
    (m.cutBoard k a fields count).wf = true := by
  unfold Memory.cutBoard
  split
  · exact Memory.wf_writeLanded (Memory.wf_writeBytes hm)
  · exact Memory.wf_writeLanded hm

/-- A byte reads as written. -/
theorem Memory.read_write (m : Memory) (a : Nat) (v : Byte) : (m.write a v).read a = some v := by
  induction m with
  | nil => simp [Memory.write, Memory.read]
  | cons x m ih =>
    obtain ⟨c, w⟩ := x
    unfold Memory.write
    split
    · simp [Memory.read]
    · split
      · simp [Memory.read]
      · rename_i h1 h2
        simp [Memory.read, h2, ih]

/-- A write leaves every other byte. -/
theorem Memory.read_write_other {m : Memory} {a b : Nat} {v : Byte} (h : b ≠ a) : (m.write a v).read b = m.read b := by
  induction m with
  | nil => simp [Memory.write, Memory.read, h]
  | cons x m ih =>
    obtain ⟨c, w⟩ := x
    unfold Memory.write
    split
    · simp [Memory.read, h]
    · split
      · rename_i h2
        subst h2
        simp [Memory.read, h]
      · simp only [Memory.read, ih]

/-- A write of several bytes leaves the bytes outside them. -/
theorem Memory.read_writeBytes_other {l : List Byte} {m : Memory} {a b : Nat} (h : b < a ∨ a + l.length ≤ b) :
    (m.writeBytes a l).read b = m.read b := by
  induction l generalizing m a with
  | nil => rfl
  | cons v l ih =>
    have h' : b < a + 1 ∨ a + 1 + l.length ≤ b := by simp only [List.length_cons] at h; omega
    have hb : b ≠ a := by simp only [List.length_cons] at h; omega
    simp only [Memory.writeBytes]
    rw [ih h', Memory.read_write_other hb]

/-- A write cut short leaves the bytes outside it. -/
theorem Memory.read_writeLanded_other {l : List Byte} {k i a b : Nat} {m : Memory} (h : b < a ∨ a + l.length ≤ b) :
    (m.writeLanded k a i l).read b = m.read b := by
  induction l generalizing m a i with
  | nil => rfl
  | cons v l ih =>
    have h' : b < a + 1 ∨ a + 1 + l.length ≤ b := by simp only [List.length_cons] at h; omega
    have hb : b ≠ a := by simp only [List.length_cons] at h; omega
    unfold Memory.writeLanded
    rw [ih h']
    split
    · exact Memory.read_write_other hb
    · rfl

/-- Writes cut short leave the bytes outside all of them. -/
theorem Memory.read_cut_other {l : List BookWrite} {k b : Nat} {m : Memory}
    (h : ∀ w ∈ l, b < w.1 ∨ w.1 + w.2.length ≤ b) : (m.cut k l).read b = m.read b := by
  induction l generalizing m k with
  | nil => rfl
  | cons w l ih =>
    unfold Memory.cut
    rw [ih (fun w hw => h w (List.mem_cons_of_mem _ hw)), Memory.read_writeLanded_other (h w List.mem_cons_self)]

/-- A board's rewrite cut short leaves the bytes outside it. -/
theorem Memory.read_cutBoard_other {m : Memory} {k a b : Nat} {fields count : List Byte}
    (h : b < a ∨ a + (fields.length + count.length) ≤ b) : (m.cutBoard k a fields count).read b = m.read b := by
  unfold Memory.cutBoard
  split
  · rw [Memory.read_writeLanded_other (by omega), Memory.read_writeBytes_other (by omega)]
  · rw [Memory.read_writeLanded_other (by omega)]

/-- A write of several bytes leaves each of them where it belongs. -/
theorem Memory.read_writeBytes {l : List Byte} {m : Memory} {a i : Nat} (h : i < l.length) :
    (m.writeBytes a l).read (a + i) = l[i]? := by
  induction l generalizing m a i with
  | nil => simp at h
  | cons v l ih =>
    simp only [Memory.writeBytes]
    cases i with
    | zero =>
      rw [Memory.read_writeBytes_other (by omega)]
      simp [Memory.read_write]
    | succ i =>
      have := ih (m := m.write a v) (a := a + 1) (i := i) (by simpa using h)
      rw [show a + (i + 1) = a + 1 + i by omega, this]
      simp

end Sys2Proof.Machine
end

