-- ==== Sys2Proof/Laws/Steps.lean ====
section
/-! SUPPORT. What a step can do to the part, said once: a property of the part that the basic changes keep (`Closed`), that does
not depend on the fields the commands of the port write (`Local`), and that resets, the halt, samples, the clock and the Book
base keep (`Keeps`), is kept by every step (`Keeps.step`). -/

namespace Sys2Proof.Machine

/-- A closed property that depends on the bays, the channels, the channel grant queue, the time of day, BOOKLO, and the directory with
the PLAN_ENTER in progress alone, and that what the orders do to the directory keeps. -/
structure Local (P : Part → Prop) : Prop extends Closed P where
  any : ∀ p q : Part, p.bays = q.bays → p.chans = q.chans → p.chanQueue = q.chanQueue → p.seconds = q.seconds →
    p.fraction = q.fraction → p.bookLo = q.bookLo → (p.dir, p.planEnter) = (q.dir, q.planEnter) → P p → P q
  /-- the plans of an entry are being read: the directory can take it, or its plans were being read already -/
  reads : ∀ (p : Part) (r : PlanEnter), (p.dir.refusal r.entry = none ∨ ∃ r', p.planEnter = some r' ∧ r'.entry = r.entry) →
    P p → P { p with planEnter := some r }
  /-- such an entry is inserted -/
  enters : ∀ (p : Part) (x : Fin 128) (e : DirEntry), p.dir.lowestFree = some x →
    (p.dir.refusal e = none ∨ ∃ r, p.planEnter = some r ∧ r.entry = e) → P p →
    P { p with planEnter := none, dir := p.dir.insertAt x e }
  /-- a PLAN_ENTER ends without an insertion -/
  ends : ∀ p : Part, P p → P { p with planEnter := none }
  /-- an entry is removed -/
  removes : ∀ (p : Part) (x : Fin 128) (e : DirEntry), p.dir.entry x = some e → P p → P { p with dir := p.dir.removeAt x e }

namespace Local

variable {P : Part → Prop}

theorem passOver (h : Local P) (p : Part) (k : PassKind) (hp : P p) : P (p.passOver k) := by
  unfold Part.passOver
  split
  · exact h.any p _ rfl rfl rfl rfl rfl rfl rfl hp
  · split
    · exact h.any p _ rfl rfl rfl rfl rfl rfl rfl hp
    · exact h.any p _ rfl rfl rfl rfl rfl rfl rfl hp

theorem boardGo (h : Local P) (p : Part) (k : PassKind) (l : List Bay) (hp : P p) : P (p.boardGo k l) := by
  unfold Part.boardGo
  split
  · exact h.passOver _ _ hp
  · rename_i b l
    have hq : P (p.mapBay b (fun u => { u with boardChanged := false })) := h.bay _ _ _ (fun _ => ⟨rfl, rfl, rfl, rfl, rfl⟩) hp
    exact h.any (p.mapBay b (fun u => { u with boardChanged := false })) _ rfl rfl rfl rfl rfl rfl rfl hq

theorem boardPass (h : Local P) (p : Part) (hp : P p) : P p.boardPass := by
  unfold Part.boardPass
  split
  · exact h.boardGo _ _ _ hp
  · exact hp

theorem finalPass (h : Local P) (p : Part) (hp : P p) : P p.finalPass := by
  unfold Part.finalPass
  split
  · exact h.boardPass _ (h.any p _ rfl rfl rfl rfl rfl rfl rfl hp)
  · exact hp

theorem idleTest (h : Local P) (p : Part) (hp : P p) : P p.idleTest := by
  unfold Part.idleTest
  split
  · exact h.any p _ rfl rfl rfl rfl rfl rfl rfl hp
  · exact hp

theorem markBoards (h : Local P) (old p : Part) (hp : P p) : P (Part.markBoards old p) := by
  refine Closed.fold (fun p b hp => ?_) _ _ hp
  unfold Part.markBoard
  extract_lets now
  split
  · exact h.bay _ _ _ (fun _ => ⟨rfl, rfl, rfl, rfl, rfl⟩) hp
  · exact hp

/-- The end of a command keeps a local property. -/
theorem finish (h : Local P) (old p : Part) (hp : P p) : P (Part.finish old p) := by
  unfold Part.finish
  exact h.idleTest _ (h.finalPass _ (h.boardPass _ (h.markBoards old p hp)))

/-- A command keeps a local property that its own effect keeps. -/
theorem after (h : Local P) (p : Part) (f : Part → Part) (hf : ∀ p, P p → P (f p)) (hp : P p) : P (p.after f) := by
  unfold Part.after
  exact h.finish _ _ (h.settle _ _ (hf _ (h.any p _ rfl rfl rfl rfl rfl rfl rfl hp)))

theorem relaysClosed (h : Local P) (p : Part) (c : Chan) (hp : P p) : P (p.relaysClosed c) := by
  unfold Part.relaysClosed
  extract_lets ch
  split
  · rename_i hc
    split
    · refine h.chan p c _ (fun hk => ?_) hp
      rcases hk with hk | hk
      · exact absurd (hc.symm.trans hk) (by decide)
      · exact .inr hk
    · exact h.later _ _ (h.chan p c _ (fun _ => .inl rfl) hp)
  · exact hp

theorem relaysOpen (h : Local P) (p : Part) (c : Chan) (hp : P p) : P (p.relaysOpen c) := by
  unfold Part.relaysOpen
  split
  · rename_i hc
    extract_lets q
    have hq : P q := by
      refine h.chan p c _ (fun hk => ?_) hp
      rcases hk with hk | hk
      · exact absurd (hc.symm.trans hk) (by decide)
      · exact .inr hk
    split
    · exact hq
    · exact h.later _ _ hq
  · exact hp

theorem holdEnd (h : Local P) (p : Part) (c : Chan) (hp : P p) : P (p.holdEnd c) := by
  unfold Part.holdEnd
  split
  · exact h.later _ _ (h.chan p c _ (fun hk => hk) hp)
  · exact hp

theorem unloadStep (h : Local P) (p : Part) (c : Chan) (hp : P p) : P (p.unloadStep c) := by
  unfold Part.unloadStep
  extract_lets ch v
  split
  · rename_i hc
    split
    · exact h.later _ _ (h.chan p c _ (fun _ => .inr rfl) hp)
    · exact h.chan p c _ (fun _ => .inl hc.1) hp
  · exact hp

theorem linkFall (h : Local P) (p : Part) (b : Bay) (s : Slot) (hp : P p) : P (p.linkFall b s) :=
  h.later _ _ (h.link p b _ (fun hk => hk.remove _) hp)

theorem settleMissed (h : Local P) (p : Part) (b : Bay) (s : Slot) (hp : P p) :
    P (p.settleMissed b s) := by
  unfold Part.settleMissed
  extract_lets z1 temp2
  clear_value z1 temp2
  repeat' first
    | with_reducible assumption
    | with_reducible apply h.settleWith

theorem enterRecover (h : Local P) (p : Part) (b : Bay) (s : Slot) (span : Span) (hp : P p) :
    P (p.enterRecover b s span) := by
  unfold Part.enterRecover
  repeat' first
    | with_reducible assumption
    | with_reducible apply h.work
    | with_reducible apply h.startSpan
    | with_reducible apply h.setPhase

theorem observed (h : Local P) (p : Part) (b : Bay) (s : Slot) (q : OcpCheck) (seen : Behaviour) (delay : Option Nat) (hp : P p) :
    P (p.observed b s q seen delay) := by
  unfold Part.observed
  extract_lets p1
  have hp1 : P p1 := by
    unfold p1
    repeat' first
      | with_reducible assumption
      | with_reducible apply h.work
  clear_value p1
  repeat' first
    | with_reducible assumption
    | with_reducible apply h.work
    | with_reducible apply h.setPhase
    | with_reducible apply h.handOwn
    | with_reducible apply h.recoverDecided
    | with_reducible apply h.enterRecover
    | split

theorem ocpTrip (h : Local P) (p : Part) (b : Bay) (s : Slot) (plan : Plan) (q : OcpCheck) (k : Capture) (firedAt : Nat) (hp : P p) :
    P (p.ocpTrip b s plan q k firedAt) := by
  unfold Part.ocpTrip
  extract_lets p1
  have hp1 : P p1 := by
    unfold p1
    repeat' first
      | with_reducible assumption
      | with_reducible apply h.work
  clear_value p1
  repeat' first
    | with_reducible assumption
    | with_reducible apply h.work
    | with_reducible apply h.startSpan
    | with_reducible apply h.setPhase

theorem ovpTrip (h : Local P) (p : Part) (b : Bay) (s : Slot) (plan : Plan) (q : OvpCheck) (k : Capture) (volts : Nat) (hp : P p) :
    P (p.ovpTrip b s plan q k volts) := by
  unfold Part.ovpTrip
  extract_lets p1 p2 p3
  have hp1 : P p1 := by
    unfold p1
    repeat' first
      | with_reducible assumption
      | with_reducible apply h.work
  clear_value p1
  have hp2 : P p2 := by
    unfold p2
    repeat' first
      | with_reducible assumption
      | with_reducible apply h.work
      | with_reducible apply h.withdrawEntries
  clear_value p2
  have hp3 : P p3 := by
    unfold p3
    repeat' first
      | with_reducible assumption
      | with_reducible apply h.work
      | with_reducible apply h.withdrawEntries
      | with_reducible apply h.handOwn
      | with_reducible apply h.enterRecover
  clear_value p3
  repeat' first
    | with_reducible assumption
    | with_reducible apply h.work
    | with_reducible apply h.withdrawEntries
    | with_reducible apply h.handOwn
    | with_reducible apply h.enterRecover
    | split

theorem derateTrip (h : Local P) (p : Part) (b : Bay) (s : Slot) (k : Capture) (hp : P p) :
    P (p.derateTrip b s k) := by
  unfold Part.derateTrip
  extract_lets p1
  have hp1 : P p1 := by
    unfold p1
    repeat' first
      | with_reducible assumption
      | with_reducible apply h.ctx
  clear_value p1
  repeat' first
    | with_reducible assumption
    | with_reducible apply h.ctx
    | with_reducible apply h.work
    | with_reducible apply h.setPhase
    | with_reducible apply h.handOwn

theorem onTrip (h : Local P) (p : Part) (c : Chan) (setpoint peak volts : Nat) (f : Firing) (hp : P p) :
    P (p.onTrip c setpoint peak volts f) := by
  unfold Part.onTrip
  dsimp only
  repeat' first
    | with_reducible assumption
    | with_reducible apply h.ocpTrip
    | with_reducible apply h.ovpTrip
    | with_reducible apply h.derateTrip
    | split

theorem tripFiring (h : Local P) (p : Part) (c : Chan) (hp : P p) :
    P (p.tripFiring c) := by
  unfold Part.tripFiring
  extract_lets ch1
  clear_value ch1
  repeat' first
    | with_reducible assumption
    | with_reducible apply h.dropChan
    | with_reducible apply h.onTrip
    | split

theorem ovpNoTrip (h : Local P) (p : Part) (b : Bay) (s : Slot) (plan : Plan) (hp : P p) : P (p.ovpNoTrip b s plan) := by
  unfold Part.ovpNoTrip
  extract_lets p1 p2
  have h1 : P p1 := h.work _ _ _ _ hp
  have h2 : P p2 := by
    unfold p2
    split
    · exact h.unloadChan _ _ (h.chan _ _ _ (fun hk => hk) h1)
    · exact h1
  exact h.handOwn _ _ _ _ _ _ (h.setPhase _ _ _ _ h2)

theorem cutPlateau (h : Local P) (p : Part) (b : Bay) (s : Slot) (hp : P p) :
    P (p.cutPlateau b s) := by
  unfold Part.cutPlateau
  extract_lets phase1 p2
  clear_value phase1
  have hp2 : P p2 := by
    unfold p2
    repeat' first
      | with_reducible assumption
      | with_reducible apply h.ctx
  clear_value p2
  repeat' first
    | with_reducible assumption
    | with_reducible apply h.ctx
    | with_reducible apply h.work
    | with_reducible apply h.openChan
    | with_reducible apply h.withdrawEntries
    | with_reducible apply h.leaveBusQueue
    | with_reducible apply h.leaveChanQueue
    | with_reducible apply h.giveUpBus
    | with_reducible apply h.settleStarted
    | with_reducible apply h.keepFlying
    | with_reducible apply h.enterRelease
    | split

theorem disturb (h : Local P) (p : Part) (b : Bay) (s : Slot) (hp : P p) :
    P (p.disturb b s) := by
  unfold Part.disturb
  extract_lets c1 p2
  clear_value c1
  have hp2 : P p2 := by
    unfold p2
    repeat' first
      | with_reducible assumption
      | with_reducible apply h.work
  clear_value p2
  repeat' first
    | with_reducible assumption
    | with_reducible apply h.work
    | with_reducible apply h.withdrawEntries
    | with_reducible apply h.keepFlying
    | with_reducible apply h.enterRelease
    | split

theorem disturbBay (h : Local P) (p : Part) (b : Bay) (s : Slot) (hp : P p) :
    P (p.disturbBay b s) := by
  unfold Part.disturbBay
  dsimp only
  repeat' first
    | with_reducible assumption
    | with_reducible apply h.disturb
    | split

theorem badPlan (h : Local P) (p : Part) (b : Bay) (s : Slot) (ref bad : Nat) (hp : P p) :
    P (p.badPlan b s ref bad) := by
  unfold Part.badPlan
  repeat' first
    | with_reducible assumption
    | with_reducible apply h.ctx
    | with_reducible apply h.later
    | with_reducible apply h.endWith

theorem enterPlanned (h : Local P) (p : Part) (b : Bay) (s : Slot) (plan : Plan) (hp : P p) :
    P (p.enterPlanned b s plan) := by
  unfold Part.enterPlanned
  extract_lets p1 p2 u3
  clear_value u3
  have hp1 : P p1 := by
    unfold p1
    repeat' first
      | with_reducible assumption
      | (with_reducible refine h.bay _ _ _ (fun _ => ⟨rfl, rfl, rfl, rfl, rfl⟩) ?_)
      | with_reducible apply h.ctx
  clear_value p1
  have hp2 : P p2 := by
    unfold p2
    repeat' first
      | with_reducible assumption
      | (with_reducible refine h.bay _ _ _ (fun _ => ⟨rfl, rfl, rfl, rfl, rfl⟩) ?_)
      | with_reducible apply h.ctx
      | with_reducible apply h.later
  clear_value p2
  repeat' first
    | with_reducible assumption
    | (with_reducible refine h.bay _ _ _ (fun _ => ⟨rfl, rfl, rfl, rfl, rfl⟩) ?_)
    | with_reducible apply h.ctx
    | with_reducible apply h.later
    | split

theorem dropRead (h : Local P) (p : Part) (plan : Bool) (who : Requester) (hp : P p) : P (p.dropRead plan who) :=
  h.set_admReads p _ hp

theorem samplingRead (h : Local P) (p : Part) (who : Requester) (v : Byte) (hp : P p) : P (p.samplingRead who v) := by
  unfold Part.samplingRead
  extract_lets c q
  have hq : P q := h.dropRead _ _ _ hp
  clear_value q
  split
  · split
    · exact hq
    · extract_lets used r
      have hr : P r := h.ctx _ _ _ _ hq
      clear_value r
      split
      · exact h.set_admReads _ _ hr
      · exact h.badPlan _ _ _ _ _ hr
  · exact hq

theorem planRead (h : Local P) (p : Part) (who : Requester) (bytes : List Byte) (hp : P p) :
    P (p.planRead who bytes) := by
  unfold Part.planRead
  extract_lets c1 p2
  clear_value c1
  have hp2 : P p2 := by
    unfold p2
    repeat' first
      | with_reducible assumption
      | with_reducible apply h.badPlan
      | with_reducible apply h.enterPlanned
      | with_reducible apply h.dropRead
  clear_value p2
  repeat' first
    | with_reducible assumption
    | with_reducible apply h.badPlan
    | with_reducible apply h.enterPlanned
    | with_reducible apply h.dropRead
    | split

theorem pageMarkRead (h : Local P) (p : Part) (mark : Byte) (hp : P p) : P (p.pageMarkRead mark) := by
  unfold Part.pageMarkRead
  split
  · exact hp
  · split
    · extract_lets q
      have hq : P q := h.any p _ rfl rfl rfl rfl rfl rfl rfl hp
      split
      · exact h.rescanOver _ _ hq
      · exact hq
    · exact h.scanFrom _ _ _ _ _ hp

theorem claimDone (h : Local P) (p : Part) (c : Claim) (hp : P p) : P (p.claimDone c) := by
  unfold Part.claimDone
  extract_lets p0 p1 p2 p3
  have h0 : P p0 := h.bay _ _ _ (fun _ => ⟨rfl, rfl, rfl, rfl, rfl⟩) hp
  have h1 : P p1 := h.any p0 _ rfl rfl rfl rfl rfl rfl rfl h0
  have h2 : P p2 := h.rescanOver _ _ h1
  have h3 : P p3 := by
    unfold p3
    split
    · exact h.set_dry _ _ h2
    · exact h2
  exact h.later _ _ h3

theorem recordLeft (h : Local P) (p : Part) (b : Bay) (hp : P p) : P (p.recordLeft b) := by
  unfold Part.recordLeft
  extract_lets p1 u p2
  refine h.later _ _ ?_
  obtain ⟨f, hf, hl⟩ : ∃ f : List Nat → List Nat,
      p2 = p.mapBay b (fun u =>
        { u with drain := .idle, buffer := u.buffer.drop 1, pageCount := u.pageCount + 1, fullWrites := f u.fullWrites }) ∧
      (p2.bay b).line = (p.bay b).line := by
    have hid : p1 = p.mapBay b (fun u =>
        { u with drain := .idle, buffer := u.buffer.drop 1, pageCount := u.pageCount + 1, fullWrites := id u.fullWrites }) := rfl
    have h1 : (p1.bay b).line = (p.bay b).line := by
      unfold p1
      rw [Part.bay_mapBay]
    unfold p2
    split
    · split
      · rename_i page _ _
        refine ⟨fun l => l ++ [page], ?_, ?_⟩
        · unfold p1
          rw [Part.mapBay_mapBay]
        · rw [Part.bay_mapBay]
          exact h1
      · exact ⟨id, hid, h1⟩
    · exact ⟨id, hid, h1⟩
  unfold Part.lineEnters
  rw [hl]
  split
  · rename_i hn
    rw [hf]
    refine h.buffer p b _ (fun hk => ⟨?_, fun hm => absurd hn hm, hk.2.2⟩) ⟨rfl, rfl, rfl⟩ hp
    have h8 := hk.1
    simp only [List.length_drop]
    omega
  · rename_i e l hn
    extract_lets p3
    refine h.later _ _ (h.ctx _ _ _ _ ?_)
    unfold p3
    rw [hf, Part.mapBay_mapBay]
    refine h.buffer p b _ (fun hk => ?_) ⟨rfl, rfl, rfl⟩ hp
    obtain ⟨_, h8, h6, hd⟩ := hk
    have h8 : (p.bay b).buffer.length = 8 := h8 (by rw [hn]; exact List.cons_ne_nil _ _)
    rw [hn] at h6 hd
    refine ⟨?_, fun _ => ?_, Nat.le_of_succ_le h6, (List.nodup_cons.mp hd).2⟩
    · simp only [List.length_append, List.length_drop, List.length_cons, List.length_nil]
      omega
    · simp only [List.length_append, List.length_drop, List.length_cons, List.length_nil]
      omega

theorem fullWritten (h : Local P) (p : Part) (b : Bay) (page : Nat) (hp : P p) :
    P (p.fullWritten b page) := by
  unfold Part.fullWritten
  extract_lets p1
  have hp1 : P p1 := by
    unfold p1
    repeat' first
      | with_reducible assumption
      | (with_reducible refine h.bay _ _ _ (fun _ => ⟨rfl, rfl, rfl, rfl, rfl⟩) ?_)
  clear_value p1
  repeat' first
    | with_reducible assumption
    | (with_reducible refine h.bay _ _ _ (fun _ => ⟨rfl, rfl, rfl, rfl, rfl⟩) ?_)
    | with_reducible apply h.later
    | with_reducible apply h.notify

theorem startSweep (h : Local P) (p : Part) (hp : P p) : P p.startSweep := h.any p _ rfl rfl rfl rfl rfl rfl rfl hp

theorem enterStopping (h : Local P) (p : Part) (hp : P p) : P p.enterStopping := by
  unfold Part.enterStopping
  extract_lets q
  have hq : P q := h.any p _ rfl rfl rfl rfl rfl rfl rfl hp
  split
  · exact h.any q _ rfl rfl rfl rfl rfl rfl rfl hq
  · exact h.stopWithdrawals _ hq

theorem rejectHead (h : Local P) (p : Part) (c : HeadCause) (hp : P p) : P (p.rejectHead c) :=
  h.notify _ _ (h.any p _ rfl rfl rfl rfl rfl rfl rfl hp)

theorem headRead (h : Local P) (p : Part) (l : List Byte) (ha : ∀ p, P p → P (p.acceptHead l)) (hp : P p) :
    P (p.headRead l) := by
  unfold Part.headRead
  split
  · exact h.any p _ rfl rfl rfl rfl rfl rfl rfl hp
  · split
    · split
      · exact ha _ hp
      · exact h.rejectHead _ _ hp
    · exact hp

theorem planEnterNext (h : Local P) (p : Part) (o : OrderSlot) (e : DirEntry) (g : Word) (l : List (Fin 4 × Nat))
    (he : p.dir.refusal e = none ∨ ∃ r, p.planEnter = some r ∧ r.entry = e) (hp : P p) : P (p.planEnterNext o e g l) := by
  unfold Part.planEnterNext
  split
  · unfold Part.insertEntry
    split
    · exact h.answer _ _ _ _ (h.ends _ hp)
    · exact h.answer _ _ _ _ (h.enters p _ _ ‹_› he hp)
  · exact h.reads _ _ he hp

theorem orderPlanEnter (h : Local P) (p : Part) (o : OrderSlot) (l : List Byte) (hp : P p) : P (p.orderPlanEnter o l) := by
  unfold Part.orderPlanEnter
  split
  · exact h.answer _ _ _ _ hp
  · exact h.answer _ _ _ _ hp
  · extract_lets e
    split
    · exact h.answer _ _ _ _ hp
    · exact h.planEnterNext _ _ _ _ _ (.inl ‹_›) hp

theorem planEnterRead (h : Local P) (p : Part) (bytes : List Byte) (hp : P p) : P (p.planEnterRead bytes) := by
  unfold Part.planEnterRead
  split
  · exact hp
  · rename_i r hr
    split
    · exact h.planEnterNext _ _ _ _ _ (.inr ⟨r, hr, rfl⟩) hp
    · exact h.answer _ _ _ _ (h.ends _ hp)

theorem orderPlanRemove (h : Local P) (p : Part) (o : OrderSlot) (l : List Byte) (hp : P p) : P (p.orderPlanRemove o l) := by
  unfold Part.orderPlanRemove
  split
  · extract_lets x
    split
    · exact h.answer _ _ _ _ hp
    · exact h.answer _ _ _ _ (h.removes _ _ _ ‹_› hp)
  · exact h.answer _ _ _ _ hp

theorem orderPlanQuery (h : Local P) (p : Part) (o : OrderSlot) (l : List Byte) (hp : P p) :
    P (p.orderPlanQuery o l) := by
  unfold Part.orderPlanQuery
  repeat' first
    | with_reducible assumption
    | with_reducible apply h.answer

theorem admitBay (h : Local P) (p : Part) (o : OrderSlot) (b : Bay) (start : StartPolicy) (insert : InsertPolicy) (hp : P p) :
    P (p.admitBay o b start insert) := by
  unfold Part.admitBay
  extract_lets p1 p2
  have h1 : P p1 := h.bay _ _ _ (fun _ => ⟨rfl, rfl, rfl, rfl, rfl⟩) hp
  exact h.later _ _ (Closed.fold (fun p x hp => h.identify _ _ _ hp) _ _ h1)

theorem orderAdmit (h : Local P) (p : Part) (o : OrderSlot) (b : Bay) (l : List Byte) (hp : P p) :
    P (p.orderAdmit o b l) := by
  unfold Part.orderAdmit
  repeat' first
    | with_reducible assumption
    | with_reducible apply h.answer
    | with_reducible apply h.admitBay
    | split

theorem orderStart (h : Local P) (p : Part) (o : OrderSlot) (b : Bay) (hp : P p) :
    P (p.orderStart o b) := by
  unfold Part.orderStart
  extract_lets u1
  clear_value u1
  repeat' first
    | with_reducible assumption
    | (with_reducible refine h.bay _ _ _ (fun _ => ⟨rfl, rfl, rfl, rfl, rfl⟩) ?_)
    | with_reducible apply h.later
    | with_reducible apply h.answer
    | with_reducible apply h.startCtxs
    | split

theorem holdBusQueue (h : Local P) (p : Part) (b : Bay) (hp : P p) : P (p.holdBusQueue b) :=
  Closed.fold (fun _ _ hp => h.ctx _ _ _ _ (h.leaveBusQueue _ _ _ hp)) _ _ hp

theorem holdChanQueue (h : Local P) (p : Part) (b : Bay) (hp : P p) :
    P (p.holdChanQueue b) := by
  unfold Part.holdChanQueue
  repeat' first
    | with_reducible assumption
    | with_reducible apply h.ctx
    | with_reducible apply h.releaseBus
    | with_reducible apply h.leaveChanQueue
    | split

theorem orderHold (h : Local P) (p : Part) (o : OrderSlot) (b : Bay) (hp : P p) : P (p.orderHold o b) := by
  unfold Part.orderHold
  split
  · extract_lets p1 p2 p3 p4
    have h1 : P p1 := h.bay _ _ _ (fun _ => ⟨rfl, rfl, rfl, rfl, rfl⟩) hp
    have h2 : P p2 := Closed.fold (fun _ _ hp => h.ctx _ _ _ _ hp) _ _ h1
    have h3 : P p3 := h.holdChanQueue _ _ (h.holdBusQueue _ _ h2)
    exact h.later _ _ (Closed.fold (fun _ _ hp => h.pauseAtPlateau _ _ _ hp) _ _ h3)
  · exact h.answer _ _ _ _ hp

theorem wake (h : Local P) (p : Part) (b : Bay) (s : Slot) (hp : P p) :
    P (p.wake b s) := by
  unfold Part.wake
  extract_lets inLoop1 p2
  clear_value inLoop1
  have hp2 : P p2 := by
    unfold p2
    repeat' first
      | with_reducible assumption
      | with_reducible apply h.ctx
  clear_value p2
  repeat' first
    | with_reducible assumption
    | with_reducible apply h.ctx
    | with_reducible apply h.later
    | with_reducible apply h.joinZone
    | split

theorem resumeCtx (h : Local P) (p : Part) (b : Bay) (s : Slot) (hp : P p) :
    P (p.resumeCtx b s) := by
  unfold Part.resumeCtx
  extract_lets c1
  clear_value c1
  repeat' first
    | with_reducible assumption
    | with_reducible apply h.ctx
    | with_reducible apply h.later
    | with_reducible apply h.wake
    | split

theorem orderResume (h : Local P) (p : Part) (o : OrderSlot) (b : Bay) (hp : P p) : P (p.orderResume o b) := by
  unfold Part.orderResume
  extract_lets u p1 p2
  split
  · have h1 : P p1 := by
      unfold p1
      split
      · exact h.answerPending _ _ _ _ hp
      · exact hp
    have h2 : P p2 := h.answer _ _ _ _ (h.bay _ _ _ (fun _ => ⟨rfl, rfl, rfl, rfl, rfl⟩) h1)
    exact h.later _ _ (Closed.fold (fun _ _ hp => h.resumeCtx _ _ _ hp) _ _ h2)
  · exact h.answer _ _ _ _ hp

theorem orderWithdraw (h : Local P) (p : Part) (o : OrderSlot) (b : Bay) (hp : P p) :
    P (p.orderWithdraw o b) := by
  unfold Part.orderWithdraw
  dsimp only
  repeat' first
    | with_reducible assumption
    | (with_reducible refine h.bay _ _ _ (fun _ => ⟨rfl, rfl, rfl, rfl, rfl⟩) ?_)
    | with_reducible apply h.answer
    | with_reducible apply h.answerPending
    | with_reducible apply h.beginWithdraw
    | with_reducible apply h.withdrawCtxs
    | split

theorem orderBay (h : Local P) (p : Part) (o : OrderSlot) (l : List Byte) (f : Bay → Part) (hf : ∀ b, P (f b)) (hp : P p) :
    P (p.orderBay o l f) := by
  unfold Part.orderBay
  split
  · exact hf _
  · exact h.answer _ _ _ _ hp

theorem orderSchedule (h : Local P) (p : Part) (o : OrderSlot) (l : List Byte) (hp : P p) :
    P (p.orderSchedule o l) := by
  unfold Part.orderSchedule
  dsimp only
  repeat' first
    | with_reducible assumption
    | with_reducible apply h.zone
    | with_reducible apply h.answer
    | split

theorem orderClock (h : Local P) (p : Part) (o : OrderSlot) (l : List Byte)
    (hc : ∀ (p : Part) (d : DateTime), d.badField = none → P p →
      P { p with seconds := d.count, fraction := 0, trusted := true }) (hp : P p) :
    P (p.orderClock o l) := by
  unfold Part.orderClock
  split
  · exact h.answer _ _ _ _ hp
  · rename_i hd
    exact h.answer _ _ _ _ (hc p _ hd hp)

theorem takeOrder (h : Local P) (p : Part) (o : OrderSlot) (l : List Byte)
    (hc : ∀ (p : Part) (d : DateTime), d.badField = none → P p →
      P { p with seconds := d.count, fraction := 0, trusted := true }) (hp : P p) :
    P (p.takeOrder o l) := by
  unfold Part.takeOrder
  split
  · exact h.orderPlanEnter _ _ _ hp
  · exact h.orderPlanRemove _ _ _ hp
  · exact h.orderPlanQuery _ _ _ hp
  · exact h.orderBay _ _ _ _ (fun b => h.orderAdmit _ _ _ _ hp) hp
  · exact h.orderBay _ _ _ _ (fun b => h.orderStart _ _ _ hp) hp
  · exact h.orderBay _ _ _ _ (fun b => h.orderHold _ _ _ hp) hp
  · exact h.orderBay _ _ _ _ (fun b => h.orderResume _ _ _ hp) hp
  · exact h.orderBay _ _ _ _ (fun b => h.orderWithdraw _ _ _ hp) hp
  · exact h.orderSchedule _ _ _ hp
  · exact h.orderClock _ _ _ hc hp
  · exact h.answer _ _ _ _ hp

theorem orderCopied (h : Local P) (p : Part) (bytes : List Byte)
    (hc : ∀ (p : Part) (d : DateTime), d.badField = none → P p →
      P { p with seconds := d.count, fraction := 0, trusted := true }) (hp : P p) :
    P (p.orderCopied bytes) := by
  unfold Part.orderCopied
  split
  · extract_lets l q
    exact h.later _ _ (h.takeOrder _ _ _ hc (h.any p _ rfl rfl rfl rfl rfl rfl rfl hp))
  · exact hp

theorem marksRead (h : Local P) (p : Part) (marks : List Byte) (hp : P p) :
    P (p.marksRead marks) := by
  unfold Part.marksRead
  repeat' first
    | with_reducible assumption
    | with_reducible apply h.nextTaking
    | split

theorem callAgain (h : Local P) (p : Part) (hp : P p) : P p.callAgain := by
  unfold Part.callAgain
  split
  · exact h.any p _ rfl rfl rfl rfl rfl rfl rfl hp
  · exact hp

theorem handledNext (h : Local P) (p : Part) (o : OrderSlot) (hp : P p) :
    P (p.handledNext o) := by
  unfold Part.handledNext
  repeat' first
    | with_reducible assumption
    | with_reducible apply h.later
    | split

theorem takenWritten (h : Local P) (p : Part) (o : OrderSlot) (hp : P p) : P (p.takenWritten o) :=
  h.handledNext _ _ (h.any p _ rfl rfl rfl rfl rfl rfl rfl hp)

theorem answerStage (h : Local P) (o : OrderSlot) (stage : AnswerStage) (a : Answering) (p : Part) (hp : P p) :
    P (p.answerStage o stage a) :=
  h.set_answers p _ hp

theorem answered (h : Local P) (p : Part) (o : OrderSlot) (hp : P p) : P (p.answered o) :=
  h.handledNext _ _ (h.notify _ _ (h.set_answers p _ hp))

theorem boardDone (h : Local P) (p : Part) (b : Bay) (k : PassKind) (rest : List Bay) (hp : P p) : P (p.boardDone b k rest) :=
  h.boardGo _ _ _ (h.bay _ _ _ (fun _ => ⟨rfl, rfl, rfl, rfl, rfl⟩) hp)

theorem mapPresence (h : Local P) (p : Part) (b : Bay) (s : Slot) (f : Presence → Presence) (hp : P p) :
    P (p.mapPresence b s f) := by
  unfold Part.mapPresence
  repeat' first
    | with_reducible assumption
    | (with_reducible refine h.bay _ _ _ (fun _ => ⟨rfl, rfl, rfl, rfl, rfl⟩) ?_)

theorem presenceNotice (h : Local P) (p : Part) (hp : P p) :
    P (p.presenceNotice) := by
  unfold Part.presenceNotice
  repeat' first
    | with_reducible assumption
    | with_reducible apply h.notify
    | split

theorem rise (h : Local P) (p : Part) (b : Bay) (s : Slot) (hp : P p) :
    P (p.rise b s) := by
  unfold Part.rise
  extract_lets p1 p2
  have hp1 : P p1 := by
    unfold p1
    repeat' first
      | with_reducible assumption
      | with_reducible apply h.disturbBay
      | with_reducible apply h.identify
      | with_reducible apply h.admitted
      | with_reducible apply h.mapPresence
      | with_reducible apply h.presenceNotice
  clear_value p1
  have hp2 : P p2 := by
    unfold p2
    repeat' first
      | with_reducible assumption
      | with_reducible apply h.disturbBay
      | with_reducible apply h.identify
      | with_reducible apply h.admitted
      | with_reducible apply h.mapPresence
      | with_reducible apply h.presenceNotice
      | split
  clear_value p2
  repeat' first
    | with_reducible assumption
    | with_reducible apply h.disturbBay
    | with_reducible apply h.identify
    | with_reducible apply h.admitted
    | with_reducible apply h.mapPresence
    | with_reducible apply h.presenceNotice
    | split

theorem leaveStandby (h : Local P) (p : Part) (b : Bay) (s : Slot) (hp : P p) :
    P (p.leaveStandby b s) := by
  unfold Part.leaveStandby
  extract_lets p1
  have hp1 : P p1 := by
    unfold p1
    repeat' first
      | with_reducible assumption
      | (with_reducible refine h.bay _ _ _ (fun _ => ⟨rfl, rfl, rfl, rfl, rfl⟩) ?_)
  clear_value p1
  repeat' first
    | with_reducible assumption
    | (with_reducible refine h.bay _ _ _ (fun _ => ⟨rfl, rfl, rfl, rfl, rfl⟩) ?_)
    | with_reducible apply h.later
    | split

theorem fall (h : Local P) (p : Part) (b : Bay) (s : Slot) (hp : P p) :
    P (p.fall b s) := by
  unfold Part.fall
  extract_lets p1 admitted2 p3 p4
  clear_value admitted2
  have hp1 : P p1 := by
    unfold p1
    repeat' first
      | with_reducible assumption
      | with_reducible apply h.later
      | with_reducible apply h.linkFall
      | with_reducible apply h.disturbBay
      | with_reducible apply h.removeCtx
      | with_reducible apply h.admitted
      | with_reducible apply h.presenceNotice
  clear_value p1
  have hp3 : P p3 := by
    unfold p3
    repeat' first
      | with_reducible assumption
      | with_reducible apply h.later
      | with_reducible apply h.linkFall
      | with_reducible apply h.disturbBay
      | with_reducible apply h.removeCtx
      | with_reducible apply h.admitted
      | with_reducible apply h.presenceNotice
      | with_reducible apply h.leaveStandby
      | split
  clear_value p3
  have hp4 : P p4 := by
    unfold p4
    repeat' first
      | with_reducible assumption
      | with_reducible apply h.later
      | with_reducible apply h.linkFall
      | with_reducible apply h.disturbBay
      | with_reducible apply h.removeCtx
      | with_reducible apply h.admitted
      | with_reducible apply h.presenceNotice
      | with_reducible apply h.leaveStandby
  clear_value p4
  repeat' first
    | with_reducible assumption
    | with_reducible apply h.later
    | with_reducible apply h.linkFall
    | with_reducible apply h.disturbBay
    | with_reducible apply h.removeCtx
    | with_reducible apply h.admitted
    | with_reducible apply h.presenceNotice
    | with_reducible apply h.leaveStandby
    | split

theorem outputOn (h : Local P) (p : Part) (b : Bay) (e : Entry) (r : LinkReply) (hp : P p) :
    P (p.outputOn b e r) := by
  unfold Part.outputOn
  repeat' first
    | with_reducible assumption
    | with_reducible apply h.ctx
    | split

theorem linkComplete (h : Local P) (p : Part) (b : Bay) (e : Entry) (r : LinkReply) (hp : P p) : P (p.linkComplete b e r) := by
  unfold Part.linkComplete
  split
  · exact h.link p b _ (fun _ => ⟨Nat.zero_le _, fun hl => absurd rfl hl, Nat.zero_le _⟩) hp
  · exact h.later _ _ (h.outputOn _ _ _ _ (h.link p b _ (fun hk => hk) hp))

theorem linkTimeout (h : Local P) (p : Part) (b : Bay) (e : Entry) (hp : P p) : P (p.linkTimeout b e) := by
  unfold Part.linkTimeout
  extract_lets q
  have hq : P q := h.link p b _ (fun hk => hk) hp
  split
  · exact hq
  · exact h.later _ _ hq

theorem restartRecognised (h : Local P) (p : Part) (b : Bay) (s : Slot) (hp : P p) :
    P (p.restartRecognised b s) := by
  unfold Part.restartRecognised
  extract_lets c1
  clear_value c1
  repeat' first
    | with_reducible assumption
    | with_reducible apply h.observed
    | split

theorem powerGoodRecognised (h : Local P) (p : Part) (b : Bay) (s : Slot) (hp : P p) :
    P (p.powerGoodRecognised b s) := by
  unfold Part.powerGoodRecognised
  extract_lets w1
  clear_value w1
  repeat' first
    | with_reducible assumption
    | with_reducible apply h.recoverDecided
    | split

theorem steadySettled (h : Local P) (p : Part) (b : Bay) (s : Slot) (hp : P p) :
    P (p.steadySettled b s) := by
  unfold Part.steadySettled
  repeat' first
    | with_reducible assumption
    | with_reducible apply h.setPhase
    | with_reducible apply h.measure
    | split

theorem shareSettled (h : Local P) (p : Part) (b : Bay) (s : Slot) (hp : P p) :
    P (p.shareSettled b s) := by
  unfold Part.shareSettled
  extract_lets c1
  clear_value c1
  repeat' first
    | with_reducible assumption
    | with_reducible apply h.setPhase
    | with_reducible apply h.measure
    | split

theorem restartWindowOver (h : Local P) (p : Part) (b : Bay) (s : Slot) (hp : P p) :
    P (p.restartWindowOver b s) := by
  unfold Part.restartWindowOver
  repeat' first
    | with_reducible assumption
    | with_reducible apply h.observed
    | split

theorem trimIntervalOver (h : Local P) (p : Part) (b : Bay) (s : Slot) (hp : P p) :
    P (p.trimIntervalOver b s) := by
  unfold Part.trimIntervalOver
  extract_lets c1
  clear_value c1
  repeat' first
    | with_reducible assumption
    | with_reducible apply h.handOwn
    | with_reducible apply h.ovpNoTrip
    | split

theorem dwellOver (h : Local P) (p : Part) (b : Bay) (s : Slot) (hp : P p) :
    P (p.dwellOver b s) := by
  unfold Part.dwellOver
  repeat' first
    | with_reducible assumption
    | with_reducible apply h.setPhase
    | with_reducible apply h.measure
    | split

theorem faultMember (h : Local P) (scheduled : Bool) (p : Part) (m : Member) (hp : P p) :
    P (Part.faultMember scheduled p m) := by
  unfold Part.faultMember
  extract_lets measuring q
  have hq : P q := h.ctx _ _ _ _ hp
  clear_value q
  split
  · exact h.cutPlateau _ _ _ hq
  · split
    · exact h.settleMissed _ _ _ hq
    · exact h.noPlateau _ _ _ hq

theorem zoneFaulted (h : Local P) (p : Part) (z : ZoneNo) (hp : P p) : P (p.zoneFaulted z) := by
  unfold Part.zoneFaulted
  extract_lets zone p1 p2 ready
  have h1 : P p1 := Closed.fold (fun _ _ hp => h.faultMember _ _ _ hp) _ _ hp
  exact h.outputs _ _ (h.notify _ _ (h.zone _ _ _ h1))

theorem markOffBand (h : Local P) (p : Part) (z : ZoneNo) (hp : P p) : P (p.markOffBand z) :=
  Closed.fold (fun _ _ hp => h.ctx _ _ _ _ hp) _ _ hp

theorem actOnReading (h : Local P) (p : Part) (z : ZoneNo) (inBand : Bool) (hp : P p) :
    P (p.actOnReading z inBand) := by
  unfold Part.actOnReading
  repeat' first
    | with_reducible assumption
    | with_reducible apply h.zone
    | with_reducible apply h.notify
    | with_reducible apply h.markOffBand
    | split

theorem zoneReading (h : Local P) (p : Part) (z : ZoneNo) (r : Reading) (hp : P p) :
    P (p.zoneReading z r) := by
  unfold Part.zoneReading
  extract_lets zone1 p2
  clear_value zone1
  have hp2 : P p2 := by
    unfold p2
    repeat' first
      | with_reducible assumption
      | with_reducible apply h.zone
  clear_value p2
  repeat' first
    | with_reducible assumption
    | with_reducible apply h.zone
    | with_reducible apply h.zoneFaulted
    | with_reducible apply h.actOnReading
    | split

theorem openPlateau (h : Local P) (p : Part) (z : ZoneNo) (hp : P p) :
    P (p.openPlateau z) := by
  unfold Part.openPlateau
  extract_lets p1
  have hp1 : P p1 := by
    unfold p1
    repeat' first
      | with_reducible assumption
      | with_reducible apply h.zone
  clear_value p1
  repeat' first
    | with_reducible assumption
    | with_reducible apply h.zone
    | with_reducible apply h.later

theorem limitMember (h : Local P) (p : Part) (m : Member) (hp : P p) :
    P (p.limitMember m) := by
  unfold Part.limitMember
  repeat' first
    | with_reducible assumption
    | with_reducible apply h.ctx
    | with_reducible apply h.settleMissed
    | with_reducible apply h.measured
    | split

theorem plateauLimit (h : Local P) (p : Part) (z : ZoneNo) (hp : P p) : P (p.plateauLimit z) := by
  unfold Part.plateauLimit
  extract_lets members missed p1 p2 p3
  have h2 : P p2 := Closed.fold (fun _ _ hp => h.limitMember _ _ hp) _ _ (h.zone _ _ _ hp)
  have h3 : P p3 := by
    unfold p3
    split
    · exact h.closePlateau _ _ h2
    · exact h.zone _ _ _ h2
  exact h.outputs _ _ h3

end Local

/-- A local property that resets, the halt, an accepted head, a sample, the clock and the Book base keep as well. -/
structure Keeps (P : Part → Prop) : Prop extends Local P where
  reset : ∀ n, P { Part.reset with free := n }
  restart : ∀ p, P p → P p.stationReset
  halt : ∀ p a, P p → P (p.enterHalted a)
  accept : ∀ p l, P p → P (p.acceptHead l)
  sampled : ∀ p x, P p → P (p.sampleInstant x)
  clock : ∀ (p : Part) (d : DateTime), d.badField = none → P p →
    P { p with seconds := d.count, fraction := 0, trusted := true }
  tick : ∀ p, P p → P p.ticked
  base : ∀ (p : Part) (w : Word), P p → P { p with bookLo := w &&& 0xFFFFF000 }

namespace Keeps

variable {P : Part → Prop}

/-- The commands that run an effect on the part keep what the effect keeps. -/
theorem run (h : Keeps P) {s t : State} {f : Part → Part} (hf : ∀ p, P p → P (f p)) (hs : P s.part)
    (he : s.run f = .next t) : P t.part := by
  rw [← Host.Outcome.next.inj he]
  exact h.after _ _ hf hs

theorem runWith (h : Keeps P) {s t : State} {m : Memory} {f : Part → Part} (hf : ∀ p, P p → P (f p)) (hs : P s.part)
    (he : s.runWith m f = .next t) : P t.part := by
  rw [← Host.Outcome.next.inj he]
  exact h.after _ _ hf hs

theorem runIf (h : Keeps P) {s t : State} {g : Bool} {f : Part → Part} (hf : g = true → ∀ p, P p → P (f p)) (hs : P s.part)
    (he : s.runIf g f = .next t) : P t.part := by
  unfold State.runIf at he
  split at he
  · rename_i hg
    exact h.run (hf hg) hs he
  · rw [← Host.Outcome.next.inj he]
    exact hs

/-- A field-only effect of the port. -/
theorem moved (h : Keeps P) {p q : Part} (hp : P p) (hb : p.bays = q.bays := by rfl) (hc : p.chans = q.chans := by rfl)
    (hq : p.chanQueue = q.chanQueue := by rfl) (hs : p.seconds = q.seconds := by rfl) (hf : p.fraction = q.fraction := by rfl)
    (hl : p.bookLo = q.bookLo := by rfl) (hd : (p.dir, p.planEnter) = (q.dir, q.planEnter) := by rfl) : P q :=
  h.any p q hb hc hq hs hf hl hd hp

theorem answerWritten (h : Keeps P) {s t : State} {o : OrderSlot} {now : AnswerStage} {f : Answering → Part → Part}
    (hf : ∀ a p, P p → P (f a p)) (hs : P s.part) (he : s.answerWritten o now f = .next t) : P t.part := by
  unfold State.answerWritten at he
  split at he
  · split at he
    · exact h.runWith (hf _) hs he
    · rw [← Host.Outcome.next.inj he]
      exact hs
  · rw [← Host.Outcome.next.inj he]
    exact hs

theorem claimWritten (h : Keeps P) {s t : State} {stage : ClaimStage} {f : Claim → Part → Part}
    (hf : ∀ c p, P p → P (f c p)) (hs : P s.part) (he : s.claimWritten stage f = .next t) : P t.part := by
  unfold State.claimWritten at he
  split at he
  · split at he
    · exact h.runWith (hf _) hs he
    · rw [← Host.Outcome.next.inj he]
      exact hs
  · rw [← Host.Outcome.next.inj he]
    exact hs

theorem drainWritten (h : Keeps P) {s t : State} {b : Bay} {stage : Drain} {f : Part → Part}
    (hf : ∀ p, P p → P (f p)) (hs : P s.part) (he : s.drainWritten b stage f = .next t) : P t.part := by
  unfold State.drainWritten at he
  split at he
  · exact h.runWith hf hs he
  · rw [← Host.Outcome.next.inj he]
    exact hs

theorem spanExpires (h : Keeps P) {s t : State} {b : Bay} {slot : Slot} {k : SpanKind} {f : Part → Part}
    (hf : ∀ p, P p → P (f p)) (hs : P s.part) (he : s.spanExpires b slot k f = .next t) : P t.part :=
  h.runIf (fun _ _ hp => hf _ (h.work _ _ _ _ hp)) hs he

/-- What a command leaves as it was. -/
theorem same {s t : State} (hs : P s.part) (he : (Host.Outcome.next s : Host.Outcome State Fault Refusal) = .next t) :
    P t.part := by
  rw [← Host.Outcome.next.inj he]
  exact hs

theorem rampStep (h : Keeps P) (p : Part) (c : Chan) (hc : (p.chan c).stepping = true) (hp : P p) :
    P (p.mapChan c Channel.rampStep) := by
  refine h.chan p c _ (fun _ => .inl ?_) hp (Channel.rampStep_grant _)
  have hr : (p.chan c).relay = .closed := by
    unfold Channel.stepping at hc
    simp only [Bool.and_eq_true, beq_iff_eq] at hc
    exact hc.1
  unfold Channel.rampStep
  split
  · dsimp only
    split
    · exact hr
    · exact hr
  · exact hr

/-- Every command keeps it. -/
theorem exec (h : Keeps P) (c : Instr) (s t : State) (hs : P s.part) (he : Machine.exec c s = .next t) : P t.part := by
  cases c with
  | powerOnReset =>
    rw [← Host.Outcome.next.inj he]
    exact h.reset _
  | stationReset =>
    rw [← Host.Outcome.next.inj he]
    exact h.restart _ hs
  | pcieHotReset =>
    rw [← Host.Outcome.next.inj he]
    exact h.restart _ hs
  | pcieLinkDown =>
    rw [← Host.Outcome.next.inj he]
    exact h.restart _ hs
  | startingComplete => exact h.runIf (fun _ _ hp => h.moved hp) hs he
  | runStart => exact h.runIf (fun _ _ hp => h.moved hp) hs he
  | runStop =>
    change Machine.execRunStop s = .next t at he
    unfold Machine.execRunStop at he
    split at he
    · exact h.runIf (fun _ _ hp => h.moved hp) hs he
    · exact h.run (fun _ hp => h.enterStopping _ hp) hs he
    · exact same hs he
  | sweepPeriod code => exact h.runIf (fun _ _ hp => h.moved hp) hs he
  | bookLo w => exact h.runIf (fun _ _ hp => h.base _ _ hp) hs he
  | bookHi w => exact h.runIf (fun _ _ hp => h.moved hp) hs he
  | nudge w =>
    refine h.runIf (fun _ p hp => ?_) hs he
    split
    · exact h.startSweep _ hp
    · exact h.moved hp
  | notice w => exact h.runIf (fun _ _ hp => h.callAgain _ (h.moved hp)) hs he
  | noticeEn w => exact h.runIf (fun _ _ hp => h.callAgain _ (h.moved hp)) hs he
  | registerWriteOther offset w => exact same hs he
  | headReadComplete bytes => exact h.runIf (fun _ _ hp => h.headRead _ _ (fun p hp => h.accept p _ hp) hp) hs he
  | bookAccessFailure access =>
    change Machine.execBookAccessFailure _ s = .next t at he
    unfold Machine.execBookAccessFailure at he
    split at he
    · exact h.runWith (fun _ hp => h.halt _ _ hp) hs he
    · exact same hs he
  | sweepTimerExpiry =>
    refine h.runIf (fun _ p hp => ?_) hs he
    split
    · exact h.startSweep _ hp
    · exact h.rescan _ _ hp
    · exact hp
  | slotMarksRead marks => exact h.run (fun _ hp => h.marksRead _ _ hp) hs he
  | orderCopyComplete bytes => exact h.run (fun _ hp => h.orderCopied _ _ h.clock hp) hs he
  | takenMarkWritten slot =>
    change Machine.execTakenMarkWritten _ s = .next t at he
    unfold Machine.execTakenMarkWritten at he
    split at he
    · exact h.runWith (fun _ hp => h.takenWritten _ _ hp) hs he
    · exact same hs he
  | answerFieldsWritten slot => exact h.answerWritten (fun _ _ hp => h.answerStage _ _ _ _ hp) hs he
  | answerCodeWritten slot => exact h.answerWritten (fun _ _ hp => h.answerStage _ _ _ _ hp) hs he
  | hostTagCopyWritten slot => exact h.answerWritten (fun _ _ hp => h.answerStage _ _ _ _ hp) hs he
  | answeredMarkWritten slot => exact h.answerWritten (fun _ _ hp => h.answered _ _ hp) hs he
  | boardWritten bay =>
    change Machine.execBoardWritten _ s = .next t at he
    unfold Machine.execBoardWritten at he
    split at he
    · split at he
      · exact h.runWith (fun _ hp => h.boardDone _ _ _ _ hp) hs he
      · exact same hs he
    · exact same hs he
  | planEnterReadComplete bytes => exact h.runIf (fun _ _ hp => h.planEnterRead _ _ hp) hs he
  | filteredRise bay slot =>
    refine h.runIf (fun _ p hp => ?_) hs he
    extract_lets q
    have hq : P q := h.mapPresence _ _ _ _ hp
    split
    · exact hq
    · exact h.rise _ _ _ hq
  | filteredFall bay slot =>
    refine h.runIf (fun _ p hp => ?_) hs he
    extract_lets q
    have hq : P q := h.mapPresence _ _ _ _ hp
    split
    · exact hq
    · exact h.fall _ _ _ (h.mapPresence _ _ _ _ hq)
  | linkTransactionComplete bay reply =>
    change Machine.execLinkTransactionComplete _ _ s = .next t at he
    unfold Machine.execLinkTransactionComplete at he
    split at he
    · exact h.runIf (fun _ _ hp => h.linkComplete _ _ _ _ hp) hs he
    · exact same hs he
  | attemptNacked bay => exact h.runIf (fun _ _ hp => h.link _ _ _ (fun hk => hk) hp) hs he
  | linkTimeout bay =>
    change Machine.execLinkTimeout _ s = .next t at he
    unfold Machine.execLinkTimeout at he
    split at he
    · exact h.run (fun _ hp => h.linkTimeout _ _ _ hp) hs he
    · exact same hs he
  | busRecoveryEnd bay =>
    refine h.runIf (fun _ p hp => h.link p _ _ (fun hk => ?_) hp) hs he
    split
    · exact ⟨Nat.zero_le _, fun hl => absurd rfl hl, Nat.zero_le _⟩
    · exact hk.next _
  | samplingReadComplete who byte => exact h.runIf (fun _ _ hp => h.samplingRead _ _ _ hp) hs he
  | admissionPlanReadComplete who bytes => exact h.runIf (fun _ _ hp => h.planRead _ _ _ hp) hs he
  | relaysClosed chan => exact h.runIf (fun _ _ hp => h.relaysClosed _ _ hp) hs he
  | relaysOpen chan => exact h.runIf (fun _ _ hp => h.relaysOpen _ _ hp) hs he
  | rampStep chan =>
    change s.runIf _ _ = .next t at he
    unfold State.runIf at he
    split at he
    · rename_i hc
      rw [← Host.Outcome.next.inj he]
      change P (Part.after _ _)
      unfold Part.after
      exact h.finish _ _ (h.settle _ _ (h.rampStep _ _ hc (h.moved hs)))
    · exact same hs he
  | ceilingHoldEnd chan => exact h.runIf (fun _ _ hp => h.holdEnd _ _ hp) hs he
  | unloadStep chan => exact h.runIf (fun _ _ hp => h.unloadStep _ _ hp) hs he
  | tripFiring chan => exact h.runIf (fun _ _ hp => h.tripFiring _ _ hp) hs he
  | measurementComplete bay slot => exact h.runIf (fun _ _ hp => h.measured _ _ _ hp) hs he
  | restartRecognised bay slot => exact h.runIf (fun _ _ hp => h.restartRecognised _ _ _ hp) hs he
  | powerGoodRecognised bay slot => exact h.runIf (fun _ _ hp => h.powerGoodRecognised _ _ _ hp) hs he
  | steadySettleExpiry bay slot => exact h.spanExpires (fun _ hp => h.steadySettled _ _ _ hp) hs he
  | shareSettleExpiry bay slot => exact h.spanExpires (fun _ hp => h.shareSettled _ _ _ hp) hs he
  | restartWindowExpiry bay slot => exact h.spanExpires (fun _ hp => h.restartWindowOver _ _ _ hp) hs he
  | recoverySpanExpiry bay slot => exact h.spanExpires (fun _ hp => h.recoverDecided _ _ _ _ _ hp) hs he
  | trimIntervalExpiry bay slot => exact h.spanExpires (fun _ hp => h.trimIntervalOver _ _ _ hp) hs he
  | loadDwellExpiry bay slot => exact h.spanExpires (fun _ hp => h.dwellOver _ _ _ hp) hs he
  | zoneReading zone a b => exact h.run (fun _ hp => h.zoneReading _ _ _ hp) hs he
  | zoneSettleExpiry zone => exact h.runIf (fun _ _ hp => h.openPlateau _ _ hp) hs he
  | plateauLimitExpiry zone => exact h.runIf (fun _ _ hp => h.plateauLimit _ _ hp) hs he
  | chamberFrameRepeat zone => exact h.runIf (fun _ _ hp => h.zone _ _ _ hp) hs he
  | chamberFrameEnd zone => exact h.runIf (fun _ _ hp => h.zone _ _ _ hp) hs he
  | secondAdvance =>
    change Machine.execSecondAdvance s = .next t at he
    unfold Machine.execSecondAdvance at he
    split at he
    · rename_i hf
      rw [← Host.Outcome.next.inj he]
      have ht := h.tick _ hs
      unfold Part.ticked at ht
      rw [if_pos hf] at ht
      exact ht
    · exact same hs he
  | pageMarkRead mark => exact h.runIf (fun _ _ hp => h.pageMarkRead _ _ hp) hs he
  | pageHeadWritten => exact h.claimWritten (fun _ _ hp => h.moved hp) hs he
  | fillingMarkWritten =>
    refine h.claimWritten (fun c p hp => ?_) hs he
    split
    · exact h.moved hp
    · exact h.claimDone _ _ hp
  | chainLinkWritten => exact h.claimWritten (fun _ _ hp => h.claimDone _ _ hp) hs he
  | recordFieldsWritten bay =>
    refine h.drainWritten (fun p hp => ?_) hs he
    exact h.set_free (p.mapBay bay (fun u => { u with drain := .done })) _ (h.bay p _ _ (fun _ => ⟨rfl, rfl, rfl, rfl, rfl⟩) hp)
  | doneMarkWritten bay =>
    refine h.drainWritten (fun p hp => ?_) hs he
    extract_lets q
    have hq : P q := h.bay p _ _ (fun _ => ⟨rfl, rfl, rfl, rfl, rfl⟩) hp
    split
    · exact h.notify _ _ hq
    · exact hq
  | recordCountWritten bay => exact h.drainWritten (fun _ hp => h.recordLeft _ _ hp) hs he
  | fullMarkWritten bay =>
    change Machine.execFullMarkWritten _ s = .next t at he
    unfold Machine.execFullMarkWritten at he
    split at he
    · exact h.runWith (fun _ hp => h.fullWritten _ _ _ hp) hs he
    · exact same hs he
  | sampleInstant inputs =>
    rw [← Host.Outcome.next.inj he]
    exact h.sampled _ _ hs
  | monotonicTick =>
    rw [← Host.Outcome.next.inj he]
    exact h.tick _ hs

/-- Every step keeps it. -/
theorem step (h : Keeps P) (s t : State) (hs : P s.part) (he : Machine.step s = .next t) : P t.part := by
  unfold Machine.step at he
  split at he
  · exact same hs he
  · rename_i c rest _
    exact h.exec c (s.withPending rest) t hs he

end Keeps

end Sys2Proof.Machine
end

