-- ==== Sys2Proof/Tests/Slice0.lean ====
section
/-! SUPPORT. Our own tests: one ill-formed command for every check of `Instr.wellFormed`; the worked example of section 2.2.1; and,
for every statement with hypotheses, concrete states and operands that meet them together, clause by clause, with what the
command then does. -/

open Sys2Proof Sys2Proof.Machine

namespace Sys2Proof.Tests

set_option Elab.async false

/-! ### Small states -/

/-- A state around a part. -/
def st (p : Part) : State := ⟨p, [], []⟩

/-- The part after an outcome. -/
def after : Host.Outcome State Fault Refusal → Part
  | .next t => t.part
  | _ => Part.reset

/-- Host memory after an outcome. -/
def book : Host.Outcome State Fault Refusal → Memory
  | .next t => t.book
  | _ => []

/-- The part after a command on a part. -/
def run (c : Instr) (p : Part) : Part := after (exec c (st p))

/-- The part long after, when every span has run. -/
def aged (p : Part) : Part := { p with tick := 1000000 }

/-- Bytes from (offset, width, value) fields. -/
def bytesOf (n : Nat) (l : List (Nat × Nat × Nat)) : List Byte :=
  l.foldl (fun acc x => putAt acc x.1 (leBytes x.2.1 x.2.2)) (List.replicate n 0)

/-- The 63 bytes copied of an order with a code, its host tag 7, and fields by their offsets within the slot. -/
def order (code : Nat) (l : List (Nat × Nat × Nat)) : List Byte :=
  (bytesOf 64 ((1, 1, code) :: (2, 2, 7) :: l)).drop 1

/-- A Book head: 16 order slots, 4 plans from page 2, 8 pages from page 5. -/
def goodHead : List Byte :=
  bytesOf 64 [(0, 1, 1), (1, 1, 16), (2, 1, 0x55), (4, 2, 2), (6, 2, 4), (8, 2, 5), (10, 2, 8), (0x20, 1, 0x12)]

/-- The settings of that head. -/
def settings : Settings := ⟨16, 2, 4, 5, 8, 0x55⟩

/-- A RUNNING part. -/
def live : Part := { Part.reset with phase := .running, settings := some settings, bookLo := 0x10000 }

/-- An IDLE part. -/
def rest : Part := { Part.reset with phase := .idle }

/-- A link profile. -/
def profile : Profile := ⟨0x01, 0x80, 0x00, 0x21, 0x03, 0x7A, 0x10, 0x30⟩

/-- A span of 2 coarse ticks. -/
def span2 : Span := ⟨1, 2⟩

/-- One check of each kind. -/
def steady : SteadyCheck := ⟨1000, span2, 4, ⟨11000, 13000⟩, 50, 2, .never⟩
/-- An overcurrent check. -/
def ocp : OcpCheck := ⟨100, 50, 100, 1000, ⟨500, 900⟩, 80, 2, .restart, span2, span2⟩
/-- An overvoltage check. -/
def ovp : OvpCheck := ⟨100, 12000, 100, 15000, span2, ⟨13000, 14000⟩, 80, 2, span2⟩
/-- A sharing check. -/
def share : ShareCheck := ⟨1000, span2, 4, 100⟩
/-- A derating check. -/
def derate : DerateCheck := ⟨2, .never, 100, span2, 4, ⟨11000, 13000⟩⟩

/-- A plan with one check. -/
def planOf (b : CheckBody) : Plan :=
  ⟨600, 5000, 12000, 100, [⟨250, 100⟩], profile, [⟨.continue, b⟩]⟩

/-- A context in a check of that plan, in a phase, with a check in progress. -/
def inPhase (b : CheckBody) (ph : Phase) (w : Work) : Ctx :=
  { Ctx.reset with state := .running, adm := some 1, plan := some (planOf b), phase := ph, work := w, loop := 2 }

/-- The RUNNING part whose bay 0 runs, with a context in slot 2 that holds the bus, and raw lines that have differed for 50 ms in the
slots 2 (PRESENT) and 3. -/
def withCtx (c : Ctx) : Part :=
  live.mapBay 0 (fun u =>
    { u with
      state := .running, busHolder := some 2, ctxs := u.ctxs.set 2 c
      presence := (u.presence.set 2 ⟨true, 5000, false⟩).set 3 ⟨false, 5000, false⟩ })

/-- A 512-byte plan record with one STEADY check. -/
def planBytes : List Byte :=
  bytesOf 512
    [(0, 1, 1), (1, 1, 1), (2, 2, 600), (4, 2, 5000), (6, 2, 12000), (0x25, 1, 0x80), (0x40, 1, 1), (0x44, 2, 0x1001), (0x46, 1, 4),
     (0x47, 1, 2), (0x48, 2, 11000), (0x4A, 2, 13000)]

/-- A RUNNING part that copies the order of slot 3, with slot 5 to follow. -/
def copying : Part := { live with sweep := .copying 3 [5] }

/-- Samples with nothing connected. -/
def noInput : Samples :=
  { busFixed := Vector.replicate 8 0, busRanged := Vector.replicate 8 0
    slotCurrent := Vector.replicate 8 (Vector.replicate 6 0), chanCurrent := Vector.replicate 4 0
    powerGood := Vector.replicate 8 (Vector.replicate 6 false), present := Vector.replicate 8 (Vector.replicate 6 false) }

/-! ### Well-formedness: an ill-formed command for each check -/

theorem test_illFormed_offset : Instr.wellFormed (.registerWriteOther 0x08 0) = false := by decide +kernel
theorem test_illFormed_offset_odd : Instr.wellFormed (.registerWriteOther 0x1D 0) = false := by decide +kernel
theorem test_illFormed_offset_out : Instr.wellFormed (.registerWriteOther 0x40 0) = false := by decide +kernel
theorem test_wellFormed_offset : Instr.wellFormed (.registerWriteOther 0x04 0) = true := by decide +kernel
theorem test_illFormed_head : Instr.wellFormed (.headReadComplete [0]) = false := by decide +kernel
theorem test_illFormed_marks_none : Instr.wellFormed (.slotMarksRead []) = false := by decide +kernel
theorem test_illFormed_marks_many : Instr.wellFormed (.slotMarksRead (List.replicate 17 0)) = false := by decide +kernel
theorem test_illFormed_copy : Instr.wellFormed (.orderCopyComplete (List.replicate 64 0)) = false := by decide +kernel
theorem test_illFormed_plan : Instr.wellFormed (.planEnterReadComplete (List.replicate 511 0)) = false := by decide +kernel
theorem test_illFormed_reply : Instr.wellFormed (.linkTransactionComplete 0 (.ok (List.replicate 30 0))) = false := by
  decide +kernel
theorem test_illFormed_requester : Instr.wellFormed (.samplingReadComplete ⟨0, 0, 0⟩ 0) = false := by decide +kernel
theorem test_illFormed_requester_high :
    Instr.wellFormed (.admissionPlanReadComplete ⟨0, 0, 65536⟩ (List.replicate 512 0)) = false := by decide +kernel
theorem test_illFormed_admissionPlan :
    Instr.wellFormed (.admissionPlanReadComplete ⟨0, 0, 1⟩ (List.replicate 513 0)) = false := by decide +kernel
theorem test_illFormed_busFixed :
    Instr.wellFormed (.sampleInstant { noInput with busFixed := Vector.replicate 8 60001 }) = false := by decide +kernel
theorem test_illFormed_busRanged :
    Instr.wellFormed (.sampleInstant { noInput with busRanged := Vector.replicate 8 60001 }) = false := by decide +kernel
theorem test_illFormed_slotCurrent :
    Instr.wellFormed (.sampleInstant { noInput with slotCurrent := Vector.replicate 8 (Vector.replicate 6 12001) }) = false := by
  decide +kernel
theorem test_illFormed_chanCurrent :
    Instr.wellFormed (.sampleInstant { noInput with chanCurrent := Vector.replicate 4 12001 }) = false := by decide +kernel
theorem test_wellFormed_samples : Instr.wellFormed (.sampleInstant noInput) = true := by decide +kernel

/-! ### The worked example of section 2.2.1 -/

/-- The key of the example. -/
def exampleKey : BitVec 256 :=
  keyOf ([0x12, 0x34, 0x56, 0x78, 0x9A, 0xBC, 0xDE, 0xF0] ++ List.replicate 24 0)

theorem test_digest_of_the_example :
    digest exampleKey (Identity.input ⟨0x0081, 0, 0, 0⟩) = 0x1F6A35C4 ∧
    bucketOf (digest exampleKey (Identity.input ⟨0x0081, 0, 0, 0⟩)) = 4 ∧
    digest exampleKey (Identity.input ⟨0x0001, 0, 0, 0⟩) = 0x2B3C4D5E ∧
    bucketOf (digest exampleKey (Identity.input ⟨0x0001, 0, 0, 0⟩)) = 30 := by decide +kernel

/-! ### The machine, resets, register writes -/

theorem test_step_takes_the_front :
    (after (step { State.reset with pending := [.startingComplete, .runStart] })).phase = .idle ∧
    after (step ((st live).withFetchWord 32 0)) = live := by decide +kernel

theorem test_step_idles : step State.reset = .next State.reset := rfl

theorem test_resets :
    { run .powerOnReset { live with tick := 9 } with free := 0 } = Part.reset ∧ (run .stationReset { live with tick := 9 }).tick = 9 ∧
    (run .pcieHotReset { live with trusted := true }).trusted = true ∧ (run .pcieLinkDown live).phase = .starting := by
  decide +kernel

theorem test_attempts :
    Part.reset.phase = .starting ∧ (run .startingComplete Part.reset).phase = .idle ∧ rest.attempt = false ∧
    (run .runStart rest).attempt = true ∧ (run .runStart rest).readReg 0 = 1 ∧
    (run .runStop (run .runStart rest)).staleReads = 1 := by decide +kernel

theorem test_runStop :
    live.phase = .running ∧ live.attempt = false ∧ live.sweep.taking = false ∧ (run .runStop live).phase = .idle ∧
    copying.phase = .running ∧ copying.sweep.taking = true ∧ (run .runStop copying).stopOwed = true ∧
    (run .runStop copying).phase = .stopping := by decide +kernel

theorem test_control_words :
    registerWrite 0x00 0xF = [.stationReset] ∧ registerWrite 0x00 0x5 = [.sweepPeriod 2, .runStart] ∧
    registerWrite 0x00 0xFFFFFFF6 = [.sweepPeriod 3, .runStop] := by decide +kernel

theorem test_register_writes :
    (run (.sweepPeriod 3) rest).sweepCode = 3 ∧ rest.staleReads = 0 ∧ (run (.bookLo 0x12345FFF) rest).bookLo = 0x12345000 ∧
    (run (.bookHi 7) rest).bookHi = 7 ∧ live.sweep = .idle ∧ (run (.nudge 0) live).sweep = .marks ∧ copying.sweep ≠ .idle ∧
    (run (.nudge 0) copying).nudge = true := by decide +kernel

theorem test_disregarded_writes :
    live.phase ≠ .idle ∧ run (.bookLo 0x1000) live = live ∧ run (.bookHi 1) { rest with staleReads := 1 } = { rest with staleReads := 1 } ∧
    run (.sweepPeriod 1) Part.reset = Part.reset ∧ run (.notice 1) Part.reset = Part.reset ∧
    run (.noticeEn 1) Part.reset = Part.reset ∧ run (.nudge 0) rest = rest ∧ run .runStart live = live ∧
    run .runStop rest = rest ∧ run (.registerWriteOther 0x04 5) live = live := by decide +kernel

theorem test_notices :
    (run (.noticeEn 0x7F) { live with pendingSet := 1 }).messages = 1 ∧
    (run (.notice 0x1) { live with pendingSet := 3, enableSet := 2 }).pendingSet = 2 ∧
    (run (.notice 0x1) { live with pendingSet := 3, enableSet := 2 }).messages = 1 ∧
    (live.notify .fault).pendingSet = 64 ∧ Part.reset.notify .fault = Part.reset := by decide +kernel

/-! ### The Book head and access failures -/

theorem test_heads :
    judgeHead goodHead = none ∧ judgeHead (putAt goodHead 0 [2]) = some .badFormat ∧
    judgeHead (putAt goodHead 1 [17]) = some .badSlotCount ∧ judgeHead (putAt goodHead 8 [2]) = some .overlap ∧
    judgeHead (putAt goodHead 4 [1]) = some .overlap ∧
    judgeHead (putAt goodHead 10 [3]) = some .badRegion := by decide +kernel

theorem test_head_reads :
    (run (.headReadComplete goodHead) { rest with staleReads := 1 }).staleReads = 0 ∧
    (run (.headReadComplete goodHead) { rest with attempt := true }).phase = .running ∧
    (run (.headReadComplete goodHead) { rest with attempt := true }).settings = some settings ∧
    (run (.headReadComplete []) { rest with attempt := true }).headCause = some .badFormat ∧
    (run (.headReadComplete []) { rest with attempt := true }).pendingSet = 64 := by decide +kernel

/-- A part with an access in progress and a channel that ramps. -/
def busy : Part :=
  { copying with
    chans := live.chans.set 1 { Channel.reset with relay := .closed, setpoint := 300, ramp := .rampingUp, bay := some 0 }
    zones := live.zones.set 0 { live.zone 0 with state := .moving, target := 400 } }

theorem test_access_failure :
    busy.phase = .running ∧ busy.accessing .slotRead = true ∧
    (∀ c, (busy.chan c).relay = .closed ∨ (busy.chan c).setpoint = 0) ∧ (busy.link 0).state = .idle ∧
    (run (.bookAccessFailure .slotRead) busy).phase = .halted ∧
    ((run (.bookAccessFailure .slotRead) busy).chan 1).setpoint = 0 ∧
    ((run (.bookAccessFailure .slotRead) busy).chan 1).relay = .opening ∧
    (run (.bookAccessFailure .slotRead) busy).readReg 0x04 = 0x204 := by decide +kernel

theorem test_access_failure_of_each_kind :
    { rest with attempt := true }.accessing .headRead = true ∧ copying.accessing .slotRead = true ∧
    { live with takenWrite := some 3 }.accessing .slotWrite = true ∧
    { live with sweep := .boards .sweep 0 [] [] }.accessing .boardWrite = true ∧
    { live with admReads := [⟨true, ⟨0, 2, 1⟩, 0⟩] }.accessing .planRead = true ∧
    { live with admReads := [⟨false, ⟨0, 2, 1⟩, 0⟩] }.accessing .samplingRead = true ∧
    { live with scan := some ⟨0, 0, 1, false⟩ }.accessing .pageRead = true ∧
    { live with claim := some ⟨0, 0, .head⟩ }.accessing .pageWrite = true ∧
    run (.bookAccessFailure .pageRead) live = live := by decide +kernel

/-! ### Sweeps and orders -/

theorem test_sweep_timer :
    { live with sweepTimer := some ⟨0, 5⟩ }.sweepTimer.isSome ∧
    run .sweepTimerExpiry { live with sweepTimer := some ⟨0, 5⟩, tick := 4 } = { live with sweepTimer := some ⟨0, 5⟩, tick := 4 } ∧
    (run .sweepTimerExpiry { live with sweepTimer := some ⟨0, 5⟩, tick := 5 }).sweep = .marks ∧
    (run .sweepTimerExpiry { busy with sweepTimer := some ⟨0, 5⟩, tick := 5, phase := .stopping, sweep := .idle }).phase = .idle := by
  decide +kernel

/-- A part that has read the owner marks with slots 3 and 15 POSTED. -/
def marking : Part := { live with sweep := .marks }

/-- The marks. -/
def someMarks : List Byte := putAt (putAt (List.replicate 16 0) 3 [1]) 15 [1]

theorem test_marks_read :
    someMarks.length = 16 ∧ (marking.settings.map Settings.slotCount).getD 0 = 16 ∧ marking.pickSlots someMarks = [3, 15] ∧
    (run (.slotMarksRead someMarks) marking).sweep = .copying 3 [15] ∧
    (run (.slotMarksRead someMarks) marking).readsInProgress = [(0x10000 + 0x200 + 128 * 3 + 1, 63)] ∧
    marking.pickSlots (List.replicate 16 0) = [] ∧ (run (.slotMarksRead (List.replicate 16 0)) marking).sweep = .idle ∧
    (run (.slotMarksRead (List.replicate 16 0)) marking).sweepTimer = some ⟨0, 5⟩ := by decide +kernel

theorem test_unknown_order :
    byteAt (0 :: order 0x04 []) 1 ∉ [0x01, 0x02, 0x03, 0x10, 0x11, 0x12, 0x13, 0x14, 0x20, 0x30] ∧
    (run (.orderCopyComplete (order 0x04 [])) copying).answers[(3 : OrderSlot)].map Answering.code = some .unknownOrder ∧
    (run (.orderCopyComplete (order 0x04 [])) copying).slotTags[(3 : OrderSlot)] = 7 := by decide +kernel

/-- A CLOCK_SET of 2000-02-29 00:00:01. -/
def leapDay : List Byte := order 0x30 [(4, 2, 2000), (6, 1, 2), (7, 1, 29), (10, 1, 1)]

theorem test_clock_set :
    byteAt (0 :: leapDay) 1 = 0x30 ∧ (⟨2000, 2, 29, 0, 0, 1⟩ : DateTime).badField = none ∧
    (run (.orderCopyComplete leapDay) copying).seconds = 59 * 86400 + 1 ∧
    (run (.orderCopyComplete leapDay) copying).trusted = true ∧ (⟨2001, 2, 29, 0, 0, 1⟩ : DateTime).badField = some 2 ∧
    (run (.orderCopyComplete (order 0x30 [(4, 2, 2001), (6, 1, 2), (7, 1, 29)])) copying).answers[(3 : OrderSlot)].map
      (fun a => (a.code, a.fields.head?)) = some (.badTime, some 2) := by decide +kernel

theorem test_calendar :
    (⟨2099, 12, 31, 23, 59, 59⟩ : DateTime).badField = none ∧ (⟨2099, 12, 31, 23, 59, 59⟩ : DateTime).count = 3155759999 ∧
    (⟨2024, 2, 29, 23, 59, 59⟩ : DateTime).badField = none ∧ (⟨2024, 2, 29, 23, 59, 59⟩ : DateTime).day = monthDays 2024 2 ∧
    (⟨2024, 3, 1, 0, 0, 0⟩ : DateTime).count = (⟨2024, 2, 29, 23, 59, 59⟩ : DateTime).count + 1 ∧
    (⟨2000, 1, 1, 0, 0, 59⟩ : DateTime).badField = none ∧ (⟨2000, 1, 1, 0, 59, 59⟩ : DateTime).badField = none ∧
    (⟨2000, 1, 1, 23, 59, 59⟩ : DateTime).badField = none := by decide +kernel

/-! ### The plan directory -/

/-- An entry of the zero key's bucket. -/
def entryA : DirEntry := ⟨.exact, ⟨1, 2, 3, 4⟩, 0, ⟨1, none, some 2, none⟩⟩

/-- A directory that holds it at index 0. -/
def oneEntry : Part := { copying with dir := Directory.reset.insertAt 0 entryA }

theorem test_plan_query :
    byteAt (0 :: order 3 [(6, 2, 1)]) 1 = 3 ∧
    (run (.orderCopyComplete (order 3 [(6, 2, 1), (8, 4, 2), (12, 2, 3), (14, 2, 4)])) oneEntry).answers[(3 : OrderSlot)].map
      (fun a => a.fields.take 3) = some [2, 1, 1] := by decide +kernel

theorem test_plan_remove :
    (run (.orderCopyComplete (order 2 [(4, 1, 128)])) oneEntry).answers[(3 : OrderSlot)].map Answering.code = some .refusedRange ∧
    oneEntry.dir.entry 127 = none ∧
    (run (.orderCopyComplete (order 2 [(4, 1, 127)])) oneEntry).answers[(3 : OrderSlot)].map Answering.code = some .noEntry ∧
    oneEntry.dir.entry 0 = some entryA ∧
    (run (.orderCopyComplete (order 2 [])) oneEntry).dir = Directory.reset := by decide +kernel

/-- A PLAN_ENTER of an identity with references 0 and 3. -/
def enterOrder (make ref : Nat) : List Byte := order 1 [(6, 2, make), (0x10, 2, ref), (0x12, 2, 3), (0x14, 2, 0xFFFF), (0x16, 2, 0xFFFF)]

theorem test_plan_enter :
    badPlanField oneEntry.shelfCount (0 :: enterOrder 9 4) = some 1 ∧ badPlanField oneEntry.shelfCount (0 :: enterOrder 9 3) = none ∧
    matchKindOf (byteAt (0 :: enterOrder 9 0) 4) = some .exact ∧
    oneEntry.dir.refusal (oneEntry.dir.orderEntry .exact (0 :: enterOrder 9 0)).1 = none ∧
    oneEntry.dir.refusal entryA = some (.refusedDuplicate, [(0x44, 1, 0), (0x46, 1, 0)]) ∧
    (run (.orderCopyComplete (enterOrder 9 4)) oneEntry).answers[(3 : OrderSlot)].map Answering.code = some .refusedRange ∧
    (run (.orderCopyComplete (enterOrder 9 0)) oneEntry).planEnter.map (fun r => (r.ref, r.rest)) = some (0, [(1, 3)]) ∧
    (run (.orderCopyComplete (enterOrder 9 2)) oneEntry).readsInProgress = [(0x10000 + 2 * 4096 + 512 * 2, 512)] ∧
    (run (.orderCopyComplete (order 1 [(6, 2, 1), (8, 4, 2), (12, 2, 3), (14, 2, 4)])) oneEntry).answers[(3 : OrderSlot)].map
      Answering.code = some .refusedDuplicate := by decide +kernel

/-- A part that reads the last plan record of a PLAN_ENTER, and one with a further reference to read. -/
def entering (l : List (Fin 4 × Nat)) : Part := { copying with sweep := .handling 3 [], planEnter := some ⟨3, entryA, 0, 0, 1, l⟩ }

theorem test_plan_enter_reads :
    validate (List.replicate 512 0) = .invalid 15 ∧ validate planBytes = .valid { planHead planBytes with checks := (checkAt (checkSlot planBytes 0)).toList } ∧
    Directory.reset.lowestFree = some 0 ∧
    (run (.planEnterReadComplete (List.replicate 512 0)) (entering [])).answers[(3 : OrderSlot)].map Answering.code = some .badPlan ∧
    (run (.planEnterReadComplete planBytes) (entering [])).dir = Directory.reset.insertAt 0 entryA ∧
    (run (.planEnterReadComplete planBytes) (entering [(2, 2)])).planEnter.map PlanEnter.ref = some 2 := by decide +kernel

theorem test_directory_limits_hold_somewhere :
    Directory.reset.refusal entryA = none ∧ Directory.reset.lowestFree = some 0 ∧ oneEntry.dir.entry 0 = some entryA ∧
    oneEntry.dir.chain 0 = [0] := by decide +kernel

/-! ### Bay and zone orders -/

/-- The answer code at slot 3 after a copied order. -/
def answerTo (code : Nat) (l : List (Nat × Nat × Nat)) (p : Part) : Option AnswerCode :=
  (run (.orderCopyComplete (order code l)) p).answers[(3 : OrderSlot)].map Answering.code

theorem test_bay_refusals :
    answerTo 0x10 [(4, 1, 8)] copying = some .refusedRange ∧ answerTo 0x10 [(5, 1, 2)] copying = some .refusedRange ∧
    answerTo 0x10 [(5, 1, 1), (6, 1, 2)] copying = some .refusedRange ∧
    answerTo 0x10 [(4, 1, 7)] (copying.mapBay 7 (fun u => { u with state := .ready })) = some .refusedBusy ∧
    answerTo 0x11 [(4, 1, 7)] copying = some .refusedBusy ∧ answerTo 0x12 [] copying = some .refusedBusy ∧
    answerTo 0x13 [] copying = some .refusedBusy ∧ answerTo 0x14 [] copying = some .refusedBusy := by decide +kernel

/-- A bay in a state, with a planned context in slot 2 and the order of slot 3 being copied. -/
def ordered (state : BayState) (c : Ctx) : Part :=
  { withCtx c with sweep := .copying 3 [] }.mapBay 0 (fun u => { u with state := state, busHolder := none })

theorem test_bay_start :
    ((ordered .ready { inPhase (.steady steady) .none Work.reset with state := .planned }).ctx 0 2).startable = true := by
  decide +kernel

theorem test_bay_start_answers :
    answerTo 0x11 [] (ordered .ready { inPhase (.steady steady) .none Work.reset with state := .planned }) = some .done ∧
    ((run (.orderCopyComplete (order 0x11 [])) (ordered .ready { inPhase (.steady steady) .none Work.reset with state := .planned })).ctx
      0 2).state = .running ∧
    ((run (.orderCopyComplete (order 0x11 [])) (ordered .ready { Ctx.reset with state := .ended })).bay 0).state = .finished := by
  decide +kernel

theorem test_bay_admit_codes :
    startPolicyOf 1 = some .wait ∧ insertPolicyOf 0 = some .join ∧
    ((ordered .empty Ctx.reset).bay 0).present 2 = true := by decide +kernel

theorem test_bay_admit_scans :
    ((run (.orderCopyComplete (order 0x10 [(5, 1, 1)])) (ordered .empty Ctx.reset)).bay 0).state = .admitting ∧
    ((run (.orderCopyComplete (order 0x10 [(5, 1, 1)])) (ordered .empty Ctx.reset)).ctx 0 2).state = .identifying ∧
    ((run (.orderCopyComplete (order 0x10 [(5, 1, 1)])) (ordered .empty Ctx.reset)).link 0).inFlight.map Entry.kind =
      some .identityRead ∧
    ((run (.orderCopyComplete (order 0x10 [(5, 1, 1)])) copying).bay 0).state = .ready ∧
    (run (.orderCopyComplete (order 0x10 [(5, 1, 1)])) copying).answers[(3 : OrderSlot)].map (fun a => a.fields.take 4) =
      some [0, 0, 0, 6] ∧
    ((run (.orderCopyComplete (order 0x10 [])) copying).bay 0).state = .finished := by decide +kernel

theorem test_bay_hold :
    ((ordered .running (inPhase (.steady steady) .none Work.reset)).ctx 0 2).atBoundary = true ∧
    ((run (.orderCopyComplete (order 0x12 [])) (ordered .running (inPhase (.steady steady) .none Work.reset))).ctx 0 2).state =
      .paused ∧
    ((run (.orderCopyComplete (order 0x12 [])) (ordered .running (inPhase (.steady steady) .none Work.reset))).bay 0).state =
      .held := by decide +kernel

/-- The kinds of the records of bay 0 after a fall of its slot 2. -/
def fallenKinds (p : Part) : List RecordKind := ((run (.filteredFall 0 2) p).bay 0).buffer.map Record.kind

/-- A bay in HOLDING whose BAY_HOLD is in slot 9, with a paused context. -/
def holding : Part :=
  (ordered .holding { inPhase (.steady steady) .none Work.reset with state := .paused }).mapBay 0
    (fun u => { u with pendingOrder := some 9 })

theorem test_bay_resume :
    (holding.bay 0).state = .holding ∧ (holding.bay 0).pendingOrder = some 9 ∧ (holding.ctx 0 2).state = .paused ∧
    (holding.ctx 0 2).exit = .stay ∧ answerTo 0x13 [] holding = some .done ∧
    (run (.orderCopyComplete (order 0x13 [])) holding).answers[(9 : OrderSlot)].map Answering.code = some .done ∧
    ((run (.orderCopyComplete (order 0x13 [])) holding).ctx 0 2).phase = .connect := by decide +kernel

theorem test_withdrawals :
    (holding.bay 0).state ≠ .withdrawing ∧ ((holding.beginWithdraw 0 .withdrawn).bay 0).state = .withdrawing ∧
    answerTo 0x14 [] holding = none ∧
    (run (.orderCopyComplete (order 0x14 [])) holding).answers[(9 : OrderSlot)].map Answering.code = some .superseded ∧
    ((run (.orderCopyComplete (order 0x14 [])) holding).bay 0).pendingOrder = some 3 ∧
    ((run (.orderCopyComplete (order 0x14 [])) holding).bay 0).cause = some .withdrawn ∧
    ((run (.orderCopyComplete (order 0x14 [])) holding).bay 0).buffer.map (fun r => (r.kind, r.cause)) =
      [(.verdict, some .withdrawn)] ∧
    ((run (.orderCopyComplete (order 0x14 [])) holding).ctx 0 2).state = .absent := by decide +kernel

theorem test_stop_withdraws :
    (run .runStop { holding with sweep := .idle }).answers[(9 : OrderSlot)].map Answering.code = some .stopped ∧
    ((run .runStop { holding with sweep := .idle }).bay 0).cause = some .stopped ∧
    ((run .runStop { holding with sweep := .idle }).bay 0).state = .withdrawing ∧
    (run .runStop { holding with sweep := .idle }).phase = .stopping := by decide +kernel

/-- A context that waits for its STOP_OUTPUT. -/
def stoppingOutput : Ctx := inPhase (.steady steady) .none { Work.reset with step := .stopOutput }

theorem test_stop_takes_members_and_stop_outputs :
    stoppingOutput.stopping = true ∧
    ((run .runStop (withCtx stoppingOutput)).bay 0).buffer.map (fun r => (r.kind, r.cause)) = [(.verdict, some .stopped)] ∧
    ((run .runStop (withCtx stoppingOutput)).ctx 0 2).state = .absent ∧
    fallenKinds (withCtx stoppingOutput) = [.verdict, .presence] := by decide +kernel

/-- A bay that is done but for the FULL mark of page 7, with its BAY_WITHDRAW in slot 9. -/
def closing : Part :=
  live.mapBay 0 (fun u =>
    { u with state := .withdrawing, cause := some .withdrawn, pendingOrder := some 9, currentPage := some 7, fullWrites := [7] })

theorem test_withdrawal_ends :
    (closing.bay 0).state = .withdrawing ∧ (closing.bay 0).buffer = [] ∧ (closing.bay 0).line = [] ∧
    (∀ x, (closing.ctx 0 x).state = .absent) ∧ (∀ x : Slot, (closing.bay 0).standby[x] = none) ∧
    ((run (.fullMarkWritten 0) closing).bay 0).state = .empty ∧ ((run (.fullMarkWritten 0) closing).bay 0).currentPage = none ∧
    (run (.fullMarkWritten 0) closing).answers[(9 : OrderSlot)].map Answering.code = some .done := by decide +kernel

/-- The fields of a ZONE_SCHEDULE with one plateau of 40.0 C, at a band. -/
def schedule (band : Nat) : List (Nat × Nat × Nat) :=
  [(5, 1, 1), (6, 2, 250), (8, 2, band), (12, 2, 400), (14, 2, 0x1001), (16, 2, 0x2001)]

theorem test_zone_schedule :
    badScheduleField (0 :: order 0x20 (schedule 4)) = some (2, 0) ∧ badScheduleField (0 :: order 0x20 (schedule 5)) = none ∧
    answerTo 0x20 [(4, 1, 2)] copying = some .refusedRange ∧ answerTo 0x20 (schedule 4) copying = some .refusedRange ∧
    answerTo 0x20 (schedule 5) { busy with zones := busy.zones.set 1 (busy.zone 0) } = some .refusedBusy ∧
    answerTo 0x20 (schedule 5) copying = some .done ∧
    ((run (.orderCopyComplete (order 0x20 (schedule 5))) copying).zone 0).target = 400 := by decide +kernel

/-! ### Writes into the Book -/

/-- A part with an answer of slot 3 at a stage. -/
def answering (stage : AnswerStage) : Part :=
  { live with
    sweep := .handling 3 [], slotTags := live.slotTags.set 3 0xABCD
    answers := live.answers.set 3 (some ⟨stage, .badPlan, answerFields [(0x44, 1, 9)]⟩) }

/-- What is written at an offset of slot 3 by a command on a part. -/
def slotByte (c : Instr) (p : Part) (offset : Nat) : Option Byte := (book (exec c (st p))).read (0x10000 + 0x200 + 128 * 3 + offset)

theorem test_answer_writes :
    (answering .fields).answers[(3 : OrderSlot)].map Answering.stage = some .fields ∧
    slotByte (.answerFieldsWritten 3) (answering .fields) 0x44 = some 9 ∧
    slotByte (.answerFieldsWritten 3) (answering .fields) 0x7F = some 0 ∧
    slotByte (.answerCodeWritten 3) (answering .code) 0x40 = some 6 ∧
    slotByte (.hostTagCopyWritten 3) (answering .tag) 0x43 = some 0xAB ∧
    slotByte (.answeredMarkWritten 3) (answering .mark) 0 = some 3 ∧
    (run (.answeredMarkWritten 3) (answering .mark)).pendingSet = 1 ∧
    slotByte (.takenMarkWritten 3) { answering .waiting with takenWrite := some 3 } 0 = some 2 ∧
    (run (.takenMarkWritten 3) { answering .waiting with takenWrite := some 3 }).answers[(3 : OrderSlot)].map Answering.stage =
      some .fields := by decide +kernel

/-- A part that rewrites the board of bay 1. -/
def rewriting (l : List Bay) (nudge : Bool) : Part :=
  { live with sweep := .boards .sweep 1 (live.boardFields 1) l, nudge := nudge }

theorem test_boards :
    (run (.boardWritten 1) (rewriting [4] false)).sweep = .boards .sweep 4 (live.boardFields 4) [] ∧
    (run (.boardWritten 1) (rewriting [] true)).sweep = .marks ∧ (run (.boardWritten 1) (rewriting [] false)).sweep = .idle ∧
    ((run (.boardWritten 1) (rewriting [] false)).bay 1).writeCount = 1 ∧
    (book (exec (.boardWritten 1) (st (rewriting [] false)))).read (0x11000 + 256 + 0xFE) = some 1 := by decide +kernel

/-- A part that reads the mark of page 7 for bay 0, with a number of pages left. -/
def scanning (left : Nat) : Part := { live with scan := some ⟨0, 7, left, false⟩ }

theorem test_page_marks :
    (run (.pageMarkRead 0) (scanning 3)).claim = some ⟨0, 7, .head⟩ ∧
    nextToRead live.poolCount live.isCurrent (pageAfter live.poolCount 7) 3 = some (0, 2) ∧
    (run (.pageMarkRead 1) (scanning 3)).scan = some ⟨0, 0, 2, false⟩ ∧
    nextToRead live.poolCount live.isCurrent (pageAfter live.poolCount 7) 0 = none ∧
    (run (.pageMarkRead 2) (scanning 0)).dry = true ∧ (run (.pageMarkRead 2) (scanning 0)).pendingSet = 8 ∧
    (run (.pageMarkRead 2) { scanning 0 with dry := true }).pendingSet = 0 := by decide +kernel

/-- A part that claims page 7 for bay 0, whose page before is given. -/
def claiming (stage : ClaimStage) (before : Option Nat) : Part :=
  { live with claim := some ⟨0, 7, stage⟩ }.mapBay 0 (fun u => { u with currentPage := before })

/-- The bytes of page 7 from an offset on, after a command on a part. -/
def pageBytes (c : Instr) (p : Part) (offset n : Nat) : List (Option Byte) :=
  (List.range n).map (fun i => (book (exec c (st p))).read (0x10000 + 12 * 4096 + offset + i))

theorem test_page_head_bytes :
    pageBytes .pageHeadWritten ((claiming .head none).mapBay 0 (fun u => { u with pageSeq := 0x1234 })) 1 7 =
      [some 0, some 0x34, some 0x12, some 0xFF, some 0xFF, some 0, some 0] ∧
    pageBytes .fillingMarkWritten (claiming .filling none) 0 1 = [some 1] := by decide +kernel

theorem test_page_claims :
    (run .pageHeadWritten (claiming .head none)).claim = some ⟨0, 7, .filling⟩ ∧
    (run .fillingMarkWritten (claiming .filling (some 2))).claim = some ⟨0, 7, .link⟩ ∧
    ((run .fillingMarkWritten (claiming .filling none)).bay 0).currentPage = some 7 ∧
    ((run .chainLinkWritten (claiming .link (some 2))).bay 0).currentPage = some 7 ∧
    (run .chainLinkWritten (claiming .link (some 2))).cursor = 0 ∧
    (book (exec .chainLinkWritten (st (claiming .link (some 2))))).read (0x10000 + 5 * 4096 + 2 * 4096 + 4) = some 7 := by
  decide +kernel

/-- A VERDICT record of bay 0. -/
def verdictRecord : Record :=
  { Ctx.reset.blank 0 2 .verdict ⟨5, 6, true⟩ with verdict := some .pass, last := true, identity := some ⟨⟨1, 2, 3, 4⟩, [], 0, 0⟩ }

/-- A part that writes that record as the last of page 7. -/
def draining (d : Drain) : Part :=
  live.mapBay 0 (fun u => { u with buffer := [verdictRecord], currentPage := some 7, pageCount := 62, drain := d })

theorem test_records :
    ((run (.recordFieldsWritten 0) (draining .fields)).bay 0).drain = .done ∧
    (run (.doneMarkWritten 0) (draining .done)).pendingSet = 4 ∧
    ((run (.recordCountWritten 0) (draining .count)).bay 0).buffer = [] ∧
    ((run (.recordCountWritten 0) (draining .count)).bay 0).fullWrites = [7] ∧
    (run (.fullMarkWritten 0) (run (.recordCountWritten 0) (draining .count))).pendingSet = 2 ∧
    (book (exec (.recordFieldsWritten 0) (st (draining .fields)))).read (0x10000 + 12 * 4096 + 63 * 64) = some 6 := by
  decide +kernel

/-! ### Presence and the links -/

/-- A bay in READY with slot 2 absent and a context in slot 2. -/
def gone (c : Ctx) : Part :=
  (withCtx c).mapBay 0 (fun u => { u with state := .ready, busHolder := none, presence := u.presence.set 2 ⟨false, 5000, false⟩ })

theorem test_rises :
    ((gone Ctx.reset).bay 0).present 2 = false ∧ ((gone Ctx.reset).bay 0).busHolder = none ∧ (gone Ctx.reset).phase ≠ .halted ∧
    ((run (.filteredRise 0 2) (gone Ctx.reset)).ctx 0 2).state = .identifying ∧ (run (.filteredRise 0 2) (gone Ctx.reset)).pendingSet = 16 ∧
    ((run (.filteredRise 0 2) (gone Ctx.reset)).link 0).inFlight.map (fun e => (e.cmd, e.wire.length)) = some (0x55, 3) ∧
    ((run (.filteredRise 0 2) (gone (inPhase (.steady steady) .none Work.reset))).bay 0).presence[(2 : Slot)].heldRise = true ∧
    ((run (.filteredRise 3 2) (live.mapPresence 3 2 (fun _ => ⟨false, 5000, false⟩))).bay 3).present 2 = true ∧
    ((run (.filteredRise 3 2) (live.mapPresence 3 2 (fun _ => ⟨false, 5000, false⟩))).ctx 3 2).state = .absent ∧
    ((run (.filteredRise 0 2) { gone Ctx.reset with phase := .halted }).ctx 0 2).state = .absent := by decide +kernel

theorem test_presence_changes_wait_for_the_count :
    run (.filteredRise 3 2) (live.mapPresence 3 2 (fun _ => ⟨false, 4999, false⟩)) = live.mapPresence 3 2 (fun _ => ⟨false, 4999, false⟩) ∧
    run (.filteredFall 3 2) (live.mapPresence 3 2 (fun _ => ⟨true, 4999, false⟩)) = live.mapPresence 3 2 (fun _ => ⟨true, 4999, false⟩) := by
  decide +kernel

/-- A context of slot 2 that holds the bus in a phase of a check, with an outcome and a retry budget. -/
def holding2 (b : CheckBody) (ph : Phase) (retry : Nat) (o : CheckOutcome) : Part :=
  withCtx { inPhase b ph { Work.reset with outcome := o } with retry := retry }

/-- The phase and outcome of that context after a rise in slot 3. -/
def risen (b : CheckBody) (ph : Phase) : Phase × CheckOutcome :=
  let c := (run (.filteredRise 0 3) ((holding2 b ph 1 .performed).mapLink 0 (fun l => { l with state := .recovering }))).ctx 0 2
  (c.phase, c.work.outcome)

theorem test_disturbances :
    risen (.ocp ocp) .observe = (.observe, .disturbed) ∧ risen (.ovp ovp) .recover = (.recover, .disturbed) ∧
    risen (.steady steady) .connect = (.connect, .performed) ∧ risen (.derate derate) .apply = (.apply, .performed) ∧
    ((holding2 (.steady steady) .apply 1 .performed).disturb 0 2 |>.ctx 0 2).phase = .release ∧
    ((run (.filteredRise 0 3) (holding2 (.steady steady) .measure 1 .performed)).ctx 0 2).retry = 0 := by decide +kernel

theorem test_disturbed_checks_retry_once :
    (((holding2 (.steady steady) .release 1 .disturbed).afterBus 0 2).ctx 0 2).phase = .none ∧
    (((holding2 (.steady steady) .release 1 .disturbed).afterBus 0 2).ctx 0 2).retry = 0 ∧
    (((holding2 (.steady steady) .release 0 .disturbed).afterBus 0 2).ctx 0 2).phase = .record := by decide +kernel

/-- A bay in READY with slot 2 present and a context in slot 2. -/
def there (c : Ctx) : Part := (withCtx c).mapBay 0 (fun u => { u with state := .ready, busHolder := none })

theorem test_falls :
    ((there Ctx.reset).bay 0).present 2 = true ∧ ((run (.filteredFall 0 2) (there Ctx.reset)).bay 0).present 2 = false ∧
    ((run (.filteredFall 0 2) (there { Ctx.reset with state := .identifying, adm := some 1 })).bay 0).buffer.map Record.kind = [.presence] ∧
    ((run (.filteredFall 0 2) (there { Ctx.reset with state := .identifying, adm := some 1 })).ctx 0 2).state = .absent ∧
    ((run (.filteredFall 0 2) { there Ctx.reset with phase := .halted }).bay 0).present 2 = false := by decide +kernel

/-- The records and the context left by a fall of slot 2 in bay 0. -/
def fallen (p : Part) : List (RecordKind × CheckOutcome) × CtxState :=
  let q := run (.filteredFall 0 2) p
  ((q.bay 0).buffer.map (fun r => (r.kind, r.outcome)), (q.ctx 0 2).state)

/-- A context in a state, at the boundary of a check. -/
def standing (state : CtxState) : Ctx := { inPhase (.steady steady) .none Work.reset with state := state }

theorem test_falls_by_state :
    fallen (there (standing .planned)) = ([(.verdict, .performed), (.presence, .performed)], .absent) ∧
    fallen (there (standing .paused)) = ([(.verdict, .performed), (.presence, .performed)], .absent) ∧
    (standing .running).atBoundary = true ∧
    fallen (there (standing .running)) = ([(.verdict, .performed), (.presence, .performed)], .absent) ∧
    fallen (there (standing .unplanned)) = ([(.presence, .performed)], .absent) ∧
    fallen (there (standing .ended)) = ([(.presence, .performed)], .absent) := by decide +kernel

theorem test_abort_paths :
    (inPhase (.steady steady) .busWait Work.reset).inCheck = true ∧
    fallen (there (inPhase (.steady steady) .busWait Work.reset)) =
      ([(.measure, .aborted), (.verdict, .performed), (.presence, .performed)], .absent) ∧
    fallen (withCtx (inPhase (.steady steady) .channelWait Work.reset)) =
      ([(.measure, .aborted), (.verdict, .performed), (.presence, .performed)], .absent) ∧
    fallen (there { inPhase (.steady steady) .record Work.reset with out := [.record verdictRecord, .applyResult] }) =
      ([(.verdict, .performed), (.verdict, .performed), (.presence, .performed)], .absent) := by decide +kernel

/-- An entry of a requester that is gone, to a slot. -/
def entryTo (t : Slot) (n : Nat) : Entry := ⟨t, .statusRead, 0x7A, none, ⟨0, 2, 9⟩, .own, 0, n, false⟩

/-- A link of bay 0 with a transaction to slot 2 in flight and a queue. -/
def linked (state : LinkState) (q : List Entry) : Part :=
  live.mapLink 0 (fun l =>
    { l with state := state, inFlight := if state = .busy then some (entryTo 2 0) else none, timer := some 0, queue := q })

theorem test_link_completions :
    ((linked .busy []).link 0).inFlight = some (entryTo 2 0) ∧ ((linked .busy []).link 0).mayEnd (entryTo 2 0) (.ok [0]) = true ∧
    ((linked .busy []).ctx 0 2).isRequester (entryTo 2 0).who = false ∧
    ((run (.linkTransactionComplete 0 (.ok [0])) (linked .busy [])).link 0).state = .idle ∧
    ((run (.linkTransactionComplete 0 (.badLength 2)) (linked .busy [entryTo 1 1])).link 0).inFlight = some (entryTo 1 1) ∧
    run (.linkTransactionComplete 0 .nack) (linked .busy []) = linked .busy [] ∧
    ((run (.linkTransactionComplete 0 (.ok [0])) { linked .busy [entryTo 1 1] with phase := .halted }).link 0).queue = [] := by
  decide +kernel

theorem test_output_on_clears_the_mark :
    ((withCtx { Ctx.reset with outputOff := true }).mapLink 0 (fun l =>
        { l with state := .busy, inFlight := some { entryTo 2 0 with kind := .outputOn } }) |>.link 0).mayEnd
      { entryTo 2 0 with kind := .outputOn } (.ok []) = true ∧
    ((run (.linkTransactionComplete 0 (.ok [])) ((withCtx { Ctx.reset with outputOff := true }).mapLink 0 (fun l =>
        { l with state := .busy, inFlight := some { entryTo 2 0 with kind := .outputOn } }))).ctx 0 2).outputOff = false := by
  decide +kernel

/-- The output-left-off mark of slot 2 after an OUTPUT_ON of a purpose to it completes OK, its slot having fallen. -/
def leftOff (k : Purpose) : Bool :=
  ((run (.linkTransactionComplete 0 (.ok [])) ((withCtx { Ctx.reset with outputOff := true }).mapLink 0 (fun l =>
    { l with state := .busy, inFlight := some { entryTo 2 0 with kind := .outputOn, purpose := k, fell := true } }))).ctx 0 2).outputOff

theorem test_output_on_after_a_fall : leftOff .own = false ∧ leftOff .restore = false ∧ leftOff .participate = true := by
  decide +kernel

theorem test_retries_and_timeouts :
    ((run (.attemptNacked 0) (linked .busy [])).link 0).second = true ∧
    ((run (.linkTimeout 0) (linked .busy [entryTo 2 1, entryTo 1 2])).link 0).state = .recovering ∧
    ((run (.linkTimeout 0) (linked .busy [entryTo 2 1, entryTo 1 2])).link 0).queue = [entryTo 1 2] ∧
    ((run (.linkTimeout 0) (linked .busy [])).bay 0).muted 2 = true ∧
    ((run (.busRecoveryEnd 0) (linked .recovering [entryTo 1 2])).link 0).inFlight = some (entryTo 1 2) ∧
    ((run (.busRecoveryEnd 0) (linked .recovering [])).link 0).state = .idle ∧
    ((run (.busRecoveryEnd 0) { linked .recovering [entryTo 1 2] with phase := .halted }).link 0).queue = [] := by decide +kernel

/-! ### Admission -/

/-- The identity block of a module of identity 1, 2, 3, 4. -/
def block : List Byte := bytesOf 29 [(0, 2, 1), (2, 4, 2), (6, 2, 3), (8, 2, 4), (28, 1, 246)]

/-- A part in which slot 2 of bay 0 waits for its identity answer, in an attempt, with a directory. -/
def asking (d : Directory) (attempts : Nat) : Part :=
  { (there { Ctx.reset with state := .identifying, adm := some 1, attempts := attempts }).mapLink 0 (fun l =>
      { l with
        state := .busy, second := true
        inFlight := some ⟨2, .identityRead, 0x55, none, ⟨0, 2, 1⟩, .identify, 0, 0, false⟩ }) with dir := d }

theorem test_identity_answers :
    validBlock block = true ∧ (asking Directory.reset 1).dir.lookup (blockIdentity block).identity = none ∧
    ((run (.linkTransactionComplete 0 (.ok block)) (asking Directory.reset 1)).ctx 0 2).state = .unplanned ∧
    ((run (.linkTransactionComplete 0 .nack) (asking Directory.reset 1)).ctx 0 2).attempts = 2 ∧
    ((run (.linkTransactionComplete 0 .nack) (asking Directory.reset 2)).ctx 0 2).cause = some .badIdentity := by decide +kernel

theorem test_identity_is_looked_up :
    ((run (.linkTransactionComplete 0 (.ok block)) (asking (Directory.reset.insertAt 0 { entryA with bucket := bucketOf (digest 0
      (Identity.input (blockIdentity block).identity)) }) 1)).admReads.map (fun r => (r.plan, r.who))) = [(false, ⟨0, 2, 1⟩)] ∧
    ((run (.linkTransactionComplete 0 (.ok block)) (asking (Directory.reset.insertAt 0 { entryA with bucket := bucketOf (digest 0
      (Identity.input (blockIdentity block).identity)) }) 1)).admReads.all (fun r =>
        decide (0x10000 + 0x40 ≤ r.addr ∧ r.addr < 0x10000 + 0x80))) = true := by decide +kernel

/-- A part in which slot 2 of bay 0 identifies and a Book read of its admission is in flight. -/
def identifying (plan : Bool) (v1 : Option Nat) (v0 : Nat) : Part :=
  { there { Ctx.reset with state := .identifying, adm := some 1, lookup := some ⟨0, .exact, ⟨v0, v1, none, none⟩⟩ } with
    admReads := [⟨plan, ⟨0, 2, 1⟩, 0⟩] }

/-- Slot 2 of bay 0 as a requester. -/
def who : Requester := ⟨0, 2, 1⟩

theorem test_sampling :
    (identifying false (some 3) 1).admReads.any (AdmRead.is false who) = true ∧
    ((identifying false (some 3) 1).ctx 0 2).isRequester who = true ∧ ((identifying false (some 3) 1).ctx 0 2).exit = .stay ∧
    ((run (.samplingReadComplete who 5) (identifying false (some 3) 1)).ctx 0 2).usedRef = some 3 ∧
    (run (.samplingReadComplete who 5) (identifying false (some 3) 1)).admReads = [⟨true, who, 0x10000 + 2 * 4096 + 512 * 3⟩] ∧
    ((run (.samplingReadComplete who 5) (identifying false none 1)).ctx 0 2).variant = some 0 ∧
    ((run (.samplingReadComplete who 5) (identifying false (some 4) 1)).ctx 0 2).cause = some .badPlan := by decide +kernel

theorem test_admission_plan :
    (identifying true none 1).admReads.any (AdmRead.is true who) = true ∧
    ((run (.admissionPlanReadComplete who planBytes) (identifying true none 1)).ctx 0 2).state = .planned ∧
    ((run (.admissionPlanReadComplete who planBytes) (identifying true none 1)).bay 0).buffer.map Record.kind = [.presence] ∧
    ((run (.admissionPlanReadComplete who []) (identifying true none 1)).ctx 0 2).badCheck = some 15 := by decide +kernel

/-! ### The load channels -/

/-- Channel 1 as given, owned by slot 2 of bay 0, whose context runs a check. -/
def channel (c : Ctx) (ch : Channel) : Part :=
  { withCtx c with chans := live.chans.set 1 { ch with owner := some (0, 2), bay := some 0 } }

/-- That context in APPLY of the overcurrent check. -/
def ocpApply : Ctx := inPhase (.ocp ocp) .apply Work.reset

theorem test_relays :
    ((run (.relaysClosed 1) (channel Ctx.reset { Channel.reset with relay := .closing })).chan 1).relay = .closed ∧
    ((run (.relaysClosed 1) (channel Ctx.reset { Channel.reset with relay := .closing, openPending := true })).chan 1).relay =
      .opening ∧
    ((run (.relaysOpen 1) (channel (inPhase (.steady steady) .release Work.reset) { Channel.reset with relay := .opening })).chan
      1).relay = .opened ∧
    ((run (.relaysOpen 1) { channel Ctx.reset { Channel.reset with relay := .opening } with phase := .halted }).chan 1).owner =
      some (0, 2) := by decide +kernel

/-- Channel 1 about to open for slot 2 of bay 0, with slot 3 of bay 1 waiting for a channel. -/
def waiting : Part :=
  { (channel (inPhase (.steady steady) .release { Work.reset with release := .opening }) { Channel.reset with relay := .opening }).mapBay 1
      (fun u => { u with busHolder := some 3 }) with chanQueue := [⟨1, 3, false⟩] }

theorem test_channels_pass_on :
    ((run (.relaysOpen 1) waiting).chan 1).owner = some (1, 3) ∧ ((run (.relaysOpen 1) waiting).chan 1).relay = .closing ∧
    ((run (.relaysOpen 1) waiting).ctx 1 3).phase = .connect ∧ ((run (.relaysOpen 1) waiting).bay 0).busHolder = none ∧
    ((run (.relaysOpen 1) { waiting with chanQueue := [] }).chan 1).owner = none := by decide +kernel

theorem test_bus_requests :
    ((live.requestBus 0 2).bay 0).busHolder = some 2 ∧ ((live.requestBus 0 2).chan 0).owner = some (0, 2) ∧
    (((live.requestBus 0 2).requestBus 0 4).bay 0).busQueue = [⟨4, false⟩] ∧
    (((live.requestBus 0 2).requestBus 0 4).releaseBus 0) = (live.requestBus 0 2).requestBus 0 4 ∧
    ((((live.requestBus 0 2).requestBus 0 4).releaseChan 0).releaseBus 0 |>.bay 0).busHolder = some 4 ∧
    waiting.freeChan = some 0 ∧ placeEntry BusEntry.plateau ⟨5, true⟩ [⟨1, true⟩, ⟨2, false⟩] = [⟨1, true⟩, ⟨5, true⟩, ⟨2, false⟩] := by
  decide +kernel

/-- A channel at a setpoint that ramps up by 50 to 1000. -/
def ramping (v : Nat) : Channel :=
  { Channel.reset with relay := .closed, ramp := .rampingUp, setpoint := v, params := some ⟨50, 100, 1000⟩ }

theorem test_ramps :
    ((run (.rampStep 1) (channel ocpApply (ramping 949))).chan 1).setpoint = 999 ∧
    ((run (.rampStep 1) (channel ocpApply (ramping 950))).chan 1).setpoint = 1000 ∧
    ((run (.rampStep 1) (channel ocpApply (ramping 950))).chan 1).ceilingHold = true ∧
    ((run (.ceilingHoldEnd 1) (channel ocpApply { ramping 1000 with ramp := .holdingLevel, ceilingHold := true })).ctx 0 2).work.outcome =
      .noTrip ∧
    ((run (.unloadStep 1) (channel ocpApply { ramping 51 with ramp := .rampingDown })).chan 1).setpoint = 1 ∧
    ((run (.unloadStep 1) (channel ocpApply { ramping 50 with ramp := .rampingDown })).chan 1).setpoint = 0 := by decide +kernel

/-- A detector that has fired at 700 (7 A). -/
def fired : TripDetector := ⟨2, 9600, 2, 10, 0, 2, true, some (720, 12000), some ⟨40, 700, 9000, 95, .collapse⟩⟩

theorem test_trip :
    fired.firing.isSome ∧ ocpApply.check = some ⟨.continue, .ocp ocp⟩ ∧
    ((run (.tripFiring 1) (channel ocpApply { ramping 800 with detector := some fired })).chan 1).ramp = .dropped ∧
    ((run (.tripFiring 1) (channel ocpApply { ramping 800 with detector := some fired })).ctx 0 2).phase = .observe ∧
    ((run (.tripFiring 1) (channel ocpApply { ramping 800 with detector := some fired })).ctx 0 2).work.capture =
      some ⟨800, 720, 95, .collapse⟩ := by decide +kernel

theorem test_trips_of_the_other_kinds :
    ((run (.tripFiring 1) (channel (inPhase (.ovp ovp) .apply Work.reset) { ramping 800 with detector := some fired })).ctx 0 2).phase =
      .recover ∧
    ((run (.tripFiring 1) (channel (inPhase (.ovp ovp) .apply Work.reset) { ramping 800 with detector := some fired })).ctx
      0 2).work.limits.a = some true ∧
    ((run (.tripFiring 1) (channel (inPhase (.ovp ovp) .apply Work.reset) { ramping 800 with detector := some fired })).ctx
      0 2).work.trim = 12000 ∧
    ((run (.tripFiring 1) (channel (inPhase (.derate derate) .measure Work.reset) { ramping 800 with detector := some fired })).ctx
      0 2).work.limits.c = some true ∧
    ((run (.tripFiring 1) (channel (inPhase (.derate derate) .measure Work.reset) { ramping 800 with detector := some fired })).ctx
      0 2).derate.tripped = true := by decide +kernel

/-! ### Checks -/

/-- A complete window of 4 samples with a mean. -/
def full (point : Option Slot) (mean : Nat) : PointWindow := ⟨point, some ⟨11000, 13000⟩, some mean, 4 * mean, 4, false, false⟩

/-- A check with a complete measurement. -/
def measuredWork (l : List PointWindow) : Work := { Work.reset with step := .isoTest, meas := some ⟨4, 100, l, some ⟨8, 0, true⟩⟩ }

theorem test_isolation :
    (planOf (.steady steady)).isolation = 50 ∧
    ((run (.measurementComplete 0 2) (channel (inPhase (.steady steady) .prepare (measuredWork [full (some 1) 49])) (ramping 0))).ctx
      0 2).phase = .apply ∧
    ((run (.measurementComplete 0 2) (channel (inPhase (.steady steady) .prepare (measuredWork [full (some 1) 50])) (ramping 0))).ctx
      0 2).work.outcome = .notIsolated := by decide +kernel

theorem test_steady_passes :
    ((run (.measurementComplete 0 2) (channel (inPhase (.steady steady) .measure (measuredWork [full none 13000, full (some 2) 1000]))
      (ramping 0))).ctx 0 2).work.passes.map (fun r => (r.number, r.value1, r.limits.a)) = [(1, some 13000, some false)] ∧
    ((run (.measurementComplete 0 2) (channel (inPhase (.steady steady) .measure (measuredWork [full none 13000, full (some 2) 1000]))
      (ramping 0))).ctx 0 2).phase = .apply ∧
    ((run (.measurementComplete 0 2) (channel { inPhase (.steady steady) .measure (measuredWork [full none 13001, full (some 2) 1000])
      with loop := 1 } (ramping 0))).ctx 0 2).phase = .release := by decide +kernel

theorem test_share_and_plateau_are_judged :
    ((run (.measurementComplete 0 2) (channel (inPhase (.share share) .measure (measuredWork [full (some 2) 1110, full (some 4) 890]))
      (ramping 0))).ctx 0 2).work.value3 = some 110 ∧
    ((run (.measurementComplete 0 2) (channel (inPhase (.share share) .measure (measuredWork [full (some 2) 1110, full (some 4) 890]))
      (ramping 0))).ctx 0 2).work.limits.a = some true ∧
    ((run (.measurementComplete 0 2) (channel (inPhase (.derate derate) .measure (measuredWork [full none 13001])) (ramping 50))).ctx
      0 2).work.limits = ⟨none, some true, some false⟩ ∧
    ((run (.measurementComplete 0 2) (channel (inPhase (.derate derate) .measure (measuredWork [full none 13001])) (ramping 50))).ctx
      0 2).phase = .release := by decide +kernel

/-- A context whose last record waits for room, with the check's limits and what follows a failure, in a plan of some checks. -/
def resulting (f : OnFail) (n : Nat) (l : Limits) : Part :=
  (withCtx { inPhase (.steady steady) .record { Work.reset with limits := l } with
    out := [.applyResult], inLine := true, plan := some { planOf (.steady steady) with
      checks := List.replicate n ⟨f, .steady steady⟩ } }).mapBay 0 (fun u =>
    { u with
      buffer := List.replicate 8 verdictRecord, line := [⟨2, 1, verdictRecord⟩], currentPage := some 7, drain := .count })

theorem test_results_are_applied :
    ((run (.recordCountWritten 0) (resulting .continue 2 ⟨some false, none, none⟩)).ctx 0 2).checkIndex = 1 ∧
    ((run (.recordCountWritten 0) (resulting .continue 2 ⟨some true, none, none⟩)).ctx 0 2).failed = 1 ∧
    ((run (.recordCountWritten 0) (resulting .continue 1 ⟨some false, none, none⟩)).ctx 0 2).verdict = some .pass ∧
    ((run (.recordCountWritten 0) (resulting .continue 1 ⟨some true, none, none⟩)).ctx 0 2).verdict = some .fail ∧
    ((run (.recordCountWritten 0) (resulting .skipRest 2 ⟨some true, none, none⟩)).ctx 0 2).verdict = some .fail ∧
    ((run (.recordCountWritten 0) (resulting .stopOutput 2 ⟨some true, none, none⟩)).ctx 0 2).outputOff = true ∧
    (((run (.recordCountWritten 0) (resulting .stopOutput 2 ⟨some true, none, none⟩)).link 0).inFlight.map Entry.kind) =
      some .outputOff := by decide +kernel

theorem test_watches :
    ((run (.restartRecognised 0 2) (channel (inPhase (.ocp ocp) .observe
      { Work.reset with watch := some (.restart 10800 2 40 2 50 (some 100)) }) (ramping 0))).ctx 0 2).work.limits =
        ⟨none, some false, some false⟩ ∧
    ((run (.powerGoodRecognised 0 2) (channel (inPhase (.ocp ocp) .recover
      { Work.reset with watch := some (.powerGood (some 30)), recoverTick := 10 }) (ramping 0))).ctx 0 2).work.value3 = some 20 := by
  decide +kernel

/-- A check whose span of a kind runs. -/
def spanning (k : SpanKind) : Work := { Work.reset with span := some ⟨k, ⟨0, 128⟩⟩, participants := [2, 4], trim := 14950 }

theorem test_settled_checks :
    (inPhase (.steady steady) .apply (spanning .steadySettle)).spanDue 128 .steadySettle = true ∧
    (inPhase (.steady steady) .apply (spanning .steadySettle)).spanDue 127 .steadySettle = false ∧
    ((run (.steadySettleExpiry 0 2) (aged (withCtx (inPhase (.steady steady) .apply (spanning .steadySettle))))).ctx 0 2).phase =
      .measure ∧
    ((run (.shareSettleExpiry 0 2) (aged (withCtx (inPhase (.share share) .apply (spanning .shareSettle))))).ctx 0 2).work.meas.map
      (fun m => m.windows.map PointWindow.point) = some [some 2, some 4] ∧
    ((run (.loadDwellExpiry 0 2) (aged (withCtx (inPhase (.derate derate) .apply (spanning .loadDwell))))).ctx 0 2).phase =
      .measure := by decide +kernel

/-- The parts of the tests on windows that run out. -/
def spanned (b : CheckBody) (ph : Phase) (w : Work) : Part := channel (inPhase b ph w) (ramping 0)

theorem test_spans_do_not_run_out_early :
    run (.restartWindowExpiry 0 2) (spanned (.ocp ocp) .observe (spanning .restartWindow)) =
      spanned (.ocp ocp) .observe (spanning .restartWindow) ∧
    run (.recoverySpanExpiry 0 2) (spanned (.ocp ocp) .recover (spanning .recovery)) =
      spanned (.ocp ocp) .recover (spanning .recovery) ∧
    run (.trimIntervalExpiry 0 2) (spanned (.ovp ovp) .apply (spanning .trimInterval)) =
      spanned (.ovp ovp) .apply (spanning .trimInterval) := by decide +kernel

theorem test_windows_run_out :
    ((run (.restartWindowExpiry 0 2) (aged (spanned (.ocp ocp) .observe (spanning .restartWindow)))).ctx 0 2).work.limits.b = some true ∧
    ((run (.recoverySpanExpiry 0 2) (aged (spanned (.ocp ocp) .recover (spanning .recovery)))).ctx 0 2).outputOff = true ∧
    ((run (.trimIntervalExpiry 0 2) (aged (spanned (.ovp ovp) .apply (spanning .trimInterval)))).ctx 0 2).work.trim = 15000 ∧
    ((run (.trimIntervalExpiry 0 2) (aged (spanned (.ovp ovp) .apply { spanning .trimInterval with trim := 15000 }))).ctx
      0 2).work.outcome = .noTrip := by decide +kernel

/-! ### Zones -/

/-- Zone 0 in a state toward 40.0 C within 0.5 C. -/
def zoned (state : ZoneState) : Part :=
  live.mapZone 0 (fun y =>
    { y with
      state := state, target := 400, band := some 5, schedule := some [⟨400, span2, span2⟩]
      settle := some ⟨0, 128⟩, limit := some ⟨0, 128⟩ })

theorem test_readings :
    ((run (.zoneReading 0 (.temp 405) (.temp 395)) (zoned .moving)).zone 0).state = .settling ∧
    ((run (.zoneReading 0 (.temp 406) (.temp 406)) (zoned .moving)).zone 0).state = .moving ∧
    ((run (.zoneReading 0 (.temp 400) (.temp 400)) (zoned .returning)).zone 0).state = .rest ∧
    ((run (.zoneReading 0 (.temp 406) (.temp 406)) { zoned .settling with tick := 7 }).zone 0).settle = some ⟨7, 128⟩ ∧
    ((run (.zoneReading 0 .openCircuit (.temp 400)) (zoned .settling)).zone 0).state = .faulted ∧
    (run (.zoneReading 0 .openCircuit (.temp 400)) (zoned .settling)).pendingSet = 32 ∧
    ((run (.zoneReading 0 .shortCircuit (.temp 400)) { zoned .moving with phase := .halted }).zone 0).state = .moving ∧
    (judgeReading (.temp 431) (.temp 400)).split = true ∧ (judgeReading (.temp 430) (.temp 400)).split = false := by decide +kernel

theorem test_plateaus :
    ((run (.zoneSettleExpiry 0) (aged ((zoned .settling).mapZone 0 (fun y => { y with joined := [⟨0, 2, false, false⟩] })))).zone
      0).state = .opened ∧
    ((run (.zoneSettleExpiry 0) (aged (zoned .settling))).zone 0).state = .returning ∧
    run (.zoneSettleExpiry 0) (zoned .settling) = zoned .settling ∧
    ((run (.plateauLimitExpiry 0) (aged (zoned .opened))).zone 0).state = .returning ∧
    run (.plateauLimitExpiry 0) (zoned .opened) = zoned .opened := by decide +kernel

/-- Zone 0 in a state with a member in slot 2 of bay 0, whose context is in a plateau check. -/
def member (state : ZoneState) (started : Bool) : Part :=
  aged { withCtx { inPhase (.derate derate) .plateauWait Work.reset with derate := { Loop.reset with started := started } } with
    zones := (zoned state).zones } |>.mapZone 0 (fun y => { y with joined := [⟨0, 2, false, started⟩] })

theorem test_stop_empties_the_joined_list :
    ((member .moving false).zone 0).has 0 2 = true ∧ ((run .runStop (member .moving false)).zone 0).joined = [] ∧
    ((run .runStop (member .moving false)).zone 0).state = .returning ∧
    ((run .runStop (member .opened true)).zone 0).has 0 2 = false := by decide +kernel

theorem test_late_and_missed :
    ((run (.plateauLimitExpiry 0) (member .opened true)).ctx 0 2).marks.late = true ∧
    ((run (.plateauLimitExpiry 0) (member .opened true)).zone 0).state = .closing ∧
    ((run (.plateauLimitExpiry 0) (member .opened false)).bay 0).buffer.map (fun r => (r.kind, r.outcome, r.number)) =
      [(.plateau, .missed, 1), (.summary, .noPlateau, 1), (.verdict, .performed, 0)] ∧
    ((run (.plateauLimitExpiry 0) (member .opened false)).zone 0).state = .returning := by decide +kernel

theorem test_readings_in_the_other_states :
    ((run (.zoneReading 0 (.temp 406) (.temp 406)) (member .opened true)).ctx 0 2).marks.offBand = true ∧
    ((run (.zoneReading 0 (.temp 406) (.temp 406)) (member .closing true)).ctx 0 2).marks.offBand = true ∧
    ((run (.zoneReading 0 (.temp 405) (.temp 405)) (member .opened true)).ctx 0 2).marks.offBand = false ∧
    ((run (.zoneReading 0 (.temp 400) (.temp 400)) (zoned .rest)).zone 0).state = .rest ∧
    ((run (.zoneReading 0 (.temp 400) (.temp 400)) (zoned .faulted)).zone 0).state = .faulted ∧
    ((run (.zoneReading 0 .openCircuit .openCircuit) (zoned .faulted)).zone 0).latest.isSome = true ∧
    (run (.zoneReading 0 .openCircuit .openCircuit) (zoned .faulted)).pendingSet = 0 := by decide +kernel

theorem test_chamber_frames :
    chamberFrame 1 250 = [1, 250, 0, 5] ∧ chamberFrame 0 (-2) = [0, 0xFE, 0xFF, 3] ∧ (live.zone 1).repeating = some ⟨0, 4096⟩ ∧
    (live.zone 1).frame = some 250 ∧ run (.chamberFrameRepeat 1) { live with tick := 4095 } = { live with tick := 4095 } ∧
    ((run (.chamberFrameRepeat 1) { live with tick := 4096 }).zone 1).frameAgain = true ∧
    ((run (.chamberFrameEnd 1) live).zone 1).frame = none ∧
    ((run (.chamberFrameEnd 1) (run (.chamberFrameRepeat 1) (aged live))).zone 1).frame = some 250 ∧
    ((run (.chamberFrameRepeat 1) (run (.chamberFrameEnd 1) (aged live))).zone 1).frame = some 250 := by decide +kernel

/-! ### Time, samples, windows -/

theorem test_ticks :
    (run .monotonicTick { live with fraction := 4095 }).seconds = 1 ∧ (run .monotonicTick live).fraction = 1 ∧
    (run .secondAdvance { live with fraction := 4095, seconds := 3155759999 }).seconds = 0 ∧ run .secondAdvance live = live := by
  decide +kernel

theorem test_samples :
    (run (.sampleInstant { noInput with present := Vector.replicate 8 (Vector.replicate 6 true) }) live).samples = 1 ∧
    ((run (.sampleInstant { noInput with present := Vector.replicate 8 (Vector.replicate 6 true) }) live).bay 3).presence[(1 : Slot)].count =
      1 ∧
    ((run (.sampleInstant noInput) live).bay 3).presence[(1 : Slot)].count = 0 := by decide +kernel

theorem test_ranged_points :
    (Point.sample currentScales ⟨0, 0, true⟩ 5).valid = false ∧ (Point.sample currentScales ⟨0, 0, false⟩ 1424).valid = true ∧
    (Point.sample currentScales ⟨0, 0, false⟩ 1425).point = ⟨1, 0, true⟩ ∧
    (Point.sample currentScales ⟨1, 7, false⟩ 1200).point = ⟨1, 0, false⟩ ∧
    (Point.sample currentScales ⟨1, 14, false⟩ 1199).point = ⟨1, 15, false⟩ ∧
    (Point.sample currentScales ⟨1, 15, false⟩ 1199).point = ⟨0, 0, true⟩ ∧
    (Point.sample currentScales ⟨currentScales.length - 1, 7, false⟩ 100000).valid = true ∧
    (Point.sample currentScales ⟨currentScales.length - 1, 7, false⟩ 100000).point =
      ⟨currentScales.length - 1, 0, false⟩ := by decide +kernel

theorem test_windows :
    (Window.mk 5 9).has 5 = true ∧ (Window.mk 5 9).has 9 = true ∧ (Window.mk 5 9).judge 10 = .above ∧
    (Window.mk 5 9).judge 4 = .below ∧ (Window.mk 5 5).has 5 = true := by decide +kernel

/-! ### Holds, resumes, falls, faults, samples, clause by clause -/

/-- The part of a stopping whose final pass writes its last board. -/
def lastBoard : Part := { rewriting [] false with phase := .stopping, sweep := .boards .final 1 (live.boardFields 1) [] }

theorem test_final_pass_ends :
    lastBoard.quiet = true ∧ (run (.boardWritten 1) lastBoard).phase = .idle ∧ (run (.boardWritten 1) lastBoard).sweepTimer = none ∧
    live.quiet = true ∧ live.sweep = .idle ∧ (∀ b, (live.bay b).state = .empty) ∧ (run .runStop live).sweepTimer = none := by
  decide +kernel

theorem test_record_bytes_leave_the_mark_clear : (verdictRecord.bytes 3)[0x3F]? = some 0 := by decide +kernel

/-- The part after a BAY_HOLD of bay 0 in slot 3. -/
def held (p : Part) : Part := run (.orderCopyComplete (order 0x12 [])) { p with sweep := .copying 3 [] }

/-- A context of slot 2 that waits for the bus that slot 4 holds, behind a plateau measurement of slot 5. -/
def busWaiting : Part :=
  (withCtx (inPhase (.steady steady) .busWait Work.reset)).mapBay 0 (fun u =>
    { u with
      busHolder := some 4, busQueue := [⟨5, true⟩, ⟨2, false⟩], ctxs := u.ctxs.set 5 (inPhase (.derate derate) .busWait Work.reset) })

theorem test_hold_takes_from_the_bus_queue :
    (busWaiting.ctx 0 2).waitsIn .busWait = true ∧ ((held busWaiting).ctx 0 2).state = .paused ∧
    ((held busWaiting).bay 0).busQueue = [⟨5, true⟩] ∧ ((held busWaiting).bay 0).busHolder = some 4 ∧
    ((held busWaiting).bay 0).state = .holding ∧ ((held busWaiting).bay 0).pendingOrder = some 3 := by decide +kernel

/-- A context of slot 2 that holds the bus and waits for a channel, with a queue behind it. -/
def chanWaiting (l : List BusEntry) : Part :=
  { withCtx (inPhase (.steady steady) .channelWait Work.reset) with chanQueue := [⟨0, 2, false⟩, ⟨1, 3, false⟩] }.mapBay 0
    (fun u => { u with busQueue := l })

theorem test_hold_passes_the_bus_on :
    (∀ k, ((chanWaiting []).chan k).owner.map Prod.fst ≠ some 0) ∧ ((held (chanWaiting [])).ctx 0 2).state = .paused ∧
    (held (chanWaiting [])).chanQueue = [⟨1, 3, false⟩] ∧ ((held (chanWaiting [])).bay 0).busHolder = none ∧
    ((held (chanWaiting [])).bay 0).state = .held ∧
    (held (chanWaiting [])).answers[(3 : OrderSlot)].map Answering.code = some .done ∧
    ((held (chanWaiting [⟨5, true⟩])).bay 0).busHolder = some 5 ∧ ((held (chanWaiting [⟨5, true⟩])).bay 0).busQueue = [] := by
  decide +kernel

theorem test_hold_at_a_plateau :
    ((member .moving false).ctx 0 2).atPlateau = true ∧ ((held (member .moving false)).ctx 0 2).state = .paused ∧
    ((held (member .moving false)).ctx 0 2).derate.inLoop = true ∧ ((held (member .moving false)).zone 0).joined = [] ∧
    ((held (member .moving false)).bay 0).state = .held := by decide +kernel

/-- The part after a BAY_RESUME of bay 0, held with a context in slot 2, under an insert policy. -/
def resumed (c : Ctx) (insert : InsertPolicy) : Part :=
  run (.orderCopyComplete (order 0x13 [])) ((ordered .held c).mapBay 0 (fun u => { u with insert := insert }))

/-- A context that paused within its DERATE loop. -/
def pausedInLoop : Ctx :=
  { inPhase (.derate derate) .none Work.reset with state := .paused, derate := { Loop.reset with inLoop := true } }

theorem test_resume :
    ((resumed pausedInLoop .park).ctx 0 2).phase = .plateauWait ∧ ((resumed pausedInLoop .park).zone 0).has 0 2 = true ∧
    ((resumed (standing .planned) .join).ctx 0 2).phase = .connect ∧
    ((resumed (standing .planned) .park).ctx 0 2).state = .planned := by decide +kernel

/-- A part of which the last RUNNING context of a HOLDING bay waits for room for its last record. -/
def lastRunning : Part :=
  (resulting .continue 2 ⟨some false, none, none⟩).mapBay 0 (fun u => { u with state := .holding, pendingOrder := some 9 })

theorem test_held_at_the_end_of_a_record :
    ((run (.recordCountWritten 0) lastRunning).ctx 0 2).state = .paused ∧
    ((run (.recordCountWritten 0) lastRunning).ctx 0 2).checkIndex = 1 ∧
    ((run (.recordCountWritten 0) lastRunning).bay 0).state = .held ∧
    (run (.recordCountWritten 0) lastRunning).answers[(9 : OrderSlot)].map Answering.code = some .done := by decide +kernel

/-- A context in APPLY that owns channel 1 at 3 A, and the part after its fall. -/
def fallenOnChannel : Part :=
  run (.filteredFall 0 2) (channel (inPhase (.steady steady) .apply (spanning .steadySettle)) { ramping 300 with ramp := .holdingLevel })

theorem test_fall_with_a_channel :
    (inPhase (.steady steady) .apply (spanning .steadySettle)).inCheck = true ∧ (fallenOnChannel.ctx 0 2).phase = .release ∧
    (fallenOnChannel.ctx 0 2).work.release = .opening ∧ (fallenOnChannel.ctx 0 2).work.span = none ∧
    (fallenOnChannel.ctx 0 2).work.aborting = some .removed ∧ (fallenOnChannel.ctx 0 2).fellAt = some live.stamp ∧
    (fallenOnChannel.chan 1).relay = .opening ∧ (fallenOnChannel.chan 1).setpoint = 0 := by decide +kernel

/-- The first record of a bay after the fall of slot 2, as the abort leaves it. -/
def abortRecord (p : Part) : Option Record := ((run (.filteredFall 0 2) p).bay 0).buffer.head?

/-- What the record of an abort by a fall of slot 2 carries. -/
def isAbort (r : Record) : Bool :=
  r.outcome == .aborted && r.cause == some .removed && r.number == 1 && r.last && r.limits == ⟨none, none, none⟩ && r.value1.isNone

theorem test_abort_records :
    (abortRecord (there (inPhase (.steady steady) .busWait { Work.reset with limits := ⟨some true, none, none⟩ }))).any isAbort = true ∧
    (abortRecord (withCtx (inPhase (.ovp ovp) .release { Work.reset with release := .restoring }))).any isAbort = true ∧
    (((withCtx { inPhase (.ocp ocp) .release { Work.reset with aborting := some .withdrawn } with exit := .leaving }).afterBus 0 2).ctx
      0 2).out.length = 3 := by decide +kernel

/-- A check of slot 2 in a phase, beside a module in slot 3. -/
def besideSlot3 (b : CheckBody) (ph : Phase) : Part :=
  (channel (inPhase b ph Work.reset) { ramping 300 with ramp := .holdingLevel }).mapBay 0 (fun u =>
    { u with presence := u.presence.set 3 ⟨true, 5000, false⟩ })

/-- The phase and outcome of slot 2's check after the fall of slot 3. -/
def beside (b : CheckBody) (ph : Phase) : Phase × CheckOutcome :=
  let c := (run (.filteredFall 0 3) (besideSlot3 b ph)).ctx 0 2
  (c.phase, c.work.outcome)

theorem test_falls_disturb :
    beside (.steady steady) .measure = (.release, .disturbed) ∧ beside (.ocp ocp) .apply = (.release, .disturbed) ∧
    beside (.ocp ocp) .observe = (.observe, .disturbed) ∧ beside (.derate derate) .measure = (.measure, .performed) := by
  decide +kernel

theorem test_current_limit_of_a_pass :
    (steady.limits 13000 1050).b = some false ∧ (steady.limits 13000 1051).b = some true ∧ (steady.limits 13000 949).b = some true := by
  decide +kernel

/-- A context whose DERATE loop has ended NO_PLATEAU and whose SUMMARY waits for room. -/
def zoneless : Part :=
  (withCtx { inPhase (.derate derate) .record Work.reset with
    out := [.applyResult], inLine := true, derate := { Loop.reset with outcome := .noPlateau } }).mapBay 0 (fun u =>
      { u with buffer := [verdictRecord], line := [⟨2, 1, verdictRecord⟩], currentPage := some 7, drain := .count })

theorem test_no_plateau_result :
    ((run (.recordCountWritten 0) zoneless).ctx 0 2).failed = 1 ∧ ((run (.recordCountWritten 0) zoneless).ctx 0 2).verdict = some .incomplete ∧
    ((run (.recordCountWritten 0) zoneless).ctx 0 2).cause = some .noPlateau := by decide +kernel

/-- A member of zone 0 with its marks, the zone's state, and its context's phase, plateau mark and loop counter. -/
def memberIn (state : ZoneState) (measured started : Bool) (ph : Phase) (own : Bool) (loop : Nat) : Part :=
  let p := channel { inPhase (.derate derate) ph Work.reset with
    loop := loop, derate := { Loop.reset with started := own, plateau := 1 } } { ramping 300 with ramp := .holdingLevel }
  { p with zones := (zoned state).zones }.mapZone 0 (fun y => { y with joined := [⟨0, 2, measured, started⟩] })

/-- Slot 2 after a fault reading: its phase and whether its measurement is cut. -/
def cutBy (p : Part) : Phase × Bool :=
  let c := (run (.zoneReading 0 .openCircuit (.temp 400)) p).ctx 0 2
  (c.phase, c.derate.cut)

/-- The PLATEAU and SUMMARY records of bay 0 after a fault reading. -/
def recorded (p : Part) : List (RecordKind × CheckOutcome × Nat) :=
  (((run (.zoneReading 0 .openCircuit (.temp 400)) p).bay 0).buffer.take 2).map (fun r => (r.kind, r.outcome, r.number))

theorem test_faults_cut_measurements :
    cutBy (memberIn .opened false true .measure true 2) = (.release, true) ∧
    cutBy (memberIn .closing false true .recover true 2) = (.recover, true) ∧
    cutBy (memberIn .opened false true .connect true 2) = (.connect, true) := by decide +kernel

theorem test_faults_settle_waiting_measurements :
    recorded (memberIn .opened false true .plateauWait true 2) = [(.plateau, .missed, 1), (.summary, .noPlateau, 1)] ∧
    recorded (memberIn .opened false true .busWait true 1) = [(.plateau, .missed, 1), (.summary, .performed, 1)] ∧
    recorded (memberIn .opened false true .channelWait true 2) = [(.plateau, .missed, 1), (.summary, .noPlateau, 1)] := by
  decide +kernel

theorem test_faults_miss_and_end_loops :
    recorded (memberIn .moving false false .plateauWait false 2) = [(.plateau, .missed, 1), (.summary, .noPlateau, 1)] ∧
    (recorded (memberIn .opened true false .plateauWait false 2)).head? = some (.summary, .noPlateau, 0) ∧
    (recorded (memberIn .returning false false .plateauWait false 2)).head? = some (.summary, .noPlateau, 0) := by decide +kernel

/-- A zone at rest that takes a schedule while its member is still measuring, after a stop. -/
def rescheduled : Part :=
  run (.orderCopyComplete (order 0x20 (schedule 5))) { memberIn .rest false true .measure true 2 with sweep := .copying 3 [] }

theorem test_a_new_schedule_leaves_measurements_measuring :
    (rescheduled.zone 0).joined = [⟨0, 2, false, false⟩] ∧ cutBy rescheduled = (.release, true) ∧
    ((run (.plateauLimitExpiry 0) (aged (memberIn .opened false false .measure true 2))).ctx 0 2).marks.late = true := by decide +kernel

/-- Samples of 9 V on bus 0, with power-good on every slot. -/
def nineVolts : Samples :=
  { noInput with busFixed := Vector.replicate 8 9000, busRanged := Vector.replicate 8 9000, powerGood := Vector.replicate 8 (Vector.replicate 6 true) }

/-- The detector of channel 1 after a sample. -/
def detected (x : Samples) (d : TripDetector) : Option TripDetector :=
  ((run (.sampleInstant x) (channel ocpApply { ramping 800 with detector := some d })).chan 1).detector

/-- A detector one sample short of a collapse. -/
def watching : TripDetector := ⟨2, 9600, 2, 10, 3, 1, true, some (720, 12000), none⟩

theorem test_detectors_fire :
    (detected nineVolts watching).map TripDetector.firing = some (some ⟨1, 0, 9000, 107, .collapse⟩) ∧
    (detected noInput watching).map TripDetector.firing = some (some ⟨1, 0, 0, 107, .both⟩) ∧
    (detected noInput { watching with run := 0 }).map TripDetector.firing = some (some ⟨1, 0, 0, 107, .powerGood⟩) ∧
    (detected nineVolts { watching with run := 0 }).map (fun d => (d.run, d.peaks)) = some (1, some (720, 12000)) ∧
    detected nineVolts fired = some fired := by decide +kernel

/-- The work of slot 2 of bay 0 after a sample. -/
def sampled (x : Samples) (w : Work) : Work :=
  ((run (.sampleInstant x) (withCtx (inPhase (.steady steady) .measure w))).ctx 0 2).work

/-- A window on the bus point with a number of samples of 8.9 V gathered, in a measurement of 4. -/
def gathering (n : Nat) : Work :=
  { Work.reset with meas := some ⟨4, 100, [⟨none, none, if n = 0 then none else some 8900, 8900 * n, n, false, false⟩], none⟩ }

/-- The part with the bus point of bay 0 in its top range. -/
def inRange (p : Part) : Part := p.mapBay 0 (fun u => { u with busPoint := { u.busPoint with range := voltScales.length - 1, discard := false } })

/-- That measurement after a sample, with a drift tolerance. -/
def gathered (tol n : Nat) : Option Measurement :=
  ((run (.sampleInstant nineVolts) (inRange (withCtx (inPhase (.steady steady) .measure
    { gathering n with meas := (gathering n).meas.map (fun m => { m with tol := tol }) })))).ctx 0 2).work.meas

theorem test_windows_gather :
    gathered 100 0 = some ⟨4, 100, [⟨none, none, some 9000, 9000, 1, false, false⟩], none⟩ ∧
    gathered 100 3 = some ⟨4, 100, [⟨none, none, some 8900, 35700, 4, false, false⟩], some live.stamp⟩ ∧
    gathered 99 1 = some ⟨4, 99, [⟨none, none, some 8900, 17900, 2, false, true⟩], none⟩ := by decide +kernel

theorem test_watches_on_samples :
    (sampled nineVolts { Work.reset with watch := some (.restart 8000 2 0 1 1 none) }).watch = some (.restart 8000 2 0 2 1 (some 10)) ∧
    (sampled nineVolts { Work.reset with watch := some (.restart 9000 2 0 1 1 none) }).watch = some (.restart 9000 2 0 0 0 none) ∧
    (sampled nineVolts { Work.reset with watch := some (.powerGood none) }).watch = some (.powerGood (some 0)) ∧
    (sampled noInput { Work.reset with watch := some (.powerGood none) }).watch = some (.powerGood none) := by decide +kernel

theorem test_points_clip_in_the_top_range :
    (Point.sample currentScales ⟨currentScales.length - 1, 0, false⟩ 11759).clips = false ∧
    (Point.sample currentScales ⟨currentScales.length - 1, 0, false⟩ 11760).clips = true ∧
    (Point.sample currentScales ⟨0, 0, false⟩ 11760).clips = false := by decide +kernel

theorem test_a_reset_leaves_the_mark_of_an_answer :
    (answering .mark).plainWrites.all (fun w => w.1 != (answering .mark).slotAddr 3) = true ∧
    (book (exec .stationReset (st (answering .mark)))).read (0x10000 + 0x200 + 128 * 3) = none := by decide +kernel

/-! ### Invariants -/

/-- A part whose boards of bays 3 and 5 are changed. -/
def twoChanged (p : Part) : Part :=
  (p.mapBay 3 (fun u => { u with boardChanged := true })).mapBay 5 (fun u => { u with boardChanged := true })

/-- A STOPPING part whose sweep timer is due, with bay 0 not yet EMPTY. -/
def stoppingDue : Part :=
  { live.mapBay 0 (fun u => { u with state := .ready }) with phase := .stopping, sweepTimer := some ⟨0, 5⟩, tick := 5 }

theorem test_accepted_heads_mark_all_boards :
    ∀ b, ((run (.headReadComplete goodHead) { rest with attempt := true }).bay b).boardChanged = true := by decide +kernel

theorem test_passes_rewrite_the_changed_boards :
    (run (.slotMarksRead (List.replicate 16 0)) (twoChanged marking)).sweep = .boards .sweep 3 (live.boardFields 3) [5] ∧
    ((run (.slotMarksRead (List.replicate 16 0)) (twoChanged marking)).bay 3).boardChanged = false ∧
    ((run (.slotMarksRead (List.replicate 16 0)) (twoChanged marking)).bay 5).boardChanged = true ∧
    (run .sweepTimerExpiry (twoChanged stoppingDue)).sweep = .boards .stopping 3 (live.boardFields 3) [5] ∧
    (run .sweepTimerExpiry stoppingDue).sweep = .idle ∧ (run .sweepTimerExpiry stoppingDue).sweepTimer = some ⟨5, 5⟩ ∧
    (run (.boardWritten 1) { stoppingDue with sweep := .boards .stopping 1 [] [], sweepTimer := none }).sweepTimer = some ⟨5, 5⟩ ∧
    (run .runStop (twoChanged live)).sweep = .boards .final 3 (live.boardFields 3) [5] := by decide +kernel

/-- The part after a rise of slot 3 beside slot 2's STEADY check in MEASURE. -/
def risenBeside : Part := run (.filteredRise 0 3) (holding2 (.steady steady) .measure 0 .performed)

theorem test_rises_beside_a_check :
    (risenBeside.ctx 0 3).state = .identifying ∧ (risenBeside.link 0).inFlight.map Entry.target = some 3 ∧
    risenBeside.pendingSet = 16 ∧ (risenBeside.ctx 0 2).verdict = some .fail ∧
    ((run (.filteredRise 0 3) ((holding2 (.steady steady) .measure 0 .performed).mapLink 0 (fun l =>
      { l with state := .recovering }))).link 0).queue.map (fun e => (e.target, e.kind)) = [(3, .identityRead)] ∧
    ((run (.filteredRise 0 3) ((holding2 (.steady steady) .measure 0 .performed).mapCtx 0 3 (fun _ => standing .ended))).bay
      0).presence[(3 : Slot)].heldRise = true := by decide +kernel

/-- The records and the context of slot 3, in BUS_WAIT, after its fall beside slot 2's check in a phase. -/
def fallenBeside (b : CheckBody) (ph : Phase) (c : Ctx) : List (RecordKind × CheckOutcome) × CtxState × Phase :=
  let q := run (.filteredFall 0 3) ((besideSlot3 b ph).mapCtx 0 3 (fun _ => c))
  ((q.bay 0).buffer.map (fun r => (r.kind, r.outcome)), (q.ctx 0 3).state, (q.ctx 0 2).phase)

theorem test_falls_beside_a_check :
    fallenBeside (.derate derate) .measure (inPhase (.steady steady) .busWait Work.reset) =
      ([(.measure, .aborted), (.verdict, .performed), (.presence, .performed)], .absent, .measure) ∧
    fallenBeside (.steady steady) .measure (standing .planned) =
      ([(.verdict, .performed), (.presence, .performed)], .absent, .release) ∧
    fallenBeside (.steady steady) .connect { Ctx.reset with state := .identifying, adm := some 4 } =
      ([(.presence, .performed)], .absent, .connect) := by decide +kernel

theorem test_hold_at_the_last_plateau :
    ((member .opened false).ctx 0 2).atPlateau = true ∧ ((held (member .opened false)).bay 0).state = .held ∧
    ((held (member .opened false)).zone 0).state = .returning ∧
    ((held ((member .opened false).mapZone 0 (fun y => { y with joined := y.joined ++ [⟨1, 3, false, false⟩] }))).bay 0).state = .held ∧
    ((held ((member .opened false).mapZone 0 (fun y => { y with joined := y.joined ++ [⟨1, 3, false, false⟩] }))).zone 0).state =
      .opened ∧
    ((consequence (.bayTest 0) holding).bay 0).state = .held := by decide +kernel

/-- A context in RECORD with what it owes, in a bay whose buffer has room. -/
def owing (l : List OutItem) : Part :=
  withCtx { inPhase (.steady steady) .record { Work.reset with limits := ⟨some true, none, none⟩ } with out := l }

theorem test_results_with_room :
    ((consequence (.output 0 2) (owing [.record verdictRecord, .applyResult])).bay 0).buffer = [verdictRecord] ∧
    (consequence (.output 0 2) (owing [.record verdictRecord, .applyResult])).todo = [.writer, .output 0 2] ∧
    (consequence (.output 0 2) (owing [.applyResult])).todo = [.checkResult 0 2] ∧
    ((consequence (.checkResult 0 2) (owing [])).ctx 0 2).failed = 1 ∧
    ((consequence (.checkResult 0 2) (owing [])).ctx 0 2).out = [.verdict .fail none] := by decide +kernel

/-- A member that is measuring beside one that is not, at the limit of their plateau. -/
def mixedLimit : Part :=
  run (.plateauLimitExpiry 0) (((member .opened true).mapCtx 0 3 (fun _ => inPhase (.derate derate) .plateauWait Work.reset)).mapZone 0
    (fun y => { y with joined := y.joined ++ [⟨0, 3, false, false⟩] }))

theorem test_limit_of_a_mixed_list :
    (mixedLimit.zone 0).state = .closing ∧ (mixedLimit.ctx 0 2).marks.late = true ∧
    (mixedLimit.bay 0).buffer.map (fun r => (r.slot, r.kind, r.outcome)) = [(3, .plateau, .missed)] := by decide +kernel

theorem test_invariants_meet_a_step :
    (st live).book.wf = true ∧ (after (step { st live with pending := [.runStop] })).phase = .idle := by decide +kernel

theorem test_invariants_hold_of_a_part :
    live.QuietChannels ∧ live.QueuesInSize ∧ live.RegistersInRange ∧ live.GrantsAgree ∧ live.DirectoryInOrder := by
  have he : ∀ x, live.dir.entry x = none := by decide +kernel
  refine ⟨?_, ?_, ?_, ⟨by decide, by decide, by decide, fun e he => absurd he (by exact List.not_mem_nil), List.nodup_nil, by decide⟩,
    ⟨⟨by decide +kernel, fun x e h => ?_, by decide +kernel, fun x y e f h => ?_⟩, fun r h => absurd h nofun⟩⟩
  · unfold Part.QuietChannels Channel.Quiet
    decide +kernel
  · unfold Part.QueuesInSize BayUnit.BufferOk Link.QueueOk
    decide +kernel
  · unfold Part.RegistersInRange
    decide +kernel
  · rw [he x] at h
    exact absurd h nofun
  · rw [he x] at h
    exact absurd h nofun

end Sys2Proof.Tests
end

section
/-! The windows of the plan records (R57): what each outcome of a value against a window says of its bounds. -/

namespace Sys2Proof.Machine

theorem Window.judge_eq_below_iff {w : Window} {v : Nat} : w.judge v = .below ↔ v < w.low := by
  unfold Window.judge
  split
  next hlow => simp [hlow]
  next hlow => split <;> simp [hlow]

/-- The test against the low bound comes first, so a value above the window also passes it. -/
theorem Window.judge_eq_above_iff {w : Window} {v : Nat} : w.judge v = .above ↔ w.low ≤ v ∧ w.high < v := by
  unfold Window.judge
  split
  next hlow => simp [Nat.not_le.mpr hlow]
  next hlow =>
    have hle := Nat.not_lt.mp hlow
    split
    next hhigh => simp [hle, hhigh]
    next hhigh => simp [hhigh]

/-- In an ordered window the high bound alone decides: what exceeds it is not under the low bound. -/
theorem Window.judge_eq_above_iff_of_ordered {w : Window} {v : Nat} (h : w.low ≤ w.high) :
    w.judge v = .above ↔ w.high < v := by
  rw [Window.judge_eq_above_iff, and_iff_right_iff_imp]
  exact fun hhigh => h.trans hhigh.le

theorem Window.judge_eq_inside_iff {w : Window} {v : Nat} : w.judge v = .inside ↔ w.low ≤ v ∧ v ≤ w.high := by
  unfold Window.judge
  split
  next hlow => simp [Nat.not_le.mpr hlow]
  next hlow =>
    have hle := Nat.not_lt.mp hlow
    split
    next hhigh => simp [Nat.not_le.mpr hhigh]
    next hhigh => simp [hle, Nat.not_lt.mp hhigh]

theorem Window.has_iff {w : Window} {v : Nat} : w.has v = true ↔ w.low ≤ v ∧ v ≤ w.high := by
  rw [Window.has, beq_iff_eq, Window.judge_eq_inside_iff]

/-- Between equal bounds lies one value. -/
theorem Window.has_iff_of_low_eq_high {w : Window} {v : Nat} (h : w.low = w.high) : w.has v = true ↔ v = w.low := by
  rw [Window.has_iff, ← h, and_comm, ← le_antisymm_iff]

/-- Settles O55: the outcomes of `Window.judge` read as bounds; the order of the bounds is needed only for what is above. -/
theorem windowsHoldTheirBounds : Obligations.WindowsHoldTheirBounds := by
  unfold Obligations.WindowsHoldTheirBounds
  intro w v hordered
  exact ⟨Window.has_iff, Window.judge_eq_above_iff_of_ordered hordered, Window.judge_eq_below_iff,
    Window.has_iff_of_low_eq_high⟩

end Sys2Proof.Machine
end

section
/-! The quiet channels (R113): a channel whose relays are not CLOSED has setpoint 0. Every channel operation keeps one channel quiet;
`Part.QuietChannels.keeps` lifts this to every step. -/

namespace Sys2Proof.Machine

/-! ### One channel -/

theorem Channel.reset_quiet : Channel.reset.Quiet := .inr rfl

/-- A sample reaches the trip detector alone. -/
theorem Channel.Quiet.sample {ch : Channel} (h : ch.Quiet) (c : Chan) (x : Samples) (number : Nat) :
    (ch.sample c x number).Quiet := by
  unfold Channel.sample
  split
  · exact h
  · exact h

/-! ### The channels of the part -/

theorem tab4_get {α : Type} (f : Fin 4 → α) (c : Fin 4) : (tab4 f)[c] = f c :=
  match c with
  | 0 => rfl
  | 1 => rfl
  | 2 => rfl
  | 3 => rfl

namespace Part.QuietChannels

theorem of_chans {p q : Part} (h : p.QuietChannels) (hc : p.chans = q.chans) : q.QuietChannels := by
  intro c
  unfold Part.chan
  rw [← hc]
  exact h c

theorem of_arbiterOnly {p q : Part} (h : p.QuietChannels) (hpq : p.ArbiterOnly q) : q.QuietChannels := by
  obtain ⟨-, hchan, -⟩ := hpq
  exact fun c => hchan c (h c)

theorem of_tab4 {p : Part} {f : Chan → Channel} (hp : p.chans = tab4 f) (hf : ∀ c, (f c).Quiet) : p.QuietChannels := by
  intro c
  unfold Part.chan
  rw [hp, tab4_get]
  exact hf c

/-- Every reset gives all four channels their reset values (R111). -/
theorem of_reset {p : Part} (hp : p.chans = Part.reset.chans) : p.QuietChannels :=
  of_tab4 (f := fun _ => Channel.reset) hp (fun _ => Channel.reset_quiet)

/-- The consequences of a command keep every channel quiet: each changes channels by operations that keep one channel quiet. -/
theorem closed : Closed Part.QuietChannels where
  rest _ _ _ hchans _ _ h := h.of_chans hchans
  bay _ _ _ _ h := h.of_chans rfl
  buffer _ _ _ _ _ h := h.of_chans rfl
  link _ _ _ _ h := h.of_chans rfl
  owned p c f hf _ h := h.of_arbiterOnly (Part.ArbiterOnly.mapChan p c f hf)
  arbiter _ _ hpq _ h := h.of_arbiterOnly hpq

/-- The commands of the port and the orders leave the channels. -/
theorem isLocal : Local Part.QuietChannels where
  toClosed := closed
  any _ _ _ hchans _ _ _ _ _ h := h.of_chans hchans
  reads _ _ _ h := h.of_chans rfl
  enters _ _ _ _ _ h := h.of_chans rfl
  ends _ h := h.of_chans rfl
  removes _ _ _ _ h := h.of_chans rfl

/-- At a halt every channel drops, and a CLOSED one then opens with setpoint 0 (R116, R121). -/
theorem enterHalted {p : Part} (h : p.QuietChannels) (a : FailedAccess) : (p.enterHalted a).QuietChannels :=
  closed.notify _ _ (of_tab4 rfl (fun c => (h c).halt p.samples))

theorem sampleInstant {p : Part} (h : p.QuietChannels) (x : Samples) : (p.sampleInstant x).QuietChannels :=
  of_tab4 rfl (fun c => (h c).sample c x (p.samples + 1))

theorem ticked {p : Part} (h : p.QuietChannels) : p.ticked.QuietChannels := by
  unfold Part.ticked
  split
  · exact h.of_chans rfl
  · exact h.of_chans rfl

/-- What is outside the consequences, the port and the orders (resets, the halt, samples, the clock) keeps every channel quiet too. -/
theorem keeps : Keeps Part.QuietChannels where
  toLocal := isLocal
  reset _ := of_reset rfl
  restart _ _ := of_reset rfl
  halt _ a h := h.enterHalted a
  accept _ _ h := h.of_chans rfl
  sampled _ x h := h.sampleInstant x
  clock _ _ _ h := h.of_chans rfl
  tick _ h := h.ticked
  base _ _ h := h.of_chans rfl

end Part.QuietChannels

/-- Settles O57: no step changes a channel but by operations that keep it quiet. -/
theorem channelsStayQuiet : Obligations.ChannelsStayQuiet := by
  unfold Obligations.ChannelsStayQuiet
  exact Part.QuietChannels.keeps.step

end Sys2Proof.Machine
end

section
/-! The calendar (R202, R203): what the tests of a date and time say of its fields, and how its seconds count. -/

namespace Sys2Proof.Machine

/-- The tests of a date and time as one range for each field (R203). -/
theorem DateTime.badField_eq_none_iff {d : DateTime} :
    d.badField = none ↔ (2000 ≤ d.year ∧ d.year ≤ 2099) ∧ (1 ≤ d.month ∧ d.month ≤ 12) ∧
      (1 ≤ d.day ∧ d.day ≤ monthDays d.year d.month) ∧ d.hour ≤ 23 ∧ d.minute ≤ 59 ∧ d.second ≤ 59 := by
  unfold DateTime.badField
  repeat' split
  all_goals simp only [reduceCtorEq, false_iff, true_iff]
  all_goals omega

/-- The days before a month grow by the length of the month before it. -/
theorem daysBefore_succ (year : Nat) {m : Nat} (hm : 1 ≤ m) : daysBefore year (m + 1) = daysBefore year m + monthDays year m := by
  cases m with
  | zero => omega
  | succ m => rfl

/-- The leap day of a year, as the number of days it adds. -/
def leapDay (year : Nat) : Nat := if year % 4 = 0 then 1 else 0

/-- The days of a year before December. -/
theorem daysBefore_december (year : Nat) : daysBefore year 12 = 334 + leapDay year := by
  unfold leapDay
  simp only [daysBefore, monthDays]
  split <;> rfl

/-- No month ends after the year's last day. -/
theorem daysBefore_add_monthDays_le (year : Nat) {m : Nat} (h1 : 1 ≤ m) (h12 : m ≤ 12) :
    daysBefore year m + monthDays year m ≤ 365 + leapDay year := by
  have hstep : ∀ n, 1 ≤ n → daysBefore year n ≤ daysBefore year (n + 1) := fun n hn => by
    rw [daysBefore_succ year hn]
    omega
  have hmono : daysBefore year (m + 1) ≤ daysBefore year 13 :=
    Nat.le_induction (m := m + 1) (P := fun n _ => daysBefore year (m + 1) ≤ daysBefore year n) le_rfl
      (fun n hn ih => ih.trans (hstep n (by omega))) 13 (by omega)
  have hend : daysBefore year 13 = 365 + leapDay year := by
    rw [daysBefore_succ year (by omega), daysBefore_december]
    simp only [monthDays]
    omega
  rw [← daysBefore_succ year h1, ← hend]
  exact hmono

/-- The whole days before a year of the calendar: each year adds 365 and its leap day. -/
theorem yearDays_succ {y : Nat} (h : 2000 ≤ y) :
    (y + 1 - 2000) * 365 + (y + 1 - 2000 + 3) / 4 = (y - 2000) * 365 + (y - 2000 + 3) / 4 + (365 + leapDay y) := by
  unfold leapDay
  split <;> omega

/-- A valid date and time is at most the last second of 2099 (R202). -/
theorem DateTime.count_le {d : DateTime} (h : d.badField = none) : d.count ≤ 3155759999 := by
  obtain ⟨hyear, hmonth, hday, hhour, hminute, hsecond⟩ := DateTime.badField_eq_none_iff.mp h
  have hend := daysBefore_add_monthDays_le d.year hmonth.1 hmonth.2
  have hleap := yearDays_succ hyear.1
  unfold DateTime.count
  dsimp only
  omega

/-- Settles O15: a carry into the next field adds what the lower fields fall by; a carry into the next month adds the length of the
month, and one into the next year the length of December and the leap day. -/
theorem calendarCountsSeconds : Obligations.CalendarCountsSeconds := by
  unfold Obligations.CalendarCountsSeconds
  refine ⟨rfl, fun d hd => ?_⟩
  obtain ⟨hyear, hmonth, hday, hhour, hminute, hsecond⟩ := DateTime.badField_eq_none_iff.mp hd
  refine ⟨DateTime.count_le hd, ?_, ?_, ?_, ?_, ?_, ?_⟩ <;> unfold DateTime.count <;> dsimp only
  · intros; omega
  · intros; omega
  · intros; omega
  · intros; omega
  · intros
    rw [daysBefore_succ d.year hmonth.1]
    omega
  · intro hs hm hh hlast hdecember
    have hfirst : daysBefore (d.year + 1) 1 = 0 := rfl
    rw [hdecember, daysBefore_december, hfirst, yearDays_succ hyear.1, hs, hm, hh, hlast]
    simp only [Nat.reduceSub, Nat.reduceMul]
    omega

end Sys2Proof.Machine
end

section
/-! The registers in range (R179, R202): the commands that write the clock or BOOKLO keep them there; no other command touches them. -/

namespace Sys2Proof.Machine

namespace Part.RegistersInRange

/-- The range is one of the clock and of BOOKLO alone. -/
theorem congr {p q : Part} (h : p.RegistersInRange) (hs : p.seconds = q.seconds) (hf : p.fraction = q.fraction)
    (hb : p.bookLo = q.bookLo) : q.RegistersInRange := by
  unfold Part.RegistersInRange
  rw [← hs, ← hf, ← hb]
  exact h

theorem of_still {p q : Part} (h : p.RegistersInRange) (hpq : p.still = q.still) : q.RegistersInRange :=
  h.congr (congrArg Still.seconds hpq) (congrArg Still.fraction hpq) (congrArg Still.bookLo hpq)

/-- No consequence of a command writes the clock or BOOKLO. -/
theorem closed : Closed Part.RegistersInRange where
  rest _ _ _ _ _ hstill h := h.of_still hstill
  bay _ _ _ _ h := h.congr rfl rfl rfl
  buffer _ _ _ _ _ h := h.congr rfl rfl rfl
  link _ _ _ _ h := h.congr rfl rfl rfl
  owned _ _ _ _ _ h := h.congr rfl rfl rfl
  arbiter _ _ hpq _ h := h.of_still hpq.2.2

theorem isLocal : Local Part.RegistersInRange where
  toClosed := closed
  any _ _ _ _ _ hs hf hb _ h := h.congr hs hf hb
  reads _ _ _ h := h.congr rfl rfl rfl
  enters _ _ _ _ _ h := h.congr rfl rfl rfl
  ends _ h := h.congr rfl rfl rfl
  removes _ _ _ _ h := h.congr rfl rfl rfl

theorem of_reset {p : Part} (hs : p.seconds = 0) (hf : p.fraction = 0) (hb : p.bookLo = 0) : p.RegistersInRange := by
  unfold Part.RegistersInRange
  rw [hs, hf, hb]
  decide

/-- The seconds after an advance stay on the calendar: the last of them is followed by 0 (R202). -/
theorem nextSecond_le {n : Nat} (h : n ≤ 3155759999) : nextSecond n ≤ 3155759999 := by
  unfold nextSecond lastSecond
  split
  · omega
  · omega

theorem ticked {p : Part} (h : p.RegistersInRange) : p.ticked.RegistersInRange := by
  obtain ⟨hs, hf, hb⟩ := h
  unfold Part.ticked
  split
  · exact ⟨nextSecond_le hs, Nat.zero_le _, hb⟩
  · exact ⟨hs, by dsimp only; omega, hb⟩

/-- A write of BOOKLO takes bits 31 to 12 alone (R179). -/
theorem bookLo {p : Part} (h : p.RegistersInRange) (w : Word) : { p with bookLo := w &&& 0xFFFFF000 }.RegistersInRange := by
  obtain ⟨hs, hf, -⟩ := h
  refine ⟨hs, hf, ?_⟩
  dsimp only
  rw [BitVec.and_assoc]
  exact BitVec.and_zero

theorem keeps : Keeps Part.RegistersInRange where
  toLocal := isLocal
  reset _ := of_reset rfl rfl rfl
  restart p h := ⟨h.1, h.2.1, show (0 : Word) &&& 0xFFF = 0 by decide⟩
  halt _ _ h := closed.notify _ _ (h.congr rfl rfl rfl)
  accept _ _ h := h.congr rfl rfl rfl
  sampled _ _ h := h.congr rfl rfl rfl
  clock _ _ hd h := ⟨DateTime.count_le hd, Nat.zero_le _, h.2.2⟩
  tick _ h := h.ticked
  base _ w h := h.bookLo w

end Part.RegistersInRange

/-- Settles O59: the clock is written by the tick and by CLOCK_SET, BOOKLO by its own register write, and each within range. -/
theorem registersStayInRange : Obligations.RegistersStayInRange := by
  unfold Obligations.RegistersStayInRange
  exact Part.RegistersInRange.keeps.step

end Sys2Proof.Machine
end

section
/-! The sizes of the buffers and queues (R149, R151, R166): a step changes a bay's buffer, entry line and link by operations that keep
them in size, and nothing else of a bay counts. -/

namespace Sys2Proof.Machine

theorem Link.QueueOk.haltedIdle (l : Link) : l.haltedIdle.QueueOk :=
  ⟨Nat.zero_le _, fun h => absurd rfl h, Nat.zero_le _⟩

theorem Link.QueueOk.halt {l : Link} (h : l.QueueOk) : l.halt.QueueOk := by
  unfold Link.halt
  split
  · exact Link.QueueOk.haltedIdle l
  · exact h

theorem BayUnit.reset_bufferOk : BayUnit.reset.BufferOk :=
  ⟨Nat.zero_le _, fun h => absurd rfl h, Nat.zero_le _, List.nodup_nil⟩

theorem Link.reset_queueOk : Link.reset.QueueOk := ⟨Nat.zero_le _, fun h => absurd rfl h, Nat.zero_le _⟩

/-- A bay's sizes are those of its buffer, its entry line and its link. -/
def BayUnit.InSize (u : BayUnit) : Prop := u.BufferOk ∧ u.link.QueueOk

/-- Bays that agree on buffer, entry line and link are in size together. -/
theorem BayUnit.InSize.congr {u v : BayUnit} (h : u.InSize) (hb : v.buffer = u.buffer) (hn : v.line = u.line)
    (hl : v.link = u.link) : v.InSize := by
  unfold BayUnit.InSize BayUnit.BufferOk
  rw [hb, hn, hl]
  exact h

namespace Part.QueuesInSize

theorem of_bays {p q : Part} (h : p.QueuesInSize) (hb : p.bays = q.bays) : q.QueuesInSize := by
  intro b
  unfold Part.link Part.bay
  rw [← hb]
  exact h b

/-- Changing one bay asks for that bay alone. -/
theorem mapBay {p : Part} (h : p.QueuesInSize) (b : Bay) (f : BayUnit → BayUnit) (hf : (f (p.bay b)).InSize) :
    (p.mapBay b f).QueuesInSize := by
  intro c
  show ((p.mapBay b f).bay c).InSize
  by_cases hc : b = c
  · subst hc
    rwa [Part.bay_mapBay]
  · rw [Part.bay_mapBay_other p f hc]
    exact h c

theorem of_tab8 {p : Part} {f : Bay → BayUnit} (hp : p.bays = tab8 f) (hf : ∀ b, (f b).InSize) : p.QueuesInSize := by
  intro b
  show (p.bays[b]).InSize
  rw [hp, tab8_get]
  exact hf b

theorem of_arbiterOnly {p q : Part} (h : p.QueuesInSize) (hpq : p.ArbiterOnly q) : q.QueuesInSize := by
  intro b
  obtain ⟨hbuffer, hlinelink⟩ := Prod.mk.inj (hpq.1 b)
  obtain ⟨hline, hlink⟩ := Prod.mk.inj hlinelink
  exact BayUnit.InSize.congr (h b) hbuffer.symm hline.symm hlink.symm

theorem closed : Closed Part.QueuesInSize where
  rest _ _ hbays _ _ _ h := h.of_bays hbays
  bay p b f hf h := h.mapBay b f (BayUnit.InSize.congr (h b) (hf _).1 (hf _).2.1 (hf _).2.2.1)
  buffer p b f hf hsame h := h.mapBay b f ⟨hf (h b).1, by rw [hsame.1]; exact (h b).2⟩
  link p b f hf h := h.mapBay b (fun u => { u with link := f u.link }) ⟨(h b).1, hf (h b).2⟩
  owned _ _ _ _ _ h := h.of_bays rfl
  arbiter _ _ hpq _ h := h.of_arbiterOnly hpq

theorem isLocal : Local Part.QueuesInSize where
  toClosed := closed
  any _ _ hbays _ _ _ _ _ _ h := h.of_bays hbays
  reads _ _ _ h := h.of_bays rfl
  enters _ _ _ _ _ h := h.of_bays rfl
  ends _ h := h.of_bays rfl
  removes _ _ _ _ h := h.of_bays rfl

theorem of_reset {p : Part} (hp : p.bays = Part.reset.bays) : p.QueuesInSize :=
  of_tab8 (f := fun _ => BayUnit.reset) hp (fun _ => ⟨BayUnit.reset_bufferOk, Link.reset_queueOk⟩)

theorem ticked {p : Part} (h : p.QueuesInSize) : p.ticked.QueuesInSize := by
  unfold Part.ticked
  split
  · exact h.of_bays rfl
  · exact h.of_bays rfl

/-- A halt empties the links with nothing in flight and leaves the buffers (R162, R177); a sample reaches neither. -/
theorem keeps : Keeps Part.QueuesInSize where
  toLocal := isLocal
  reset _ := of_reset rfl
  restart _ _ := of_reset rfl
  halt p _ h := closed.notify _ _ (of_tab8 (f := fun b => (p.bay b).halt) rfl (fun b => ⟨(h b).1, Link.QueueOk.halt (h b).2⟩))
  accept p _ h :=
    of_tab8 (f := fun b => { p.bay b with boardChanged := true }) rfl (fun b => BayUnit.InSize.congr (h b) rfl rfl rfl)
  sampled p x h := of_tab8 (f := fun b => (p.bay b).sample b x p.stamp (p.samples + 1) p.tick) rfl (fun b => BayUnit.InSize.congr (h b) rfl rfl rfl)
  clock _ _ _ h := h.of_bays rfl
  tick _ h := h.ticked
  base _ _ h := h.of_bays rfl

end Part.QueuesInSize

end Sys2Proof.Machine
end

section
/-! The tables of the arbiter (R95 to R105): only the arbiter's own operations change them, and those keep them in agreement. -/

namespace Sys2Proof.Machine

/-- The tables are read off the owners and connected bays of the channels, the buses of the bays, and the channel grant queue. -/
theorem Part.tables_congr {p q : Part} (hc : ∀ c, (q.chan c).grant = (p.chan c).grant)
    (hb : ∀ b, (q.bay b).busHolder = (p.bay b).busHolder ∧ (q.bay b).busQueue = (p.bay b).busQueue)
    (hq : q.chanQueue = p.chanQueue) : q.tables = p.tables := by
  unfold Part.tables
  congr 1
  · funext c
    exact congrArg Prod.fst (hc c)
  · funext c
    exact congrArg Prod.snd (hc c)
  · funext b
    exact (hb b).1
  · funext b
    exact (hb b).2

namespace Part.GrantsAgree

theorem of_tables {p q : Part} (h : p.GrantsAgree) (ht : q.tables = p.tables) : q.GrantsAgree := by
  rw [Part.grantsAgree_iff] at h ⊢
  rw [ht]
  exact h

theorem congr {p q : Part} (h : p.GrantsAgree) (hb : p.bays = q.bays) (hc : p.chans = q.chans)
    (hq : p.chanQueue = q.chanQueue) : q.GrantsAgree :=
  h.of_tables (Part.tables_congr (fun c => by unfold Part.chan; rw [hc]) (fun b => by unfold Part.bay; rw [hb]; exact ⟨rfl, rfl⟩)
    hq.symm)

theorem closed : Closed Part.GrantsAgree where
  rest _ _ hb hc hq _ h := h.congr hb hc hq
  bay p b f hf h :=
    h.of_tables (Part.tables_mapBay_same p b f (hf (p.bay b)).2.2.2.1 (hf (p.bay b)).2.2.2.2)
  buffer p b f _ hsame h := h.of_tables (Part.tables_mapBay_same p b f hsame.2.1 hsame.2.2)
  link p b _ _ h := h.of_tables (Part.tables_mapBay_same p b _ rfl rfl)
  owned p c f _ hgrant h := h.of_tables (Part.tables_mapChan_same p c f hgrant)
  arbiter _ _ _ hagree h := hagree h

theorem isLocal : Local Part.GrantsAgree where
  toClosed := closed
  any _ _ hb hc hq _ _ _ _ h := h.congr hb hc hq
  reads _ _ _ h := h.congr rfl rfl rfl
  enters _ _ _ _ _ h := h.congr rfl rfl rfl
  ends _ h := h.congr rfl rfl rfl
  removes _ _ _ _ h := h.congr rfl rfl rfl

/-- Every bus and every channel is free after a reset (R95). -/
theorem of_reset {p : Part} (hb : p.bays = Part.reset.bays) (hc : p.chans = Part.reset.chans) (hq : p.chanQueue = []) :
    p.GrantsAgree := by
  have hchan : ∀ c, p.chan c = Channel.reset := fun c => by
    unfold Part.chan
    rw [hc]
    exact tab4_get (fun _ => Channel.reset) c
  have hbay : ∀ b, p.bay b = BayUnit.reset := fun b => by
    unfold Part.bay
    rw [hb]
    exact tab8_get (fun _ => BayUnit.reset) b
  have hown : ∀ c x, (p.chan c).owner ≠ some x := fun c x => by
    rw [hchan]
    exact nofun
  refine ⟨fun c => ?_, fun c b x h => absurd h (hown c _), fun c _ b x _ h => absurd h (hown c _), fun e he => ?_, ?_, fun b _ => ?_⟩
  · rw [hchan]
    rfl
  · rw [hq] at he
    cases he
  · rw [hq]
    exact List.nodup_nil
  · rw [hbay]
    rfl

/-- The halt drops the channels and leaves whose they are (R121). -/
theorem enterHalted {p : Part} (h : p.GrantsAgree) (a : FailedAccess) : (p.enterHalted a).GrantsAgree := by
  refine closed.notify _ _ (h.of_tables (Part.tables_congr (fun c => ?_) (fun b => ?_) rfl))
  · show ((tab4 (fun c => (p.chan c).halt p.samples))[c]).grant = _
    rw [tab4_get, Channel.halt_grant]
  · show ((tab8 (fun b => (p.bay b).halt))[b]).busHolder = _ ∧ ((tab8 (fun b => (p.bay b).halt))[b]).busQueue = _
    rw [tab8_get]
    exact ⟨rfl, rfl⟩

theorem sampleInstant {p : Part} (h : p.GrantsAgree) (x : Samples) : (p.sampleInstant x).GrantsAgree := by
  refine h.of_tables (Part.tables_congr (fun c => ?_) (fun b => ?_) rfl)
  · show ((tab4 (fun c => (p.chan c).sample c x (p.samples + 1)))[c]).grant = _
    rw [tab4_get, Channel.sample_grant]
  · unfold Part.bay Part.sampleInstant
    rw [tab8_get]
    exact ⟨rfl, rfl⟩

theorem acceptHead {p : Part} (h : p.GrantsAgree) (l : List Byte) : (p.acceptHead l).GrantsAgree := by
  refine h.of_tables (Part.tables_congr (fun c => rfl) (fun b => ?_) rfl)
  unfold Part.bay Part.acceptHead Part.startSweep
  rw [tab8_get]
  exact ⟨rfl, rfl⟩

theorem ticked {p : Part} (h : p.GrantsAgree) : p.ticked.GrantsAgree := by
  unfold Part.ticked
  split
  · exact h.congr rfl rfl rfl
  · exact h.congr rfl rfl rfl

theorem keeps : Keeps Part.GrantsAgree where
  toLocal := isLocal
  reset _ := of_reset rfl rfl rfl
  restart _ _ := of_reset rfl rfl rfl
  halt _ a h := h.enterHalted a
  accept _ l h := h.acceptHead l
  sampled _ x h := h.sampleInstant x
  clock _ _ _ h := h.congr rfl rfl rfl
  tick _ h := h.ticked
  base _ _ h := h.congr rfl rfl rfl

end Part.GrantsAgree

/-- Settles O58: both are invariants of every step, since every operation on a buffer, a link or the arbiter's tables keeps them. -/
theorem queuesStayInSize : Obligations.QueuesStayInSize := by
  unfold Obligations.QueuesStayInSize
  exact ⟨Part.QueuesInSize.keeps.step, Part.GrantsAgree.keeps.step⟩

end Sys2Proof.Machine
end

section
/-! The Plan Directory within its limits (R35, R36): an insertion that is not refused, a removal and an accepted head keep the chains
and the entries in agreement. -/

namespace Sys2Proof.Machine

namespace Directory

/-- A PLAN_ENTER's entry is taken exactly when it repeats none, an index is free, and its chain has room (R43). -/
theorem refusal_eq_none_iff {d : Directory} {e : DirEntry} :
    d.refusal e = none ↔ d.duplicate e.kind e.identity = none ∧ d.lowestFree.isSome = true ∧ (d.chain e.bucket).length < 16 := by
  unfold Directory.refusal
  cases hdup : d.duplicate e.kind e.identity with
  | some x => simp
  | none =>
    cases hfree : d.lowestFree with
    | none => simp
    | some x => simp

/-- No duplicate: every entry in use differs in kind or identity (R36). -/
theorem duplicate_eq_none_iff {d : Directory} {k : MatchKind} {i : Identity} :
    d.duplicate k i = none ↔ ∀ x e, d.entry x = some e → ¬ (e.kind = k ∧ e.identity = i) := by
  unfold Directory.duplicate entryIndices
  rw [List.find?_eq_none]
  constructor
  · intro h x e he
    simpa [he] using h x (List.mem_finRange x)
  · intro h x _
    cases he : d.entry x with
    | none => simp
    | some e => simpa using h x e he

theorem entry_of_lowestFree {d : Directory} {x : Fin 128} (h : d.lowestFree = some x) : d.entry x = none := by
  simpa using List.find?_some h

theorem entry_insertAt_self (d : Directory) (x : Fin 128) (e : DirEntry) : (d.insertAt x e).entry x = some e := by
  simp [Directory.entry, Directory.insertAt]

theorem entry_insertAt_other (d : Directory) {x y : Fin 128} (e : DirEntry) (h : y ≠ x) :
    (d.insertAt x e).entry y = d.entry y := by
  have h' : x.val ≠ y.val := fun he => h (Fin.ext he.symm)
  simp [Directory.entry, Directory.insertAt, Vector.getElem_set_ne, h']

theorem chain_insertAt_self (d : Directory) (x : Fin 128) (e : DirEntry) :
    (d.insertAt x e).chain e.bucket = d.chain e.bucket ++ [x] := by
  simp [Directory.chain, Directory.insertAt]

theorem chain_insertAt_other (d : Directory) (x : Fin 128) {e : DirEntry} {b : Fin 32} (h : b ≠ e.bucket) :
    (d.insertAt x e).chain b = d.chain b := by
  have h' : e.bucket.val ≠ b.val := fun he => h (Fin.ext he.symm)
  simp [Directory.chain, Directory.insertAt, Vector.getElem_set_ne, h']

theorem entry_removeAt_self (d : Directory) (x : Fin 128) (e : DirEntry) : (d.removeAt x e).entry x = none := by
  simp [Directory.entry, Directory.removeAt]

theorem entry_removeAt_other (d : Directory) {x y : Fin 128} (e : DirEntry) (h : y ≠ x) :
    (d.removeAt x e).entry y = d.entry y := by
  have h' : x.val ≠ y.val := fun he => h (Fin.ext he.symm)
  simp [Directory.entry, Directory.removeAt, Vector.getElem_set_ne, h']

theorem chain_removeAt_self (d : Directory) (x : Fin 128) (e : DirEntry) :
    (d.removeAt x e).chain e.bucket = (d.chain e.bucket).erase x := by
  simp [Directory.chain, Directory.removeAt]

theorem chain_removeAt_other (d : Directory) (x : Fin 128) {e : DirEntry} {b : Fin 32} (h : b ≠ e.bucket) :
    (d.removeAt x e).chain b = d.chain b := by
  have h' : e.bucket.val ≠ b.val := fun he => h (Fin.ext he.symm)
  simp [Directory.chain, Directory.removeAt, Vector.getElem_set_ne, h']

theorem entry_reset (x : Fin 128) : Directory.reset.entry x = none := by
  simp [Directory.entry, Directory.reset]

theorem chain_reset (b : Fin 32) : Directory.reset.chain b = [] := by
  simp [Directory.chain, Directory.reset]

namespace InLimits

/-- The limits are those of the entries and the chains; the key and the mask do not count. -/
theorem congr {d d' : Directory} (h : d.InLimits) (he : d'.entries = d.entries) (hc : d'.chains = d.chains) : d'.InLimits := by
  unfold Directory.InLimits Directory.entry Directory.chain
  rw [he, hc]
  exact h

theorem reset : Directory.reset.InLimits := by
  refine ⟨fun b => ?_, fun x e he => ?_, fun b x hx => ?_, fun x y e f he => ?_⟩
  · rw [chain_reset]
    exact ⟨Nat.zero_le _, List.nodup_nil⟩
  · rw [entry_reset] at he
    cases he
  · rw [chain_reset] at hx
    cases hx
  · rw [entry_reset] at he
    cases he

/-- An index that is free stands in no chain. -/
theorem not_mem_chain {d : Directory} (h : d.InLimits) {x : Fin 128} (hx : d.entry x = none) (b : Fin 32) : x ∉ d.chain b := by
  intro hmem
  obtain ⟨e, he, -⟩ := h.2.2.1 b x hmem
  rw [hx] at he
  cases he

theorem insertAt {d : Directory} (h : d.InLimits) {e : DirEntry} {x : Fin 128} (hr : d.refusal e = none)
    (hx : d.lowestFree = some x) : (d.insertAt x e).InLimits := by
  obtain ⟨hdup, -, hroom⟩ := refusal_eq_none_iff.mp hr
  rw [duplicate_eq_none_iff] at hdup
  have hfree := entry_of_lowestFree hx
  obtain ⟨hsize, hin, hof, huniq⟩ := h
  refine ⟨fun b => ?_, fun y f hf => ?_, fun b y hy => ?_, fun y z f g hf hg hkind hid => ?_⟩
  · by_cases hb : b = e.bucket
    · subst hb
      rw [chain_insertAt_self, List.length_append]
      have hnew := not_mem_chain ⟨hsize, hin, hof, huniq⟩ hfree e.bucket
      exact ⟨hroom, (hsize e.bucket).2.append (List.nodup_singleton x) (List.disjoint_singleton.mpr hnew)⟩
    · rw [chain_insertAt_other d x hb]
      exact hsize b
  · by_cases hy : y = x
    · subst hy
      rw [entry_insertAt_self, Option.some.injEq] at hf
      subst hf
      rw [chain_insertAt_self]
      exact List.mem_append_right _ (List.mem_singleton_self y)
    · rw [entry_insertAt_other d e hy] at hf
      have hmem := hin y f hf
      by_cases hb : f.bucket = e.bucket
      · rw [hb, chain_insertAt_self, ← hb]
        exact List.mem_append_left _ hmem
      · rwa [chain_insertAt_other d x hb]
  · by_cases hyx : y = x
    · subst hyx
      refine ⟨e, entry_insertAt_self d y e, ?_⟩
      by_contra hb
      rw [chain_insertAt_other d y (Ne.symm hb)] at hy
      exact not_mem_chain ⟨hsize, hin, hof, huniq⟩ hfree b hy
    · rw [entry_insertAt_other d e hyx]
      by_cases hb : b = e.bucket
      · subst hb
        rw [chain_insertAt_self, List.mem_append, List.mem_singleton] at hy
        exact hof e.bucket y (hy.resolve_right hyx)
      · rw [chain_insertAt_other d x hb] at hy
        exact hof b y hy
  · by_cases hy : y = x <;> by_cases hz : z = x
    · rw [hy, hz]
    · subst hy
      rw [entry_insertAt_self, Option.some.injEq] at hf
      rw [entry_insertAt_other d e hz] at hg
      subst hf
      exact absurd ⟨hkind.symm, hid.symm⟩ (hdup z g hg)
    · subst hz
      rw [entry_insertAt_self, Option.some.injEq] at hg
      rw [entry_insertAt_other d e hy] at hf
      subst hg
      exact absurd ⟨hkind, hid⟩ (hdup y f hf)
    · rw [entry_insertAt_other d e hy] at hf
      rw [entry_insertAt_other d e hz] at hg
      exact huniq y z f g hf hg hkind hid

theorem removeAt {d : Directory} (h : d.InLimits) {e : DirEntry} {x : Fin 128} (hx : d.entry x = some e) :
    (d.removeAt x e).InLimits := by
  obtain ⟨hsize, hin, hof, huniq⟩ := h
  have hkeep : ∀ y f, (d.removeAt x e).entry y = some f → y ≠ x ∧ d.entry y = some f := fun y f hf => by
    have hy : y ≠ x := fun hy => by
      subst hy
      rw [entry_removeAt_self] at hf
      cases hf
    rw [entry_removeAt_other d e hy] at hf
    exact ⟨hy, hf⟩
  refine ⟨fun b => ?_, fun y f hf => ?_, fun b y hy => ?_, fun y z f g hf hg hkind hid => ?_⟩
  · by_cases hb : b = e.bucket
    · subst hb
      rw [chain_removeAt_self]
      exact ⟨(List.length_erase_le).trans (hsize e.bucket).1, (hsize e.bucket).2.erase x⟩
    · rw [chain_removeAt_other d x hb]
      exact hsize b
  · obtain ⟨hyx, hf⟩ := hkeep y f hf
    have hmem := hin y f hf
    by_cases hb : f.bucket = e.bucket
    · rw [hb, chain_removeAt_self, ← hb]
      exact (List.mem_erase_of_ne hyx).mpr hmem
    · rwa [chain_removeAt_other d x hb]
  · by_cases hb : b = e.bucket
    · subst hb
      rw [chain_removeAt_self, (hsize e.bucket).2.mem_erase_iff] at hy
      rw [entry_removeAt_other d e hy.1]
      exact hof e.bucket y hy.2
    · rw [chain_removeAt_other d x hb] at hy
      obtain ⟨f, hf, hfb⟩ := hof b y hy
      have hyx : y ≠ x := fun hyx => by
        subst hyx
        rw [hx, Option.some.injEq] at hf
        subst hf
        exact hb hfb.symm
      rw [entry_removeAt_other d e hyx]
      exact ⟨f, hf, hfb⟩
  · exact huniq y z f g (hkeep y f hf).2 (hkeep z g hg).2 hkind hid

theorem take {d : Directory} (h : d.InLimits) (key : BitVec 256) (mask : FamilyMask) : (d.take key mask).InLimits := by
  unfold Directory.take
  split
  · exact h
  · exact reset.congr rfl rfl

end InLimits

/-- A removal makes room and leaves no new duplicate: an entry that could be taken still can. -/
theorem refusal_removeAt {d : Directory} {x : Fin 128} {e r : DirEntry} (h : d.refusal r = none) :
    (d.removeAt x e).refusal r = none := by
  rw [refusal_eq_none_iff, duplicate_eq_none_iff] at h ⊢
  obtain ⟨hdup, -, hroom⟩ := h
  refine ⟨fun y f hf => ?_, ?_, ?_⟩
  · by_cases hy : y = x
    · subst hy
      rw [entry_removeAt_self] at hf
      cases hf
    · rw [entry_removeAt_other d e hy] at hf
      exact hdup y f hf
  · unfold Directory.lowestFree entryIndices
    rw [List.find?_isSome]
    exact ⟨x, List.mem_finRange x, by rw [entry_removeAt_self]; rfl⟩
  · by_cases hb : r.bucket = e.bucket
    · rw [hb, chain_removeAt_self, ← hb]
      exact (List.length_erase_le).trans_lt hroom
    · rwa [chain_removeAt_other d x hb]

end Directory

end Sys2Proof.Machine
end

section
/-! The directory through every step (R35, R36, R43): an order's tests are made before its plans are read, and what happens until its
insertion makes no duplicate and takes no room. -/

namespace Sys2Proof.Machine

/-- The emptied directory takes every entry. -/
theorem Directory.refusal_empty {d : Directory} (he : d.entries = Directory.reset.entries) (hc : d.chains = Directory.reset.chains)
    (r : DirEntry) : d.refusal r = none := by
  have hentry : ∀ x, d.entry x = none := fun x => by
    unfold Directory.entry
    rw [he]
    exact Directory.entry_reset x
  rw [Directory.refusal_eq_none_iff, Directory.duplicate_eq_none_iff]
  refine ⟨fun x e hx => ?_, ?_, ?_⟩
  · rw [hentry] at hx
    cases hx
  · unfold Directory.lowestFree entryIndices
    rw [List.find?_isSome]
    exact ⟨0, List.mem_finRange 0, by rw [hentry]; rfl⟩
  · unfold Directory.chain
    rw [hc]
    have := Directory.chain_reset r.bucket
    unfold Directory.chain at this
    rw [this]
    decide

/-- An accepted head leaves the directory or empties it (R48), so an entry that could be taken still can. -/
theorem Directory.refusal_take {d : Directory} {r : DirEntry} (h : d.refusal r = none) (key : BitVec 256) (mask : FamilyMask) :
    (d.take key mask).refusal r = none := by
  unfold Directory.take
  split
  · exact h
  · exact Directory.refusal_empty rfl rfl r

namespace Part.DirectoryInOrder

theorem congr {p q : Part} (h : p.DirectoryInOrder) (hd : p.dir = q.dir) (he : p.planEnter = q.planEnter) :
    q.DirectoryInOrder := by
  unfold Part.DirectoryInOrder
  rw [← hd, ← he]
  exact h

theorem of_still {p q : Part} (h : p.DirectoryInOrder) (hpq : p.still = q.still) : q.DirectoryInOrder :=
  h.congr (congrArg Still.dir hpq) (congrArg Still.planEnter hpq)

/-- With no plans being read, the limits are all. -/
theorem of_none {p : Part} (h : p.dir.InLimits) (he : p.planEnter = none) : p.DirectoryInOrder :=
  ⟨h, fun r hr => by rw [he] at hr; cases hr⟩

/-- An entry just tested, or the one whose plans are being read, is one that the directory can take. -/
theorem refusal {p : Part} (h : p.DirectoryInOrder) {e : DirEntry}
    (he : p.dir.refusal e = none ∨ ∃ r, p.planEnter = some r ∧ r.entry = e) : p.dir.refusal e = none := by
  obtain he | ⟨r, hr, rfl⟩ := he
  · exact he
  · exact h.2 r hr

/-- No consequence of a command touches the directory. -/
theorem closed : Closed Part.DirectoryInOrder where
  rest _ _ _ _ _ hstill h := h.of_still hstill
  bay _ _ _ _ h := h.congr rfl rfl
  buffer _ _ _ _ _ h := h.congr rfl rfl
  link _ _ _ _ h := h.congr rfl rfl
  owned _ _ _ _ _ h := h.congr rfl rfl
  arbiter _ _ hpq _ h := h.of_still hpq.2.2

theorem isLocal : Local Part.DirectoryInOrder where
  toClosed := closed
  any _ _ _ _ _ _ _ _ hd h := h.congr (congrArg Prod.fst hd) (congrArg Prod.snd hd)
  reads p r hr h := ⟨h.1, fun r' hr' => by
    cases hr'
    exact h.refusal hr⟩
  enters p x e hx he h := of_none (h.1.insertAt (h.refusal he) hx) rfl
  ends _ h := of_none h.1 rfl
  removes p x e hx h := ⟨h.1.removeAt hx, fun r hr => Directory.refusal_removeAt (h.2 r hr)⟩

theorem ticked {p : Part} (h : p.DirectoryInOrder) : p.ticked.DirectoryInOrder := by
  unfold Part.ticked
  split
  · exact h.congr rfl rfl
  · exact h.congr rfl rfl

theorem keeps : Keeps Part.DirectoryInOrder where
  toLocal := isLocal
  reset _ := of_none Directory.InLimits.reset rfl
  restart _ _ := of_none Directory.InLimits.reset rfl
  halt _ _ h := closed.notify _ _ (of_none h.1 rfl)
  accept _ _ h := ⟨h.1.take _ _, fun r hr => Directory.refusal_take (h.2 r hr) _ _⟩
  sampled _ _ h := h.congr rfl rfl
  clock _ _ _ h := h.congr rfl rfl
  tick _ h := h.ticked
  base _ _ h := h.congr rfl rfl

end Part.DirectoryInOrder

/-- Settles O19: the limits with the entry still to come are an invariant; only the orders' insertions and removals and an accepted
head change the directory. -/
theorem directoryLimitsAreKept : Obligations.DirectoryLimitsAreKept := by
  unfold Obligations.DirectoryLimitsAreKept
  exact ⟨Directory.InLimits.reset,
    fun d h => ⟨fun e x hr hx => h.insertAt hr hx, fun e x hx => h.removeAt hx, fun key mask => h.take key mask⟩,
    Part.DirectoryInOrder.keeps.step⟩

/-- Settles O60: the reset state is the first case of each invariant. -/
theorem resetMeetsTheInvariants : Obligations.ResetMeetsTheInvariants := by
  unfold Obligations.ResetMeetsTheInvariants
  exact ⟨rfl, Part.QuietChannels.of_reset rfl, Part.QueuesInSize.of_reset rfl, Part.RegistersInRange.of_reset rfl rfl rfl,
    Part.DirectoryInOrder.of_none Directory.InLimits.reset rfl, Part.GrantsAgree.of_reset rfl rfl rfl⟩

/-- Settles O1: the two cases of the queue. -/
theorem stepRunsTheFrontCommand : Obligations.StepRunsTheFrontCommand := by
  unfold Obligations.StepRunsTheFrontCommand
  refine ⟨fun c rest s hs => ?_, fun s hs => ?_⟩
  · unfold step
    rw [hs]
    rfl
  · unfold step
    rw [hs]

end Sys2Proof.Machine
end

section
/-! What a command does to host memory (R177, R182, R188): nothing, the completion of one write in progress, or the cut of all of them. -/

namespace Sys2Proof.Machine

/-! ### The writes in progress -/

theorem Part.mem_plainWrites {p : Part} {w : BookWrite} (h : w ∈ p.plainWrites) : w ∈ p.writesInProgress := by
  unfold Part.writesInProgress
  exact List.mem_append_left _ (List.mem_append_left _ (List.mem_append_left _ h))

theorem Part.takenBytes_mem {p : Part} {o : OrderSlot} (h : p.takenWrite = some o) : p.takenBytes o ∈ p.writesInProgress := by
  apply Part.mem_plainWrites
  unfold Part.plainWrites
  simp [h]

theorem Part.mem_answerWrites {p : Part} {f : AnswerStage → Bool} {o : OrderSlot} {a : Answering} (h : p.answers[o] = some a)
    (hf : f a.stage = true) : p.answerBytes o a ∈ p.answerWrites f := by
  unfold Part.answerWrites
  rw [List.mem_flatMap]
  refine ⟨o, List.mem_finRange o, List.mem_map.mpr ⟨a, List.mem_filter.mpr ⟨?_, hf⟩, rfl⟩⟩
  rw [h]
  exact List.mem_singleton_self a

/-- An ANSWERED mark stands apart from the other stages of an answer. -/
theorem Part.answerBytes_mem {p : Part} {o : OrderSlot} {a : Answering} (h : p.answers[o] = some a) :
    p.answerBytes o a ∈ p.writesInProgress := by
  by_cases hm : a.stage = .mark
  · unfold Part.writesInProgress
    exact List.mem_append_right _ (Part.mem_answerWrites h (by simp [hm]))
  · apply Part.mem_plainWrites
    have hmem := Part.mem_answerWrites (f := (· != .mark)) h (by simp [hm])
    unfold Part.plainWrites
    simp only [List.mem_append]
    exact .inl (.inl (.inl (.inr hmem)))

theorem Part.claimBytes_mem {p : Part} {c : Claim} (h : p.claim = some c) : p.claimBytes c ∈ p.writesInProgress := by
  apply Part.mem_plainWrites
  unfold Part.plainWrites
  simp [h]

/-- A record count stands apart from the other stages of a record write. -/
theorem Part.drainBytes_mem (p : Part) (b : Bay) : p.drainBytes b ∈ p.writesInProgress := by
  by_cases hc : (p.bay b).drain = .count
  · unfold Part.writesInProgress
    refine List.mem_append_left _ (List.mem_append_right _ (List.mem_map.mpr ⟨b, ?_, rfl⟩))
    unfold Part.countingBays
    exact List.mem_filter.mpr ⟨mem_allBays b, by simp [hc]⟩
  · apply Part.mem_plainWrites
    unfold Part.plainWrites
    simp only [List.mem_append]
    exact .inl (.inr (List.mem_map.mpr ⟨b, List.mem_filter.mpr ⟨mem_allBays b, by simp [hc]⟩, rfl⟩))

theorem Part.fullBytes_mem {p : Part} {b : Bay} {page : Nat} {l : List Nat} (h : (p.bay b).fullWrites = page :: l) :
    p.fullBytes page ∈ p.writesInProgress := by
  apply Part.mem_plainWrites
  unfold Part.plainWrites
  simp only [List.mem_append]
  refine .inr (List.mem_flatMap.mpr ⟨b, mem_allBays b, ?_⟩)
  simp [h]

theorem Part.boardBytes_mem {p : Part} {k : PassKind} {b : Bay} {content : List (Nat × Nat)} {rest : List Bay}
    (h : p.sweep = .boards k b content rest) : p.boardBytes b content ∈ p.writesInProgress := by
  unfold Part.writesInProgress
  refine List.mem_append_left _ (List.mem_append_left _ (List.mem_append_right _ ?_))
  unfold Part.boardWrite
  rw [h]
  exact List.mem_singleton_self _

/-! ### Host memory after a command -/

/-- The command `c` in state `s` answers with a next state that has the same commands waiting, and whose host memory is as it was or,
for a command at which a write ends, has one write in progress completed or all of them cut. -/
def Completes (c : Instr) (s : State) (r : Host.Outcome State Fault Refusal) : Prop :=
  ∃ t, r = .next t ∧ t.pending = s.pending ∧
    (t.book = s.book ∨ c.endsAWrite = true ∧ (t.book = s.cutBook ∨ ∃ w ∈ s.part.writesInProgress, t.book = s.book.put w))

namespace Completes

variable {c : Instr} {s : State}

theorem same : Completes c s (.next s) := ⟨s, rfl, rfl, .inl rfl⟩

theorem run (f : Part → Part) : Completes c s (s.run f) := ⟨_, State.run_next s f, rfl, .inl rfl⟩

theorem runIf (g : Bool) (f : Part → Part) : Completes c s (s.runIf g f) := by
  unfold State.runIf
  split
  · exact run f
  · exact same

theorem cut (hc : c.endsAWrite = true) (f : Part → Part) : Completes c s (s.runWith s.cutBook f) :=
  ⟨_, State.runWith_next s _ f, rfl, .inr ⟨hc, .inl rfl⟩⟩

theorem written (hc : c.endsAWrite = true) {w : BookWrite} (hw : w ∈ s.part.writesInProgress) (f : Part → Part) :
    Completes c s (s.written w f) :=
  ⟨_, State.written_next s w f, rfl, .inr ⟨hc, .inr ⟨w, hw, rfl⟩⟩⟩

theorem answerWritten (hc : c.endsAWrite = true) (o : OrderSlot) (now : AnswerStage) (f : Answering → Part → Part) :
    Completes c s (s.answerWritten o now f) := by
  unfold State.answerWritten
  split
  next a ha =>
    split
    · exact written hc (Part.answerBytes_mem ha) _
    · exact same
  next => exact same

theorem claimWritten (hc : c.endsAWrite = true) (stage : ClaimStage) (f : Claim → Part → Part) :
    Completes c s (s.claimWritten stage f) := by
  unfold State.claimWritten
  split
  next a ha =>
    split
    · exact written hc (Part.claimBytes_mem ha) _
    · exact same
  next => exact same

theorem drainWritten (hc : c.endsAWrite = true) (b : Bay) (stage : Drain) (f : Part → Part) :
    Completes c s (s.drainWritten b stage f) := by
  unfold State.drainWritten
  split
  · exact written hc (Part.drainBytes_mem _ _) _
  · exact same

theorem stationReset (hc : c.endsAWrite = true) : Completes c s s.stationReset := ⟨_, rfl, rfl, .inr ⟨hc, .inl rfl⟩⟩

end Completes

/-- Every command completes. -/
theorem exec_completes (c : Instr) (s : State) : Completes c s (exec c s) := by
  cases c
  case powerOnReset => exact ⟨_, rfl, rfl, .inr ⟨rfl, .inl rfl⟩⟩
  case stationReset => exact .stationReset rfl
  case pcieHotReset => exact .stationReset rfl
  case pcieLinkDown => exact .stationReset rfl
  case runStop =>
    show Completes _ s (execRunStop s)
    unfold execRunStop
    split
    · exact .runIf _ _
    · exact .run _
    · exact .same
  case registerWriteOther => exact .same
  case bookAccessFailure a =>
    show Completes _ s (execBookAccessFailure a s)
    unfold execBookAccessFailure
    split
    · exact .cut rfl _
    · exact .same
  case takenMarkWritten o =>
    show Completes _ s (execTakenMarkWritten o s)
    unfold execTakenMarkWritten
    split
    next h => exact .written rfl (Part.takenBytes_mem h) _
    next => exact .same
  case answerFieldsWritten => exact .answerWritten rfl _ _ _
  case answerCodeWritten => exact .answerWritten rfl _ _ _
  case hostTagCopyWritten => exact .answerWritten rfl _ _ _
  case answeredMarkWritten => exact .answerWritten rfl _ _ _
  case boardWritten b =>
    show Completes _ s (execBoardWritten b s)
    unfold execBoardWritten
    split
    next h =>
      split
      · exact .written rfl (Part.boardBytes_mem h) _
      · exact .same
    next => exact .same
  case linkTransactionComplete b r =>
    show Completes _ s (execLinkTransactionComplete b r s)
    unfold execLinkTransactionComplete
    split
    · exact .runIf _ _
    · exact .same
  case linkTimeout b =>
    show Completes _ s (execLinkTimeout b s)
    unfold execLinkTimeout
    split
    · exact .run _
    · exact .same
  case secondAdvance =>
    show Completes _ s (execSecondAdvance s)
    unfold execSecondAdvance
    split
    · exact ⟨_, rfl, rfl, .inl rfl⟩
    · exact .same
  case pageHeadWritten => exact .claimWritten rfl _ _
  case fillingMarkWritten => exact .claimWritten rfl _ _
  case chainLinkWritten => exact .claimWritten rfl _ _
  case recordFieldsWritten => exact .drainWritten rfl _ _ _
  case doneMarkWritten => exact .drainWritten rfl _ _ _
  case recordCountWritten => exact .drainWritten rfl _ _ _
  case fullMarkWritten b =>
    show Completes _ s (execFullMarkWritten b s)
    unfold execFullMarkWritten
    split
    next h => exact .written rfl (Part.fullBytes_mem h) _
    next => exact .same
  case sampleInstant => exact ⟨_, rfl, rfl, .inl rfl⟩
  case monotonicTick => exact ⟨_, rfl, rfl, .inl rfl⟩
  case slotMarksRead => exact .run _
  case orderCopyComplete => exact .run _
  case zoneReading => exact .run _
  all_goals exact .runIf _ _

theorem State.wf_cutBook {s : State} (h : s.book.wf = true) : s.cutBook.wf = true := by
  unfold State.cutBook
  dsimp only
  split
  · exact Memory.wf_cutBoard (Memory.wf_cut h)
  · exact Memory.wf_cut h

/-- The cut of the writes in progress reaches no byte outside them. -/
theorem State.read_cutBook_other {s : State} {a : Nat}
    (h : ∀ w ∈ s.part.writesInProgress, a < w.1 ∨ w.1 + w.2.length ≤ a) : s.cutBook.read a = s.book.read a := by
  have hplain : (s.book.cut s.part.free s.part.plainWrites).read a = s.book.read a :=
    Memory.read_cut_other (fun w hw => h w (Part.mem_plainWrites hw))
  unfold State.cutBook
  dsimp only
  split
  next b content hw =>
    have hboard := h (s.part.boardBytes b content) (by
      unfold Part.writesInProgress
      rw [hw]
      exact List.mem_append_left _ (List.mem_append_left _ (List.mem_append_right _ (List.mem_singleton_self _))))
    unfold Part.boardBytes at hboard
    rw [List.length_append] at hboard
    rw [Memory.read_cutBoard_other hboard, hplain]
  next => exact hplain

/-- Settles O56: what a command leaves of host memory is made by writes, and a write keeps the addresses rising. -/
theorem memoryStaysCanonical : Obligations.MemoryStaysCanonical := by
  unfold Obligations.MemoryStaysCanonical
  intro s t hs hstep
  unfold step at hstep
  split at hstep
  next => exact Host.Outcome.next.inj hstep ▸ hs
  next c rest _ =>
    obtain ⟨u, hu, -, hbook⟩ := exec_completes c (s.withPending rest)
    rw [hu] at hstep
    obtain rfl := Host.Outcome.next.inj hstep
    have hs' : (s.withPending rest).book.wf = true := hs
    obtain h | ⟨-, h | ⟨w, -, h⟩⟩ := hbook <;> rw [h]
    · exact hs'
    · exact State.wf_cutBook hs'
    · exact Memory.wf_put hs'

/-- Settles O27: by the three ways in which a command leaves host memory. -/
theorem commandsCompleteAndTouchOnlyBytesBeingWritten : Obligations.CommandsCompleteAndTouchOnlyBytesBeingWritten := by
  unfold Obligations.CommandsCompleteAndTouchOnlyBytesBeingWritten
  intro c s
  obtain ⟨t, ht, hpending, hbook⟩ := exec_completes c s
  refine ⟨t, ht, hpending, fun a ha => ?_, fun hc => ?_⟩
  · obtain h | ⟨-, h | ⟨w, hw, h⟩⟩ := hbook <;> rw [h]
    · exact State.read_cutBook_other ha
    · exact Memory.read_writeBytes_other (ha w hw)
  · obtain h | ⟨hends, -⟩ := hbook
    · exact h
    · rw [hc] at hends
      cases hends

/-- Settles O26. -/
theorem memoryWritesReadBack : Obligations.MemoryWritesReadBack := by
  unfold Obligations.MemoryWritesReadBack
  refine fun m a l => ⟨fun _ i hi => ?_, fun x hx => Memory.read_writeBytes_other hx⟩
  rw [Memory.read_writeBytes hi, List.getElem?_eq_getElem hi]

end Sys2Proof.Machine
end

section
/-! Resets and register writes (R179 to R182, R187, R190), and the notices (R181). -/

namespace Sys2Proof.Machine

/-- Settles O2. -/
theorem resetsGiveResetValues : Obligations.ResetsGiveResetValues := by
  unfold Obligations.ResetsGiveResetValues
  intro s
  refine ⟨⟨_, rfl, rfl, rfl, rfl, fun n => ?_⟩, fun c hc => ?_⟩
  · unfold Part.readReg
    split <;> rfl
  · obtain rfl | rfl | rfl := hc
    all_goals
      refine ⟨_, rfl, rfl, rfl, fun n => ?_⟩
      unfold Part.readReg
      split <;> rfl

theorem exec_runStop_idle {s : State} (h : s.part.phase = .idle) :
    exec .runStop s = s.runIf s.part.attempt (fun p => { p with attempt := false, staleReads := p.staleReads + 1 }) := by
  show execRunStop s = _
  unfold execRunStop
  rw [h]

theorem exec_runStop_running {s : State} (h : s.part.phase = .running) : exec .runStop s = s.run Part.enterStopping := by
  show execRunStop s = _
  unfold execRunStop
  rw [h]

/-- Settles O3. -/
theorem attemptsBeginAndAreCancelled : Obligations.AttemptsBeginAndAreCancelled := by
  unfold Obligations.AttemptsBeginAndAreCancelled
  refine fun s => ⟨fun hphase => ?_, fun hphase hattempt => ?_, fun hphase hattempt => ?_⟩
  · exact Does.of_runIf (f := fun p => { p with phase := .idle }) rfl (by simp [hphase]) rfl rfl
  · exact Does.of_runIf (f := fun p => { p with attempt := true, headRejected := false, headCause := none }) rfl
      (by simp [hphase, hattempt]) rfl rfl
  · exact Does.of_runIf (exec_runStop_idle hphase) hattempt rfl rfl

/-- What a NUDGE does in RUNNING (R190). -/
def Part.nudged (p : Part) : Part := if p.sweep = .idle then p.startSweep else { p with nudge := true }

/-- Settles O5. -/
theorem registerWritesAreTaken : Obligations.RegisterWritesAreTaken := by
  unfold Obligations.RegisterWritesAreTaken
  refine ⟨fun w => ⟨fun h3 => ?_, fun h3 h0 => ?_, fun h3 h0 => ?_⟩, fun s code w => ⟨fun hphase => ?_, fun hphase hattempt hstale => ?_,
    fun hphase hsweep => ?_, fun hphase hsweep => ?_⟩⟩
  · simp [registerWrite, controlWrite, h3]
  · show (if w.getLsbD 3 then _ else [_, if w.getLsbD 0 then _ else _]) = _
    rw [h3, h0]
    rfl
  · show (if w.getLsbD 3 then _ else [_, if w.getLsbD 0 then _ else _]) = _
    rw [h3, h0]
    rfl
  · exact Does.of_runIf (f := fun p => { p with sweepCode := code }) rfl (by simp [hphase]) rfl rfl
  · have hfree : s.part.baseFree = true := by simp [Part.baseFree, hphase, hattempt, hstale]
    exact ⟨Does.of_runIf (f := fun p => { p with bookLo := w &&& 0xFFFFF000 }) rfl hfree rfl rfl,
      Does.of_runIf (f := fun p => { p with bookHi := w }) rfl hfree rfl rfl⟩
  · refine Does.of_runIf (f := Part.nudged) rfl (by simp [hphase]) ?_ rfl
    exact if_pos hsweep
  · refine Does.of_runIf (f := Part.nudged) rfl (by simp [hphase]) ?_ rfl
    exact if_neg hsweep

/-- Settles O6: each guard is false. -/
theorem registerWritesAreDisregarded : Obligations.RegisterWritesAreDisregarded := by
  unfold Obligations.RegisterWritesAreDisregarded
  refine fun s w code n => ⟨fun h => ?_, fun h => ?_, fun h => ?_, fun h => ?_, fun hrunning h => ?_, rfl⟩
  · have hfree : s.part.baseFree = false := by
      obtain h | h | h := h
      · simp [Part.baseFree, h]
      · simp [Part.baseFree, h]
      · simp [Part.baseFree, Nat.ne_of_gt h]
    exact ⟨State.runIf_false s _ hfree, State.runIf_false s _ hfree⟩
  · have hstarting : (s.part.phase != .starting) = false := by simp [h]
    exact ⟨State.runIf_false s _ hstarting, State.runIf_false s _ hstarting, State.runIf_false s _ hstarting⟩
  · exact State.runIf_false s _ (by simp [h])
  · refine State.runIf_false s _ ?_
    obtain h | h := h
    · simp [h]
    · simp [h]
  · show execRunStop s = .next s
    unfold execRunStop
    split
    next hidle => exact State.runIf_false s _ (h.resolve_left (not_not_intro hidle))
    next hrun => exact absurd hrun hrunning
    next => rfl

theorem Part.calling_iff {p : Part} : p.calling = true ↔ p.pendingSet &&& p.enableSet ≠ 0 := bne_iff_ne

/-- A write of NOTICE or NOTICE_EN that leaves an enabled notice pending sends one message (R181). -/
theorem Part.callAgain_eq (p : Part) :
    p.callAgain = { p with messages := p.messages + (if p.pendingSet &&& p.enableSet = 0 then 0 else 1) } := by
  unfold Part.callAgain
  by_cases h : p.pendingSet &&& p.enableSet = 0
  · rw [if_neg (fun hc => Part.calling_iff.mp hc h), if_pos h]
    rfl
  · rw [if_pos (Part.calling_iff.mpr h), if_neg h]

/-- A raising outside STARTING (R181): the message is sent when the enabled pending notices were none and are some. -/
theorem Part.notify_of_phase {p : Part} (h : p.phase ≠ .starting) (n : Notice) :
    p.notify n = { p with
      pendingSet := p.pendingSet ||| BitVec.twoPow 7 n.bit
      messages := p.messages +
        (if p.pendingSet &&& p.enableSet = 0 ∧ (p.pendingSet ||| BitVec.twoPow 7 n.bit) &&& p.enableSet ≠ 0 then 1 else 0) } := by
  unfold Part.notify
  rw [if_neg (by simpa using h)]
  dsimp only
  split
  next hcalls =>
    simp only [Bool.and_eq_true, Bool.not_eq_true', Bool.eq_false_iff, Ne, Part.calling_iff, not_not] at hcalls
    rw [if_pos ⟨hcalls.2, hcalls.1⟩]
  next hcalls =>
    simp only [Bool.and_eq_true, Bool.not_eq_true', Bool.eq_false_iff, Ne, Part.calling_iff, not_not] at hcalls
    rw [if_neg (fun hc => hcalls ⟨hc.2, hc.1⟩)]
    rfl

/-- Settles O7. -/
theorem noticesAndMessages : Obligations.NoticesAndMessages := by
  unfold Obligations.NoticesAndMessages
  refine ⟨fun s w hphase => ⟨?_, ?_⟩, fun p n hphase => Part.notify_of_phase hphase n, fun p n hphase => ?_⟩
  · exact Does.of_runIf (f := fun p => Part.callAgain { p with pendingSet := p.pendingSet &&& ~~~(w.setWidth 7) }) rfl
      (by simp [hphase]) (Part.callAgain_eq _) rfl
  · exact Does.of_runIf (f := fun p => Part.callAgain { p with enableSet := w.setWidth 7 }) rfl
      (by simp [hphase]) (Part.callAgain_eq _) rfl
  · unfold Part.notify
    simp [hphase]

end Sys2Proof.Machine
end

section
/-! The Book head and access failures (R183, R184, R186). -/

namespace Sys2Proof.Machine

/-- Two regions that are not empty share a byte exactly when each begins before the other ends. -/
theorem regions_meet_iff {a a' b b' : Nat} (ha : a < a') (hb : b < b') :
    (∃ x, a ≤ x ∧ x < a' ∧ b ≤ x ∧ x < b') ↔ a < b' ∧ b < a' := by
  constructor
  · rintro ⟨x, h1, h2, h3, h4⟩
    exact ⟨h1.trans_lt h4, h3.trans_lt h2⟩
  · rintro ⟨h1, h2⟩
    exact ⟨max a b, le_max_left a b, max_lt ha h2, le_max_right a b, max_lt h1 hb⟩

/-- Settles O8: each test of the head excludes one range, and the last the meeting of two regions that are not empty. -/
theorem headTestsPass : Obligations.HeadTestsPass := by
  unfold Obligations.HeadTestsPass
  intro h
  dsimp only
  have hmeet : 1 ≤ halfAt h 0x06 → 4 ≤ halfAt h 0x0A → _ := fun hshelf hpool =>
    regions_meet_iff (a := halfAt h 0x04 * 4096) (a' := halfAt h 0x04 * 4096 + halfAt h 0x06 * 512)
      (b := halfAt h 0x08 * 4096) (b' := halfAt h 0x08 * 4096 + halfAt h 0x0A * 4096) (by omega) (by omega)
  constructor
  · intro hjudge
    unfold judgeHead at hjudge
    dsimp only at hjudge
    repeat' split at hjudge
    iterate 7 contradiction
    refine ⟨by omega, by omega, by omega, by omega, by omega, by omega, by omega, by omega, by omega, by omega, by omega, ?_⟩
    rw [hmeet (by omega) (by omega)]
    omega
  · rintro ⟨hformat, hslots, hslots', hcount, hcount', hpool, hpool', hshelfEnd, hpoolEnd, hshelfAt, hpoolAt, happart⟩
    rw [hmeet hcount hpool] at happart
    unfold judgeHead
    dsimp only
    rw [if_neg (by omega), if_neg (by omega), if_neg (by omega), if_neg (by omega), if_neg (by omega), if_neg (by omega),
      if_neg happart]

/-- Settles O9. -/
theorem headReadIsJudged : Obligations.HeadReadIsJudged := by
  unfold Obligations.HeadReadIsJudged
  intro s h hphase
  have hstale : ∀ q, 0 < s.part.staleReads → s.part.fresh.headRead h = q → q.todo = [] →
      Does (.headReadComplete h) s s.book q := fun q hs hq ht =>
    Does.of_runIf (f := fun p => p.headRead h) rfl (by simp [hphase, Part.accessing, hs]) hq ht
  have hjudged : ∀ q, s.part.attempt = true → s.part.fresh.headRead h = q → q.todo = [] →
      Does (.headReadComplete h) s s.book q := fun q ha hq ht =>
    Does.of_runIf (f := fun p => p.headRead h) rfl (by simp [hphase, Part.accessing, ha]) hq ht
  refine ⟨fun hs => hstale _ hs ?_ rfl, fun hs ha => ⟨fun hj => hjudged _ ha ?_ rfl, fun cause hj => hjudged _ ha ?_ ?_⟩⟩
  · unfold Part.headRead
    exact if_pos hs
  · unfold Part.headRead
    rw [if_neg (by exact Nat.not_lt.mpr hs.le), if_pos (by exact ha), hj]
    rfl
  · unfold Part.headRead
    rw [if_neg (by exact Nat.not_lt.mpr hs.le), if_pos (by exact ha), hj]
    rfl
  · obtain ⟨a, m, hn⟩ := Part.notify_eq { s.part.fresh with attempt := false, headRejected := true, headCause := some cause } .fault
    rw [hn]
    rfl

end Sys2Proof.Machine
end

section
/-! The halt (R121, R129, R162, R186): what `Part.enterHalted` makes of each block. -/

namespace Sys2Proof.Machine

theorem tab2_get {α : Type} (f : Fin 2 → α) (z : Fin 2) : (tab2 f)[z] = f z :=
  match z with
  | 0 => rfl
  | 1 => rfl

/-- The halt drops a channel, and a CLOSED one begins to open (R116, R121). -/
theorem Channel.halt_relay_ne_closed (now : Nat) (c : Channel) : (c.halt now).relay ≠ .closed := by
  unfold Channel.halt
  split
  next hrelay => simp [Channel.beginOpen]
  next hrelay =>
    unfold Channel.drop
    split <;> simp_all

theorem Channel.Quiet.setpoint {c : Channel} (h : c.Quiet) (hc : c.relay ≠ .closed) : c.setpoint = 0 := h.resolve_left hc

theorem Link.halt_of_idle {l : Link} (h : l.state = .idle) : l.halt = l.haltedIdle := if_pos h

theorem Part.bay_enterHalted (p : Part) (a : FailedAccess) (b : Bay) : (p.enterHalted a).bay b = (p.bay b).halt := by
  unfold Part.enterHalted
  obtain ⟨_, _, h⟩ := Part.notify_eq _ _
  rw [h]
  exact tab8_get _ b

theorem Part.chan_enterHalted (p : Part) (a : FailedAccess) (c : Chan) :
    (p.enterHalted a).chan c = (p.chan c).halt p.samples := by
  unfold Part.enterHalted
  obtain ⟨_, _, h⟩ := Part.notify_eq _ _
  rw [h]
  exact tab4_get _ c

theorem Part.zone_enterHalted (p : Part) (a : FailedAccess) (z : ZoneNo) :
    (p.enterHalted a).zone z = (p.zone z).halt p.tick := by
  unfold Part.enterHalted
  obtain ⟨_, _, h⟩ := Part.notify_eq _ _
  rw [h]
  exact tab2_get _ z

/-- The fields that the halt sets or leaves, but for the bays, the channels, the zones and the messages. -/
theorem Part.enterHalted_fields (p : Part) (a : FailedAccess) :
    ∃ n m bays chans zones, p.enterHalted a = { p with
      phase := .halted, haltCause := some a, attempt := false, staleReads := 0, sweep := .idle, sweepTimer := none
      nudge := false, stopOwed := false, takenWrite := none, answers := Vector.replicate 16 none, planEnter := none
      admReads := [], scan := none, claim := none, bays := bays, chans := chans, zones := zones, free := n
      pendingSet := p.pendingSet ||| BitVec.twoPow 7 6, messages := m } := by
  unfold Part.enterHalted
  rw [Part.notify_of_phase (by exact nofun)]
  exact ⟨_, _, _, _, _, rfl⟩

/-- A part that has nothing to read or write in the Book accesses nothing. -/
theorem Part.accessing_eq_false {p : Part} (h1 : p.attempt = false) (h2 : p.staleReads = 0) (h3 : p.sweep = .idle)
    (h4 : p.takenWrite = none) (h5 : p.answers = Vector.replicate 16 none) (h6 : p.planEnter = none) (h7 : p.admReads = [])
    (h8 : p.scan = none) (h9 : p.claim = none) (h10 : ∀ b, (p.bay b).drain = .idle ∧ (p.bay b).fullWrites = [])
    (k : FailedAccess) : p.accessing k = false := by
  cases k <;> simp [Part.accessing, h1, h2, h3, h4, h5, h6, h7, h8, h9, h10]

@[simp] theorem Part.finish_chan (old p : Part) (c : Chan) : (Part.finish old p).chan c = p.chan c := by
  unfold Part.chan
  rw [Part.finish_chans]

@[simp] theorem Part.finish_zone (old p : Part) (z : ZoneNo) : (Part.finish old p).zone z = p.zone z := by
  unfold Part.zone
  rw [Part.finish_zones]

/-- The part that the failure of an access leaves: nothing is owed by a halt. -/
def State.haltedBy (s : State) (a : FailedAccess) : Part := Part.finish s.part (s.part.fresh.enterHalted a)

theorem exec_bookAccessFailure {s : State} {a : FailedAccess} (h : s.part.mayFail a = true) :
    exec (.bookAccessFailure a) s = .next { s with part := s.haltedBy a, book := s.cutBook } := by
  show execBookAccessFailure a s = _
  have hquiet : (s.part.fresh.enterHalted a).todo = [] := by
    obtain ⟨_, _, _, _, _, hq⟩ := Part.enterHalted_fields s.part.fresh a
    exact (congrArg Part.todo hq).trans rfl
  unfold execBookAccessFailure
  rw [if_pos h, State.runWith_next, Part.after_quiet _ _ hquiet]
  rfl

namespace State

variable (s : State) (a : FailedAccess)

/-- The end of a command changes nothing of a part that is HALTED, but for the marks of the boards. -/
theorem haltedBy_moves : (s.haltedBy a).phase = .halted ∧ (s.haltedBy a).sweep = .idle ∧ (s.haltedBy a).sweepTimer = none := by
  obtain ⟨_, _, _, _, _, hq⟩ := Part.enterHalted_fields s.part.fresh a
  have hphase := congrArg Part.phase hq
  have hsweep := congrArg Part.sweep hq
  obtain ⟨hp, hs, ht, -⟩ := Part.finish_still s.part (s.part.fresh.enterHalted a) (by rw [hphase]; exact nofun)
    (by rw [hsweep]; exact fun _ => nofun)
  exact ⟨hp.trans hphase, hs.trans hsweep, ht.trans (congrArg Part.sweepTimer hq)⟩

theorem haltedBy_bay (b : Bay) : ∃ x, (s.haltedBy a).bay b = { (s.part.bay b).halt with boardChanged := x } := by
  obtain ⟨x, hx⟩ := Part.finish_bay s.part (s.part.fresh.enterHalted a) b
  rw [Part.bay_enterHalted] at hx
  exact ⟨x, hx⟩

theorem haltedBy_link (b : Bay) : (s.haltedBy a).link b = (s.part.link b).halt := by
  obtain ⟨x, hx⟩ := s.haltedBy_bay a b
  unfold Part.link
  rw [hx]
  rfl

theorem haltedBy_chan (c : Chan) : (s.haltedBy a).chan c = (s.part.chan c).halt s.part.samples :=
  (Part.finish_chan _ _ c).trans (Part.chan_enterHalted _ a c)

theorem haltedBy_zone (z : ZoneNo) : (s.haltedBy a).zone z = (s.part.zone z).halt s.part.tick :=
  (Part.finish_zone _ _ z).trans (Part.zone_enterHalted _ a z)

/-- No access to the Book is in progress after a halt (R186). -/
theorem haltedBy_accessing (k : FailedAccess) : (s.haltedBy a).accessing k = false := by
  obtain ⟨_, _, _, _, _, hq⟩ := Part.enterHalted_fields s.part.fresh a
  refine Part.accessing_eq_false ?_ ?_ (s.haltedBy_moves a).2.1 ?_ ?_ ?_ ?_ ?_ ?_ (fun b => ?_) k
  · exact (Part.finish_attempt _ _).trans (by rw [hq])
  · exact (Part.finish_staleReads _ _).trans (by rw [hq])
  · exact (Part.finish_takenWrite _ _).trans (by rw [hq])
  · exact (Part.finish_answers _ _).trans (by rw [hq])
  · exact (Part.finish_planEnter _ _).trans (by rw [hq])
  · exact (Part.finish_admReads _ _).trans (by rw [hq])
  · exact (Part.finish_scan _ _).trans (by rw [hq])
  · exact (Part.finish_claim _ _).trans (by rw [hq])
  · obtain ⟨x, hx⟩ := s.haltedBy_bay a b
    rw [hx]
    exact ⟨rfl, rfl⟩

end State

/-- Settles O10: block by block. -/
theorem accessFailureHaltsThePart : Obligations.AccessFailureHaltsThePart := by
  unfold Obligations.AccessFailureHaltsThePart
  intro s a hphase haccess
  have hmay : s.part.mayFail a = true := by
    unfold Part.mayFail
    obtain h | h | h := hphase <;> simp [h, haccess]
  obtain ⟨_, _, _, _, _, hq⟩ := Part.enterHalted_fields s.part.fresh a
  obtain ⟨hhalted, -, htimer⟩ := s.haltedBy_moves a
  refine ⟨_, exec_bookAccessFailure hmay, rfl, hhalted, ?_, ?_, ?_, fun hquiet c => ?_, fun z => ?_, fun b hidle => ?_, fun b => ?_,
    s.haltedBy_accessing a, htimer, ?_, ?_, ?_, ?_, ?_⟩
  · exact (Part.finish_haltCause _ _).trans (by rw [hq])
  · have hattempt : (s.haltedBy a).attempt = false := (Part.finish_attempt _ _).trans (by rw [hq])
    show ((s.haltedBy a).attempt || (s.haltedBy a).phase == .running) = false
    rw [hattempt, hhalted]
    rfl
  · exact (Part.finish_pendingSet _ _).trans (by rw [hq]; rfl)
  · have hopen := Channel.halt_relay_ne_closed s.part.samples (s.part.chan c)
    dsimp only
    rw [s.haltedBy_chan]
    exact ⟨((hquiet c).halt _).setpoint hopen, hopen⟩
  · dsimp only
    rw [s.haltedBy_zone]
    unfold Zone.halt
    simp
  · dsimp only
    rw [s.haltedBy_link, Link.halt_of_idle hidle]
    exact ⟨rfl, rfl⟩
  · obtain ⟨x, hx⟩ := s.haltedBy_bay a b
    dsimp only
    rw [hx]
    exact ⟨rfl, rfl⟩
  · exact (Part.finish_dir _ _).trans (by rw [hq]; rfl)
  · exact (Part.finish_settings _ _).trans (by rw [hq]; rfl)
  · exact (Part.finish_seconds _ _).trans (by rw [hq]; rfl)
  · exact (Part.finish_fraction _ _).trans (by rw [hq]; rfl)
  · exact (Part.finish_tick _ _).trans (by rw [hq]; rfl)

end Sys2Proof.Machine
end

section
/-! Sweeps and orders (R185, R189 to R194), the clock and the plan orders. -/

namespace Sys2Proof.Machine

/-- What the expiry of the sweep timer does by the part state (R185, R189). -/
def Part.sweepTimerExpired (p : Part) : Part :=
  match p.phase with
  | .running => p.startSweep
  | .stopping => p.rescan .stopping
  | _ => p

theorem exec_sweepTimerExpiry (s : State) :
    exec .sweepTimerExpiry s = s.runIf (s.part.sweepTimer.any (SpanTimer.due s.part.tick)) Part.sweepTimerExpired := rfl

theorem SpanTimer.due_iff {now : Nat} {t : SpanTimer} : t.due now = true ↔ t.start + t.length ≤ now := decide_eq_true_iff

theorem SpanTimer.any_due {x : Option SpanTimer} {t : SpanTimer} {now : Nat} (hx : x = some t) :
    x.any (SpanTimer.due now) = true ↔ t.start + t.length ≤ now := by
  rw [hx]
  exact SpanTimer.due_iff

/-- A stopping pass that finds no bay waiting and no record unwritten goes on to its rewrites (R185): the first changed board, or, with
none changed and a bay not EMPTY, the timer again. -/
theorem Part.EndsAs.stoppingPass {s : State} {q : Part} (hphase : s.part.phase = .stopping)
    (h : Part.EndsAs s.part (s.atPass .stopping) q) :
    (∀ b rest, allBays.filter (fun b => (s.part.bay b).boardChanged) = b :: rest →
      q = (s.atPass .stopping).stands rest .stopping (.boards .stopping b (s.part.boardFields b) rest) none s.part.nudge) ∧
    ((∀ b, (s.part.bay b).boardChanged = false) → (∃ b, (s.part.bay b).state ≠ .empty) →
      q = (s.atPass .stopping).stands [] .stopping .idle (some ⟨s.part.tick, sweepTicks s.part.sweepCode⟩) s.part.nudge) := by
  have hchanged := State.atPass_changed s .stopping
  have hphase' : (s.atPass .stopping).phase = .stopping := hphase
  obtain ⟨hrewrites, hover⟩ := h.1 .stopping rfl
  constructor
  · intro b rest hl
    rw [hrewrites b rest (hchanged.trans hl), hphase']
    rfl
  · intro hnone hbay
    have hempty : s.part.changedSince (s.atPass .stopping) = [] := by
      rw [hchanged, List.filter_eq_nil_iff]
      intro b _
      simp [hnone b]
    have hnotNudged : ¬ ((s.atPass .stopping).nudge = true ∧ (s.atPass .stopping).phase = .running) := by
      rw [hphase']
      exact fun hn => nomatch hn.2
    have hnotEmpty : ¬ ((s.atPass .stopping).phase = .stopping ∧ (s.atPass .stopping).stopOwed = false ∧
        ∀ b, ((s.atPass .stopping).bay b).state = .empty) := by
      obtain ⟨b, hb⟩ := hbay
      exact fun he => hb (he.2.2 b)
    rw [((hover hempty).2 nofun).2.2 hnotNudged hnotEmpty, hphase']
    rfl

/-- Settles O11. -/
theorem sweepTimerStartsSweepOrPass : Obligations.SweepTimerStartsSweepOrPass := by
  unfold Obligations.SweepTimerStartsSweepOrPass
  intro s t htimer
  have hdue : t.start + t.length ≤ s.part.tick → s.part.sweepTimer.any (SpanTimer.due s.part.tick) = true :=
    (SpanTimer.any_due htimer).mpr
  have hstopping : s.part.phase = .stopping → s.part.fresh.sweepTimerExpired = s.part.fresh.rescan .stopping := fun hphase => by
    unfold Part.sweepTimerExpired
    rw [show s.part.fresh.phase = .stopping from hphase]
  refine ⟨fun hearly => ?_, fun hd hphase => ?_, fun hd hphase => ?_, fun hd hphase hw => ?_⟩
  · rw [exec_sweepTimerExpiry]
    refine State.runIf_false s _ (Bool.eq_false_iff.mpr fun h => ?_)
    have := (SpanTimer.any_due htimer).mp h
    omega
  · refine Does.of_runIf (exec_sweepTimerExpiry s) (hdue hd) ?_ rfl
    unfold Part.sweepTimerExpired
    rw [show s.part.fresh.phase = .running from hphase]
    rfl
  · exact Owes.of_runIf (exec_sweepTimerExpiry s) (hdue hd) (hstopping hphase)
  · obtain ⟨u, hu, hends⟩ := Owes.rewrites hw (Owes.of_runIf (exec_sweepTimerExpiry s) (hdue hd) (hstopping hphase))
    obtain ⟨hfirst, hover⟩ := hends.stoppingPass hphase
    refine ⟨u, hu, fun b rest hl => ?_, fun hnone hbay => ?_⟩
    · rw [hfirst b rest hl]
      exact ⟨rfl, rfl, rfl, rfl, fun c => by rw [Part.stands_bay]⟩
    · rw [hover hnone hbay]
      exact ⟨rfl, rfl, rfl, rfl, fun c => by rw [Part.stands_bay]; rfl⟩

/-- A slot is passed over when it is a bay's pending long order or is still being answered (R191, R193). -/
theorem Part.heldSlot_eq_false_iff {p : Part} {o : OrderSlot} : p.heldSlot o = false ↔
    (∀ b : Bay, (p.bay b).pendingOrder ≠ some o) ∧ p.answers[o] = none ∧ p.takenWrite ≠ some o := by
  unfold Part.heldSlot
  simp [mem_allBays, and_assoc]

/-- Settles O12. -/
theorem marksReadPickPostedSlots : Obligations.MarksReadPickPostedSlots := by
  unfold Obligations.MarksReadPickPostedSlots
  intro s marks hphase hsweep hlength
  have hread : s.part.fresh.marksRead marks = s.part.fresh.nextTaking (s.part.pickSlots marks) := by
    unfold Part.marksRead
    rw [show s.part.fresh.sweep = .marks from hsweep]
    dsimp only
    rw [if_pos (by exact hlength), if_pos (by exact hphase)]
    rfl
  have hnot : ¬ s.part.fresh.phase = .stopping := by
    rw [show s.part.fresh.phase = .running from hphase]
    exact nofun
  refine ⟨fun o => ?_, ?_, fun o rest hpick => ⟨?_, ?_⟩, fun hpick => ?_⟩
  · unfold Part.pickSlots
    rw [List.mem_filter, Bool.and_eq_true, Bool.not_eq_true', Part.heldSlot_eq_false_iff, beq_iff_eq]
    exact ⟨fun h => h.2, fun h => ⟨List.mem_finRange o, h⟩⟩
  · unfold Part.pickSlots
    exact (List.pairwise_lt_finRange 16).filter _
  · refine Does.of_runWith (f := fun p => p.marksRead marks) rfl ?_ rfl
    dsimp only
    rw [hread, hpick]
    unfold Part.nextTaking
    rw [if_neg hnot]
  · unfold Part.readsInProgress Part.slotAddr
    simp only [List.mem_append]
    exact .inl (.inl (.inl (.inr (List.mem_singleton_self _))))
  · refine Owes.of_runWith (f := fun p => p.marksRead marks) rfl ?_
    dsimp only
    rw [hread, hpick]
    unfold Part.nextTaking
    rw [if_neg hnot]
    rfl

theorem Part.answer_isSome (p : Part) (o : OrderSlot) (code : AnswerCode) (l : List (Nat × Nat × Nat)) :
    (p.answer o code l).answers[o].isSome = true := by
  show ((p.answer o code l).answers[o.val]).isSome = true
  rw [Part.answer_answers]
  rfl

/-- An order that its owner answers at its taking and that changes nothing else. -/
theorem Does.answered {s : State} {o : OrderSlot} {rest : List OrderSlot} {bytes : List Byte} {code : AnswerCode}
    {l : List (Nat × Nat × Nat)} (hs : s.part.sweep = .copying o rest)
    (h : (s.part.taking o rest bytes).takeOrder o (0 :: bytes) = (s.part.taking o rest bytes).answer o code l) :
    Does (.orderCopyComplete bytes) s s.book
      (s.part.answeredWith o (BitVec.ofNat 16 (halfAt (0 :: bytes) 2)) rest code l) :=
  Does.copied hs h rfl (.inl (Part.answer_isSome _ o code l))

theorem Part.takeOrder_unknown (p : Part) (o : OrderSlot) (l : List Byte)
    (h : byteAt l 1 ∉ [0x01, 0x02, 0x03, 0x10, 0x11, 0x12, 0x13, 0x14, 0x20, 0x30]) :
    p.takeOrder o l = p.answer o .unknownOrder [] := by
  simp only [List.mem_cons, List.not_mem_nil, or_false, not_or] at h
  unfold Part.takeOrder
  split <;> simp_all

/-- Settles O13. -/
theorem unknownOrdersAreAnswered : Obligations.UnknownOrdersAreAnswered := by
  unfold Obligations.UnknownOrdersAreAnswered
  intro s o rest bytes hs hcode
  exact Does.answered hs (Part.takeOrder_unknown _ o _ hcode)

/-- Settles O14. -/
theorem clockSetSetsTheClock : Obligations.ClockSetSetsTheClock := by
  unfold Obligations.ClockSetSetsTheClock
  intro s o rest bytes
  dsimp only
  intro hs hcode
  have htake := Part.takeOrder_clock (s.part.taking o rest bytes) o (0 :: bytes) hcode
  refine ⟨fun hd => ?_, fun f hf => ?_⟩
  · refine Does.copied hs (htake.trans ?_) rfl (.inl (Part.answer_isSome _ o .done []))
    unfold Part.orderClock orderDate
    rw [hd]
    rfl
  · refine Does.answered hs (htake.trans ?_)
    unfold Part.orderClock orderDate
    rw [hf]

/-- Settles O16. -/
theorem planQueryAndRemove : Obligations.PlanQueryAndRemove := by
  unfold Obligations.PlanQueryAndRemove
  intro s o rest bytes
  dsimp only
  refine fun hs => ⟨fun hcode => ?_, fun hcode => ⟨fun hbig => ?_, fun x hx => ⟨fun hnone => ?_, fun e he => ?_⟩⟩⟩
  · exact Does.answered hs (Part.takeOrder_planQuery _ o _ hcode)
  all_goals have htake := Part.takeOrder_planRemove (s.part.taking o rest bytes) o (0 :: bytes) hcode
  · refine Does.answered hs (htake.trans ?_)
    unfold Part.orderPlanRemove
    rw [dif_neg (by omega)]
  all_goals
    have hlt : byteAt (0 :: bytes) 4 < 128 := hx ▸ x.isLt
    have hidx : (⟨byteAt (0 :: bytes) 4, hlt⟩ : Fin 128) = x := Fin.ext hx
  · refine Does.answered hs (htake.trans ?_)
    unfold Part.orderPlanRemove
    rw [dif_pos hlt]
    dsimp only
    rw [hidx, show (s.part.taking o rest bytes).dir.entry x = none from hnone]
  · refine Does.copied hs (htake.trans ?_) rfl (.inl (Part.answer_isSome _ o .done _))
    unfold Part.orderPlanRemove
    rw [dif_pos hlt]
    dsimp only
    rw [hidx, show (s.part.taking o rest bytes).dir.entry x = some e from he]
    rfl

end Sys2Proof.Machine
end

section
/-! PLAN_ENTER (R42 to R45, R50): its tests, the reads of its plan records, and its insertion. -/

namespace Sys2Proof.Machine

/-- The references of variants 1 to 3 that are present, in variant order. -/
def Refs.others (r : Refs) : List (Fin 4 × Nat) :=
  ([1, 2, 3] : List (Fin 4)).filterMap (fun v => (r.get v).map (fun n => (v, n)))

/-- Variant 0 is always present, and first (R34, R44). -/
theorem Refs.present_eq (r : Refs) : r.present = (0, r.v0) :: r.others := rfl

/-- Settles O17. -/
theorem planEnterIsTestedThenRead : Obligations.PlanEnterIsTestedThenRead := by
  unfold Obligations.PlanEnterIsTestedThenRead
  intro s o rest bytes
  dsimp only
  intro hs hcode
  have htake := Part.takeOrder_planEnter (s.part.taking o rest bytes) o (0 :: bytes) hcode
  refine ⟨fun f hf => ?_, fun k hf hk => ⟨fun r hr => ?_, fun hr => ?_⟩⟩
  · refine Does.answered hs (htake.trans ?_)
    unfold Part.orderPlanEnter
    rw [show badPlanField (s.part.taking o rest bytes).shelfCount (0 :: bytes) = some f from hf]
  all_goals
    have horder : (s.part.taking o rest bytes).orderPlanEnter o (0 :: bytes) =
        match s.part.dir.refusal (s.part.dir.orderEntry k (0 :: bytes)).1 with
        | some r => (s.part.taking o rest bytes).answer o r.1 r.2
        | none => (s.part.taking o rest bytes).planEnterNext o (s.part.dir.orderEntry k (0 :: bytes)).1
            (s.part.dir.orderEntry k (0 :: bytes)).2 (s.part.dir.orderEntry k (0 :: bytes)).1.refs.present := by
      unfold Part.orderPlanEnter
      rw [show badPlanField (s.part.taking o rest bytes).shelfCount (0 :: bytes) = none from hf, hk]
      rfl
  · refine Does.answered hs ((htake.trans horder).trans ?_)
    rw [hr]
  · refine ⟨_, _, Refs.present_eq _, rfl, Does.copied hs ((htake.trans horder).trans ?_) rfl (.inr rfl), fun g hg => ?_⟩
    · rw [hr]
      rfl
    · unfold Part.readsInProgress Part.planAddr
      simp only [List.mem_append]
      refine .inl (.inl (.inr (List.mem_map.mpr ⟨_, List.mem_singleton_self _, ?_⟩)))
      show (_ + (s.part.settings.map Settings.shelfOffset).getD 0 * 4096 + _, 512) = _
      rw [hg]
      rfl

/-- Settles O18. -/
theorem planEnterReadsThenInserts : Obligations.PlanEnterReadsThenInserts := by
  unfold Obligations.PlanEnterReadsThenInserts
  intro s r bytes hr
  have hread : ∀ q, s.part.fresh.planEnterRead bytes = q → q.todo = [] → Does (.planEnterReadComplete bytes) s s.book q :=
    fun q hq ht => Does.of_runIf (f := fun p => p.planEnterRead bytes) rfl (by rw [hr]; rfl) hq ht
  have hr' : s.part.fresh.planEnter = some r := hr
  refine ⟨fun bad hbad => hread _ ?_ rfl, fun plan hplan => ⟨fun v n others hrest => hread _ ?_ rfl, fun x hrest hx => hread _ ?_ rfl⟩⟩
  all_goals
    unfold Part.planEnterRead
    rw [hr']
    dsimp only
  · rw [hbad]
  · rw [hplan, hrest]
    rfl
  · rw [hplan, hrest]
    unfold Part.planEnterNext Part.insertEntry
    dsimp only
    rw [show s.part.fresh.dir.lowestFree = some x from hx]
    rfl

end Sys2Proof.Machine
end

section
/-! The refusals of the bay orders (R3, R10), and ZONE_SCHEDULE (R132). -/

namespace Sys2Proof.Machine

theorem startPolicyOf_some {n : Nat} (h : n < 2) : ∃ a, startPolicyOf n = some a :=
  Option.ne_none_iff_exists'.mp (fun hn => absurd (startPolicyOf_none.mp hn) (by omega))

theorem insertPolicyOf_some {n : Nat} (h : n < 2) : ∃ a, insertPolicyOf n = some a :=
  Option.ne_none_iff_exists'.mp (fun hn => absurd (insertPolicyOf_none.mp hn) (by omega))

/-- Settles O20: each test in its turn. -/
theorem bayOrdersAreRefused : Obligations.BayOrdersAreRefused := by
  unfold Obligations.BayOrdersAreRefused
  intro s o rest bytes
  dsimp only
  refine fun hs => ⟨fun hcode hb => Does.answered hs (Part.takeOrder_noBay _ o _ hcode hb), fun b hb => ⟨fun hcode hstart => ?_,
    fun hcode hstart hinsert => ?_, fun hcode hstart hinsert hstate => ?_, fun hcode hstate => ?_, fun hcode hstate => ?_,
    fun hcode hstate => ?_, fun hcode hstate => ?_⟩⟩
  · refine Does.answered hs ((Part.takeOrder_admit _ o _ hcode hb).trans ?_)
    unfold Part.orderAdmit
    rw [startPolicyOf_none.mpr hstart]
  · refine Does.answered hs ((Part.takeOrder_admit _ o _ hcode hb).trans ?_)
    obtain ⟨a, ha⟩ := startPolicyOf_some hstart
    unfold Part.orderAdmit
    rw [ha, insertPolicyOf_none.mpr hinsert]
  · refine Does.answered hs ((Part.takeOrder_admit _ o _ hcode hb).trans ?_)
    obtain ⟨a, ha⟩ := startPolicyOf_some hstart
    obtain ⟨i, hi⟩ := insertPolicyOf_some hinsert
    unfold Part.orderAdmit
    rw [ha, hi]
    exact if_neg hstate
  · refine Does.answered hs ((Part.takeOrder_start _ o _ hcode hb).trans ?_)
    unfold Part.orderStart
    exact if_neg (fun h => hstate (by rwa [List.mem_cons, List.mem_pair]))
  · refine Does.answered hs ((Part.takeOrder_hold _ o _ hcode hb).trans ?_)
    unfold Part.orderHold
    exact if_neg hstate
  · refine Does.answered hs ((Part.takeOrder_resume _ o _ hcode hb).trans ?_)
    unfold Part.orderResume
    exact if_neg (fun h => hstate (List.mem_pair.mpr h))
  · refine Does.answered hs ((Part.takeOrder_withdraw _ o _ hcode hb).trans ?_)
    unfold Part.orderWithdraw
    simp only [List.mem_cons, List.not_mem_nil, or_false] at hstate
    obtain h | h := hstate
    all_goals rw [show ((s.part.taking o rest bytes).bay b).state = _ from h]

/-- ZONE_SCHEDULE for a zone that exists (R132). -/
theorem Part.orderSchedule_zone (p : Part) (o : OrderSlot) (l : List Byte) {z : ZoneNo} (h : byteAt l 4 = z.val) :
    p.orderSchedule o l =
      if (p.zone z).state = .rest ∨ (p.zone z).state = .faulted then
        match badScheduleField l with
        | some f => p.answer o .refusedRange [(0x44, 1, f.1), (0x45, 1, f.2)]
        | none =>
          (p.mapZone z (Zone.takeSchedule p.tick (signed16 (halfAt l 0x06)) (halfAt l 0x08) (orderPlateaus l))).answer o .done []
      else p.answer o .refusedBusy [] := by
  have hlt : byteAt l 4 < 2 := h ▸ z.isLt
  obtain rfl : (⟨byteAt l 4, hlt⟩ : Fin 2) = z := Fin.ext h
  unfold Part.orderSchedule
  exact dif_pos hlt

/-- Settles O25. -/
theorem zoneScheduleMovesTheZone : Obligations.ZoneScheduleMovesTheZone := by
  unfold Obligations.ZoneScheduleMovesTheZone
  intro s o rest bytes
  dsimp only
  intro hs hcode
  have htake := Part.takeOrder_schedule (s.part.taking o rest bytes) o (0 :: bytes) hcode
  refine ⟨fun hbig => ?_, fun z hz => ?_⟩
  · refine Does.answered hs (htake.trans ?_)
    unfold Part.orderSchedule
    exact dif_neg (by omega)
  rw [Part.orderSchedule_zone _ o _ hz] at htake
  refine ⟨fun hstate => Does.answered hs (htake.trans (if_neg (fun h => hstate (List.mem_pair.mpr h)))), fun hstate => ?_⟩
  have htaken : (s.part.zone z).state = .rest ∨ (s.part.zone z).state = .faulted := by simpa using hstate
  rw [if_pos (by exact htaken)] at htake
  refine ⟨fun f hf => ?_, fun hf => ?_⟩
  · rw [hf] at htake
    exact Does.answered hs htake
  · rw [hf] at htake
    refine ⟨_, Does.copied hs htake rfl (.inl (Part.answer_isSome _ o .done [])), Part.answer_answers _ o .done [], ?_⟩
    clear htake
    simp only [Part.answer_zone, Part.zone_mapZone, Zone.takeSchedule, Zone.setTarget_state, Zone.setTarget_schedule,
      Zone.setTarget_index, Zone.setTarget_rest, Zone.setTarget_band, Zone.setTarget_target, Zone.setTarget_settle,
      Zone.setTarget_limit, true_and]
    refine ⟨fun q qs hq => ?_, fun y hy => ?_, Part.answer_bays _ o .done [], Part.answer_chans _ o .done []⟩
    · rw [hq]
    · exact Part.zone_mapZone_other _ _ (Ne.symm hy)

end Sys2Proof.Machine
end

section
/-! The writes of TAKEN and of answers (R188, R193). -/

namespace Sys2Proof.Machine

/-- A 16-bit number as two bytes, least significant first. -/
theorem leBytes_two (w : BitVec 16) : leBytes 2 w.toNat = [w.extractLsb' 0 8, w.extractLsb' 8 8] := by
  have hlow : BitVec.ofNat 8 w.toNat = w.extractLsb' 0 8 := by
    apply BitVec.eq_of_toNat_eq
    simp
  have hhigh : BitVec.ofNat 8 (w.toNat / 256) = w.extractLsb' 8 8 := by
    apply BitVec.eq_of_toNat_eq
    simp [Nat.shiftRight_eq_div_pow]
  show [_, _] = _
  rw [hlow, hhigh]

/-- An answer write whose stage it is completes (R188). -/
theorem State.answerWritten_eq {s : State} {o : OrderSlot} {a : Answering} (h : s.part.answers[o] = some a)
    (f : Answering → Part → Part) :
    s.answerWritten o a.stage f = s.runWith (s.book.put (s.part.answerBytes o a)) (f a) := by
  unfold State.answerWritten
  rw [h]
  exact if_pos rfl

/-- The sweep goes on from the order that it waits for (R191). -/
theorem Part.handledNext_handling {p : Part} {o : OrderSlot} {rest : List OrderSlot} (h : p.sweep = .handling o rest) :
    p.handledNext o = p.later [.nextTaking rest] := by
  unfold Part.handledNext
  rw [h]
  exact if_pos rfl

theorem Part.handledNext_other {p : Part} {o : OrderSlot} (h : ∀ rest, p.sweep ≠ .handling o rest) : p.handledNext o = p := by
  unfold Part.handledNext
  split
  next o' rest hs => exact if_neg (fun ho => h rest (by rw [hs, ho]))
  next => rfl

theorem Part.handledNext_answers (p : Part) (o : OrderSlot) : (p.handledNext o).answers = p.answers := by
  unfold Part.handledNext
  split
  · split <;> rfl
  · rfl

theorem Part.handledNext_takenWrite (p : Part) (o : OrderSlot) : (p.handledNext o).takenWrite = p.takenWrite := by
  unfold Part.handledNext
  split
  · split <;> rfl
  · rfl

theorem Part.handledNext_pendingSet (p : Part) (o : OrderSlot) : (p.handledNext o).pendingSet = p.pendingSet := by
  unfold Part.handledNext
  split
  · split <;> rfl
  · rfl

/-- With the TAKEN mark an answer that waits for it begins, and any other stays at its stage. -/
theorem Part.takenWritten_answer {p : Part} {o : OrderSlot} {a : Answering} (h : p.answers[o] = some a) :
    (p.takenWritten o).answers[o] = some { a with stage := if a.stage = .waiting then .fields else a.stage } := by
  unfold Part.takenWritten
  rw [Part.handledNext_answers]
  dsimp only
  rw [h]
  dsimp only
  split
  · exact Vector.getElem_set_self _
  · exact h

/-- Settles O28. -/
theorem takenMarkAndAnswerFields : Obligations.TakenMarkAndAnswerFields := by
  unfold Obligations.TakenMarkAndAnswerFields
  intro s o
  refine ⟨fun ho => ⟨s.part.fresh.takenWritten o, ?_, ?_, fun a ha => Part.takenWritten_answer ha, fun rest hrest => ?_⟩,
    fun a ha => ⟨fun hstage => ?_, fun hstage => ?_, fun hstage => ?_⟩⟩
  · refine Owes.of_runWith (f := fun p => p.takenWritten o) ?_ rfl
    show execTakenMarkWritten o s = _
    unfold execTakenMarkWritten
    exact if_pos ho
  · unfold Part.takenWritten
    exact Part.handledNext_takenWrite _ o
  · unfold Part.takenWritten
    rw [Part.handledNext_handling (by exact hrest)]
    rfl
  all_goals have hwritten := fun f => State.answerWritten_eq ha f
  all_goals rw [hstage] at hwritten
  · refine Does.of_runWith (f := Part.answerStage o .code a) ((hwritten _).trans ?_) rfl rfl
    unfold Part.answerBytes
    rw [hstage]
    rfl
  · refine Does.of_runWith (f := Part.answerStage o .tag a) ((hwritten _).trans ?_) rfl rfl
    unfold Part.answerBytes
    rw [hstage]
    rfl
  · refine Does.of_runWith (f := Part.answerStage o .mark a) ((hwritten _).trans ?_) rfl rfl
    unfold Part.answerBytes
    rw [hstage, ← leBytes_two]
    rfl

/-- Settles O29. -/
theorem answeredMarkEndsTheAnswer : Obligations.AnsweredMarkEndsTheAnswer := by
  unfold Obligations.AnsweredMarkEndsTheAnswer
  intro s o a ha hstage
  have hwritten := State.answerWritten_eq ha (fun _ p => p.answered o)
  rw [hstage] at hwritten
  obtain ⟨n, m, hnotify⟩ := Part.notify_eq { s.part.fresh with answers := s.part.answers.set o none } .answered
  have hq : s.part.fresh.answered o =
      Part.handledNext { s.part.fresh with answers := s.part.answers.set o none, pendingSet := n, messages := m } o :=
    congrArg (fun q => Part.handledNext q o) hnotify
  refine ⟨s.part.fresh.answered o, ?_, ?_, fun hphase => ?_, fun rest hrest => ?_, fun hrest => ?_⟩
  · refine Owes.of_runWith (f := fun p => p.answered o) (hwritten.trans ?_) rfl
    unfold Part.answerBytes
    rw [hstage]
    rfl
  · rw [hq, Part.handledNext_answers]
  · unfold Part.answered
    rw [Part.handledNext_pendingSet, Part.notify_of_phase (by exact hphase)]
    rfl
  · rw [hq, Part.handledNext_handling (by exact hrest)]
    rfl
  · rw [hq, Part.handledNext_other (by exact hrest)]
    rfl

end Sys2Proof.Machine
end

section
/-! The clock's ticks (R202), ranged points (R122 to R124), zone readings (R130) and the chamber line (R131). -/

namespace Sys2Proof.Machine

/-- Settles O52. -/
theorem ticksAdvanceTheClock : Obligations.TicksAdvanceTheClock := by
  unfold Obligations.TicksAdvanceTheClock
  intro s
  have htick : exec .monotonicTick s = .next { s with part := s.part.ticked } := rfl
  refine ⟨fun h => ⟨?_, if_neg h⟩, fun h => ⟨?_, if_pos h⟩⟩
  · rw [htick]
    unfold Part.ticked
    rw [if_neg h]
  · rw [htick]
    unfold Part.ticked
    rw [if_pos h]
    rfl

/-- Settles O54: the tests of a sample in their order. -/
theorem rangedPointsMove : Obligations.RangedPointsMove := by
  unfold Obligations.RangedPointsMove
  intro scales pt v
  dsimp only
  have hclips : (pt.sample scales v).clips =
      (pt.range == scales.length - 1 && decide (scales.getD pt.range 0 * 98 ≤ v * 100)) := by
    unfold Point.sample
    dsimp only
    repeat' split
    all_goals rfl
  refine ⟨by rw [hclips, Bool.and_eq_true, beq_iff_eq, decide_eq_true_iff], fun hdiscard => ?_, fun hdiscard => ⟨fun htop hup => ?_,
    fun hstay => ?_⟩⟩
  · unfold Point.sample
    dsimp only
    rw [if_pos hdiscard]
    exact ⟨rfl, rfl⟩
  · unfold Point.sample
    dsimp only
    rw [if_neg (by simp [hdiscard]), if_pos ⟨htop, hup⟩]
    exact ⟨rfl, rfl⟩
  · obtain ⟨range, down, discard⟩ := pt
    obtain rfl : discard = false := hdiscard
    unfold Point.sample
    dsimp only at hstay ⊢
    rw [if_neg (by simp), if_neg hstay]
    by_cases hbottom : range = 0
    · rw [if_pos hbottom]
      exact ⟨rfl, fun _ => by rw [hbottom], fun h => by omega, fun h => by omega⟩
    · rw [if_neg hbottom]
      by_cases hlow : v * 100 < scales.getD range 0 * 40
      · rw [if_pos hlow]
        by_cases hsixteen : down + 1 = 16
        · rw [if_pos hsixteen]
          exact ⟨rfl, fun h => absurd h hbottom, fun _ h => by omega, fun _ _ => by rw [if_pos hsixteen]⟩
        · rw [if_neg hsixteen]
          exact ⟨rfl, fun h => absurd h hbottom, fun _ h => by omega, fun _ _ => by rw [if_neg hsixteen]⟩
      · rw [if_neg hlow]
        exact ⟨rfl, fun h => absurd h hbottom, fun _ _ => rfl, fun _ h => absurd h hlow⟩

/-- Settles O48. -/
theorem readingsAreJudged : Obligations.ReadingsAreJudged := by
  unfold Obligations.ReadingsAreJudged
  refine ⟨fun x y => rfl, fun a b h => ?_, fun r t target band ht hband => ?_⟩
  · obtain rfl | rfl | rfl | rfl := h
    · rfl
    · rfl
    · cases a <;> rfl
    · cases a <;> rfl
  · unfold Reading.inBand
    rw [ht]
    simp only [Bool.and_eq_true, Bool.not_eq_true', decide_eq_true_iff, and_assoc]
    refine and_congr_right fun _ => and_congr_right fun _ => ?_
    omega

/-- The 16-bit two's complement of a temperature, as a number. -/
theorem unsigned16_eq (t : Int) : unsigned16 t = (BitVec.ofInt 16 t).toNat := rfl

/-- A chamber frame written out (R131). -/
theorem chamberFrame_eq (z : ZoneNo) (t : Int) : chamberFrame z t =
    [BitVec.ofNat 8 z.val, (BitVec.ofInt 16 t).extractLsb' 0 8, (BitVec.ofInt 16 t).extractLsb' 8 8,
      -(BitVec.ofNat 8 z.val + ((BitVec.ofInt 16 t).extractLsb' 0 8 + (BitVec.ofInt 16 t).extractLsb' 8 8))] := by
  unfold chamberFrame
  rw [unsigned16_eq, leBytes_two]
  simp

/-- Settles O51. -/
theorem chamberFramesAreSent : Obligations.ChamberFramesAreSent := by
  unfold Obligations.ChamberFramesAreSent
  refine ⟨fun z t => ?_, fun s z => ?_⟩
  · rw [chamberFrame_eq]
    refine ⟨rfl, rfl, rfl, rfl, ?_⟩
    generalize BitVec.ofNat 8 z.val = a
    generalize BitVec.extractLsb' 0 8 _ = lo
    generalize BitVec.extractLsb' 8 8 _ = hi
    show 0#8 + a + lo + hi + -(a + (lo + hi)) = 0#8
    rw [BitVec.zero_add, BitVec.add_assoc a]
    exact BitVec.add_right_neg _
  · dsimp only
    have hrepeat : exec (.chamberFrameRepeat z) s = s.runIf ((s.part.zone z).repeating.any (SpanTimer.due s.part.tick))
        (fun p => p.mapZone z (Zone.repeatFrame p.tick)) := rfl
    refine ⟨fun t ht hearly => ?_, fun t ht hdue => ⟨fun hframe => ?_, fun hframe => ?_⟩, fun hframe => ⟨fun hagain => ?_, fun hagain => ?_⟩⟩
    · refine State.runIf_false s _ (Bool.eq_false_iff.mpr fun h => ?_)
      have := (SpanTimer.any_due ht).mp h
      omega
    · refine Does.of_runIf hrepeat ((SpanTimer.any_due ht).mpr hdue) (Part.mapZone_congr _ z ?_) rfl
      unfold Zone.repeatFrame Zone.askFrame
      dsimp only
      rw [show (s.part.fresh.zone z).frame = none from hframe]
      rfl
    · obtain ⟨f, hf⟩ := Option.isSome_iff_exists.mp hframe
      refine Does.of_runIf hrepeat ((SpanTimer.any_due ht).mpr hdue) (Part.mapZone_congr _ z ?_) rfl
      unfold Zone.repeatFrame Zone.askFrame
      dsimp only
      rw [show (s.part.fresh.zone z).frame = some f from hf]
    all_goals obtain ⟨f, hf⟩ := Option.isSome_iff_exists.mp hframe
    · refine Does.of_runIf (f := fun p => p.mapZone z (Zone.endFrame p.tick)) rfl hframe (Part.mapZone_congr _ z ?_) rfl
      unfold Zone.endFrame
      rw [show (s.part.fresh.zone z).frame = some f from hf]
      exact if_pos hagain
    · refine Does.of_runIf (f := fun p => p.mapZone z (Zone.endFrame p.tick)) rfl hframe (Part.mapZone_congr _ z ?_) rfl
      unfold Zone.endFrame
      rw [show (s.part.fresh.zone z).frame = some f from hf]
      exact if_neg (by rw [show (s.part.fresh.zone z).frameAgain = false from hagain]; exact nofun)

end Sys2Proof.Machine
end

section
/-! Page marks, claims and record writes (R170 to R174, R200). -/

namespace Sys2Proof.Machine

@[simp] theorem Part.bay_fresh (p : Part) (b : Bay) : p.fresh.bay b = p.bay b := rfl

@[simp] theorem Part.ctx_fresh (p : Part) (b : Bay) (x : Slot) : p.fresh.ctx b x = p.ctx b x := rfl

@[simp] theorem Part.link_fresh (p : Part) (b : Bay) : p.fresh.link b = p.link b := rfl

@[simp] theorem Part.chan_fresh (p : Part) (c : Chan) : p.fresh.chan c = p.chan c := rfl

@[simp] theorem Part.zone_fresh (p : Part) (z : ZoneNo) : p.fresh.zone z = p.zone z := rfl

@[simp] theorem Part.todo_fresh (p : Part) : p.fresh.todo = [] := rfl

/-- A rescan that is over changes the sweep alone (R175). -/
theorem Part.rescanOver_eq (p : Part) (b : Bay) : ∃ w, p.rescanOver b = { p with sweep := w } := by
  unfold Part.rescanOver
  split
  · exact ⟨_, rfl⟩
  · exact ⟨p.sweep, rfl⟩

/-- Where a page is left to look at, a scan goes on to it (R170). -/
theorem Part.scanFrom_some {p : Part} {n left page rest : Nat} (h : nextToRead p.poolCount p.isCurrent n left = some (page, rest))
    (b : Bay) (rescan : Bool) : p.scanFrom b rescan n left = { p with scan := some ⟨b, page, rest, rescan⟩ } := by
  unfold Part.scanFrom
  rw [h]

/-- Where none is left, a scan ends dry (R170). -/
theorem Part.scanFrom_none {p : Part} {n left : Nat} (h : nextToRead p.poolCount p.isCurrent n left = none) (b : Bay) (rescan : Bool) :
    p.scanFrom b rescan n left = p.scanDry b rescan := by
  unfold Part.scanFrom
  rw [h]

/-- Which notices are pending after a raising (R181). -/
theorem Part.notify_pendingSet (p : Part) (n : Notice) :
    (p.notify n).pendingSet = if p.phase = .starting then p.pendingSet else p.pendingSet ||| BitVec.twoPow 7 n.bit := by
  by_cases h : p.phase = .starting
  · unfold Part.notify
    simp [h]
  · rw [Part.notify_of_phase h, if_neg h]

/-- The bay waits for a free page (R174). -/
def BayUnit.awaiting (u : BayUnit) : BayUnit := { u with waiting := true }

/-- The part at the end of a dry scan, with POOL_DRY raised when the pool was not dry before (R174). -/
def Part.driedBy (p : Part) (b : Bay) : Part :=
  if p.dry then { p.mapBay b BayUnit.awaiting with scan := none }
  else { p.mapBay b BayUnit.awaiting with scan := none, dry := true }.notify .poolDry

theorem Part.driedBy_eq (p : Part) (b : Bay) : ∃ n m, p.driedBy b =
      { p.mapBay b BayUnit.awaiting with scan := none, dry := true, pendingSet := n, messages := m } ∧
    (p.dry = true → n = p.pendingSet) ∧ (p.dry = false → p.phase ≠ .starting → n = p.pendingSet ||| BitVec.twoPow 7 3) := by
  unfold Part.driedBy
  by_cases h : p.dry = true
  · rw [if_pos h]
    refine ⟨p.pendingSet, p.messages, ?_, fun _ => rfl, fun hn => absurd h (by simp [hn])⟩
    rw [← h]
    rfl
  · rw [if_neg h]
    have hn := Part.notify_pendingSet { p.mapBay b BayUnit.awaiting with scan := none, dry := true } .poolDry
    obtain ⟨n, m, hnotify⟩ := Part.notify_eq { p.mapBay b BayUnit.awaiting with scan := none, dry := true } .poolDry
    rw [hnotify] at hn ⊢
    exact ⟨n, m, rfl, fun hy => absurd hy h, fun _ hphase => hn.trans (if_neg (by exact hphase))⟩

/-- A scan that ends dry marks its bay as waiting, and the pool as dry (R174). -/
theorem Part.scanDry_eq (p : Part) (b : Bay) (rescan : Bool) :
    ∃ w, p.scanDry b rescan = { p.driedBy b with sweep := w, todo := (p.driedBy b).todo ++ [.writer] } := by
  have hdry : p.scanDry b rescan = (if rescan then (p.driedBy b).rescanOver b else p.driedBy b).later [.writer] := rfl
  rw [hdry]
  cases rescan
  · exact ⟨(p.driedBy b).sweep, rfl⟩
  · obtain ⟨w, hw⟩ := Part.rescanOver_eq (p.driedBy b) b
    rw [if_pos rfl, hw]
    exact ⟨w, rfl⟩

/-- Settles O31. -/
theorem pageMarksAreRead : Obligations.PageMarksAreRead := by
  unfold Obligations.PageMarksAreRead
  intro s c mark hscan
  have hread : exec (.pageMarkRead mark) s = s.runIf s.part.scan.isSome (fun p => p.pageMarkRead mark) := rfl
  have hguard : s.part.scan.isSome = true := by rw [hscan]; rfl
  have hscan' : s.part.fresh.scan = some c := hscan
  refine ⟨fun hmark => ?_, fun hmark => ?_⟩
  · have hclaim : s.part.fresh.pageMarkRead mark =
        if c.rescan then { s.part.fresh with scan := none, claim := some ⟨c.bay, c.page, .head⟩ }.rescanOver c.bay
        else { s.part.fresh with scan := none, claim := some ⟨c.bay, c.page, .head⟩ } := by
      unfold Part.pageMarkRead
      rw [hscan']
      exact if_pos hmark
    obtain ⟨w, hw⟩ := Part.rescanOver_eq { s.part.fresh with scan := none, claim := some ⟨c.bay, c.page, .head⟩ } c.bay
    rw [hw] at hclaim
    refine ⟨_, Does.of_runIf hread hguard hclaim ?_, ?_⟩
    · split <;> rfl
    · split <;> exact ⟨rfl, rfl, rfl, rfl⟩
  · have hon : s.part.fresh.pageMarkRead mark =
        s.part.fresh.scanFrom c.bay c.rescan (pageAfter s.part.poolCount c.page) c.left := by
      unfold Part.pageMarkRead
      rw [hscan']
      exact if_neg hmark
    refine ⟨fun page left hnext => Does.of_runIf hread hguard (hon.trans (Part.scanFrom_some (by exact hnext) _ _)) rfl, fun hnext => ?_⟩
    obtain ⟨w, hdry⟩ := Part.scanDry_eq s.part.fresh c.bay c.rescan
    obtain ⟨n, m, hdried, hstill, hraised⟩ := Part.driedBy_eq s.part.fresh c.bay
    rw [hdried] at hdry
    have hbay := Part.bay_mapBay s.part.fresh c.bay BayUnit.awaiting
    refine ⟨_, Owes.of_runIf hread hguard (hon.trans ((Part.scanFrom_none (by exact hnext) _ _).trans hdry)), rfl, ?_, rfl, rfl, ?_,
      hstill, hraised⟩
    · exact congrArg BayUnit.waiting hbay
    · have hbuffer := congrArg BayUnit.buffer hbay
      exact hbuffer

/-- A claim that is complete (R171, R174). -/
theorem Part.claimDone_eq (p : Part) (c : Claim) : ∃ w d, p.claimDone c =
    { p.mapBay c.bay (BayUnit.claimed c.page) with
      claim := none, cursor := pageAfter p.poolCount c.page, sweep := w, dry := d, todo := p.todo ++ [.writer] } := by
  unfold Part.claimDone
  obtain ⟨w, hw⟩ := Part.rescanOver_eq
    { p.mapBay c.bay (BayUnit.claimed c.page) with claim := none, cursor := pageAfter p.poolCount c.page } c.bay
  dsimp only
  rw [hw]
  split <;> exact ⟨_, _, rfl⟩

/-- A claim's write whose stage it is completes (R171). -/
theorem State.claimWritten_eq {s : State} {c : Claim} (h : s.part.claim = some c) (f : Claim → Part → Part) :
    s.claimWritten c.stage f = s.runWith (s.book.put (s.part.claimBytes c)) (f c) := by
  unfold State.claimWritten
  rw [h]
  exact if_pos rfl

theorem Part.pageAddr_eq {p : Part} {g : Settings} (h : p.settings = some g) (n : Nat) :
    p.pageAddr n = p.base + g.poolOffset * 4096 + 4096 * n := by
  unfold Part.pageAddr
  rw [h]
  rfl

theorem Part.poolCount_eq {p : Part} {g : Settings} (h : p.settings = some g) : p.poolCount = g.poolCount := by
  unfold Part.poolCount
  rw [h]
  rfl

/-- Settles O32. -/
theorem pageClaimsAreWritten : Obligations.PageClaimsAreWritten := by
  unfold Obligations.PageClaimsAreWritten
  intro s g c hg hc
  dsimp only
  obtain ⟨w, d, hdone⟩ := Part.claimDone_eq s.part.fresh c
  have haddr := fun n => Part.pageAddr_eq (p := s.part) hg n
  have hclaimed : ∀ q, s.part.fresh.claimDone c = q → q.claim = none ∧
      q.cursor = (if c.page + 1 < g.poolCount then c.page + 1 else 0) ∧ (q.bay c.bay).currentPage = some c.page ∧
      (q.bay c.bay).pageCount = 0 ∧ (q.bay c.bay).waiting = false ∧
      (q.bay c.bay).pageSeq = ((s.part.bay c.bay).pageSeq + 1) % 65536 ∧
      (q.bay c.bay).firstPage = some ((s.part.bay c.bay).firstPage.getD c.page) := by
    rintro q rfl
    have hbay : (s.part.fresh.claimDone c).bay c.bay = BayUnit.claimed c.page (s.part.bay c.bay) := by
      rw [hdone]
      exact Part.bay_mapBay _ _ _
    rw [hbay]
    refine ⟨by rw [hdone], by rw [hdone]; exact congrArg (fun k => if c.page + 1 < k then c.page + 1 else 0) (Part.poolCount_eq hg),
      rfl, rfl, rfl, rfl, ?_⟩
    unfold BayUnit.claimed
    cases (s.part.bay c.bay).firstPage <;> rfl
  have hwritten := fun f => State.claimWritten_eq hc f
  unfold Part.claimBytes at hwritten
  refine ⟨fun hstage => ?_, fun hstage => ⟨fun n hn => ?_, fun hn => ?_⟩, fun hstage n hn => ?_⟩
  all_goals
    rw [hstage] at hwritten
    simp only [haddr] at hwritten
  · exact Does.of_runWith (hwritten (fun c p => { p with claim := some { c with stage := .filling } })) rfl rfl
  · exact Does.of_runWith (hwritten (fun c p =>
      if (p.bay c.bay).currentPage.isSome then { p with claim := some { c with stage := .link } } else p.claimDone c))
      (if_pos (by exact Option.isSome_iff_exists.mpr ⟨n, hn⟩)) rfl
  · refine ⟨_, Owes.of_runWith (hwritten (fun c p =>
      if (p.bay c.bay).currentPage.isSome then { p with claim := some { c with stage := .link } } else p.claimDone c))
      (if_neg ?_), hclaimed _ rfl⟩
    rw [show (s.part.fresh.bay c.bay).currentPage = none from hn]
    exact nofun
  · rw [hn] at hwritten
    exact ⟨_, Owes.of_runWith (hwritten (fun c p => p.claimDone c)) rfl, hclaimed _ rfl⟩

theorem length_leBytes (w n : Nat) : (leBytes w n).length = w := by
  induction w generalizing n with
  | zero => rfl
  | succ w ih => exact congrArg (· + 1) (ih _)

theorem length_fieldBytes (l : List (Nat × Nat)) : (fieldBytes l).length = (l.map Prod.fst).sum := by
  unfold fieldBytes
  rw [List.length_flatMap]
  exact congrArg List.sum (List.map_congr_left fun x _ => length_leBytes x.1 x.2)

theorem length_absentBytes (k i n : Nat) : (absentBytes k i n).length = n := by
  induction n generalizing i with
  | zero => rfl
  | succ n ih => exact congrArg (· + 1) (ih _)

theorem length_valueBytes (k i : Nat) (v : Option Nat) : (valueBytes k i v).length = 4 := by
  unfold valueBytes
  split
  · split
    · exact length_leBytes 4 _
    · exact length_absentBytes k i 4
  · exact length_absentBytes k i 4

theorem length_captureBytes (k : Nat) (c : Option Capture) : (captureBytes k c).length = 9 := by
  cases c
  · exact length_absentBytes k _ 9
  · exact length_fieldBytes _

theorem length_identityBytes (k : Nat) (m : Option ModuleId) : (identityBytes k m).length = 28 := by
  cases m with
  | none => exact length_absentBytes k _ 28
  | some m => simp [identityBytes, length_fieldBytes]

theorem length_recordTail (k : Nat) (r : Record) : (r.tail k).length = 31 := by
  unfold Record.tail
  split <;> simp [length_fieldBytes, length_identityBytes, length_captureBytes]

/-- A record is 63 bytes and behind them its DONE mark, clear (R200). -/
theorem Record.bytes_eq (k : Nat) (r : Record) : ∃ l, r.bytes k = l ++ [0] ∧ l.length = 63 := by
  refine ⟨_, rfl, ?_⟩
  simp only [List.length_append, length_fieldBytes, length_valueBytes, length_recordTail, List.map_cons, List.map_nil,
    List.sum_cons, List.sum_nil]
  rfl

/-- A record write whose stage it is completes (R172). -/
theorem State.drainWritten_eq {s : State} {b : Bay} {stage : Drain} (h : (s.part.bay b).drain = stage) (f : Part → Part) :
    s.drainWritten b stage f = s.runWith (s.book.put (s.part.drainBytes b)) f := if_pos h

/-- The bay record once its first record is written (R172, R173). -/
def BayUnit.recordWritten (u : BayUnit) : BayUnit :=
  { u with
    drain := .idle, buffer := u.buffer.drop 1, pageCount := u.pageCount + 1
    fullWrites := u.fullWrites ++ (if u.pageCount + 1 = 63 then u.currentPage.toList else []) }

theorem Part.recordLeft_eq (p : Part) (b : Bay) :
    p.recordLeft b = ((p.mapBay b BayUnit.recordWritten).lineEnters b).later [.roomMade b, .writer, .bayTest b] := by
  unfold Part.recordLeft
  refine congrArg (fun q : Part => (q.lineEnters b).later [.roomMade b, .writer, .bayTest b]) ?_
  simp only [Part.bay_mapBay]
  cases h : (p.bay b).currentPage with
  | none => exact Part.mapBay_congr p b (by simp [BayUnit.recordWritten, h])
  | some n =>
    dsimp only
    by_cases hfull : (p.bay b).pageCount + 1 = 63
    · rw [if_pos (by exact hfull), Part.mapBay_mapBay]
      exact Part.mapBay_congr p b (by simp [BayUnit.recordWritten, h, hfull])
    · rw [if_neg (by exact hfull)]
      exact Part.mapBay_congr p b (by simp [BayUnit.recordWritten, h, hfull])

theorem Part.lineEnters_nil {p : Part} {b : Bay} (h : (p.bay b).line = []) : p.lineEnters b = p := by
  unfold Part.lineEnters
  rw [h]

/-- The front of the entry line enters the buffer, and its producer goes on (R166). -/
theorem Part.lineEnters_cons {p : Part} {b : Bay} {e : LineEntry} {l : List LineEntry} (h : (p.bay b).line = e :: l) :
    p.lineEnters b = ((p.mapBay b (fun u => { u with buffer := u.buffer ++ [e.record], line := l })).mapCtx b e.slot
      (fun c => { c with inLine := false })).later [.output b e.slot] := by
  unfold Part.lineEnters
  rw [h]

/-- The bay record after its entry line has moved up. -/
theorem Part.bay_lineEnters (p : Part) (b : Bay) : ∃ l, (p.lineEnters b).bay b = { p.bay b with
      ctxs := l, buffer := (p.bay b).buffer ++ ((p.bay b).line.take 1).map LineEntry.record, line := (p.bay b).line.drop 1 } := by
  cases h : (p.bay b).line with
  | nil =>
    rw [Part.lineEnters_nil h]
    refine ⟨(p.bay b).ctxs, ?_⟩
    rw [List.take_nil, List.map_nil, List.append_nil, List.drop_nil, ← h]
  | cons e l =>
    rw [Part.lineEnters_cons h]
    have hentered := Part.bay_mapBay p b (fun u => { u with buffer := u.buffer ++ [e.record], line := l })
    have hgoes := Part.bay_mapBay (p.mapBay b (fun u => { u with buffer := u.buffer ++ [e.record], line := l })) b
      (fun u => u.mapCtx e.slot (fun c => { c with inLine := false }))
    rw [hentered] at hgoes
    exact ⟨_, hgoes⟩

/-- A bay whose FULL mark of page `n` has been written (R173, R176). -/
def BayUnit.markedFull (n : Nat) (u : BayUnit) : BayUnit :=
  { u with fullWrites := u.fullWrites.drop 1, pageFull := u.pageFull || u.currentPage == some n }

/-- A FULL mark written (R173, R176): RESULTS raised, and the bay's test owed. -/
theorem Owes.fullMarkWritten {s : State} {g : Settings} {b : Bay} {n : Nat} {l : List Nat} (hg : s.part.settings = some g)
    (hfull : (s.part.bay b).fullWrites = n :: l) : ∃ k m,
      Owes (.fullMarkWritten b) s (s.book.writeBytes (s.part.base + g.poolOffset * 4096 + 4096 * n) [2])
        ({ s.part.fresh.mapBay b (BayUnit.markedFull n) with pendingSet := k, messages := m }.later [.bayTest b]) ∧
      (s.part.phase ≠ .starting → k = s.part.pendingSet ||| BitVec.twoPow 7 1) := by
  have hwritten : exec (.fullMarkWritten b) s = s.written (s.part.fullBytes n) (fun p => p.fullWritten b n) := by
    show execFullMarkWritten b s = _
    unfold execFullMarkWritten
    rw [hfull]
  unfold Part.fullBytes at hwritten
  rw [Part.pageAddr_eq hg] at hwritten
  have hraised := Part.notify_pendingSet (s.part.fresh.mapBay b (BayUnit.markedFull n)) .results
  obtain ⟨k, m, hnotify⟩ := Part.notify_eq (s.part.fresh.mapBay b (BayUnit.markedFull n)) .results
  rw [hnotify] at hraised
  exact ⟨k, m, Owes.of_runWith (f := fun p => p.fullWritten b n) hwritten (congrArg (Part.later · [.bayTest b]) hnotify),
    fun hphase => hraised.trans (if_neg hphase)⟩

/-- Settles O33. -/
theorem recordsAreWritten : Obligations.RecordsAreWritten := by
  unfold Obligations.RecordsAreWritten
  refine ⟨fun k r => ?_, fun s g b hg => ?_⟩
  · obtain ⟨l, hl, hlength⟩ := Record.bytes_eq k r
    rw [hl]
    exact ⟨by rw [List.length_append, hlength]; rfl, by rw [List.getElem?_append_right (by omega), hlength]; rfl⟩
  dsimp only
  have haddr := fun n => Part.pageAddr_eq (p := s.part) hg n
  refine ⟨fun r l n hbuffer hpage => ?_, fun n l hfull => ?_⟩
  · have hbytes := fun stage (h : (s.part.bay b).drain = stage) f => State.drainWritten_eq h f
    unfold Part.drainBytes Part.recordAddr at hbytes
    simp only [hbuffer, hpage, Option.getD_some, haddr] at hbytes
    refine ⟨fun hdrain => ?_, fun hdrain => ?_, fun hdrain => ?_⟩
    all_goals
      have hwritten := hbytes _ hdrain
      rw [hdrain] at hwritten
    · refine ⟨_, Does.of_runWith (hwritten (fun p => { p.mapBay b (fun u => { u with drain := .done }) with free := p.free + 1 }))
        rfl rfl, ?_, ?_⟩
      all_goals have hbay := Part.bay_mapBay s.part.fresh b (fun u => { u with drain := .done })
      · exact congrArg BayUnit.drain hbay
      · exact (congrArg BayUnit.buffer hbay).trans rfl
    · have hbay := Part.bay_mapBay s.part.fresh b (fun u => { u with drain := .count })
      have hverdict : (s.part.fresh.bay b).writesVerdict = (r.kind == .verdict) := by
        unfold BayUnit.writesVerdict
        rw [show (s.part.fresh.bay b).buffer = r :: l from hbuffer]
      have hdone := hwritten (fun p =>
        if (p.bay b).writesVerdict then (p.mapBay b (fun u => { u with drain := .count })).notify .verdict
        else p.mapBay b (fun u => { u with drain := .count }))
      by_cases hkind : r.kind = .verdict
      · have hraised := Part.notify_pendingSet (s.part.fresh.mapBay b (fun u => { u with drain := .count })) .verdict
        obtain ⟨k, m, hnotify⟩ := Part.notify_eq (s.part.fresh.mapBay b (fun u => { u with drain := .count })) .verdict
        rw [hnotify] at hraised
        refine ⟨_, Does.of_runWith hdone ((if_pos (by rw [hverdict, hkind]; rfl)).trans hnotify) rfl,
          congrArg BayUnit.drain hbay, fun _ hphase => hraised.trans (if_neg hphase), fun hn => absurd hkind hn⟩
      · exact ⟨_, Does.of_runWith hdone (if_neg (by rw [hverdict]; simpa using hkind)) rfl, congrArg BayUnit.drain hbay,
          fun hk => absurd hk hkind, fun _ => rfl⟩
    · obtain ⟨cs, hline⟩ := Part.bay_lineEnters (s.part.fresh.mapBay b BayUnit.recordWritten) b
      rw [Part.bay_mapBay] at hline
      refine ⟨_, Owes.of_runWith (hwritten (fun p => p.recordLeft b)) (Part.recordLeft_eq _ b), ?_⟩
      rw [show ((((s.part.fresh.mapBay b BayUnit.recordWritten).lineEnters b).later [.roomMade b, .writer, .bayTest b]).bay b) = _
        from hline]
      refine ⟨rfl, rfl, fun h => ?_, fun e es h => ⟨?_, ?_⟩, ?_⟩
      · simp [BayUnit.recordWritten, h, hbuffer]
      · simp [BayUnit.recordWritten, h, hbuffer]
      · simp [BayUnit.recordWritten, h]
      · simp [BayUnit.recordWritten, hpage]
  · obtain ⟨k, m, howes, hraised⟩ := Owes.fullMarkWritten hg hfull
    have hbay := Part.bay_mapBay s.part.fresh b (BayUnit.markedFull n)
    refine ⟨_, howes, ?_, fun hpage => ?_, hraised⟩
    · refine (congrArg BayUnit.fullWrites hbay).trans ?_
      unfold BayUnit.markedFull
      rw [show (s.part.fresh.bay b).fullWrites = n :: l from hfull]
      rfl
    · refine (congrArg BayUnit.pageFull hbay).trans ?_
      unfold BayUnit.markedFull
      rw [show (s.part.fresh.bay b).currentPage = some n from hpage]
      simp

end Sys2Proof.Machine
end

section
/-! What the operations of a check leave of its context: hand-overs, spans, RELEASE, APPLY, RECOVER (R70 to R84). -/

namespace Sys2Proof.Machine

/-! ### One context changed twice -/

theorem BayUnit.mapCtx_mapCtx (u : BayUnit) (s : Slot) (f g : Ctx → Ctx) :
    (u.mapCtx s f).mapCtx s g = u.mapCtx s (fun c => g (f c)) := by
  simp [BayUnit.mapCtx, BayUnit.ctx]

theorem Part.mapCtx_mapCtx (p : Part) (b : Bay) (s : Slot) (f g : Ctx → Ctx) :
    (p.mapCtx b s f).mapCtx b s g = p.mapCtx b s (fun c => g (f c)) := by
  unfold Part.mapCtx
  rw [Part.mapBay_mapBay]
  exact Part.mapBay_congr p b (BayUnit.mapCtx_mapCtx _ s f g)

@[simp] theorem Part.ctx_setPhase (p : Part) (b : Bay) (s : Slot) (ph : Phase) :
    (p.setPhase b s ph).ctx b s = { p.ctx b s with phase := ph } := Part.ctx_mapCtx p b s _

@[simp] theorem Part.ctx_startSpan (p : Part) (b : Bay) (s : Slot) (k : SpanKind) (span : Span) :
    (p.startSpan b s k span).ctx b s =
      (p.ctx b s).mapWork (fun w => { w with span := some ⟨k, p.timer span.ticks⟩ }) := Part.ctx_mapWork p b s _

@[simp] theorem Part.ctx_measure (p : Part) (b : Bay) (s : Slot) (need : Nat) (windows : List PointWindow) :
    (p.measure b s need windows).ctx b s = (p.ctx b s).mapWork (fun w =>
      { w with meas := some ⟨need, ((p.ctx b s).plan.map Plan.drift).getD 0, windows, none⟩ }) := Part.ctx_mapWork p b s _

/-! ### What follows from a plan copy -/

theorem Ctx.profile_of_plan {c : Ctx} {plan : Plan} (h : c.plan = some plan) : c.profile = some plan.profile := by
  unfold Ctx.profile
  rw [h]
  rfl

/-! ### The channel of a check -/

@[simp] theorem Part.ctx_unloadChan (p : Part) (c : Chan) (b : Bay) (x : Slot) : (p.unloadChan c).ctx b x = p.ctx b x := by
  unfold Part.unloadChan
  dsimp only
  split <;> rfl

@[simp] theorem Part.ctx_arm (p : Part) (c : Chan) (slot : Slot) (collapse confirm : Nat) (b : Bay) (x : Slot) :
    (p.arm c slot collapse confirm).ctx b x = p.ctx b x := by
  unfold Part.arm
  split <;> rfl

/-! ### Hand-overs (R151) -/

@[simp] theorem Part.ctx_handOver (p : Part) (b : Bay) (e : Entry) (b' : Bay) (x : Slot) :
    (p.handOver b e).2.ctx b' x = p.ctx b' x := by
  obtain ⟨l, t, h⟩ := Part.handOver_eq p b e
  rw [h]
  exact Part.ctx_mapLink p b (fun _ => l) b' x

/-- A context waits in a step for the transaction handed to its own module. -/
theorem Part.ctx_handOwn {p : Part} {b : Bay} {s : Slot} {plan : Plan} (h : (p.ctx b s).plan = some plan) (kind : TxKind)
    (trim : Nat) (step : SubStep) : (p.handOwn b s kind trim step).ctx b s = (p.ctx b s).mapWork (fun w =>
      { w with step := step, await := some p.handovers, trim := if kind = .trimSet then trim else w.trim }) := by
  have href : ∀ e, (p.handOver b e).1 = p.handovers := fun e => by
    unfold Part.handOver
    dsimp only
    split
    · rfl
    · split
      · split <;> rfl
      · split <;> rfl
  unfold Part.handOwn
  rw [Ctx.profile_of_plan h]
  dsimp only
  rw [href]
  exact (Part.ctx_mapWork _ b s _).trans (congrArg (fun c => Ctx.mapWork c _) (Part.ctx_handOver p b _ b s))

/-- Whether or not the context has a profile, a hand-over changes nothing but what its check waits for. -/
theorem Part.ctx_handOwn_eq (p : Part) (b : Bay) (s : Slot) (kind : TxKind) (trim : Nat) (step : SubStep) :
    ∃ st aw tr, (p.handOwn b s kind trim step).ctx b s =
      (p.ctx b s).mapWork (fun w => { w with step := st, await := aw, trim := tr }) := by
  cases h : (p.ctx b s).plan with
  | some plan => exact ⟨_, _, _, Part.ctx_handOwn h kind trim step⟩
  | none =>
    refine ⟨(p.ctx b s).work.step, (p.ctx b s).work.await, (p.ctx b s).work.trim, ?_⟩
    unfold Part.handOwn Ctx.profile
    rw [h]
    rfl

/-! ### RELEASE (R84) -/

/-- A check in RELEASE waits for nothing of its own, and has its spans, measurement and watch stopped. -/
theorem Part.ctx_enterRelease (p : Part) (b : Bay) (s : Slot) : ∃ o r, (p.enterRelease b s).ctx b s = { p.ctx b s with
    phase := .release
    work := { (p.ctx b s).work.stopped with step := .idle, await := none, outstanding := o, release := r } } := by
  unfold Part.enterRelease
  dsimp only
  split
  · rw [Part.ctx_unloadChan, Part.ctx_mapChan, Part.ctx_mapWork, Part.ctx_setPhase]
    exact ⟨_, _, rfl⟩
  · rw [Part.ctx_later, Part.ctx_mapWork, Part.ctx_mapWork, Part.ctx_setPhase]
    exact ⟨_, _, rfl⟩

/-! ### APPLY (R74, R76, R80, R83, R143) -/

/-- A check in APPLY, whatever its kind. -/
theorem Part.phase_enterApply (p : Part) (b : Bay) (s : Slot) : ((p.enterApply b s).ctx b s).phase = .apply := by
  unfold Part.enterApply
  dsimp only
  split
  · split
    · simp [Ctx.mapWork]
    · simp [Ctx.mapWork]
    · obtain ⟨st, aw, tr, h⟩ := Part.ctx_handOwn_eq _ b s .trimSet _ .trimSent
      rw [h]
      simp [Ctx.mapWork]
    · simp [Ctx.mapWork]
    · simp [Ctx.mapWork]
  · simp [Ctx.mapWork]

/-! ### RECOVER (R79, R81) -/

@[simp] theorem Part.ctx_enterRecover (p : Part) (b : Bay) (s : Slot) (span : Span) : (p.enterRecover b s span).ctx b s =
    { p.ctx b s with
      phase := .recover
      work := { (p.ctx b s).work with
        recoverTick := p.tick, watch := none, span := some ⟨.recovery, p.timer span.ticks⟩ } } := by
  unfold Part.enterRecover
  rw [Part.ctx_startSpan, Part.ctx_mapWork, Part.ctx_setPhase]
  rfl

theorem Part.ctx_recoverDecided (p : Part) (b : Bay) (s : Slot) (failed : Bool) (time : Option Nat) :
    ∃ o r, (p.recoverDecided b s failed time).ctx b s = { p.ctx b s with
      outputOff := (p.ctx b s).outputOff || failed, phase := .release
      work := { (p.ctx b s).work.stopped with
        limits := { (p.ctx b s).work.limits with c := some failed }, value3 := time, step := .idle, await := none
        outstanding := o, release := r } } := by
  unfold Part.recoverDecided
  obtain ⟨o, r, h⟩ := Part.ctx_enterRelease (p.mapCtx b s (fun c =>
    { c with outputOff := c.outputOff || failed }.mapWork (fun w =>
      { w with limits := { w.limits with c := some failed }, value3 := time }))) b s
  refine ⟨o, r, h.trans ?_⟩
  rw [Part.ctx_mapCtx]
  rfl

end Sys2Proof.Machine
end

section
/-! The spans of a check (R205): the settle spans and the load dwell (R74, R83, R143), the restart window and the recovery
span (R78, R79, R81), the trim interval (R80); and what watches recognise (R78, R79). -/

namespace Sys2Proof.Machine

/-- A span of a check that has run for its length stands stopped (R205). -/
def Part.spanOver (p : Part) (b : Bay) (x : Slot) : Part := p.mapWork b x (fun w => { w with span := none })

@[simp] theorem Part.ctx_spanOver (p : Part) (b : Bay) (x : Slot) :
    (p.spanOver b x).ctx b x = (p.ctx b x).mapWork (fun w => { w with span := none }) := Part.ctx_mapWork p b x _

/-- A check whose span is over enters MEASURE with the drift tolerance of its plan. -/
theorem Part.measure_setPhase {p : Part} {b : Bay} {x : Slot} {plan : Plan} (h : (p.ctx b x).plan = some plan) (need : Nat)
    (windows : List PointWindow) :
    ((p.spanOver b x).setPhase b x .measure).measure b x need windows =
      p.mapCtx b x (fun c => { c with
        phase := .measure, work := { c.work with span := none, meas := some ⟨need, plan.drift, windows, none⟩ } }) := by
  have hplan : (((p.spanOver b x).setPhase b x .measure).ctx b x).plan = some plan := by
    rw [Part.ctx_setPhase, Part.ctx_spanOver]
    exact h
  unfold Part.measure
  rw [hplan]
  unfold Part.spanOver Part.setPhase Part.mapWork
  rw [Part.mapCtx_mapCtx, Part.mapCtx_mapCtx]
  rfl

/-- Settles O45. -/
theorem settledChecksMeasure : Obligations.SettledChecksMeasure := by
  unfold Obligations.SettledChecksMeasure
  intro s b x plan f
  dsimp only
  refine ⟨fun k => ?_, State.runIf_false s _, State.runIf_false s _,
    State.runIf_false s _, fun hplan => ⟨fun o hdue hcheck => ?_, fun o hdue hcheck => ?_, fun o hdue hcheck => ?_⟩⟩
  · unfold Ctx.spanDue
    cases (s.part.ctx b x).work.span with
    | none => simp
    | some r =>
      obtain ⟨kind, timer⟩ := r
      simp [SpanTimer.due]
  all_goals
    have hcheck' : ((s.part.fresh.spanOver b x).ctx b x).check = _ :=
      (congrArg Ctx.check (Part.ctx_spanOver s.part.fresh b x)).trans hcheck
    have hmeasure := fun need windows => Part.measure_setPhase (p := s.part.fresh) hplan need windows
  · refine Does.of_runIf (f := fun p => (p.spanOver b x).steadySettled b x) rfl hdue ?_ rfl
    unfold Part.steadySettled
    rw [hcheck']
    exact hmeasure _ _
  · refine Does.of_runIf (f := fun p => (p.spanOver b x).shareSettled b x) rfl hdue ?_ rfl
    unfold Part.shareSettled
    dsimp only
    rw [hcheck']
    refine (hmeasure _ _).trans ?_
    rw [Part.ctx_spanOver]
    rfl
  · refine Does.of_runIf (f := fun p => (p.spanOver b x).dwellOver b x) rfl hdue ?_ rfl
    unfold Part.dwellOver
    rw [hcheck']
    exact hmeasure _ _

/-- The behaviour LATCH observed: limit B, and RECOVER with a FAULT_CLEAR (R78, R79). -/
theorem Part.ctx_observed_latch {p : Part} {b : Bay} {x : Slot} {plan : Plan} (h : (p.ctx b x).plan = some plan) (q : OcpCheck)
    (delay : Option Nat) : ∃ aw, (p.observed b x q .latch delay).ctx b x = { p.ctx b x with
      phase := .recover
      work := { (p.ctx b x).work.stopped with
        limits := { (p.ctx b x).work.limits with b := some (Behaviour.latch != q.expected) }, value2 := delay
        recoverTick := p.tick, span := some ⟨.recovery, p.timer q.recovery.ticks⟩, step := .restoreClear, await := aw } } := by
  have hctx := Part.ctx_enterRecover (p.mapWork b x (fun w =>
    { w.stopped with limits := { w.limits with b := some (Behaviour.latch != q.expected) }, value2 := delay })) b x q.recovery
  rw [Part.ctx_mapWork] at hctx
  have hhand := Part.ctx_handOwn ((congrArg Ctx.plan hctx).trans h) .faultClear 0 .restoreClear
  rw [hctx] at hhand
  exact ⟨_, hhand⟩

/-- Settles O46. -/
theorem restartWindowAndRecoveryRunOut : Obligations.RestartWindowAndRecoveryRunOut := by
  unfold Obligations.RestartWindowAndRecoveryRunOut
  intro s b x
  dsimp only
  refine ⟨State.runIf_false s _, State.runIf_false s _, fun plan k o hdue hplan hcheck => ?_,
    fun hdue => ?_⟩
  · have hcheck' : ((s.part.fresh.spanOver b x).ctx b x).check = _ :=
      (congrArg Ctx.check (Part.ctx_spanOver s.part.fresh b x)).trans hcheck
    have hover : (s.part.fresh.spanOver b x).restartWindowOver b x =
        (s.part.fresh.spanOver b x).observed b x o .latch none := by
      unfold Part.restartWindowOver
      rw [hcheck']
      rfl
    refine ⟨_, Owes.of_runIf (f := fun p => (p.spanOver b x).restartWindowOver b x) rfl hdue hover, ?_⟩
    have hplan' : ((s.part.fresh.spanOver b x).ctx b x).plan = some plan :=
      (congrArg Ctx.plan (Part.ctx_spanOver s.part.fresh b x)).trans hplan
    obtain ⟨aw, h⟩ := Part.ctx_observed_latch hplan' o none
    rw [h, Part.ctx_spanOver]
    refine ⟨rfl, ?_, rfl, rfl, rfl⟩
    dsimp only [Ctx.mapWork, Work.stopped]
    cases o.expected <;> rfl
  · refine ⟨_, Owes.of_runIf (f := fun p => (p.spanOver b x).recoverDecided b x true none) rfl hdue rfl, ?_⟩
    obtain ⟨o, r, h⟩ := Part.ctx_recoverDecided (s.part.fresh.spanOver b x) b x true none
    rw [h]
    exact ⟨rfl, rfl, Bool.or_true _⟩

/-- The trim interval after the trim ceiling ends the check NO_TRIP (R80). -/
theorem Part.ctx_ovpNoTrip {p : Part} {b : Bay} {x : Slot} {plan : Plan} (h : (p.ctx b x).plan = some plan) :
    ∃ aw, (p.ovpNoTrip b x plan).ctx b x = { p.ctx b x with
      phase := .recover
      work := { (p.ctx b x).work.stopped with
        outcome := .noTrip, stamp := some p.stamp, limits := ⟨some true, none, none⟩, step := .noTripTrim, await := aw
        trim := plan.nominal } } := by
  unfold Part.ovpNoTrip
  dsimp only
  split
  all_goals
    rw [Part.ctx_handOwn (plan := plan) (by simpa [Ctx.mapWork] using h)]
    simp only [Part.ctx_setPhase, Part.ctx_unloadChan, Part.ctx_mapChan, Part.ctx_mapWork]
    exact ⟨_, rfl⟩

/-- Settles O47. -/
theorem trimIntervalsStepTheTrim : Obligations.TrimIntervalsStepTheTrim := by
  unfold Obligations.TrimIntervalsStepTheTrim
  intro s b x plan k o
  dsimp only
  refine ⟨State.runIf_false s _, fun hdue hplan hcheck => ?_⟩
  have hctx := Part.ctx_spanOver s.part.fresh b x
  have hplan' : ((s.part.fresh.spanOver b x).ctx b x).plan = some plan :=
    (congrArg Ctx.plan hctx).trans hplan
  have hcheck' : ((s.part.fresh.spanOver b x).ctx b x).check = _ :=
    (congrArg Ctx.check hctx).trans hcheck
  have hover : (s.part.fresh.spanOver b x).trimIntervalOver b x =
      if (s.part.ctx b x).work.trim = o.trimCeiling then
        (s.part.fresh.spanOver b x).ovpNoTrip b x plan
      else (s.part.fresh.spanOver b x).handOwn b x .trimSet
        (min ((s.part.ctx b x).work.trim + o.trimStep) o.trimCeiling) .trimSent := by
    unfold Part.trimIntervalOver
    dsimp only
    rw [hplan', hcheck', hctx]
    rfl
  refine ⟨fun htrim => ?_, fun htrim => ?_⟩
  · refine ⟨_, Owes.of_runIf (f := fun p => (p.spanOver b x).trimIntervalOver b x) rfl hdue (hover.trans (if_neg htrim)), ?_⟩
    rw [Part.ctx_handOwn hplan', hctx]
    exact ⟨rfl, rfl, rfl⟩
  · refine ⟨_, Owes.of_runIf (f := fun p => (p.spanOver b x).trimIntervalOver b x) rfl hdue (hover.trans (if_pos htrim)), ?_⟩
    obtain ⟨aw, h⟩ := Part.ctx_ovpNoTrip hplan'
    rw [h, hctx]
    exact ⟨rfl, rfl, rfl, rfl⟩

/-- Settles O44. -/
theorem watchesDecideTheCheck : Obligations.WatchesDecideTheCheck := by
  unfold Obligations.WatchesDecideTheCheck
  intro s b x
  dsimp only
  refine ⟨fun k o v n fired run first d hphase hcheck hwatch => ?_, fun t hphase hwatch => ?_⟩
  · have hrecognised : s.part.fresh.restartRecognised b x = s.part.fresh.observed b x o .restart (some d) := by
      unfold Part.restartRecognised
      dsimp only
      rw [Part.ctx_fresh, hwatch, hcheck]
      rfl
    refine ⟨_, Owes.of_runIf (f := fun p => p.restartRecognised b x) rfl (by simp [hphase]) hrecognised, ?_⟩
    unfold Part.observed
    dsimp only
    obtain ⟨u, r, h⟩ := Part.ctx_recoverDecided ((s.part.fresh.mapWork b x (fun w =>
      { w.stopped with limits := { w.limits with b := some (Behaviour.restart != o.expected) }, value2 := some d })).setPhase b x
        .recover) b x false none
    rw [h, Part.ctx_setPhase, Part.ctx_mapWork]
    refine ⟨rfl, ?_, rfl, rfl⟩
    dsimp only [Ctx.mapWork, Work.stopped]
    cases o.expected <;> rfl
  · have hrecognised : s.part.fresh.powerGoodRecognised b x =
        s.part.fresh.recoverDecided b x false (some (t - (s.part.ctx b x).work.recoverTick)) := by
      unfold Part.powerGoodRecognised
      dsimp only
      rw [Part.ctx_fresh, hwatch]
    refine ⟨_, Owes.of_runIf (f := fun p => p.powerGoodRecognised b x) rfl (by simp [hphase]) hrecognised, ?_⟩
    obtain ⟨u, r, h⟩ := Part.ctx_recoverDecided s.part.fresh b x false (some (t - (s.part.ctx b x).work.recoverTick))
    rw [h]
    exact ⟨rfl, rfl, rfl⟩

/-- A ramp step (R114, R120). -/
theorem Channel.rampStep_eq {c : Channel} {r : RampParams} (hramp : c.ramp = .rampingUp) (hparams : c.params = some r) :
    c.rampStep =
      if min (c.setpoint + r.step) r.ceiling = r.ceiling then { c with
        setpoint := min (c.setpoint + r.step) r.ceiling, ramp := .holdingLevel, ceilingHold := true
        detector := c.detector.map TripDetector.restartPeak }
      else { c with
        setpoint := min (c.setpoint + r.step) r.ceiling, detector := c.detector.map TripDetector.restartPeak } := by
  obtain ⟨owner, bay, relay, moved, setpoint, ramp, params, hold, pending, detector⟩ := c
  obtain rfl : ramp = _ := hramp
  obtain rfl : params = _ := hparams
  rfl

/-- Settles O41. -/
theorem setpointsStepUpAndDown : Obligations.SetpointsStepUpAndDown := by
  unfold Obligations.SetpointsStepUpAndDown
  intro s c
  refine ⟨fun r hrelay hramp hparams => ?_, fun hhold => ?_, fun hrelay hramp => ?_⟩
  · have hstep := Channel.rampStep_eq hramp hparams
    have hdoes : ∀ f : Channel → Channel, (s.part.chan c).rampStep = f (s.part.chan c) →
        Does (.rampStep c) s s.book (s.part.fresh.mapChan c f) := fun f hf =>
      Does.of_runIf (f := fun p => p.mapChan c Channel.rampStep) rfl (by simp [Channel.stepping, hrelay, hramp])
        (Part.mapChan_congr _ c hf) rfl
    refine ⟨fun hlow => hdoes _ ?_, fun hhigh => hdoes _ ?_⟩
    · rw [hstep, Nat.min_eq_left hlow.le, if_neg hlow.ne]
    · rw [hstep, Nat.min_eq_right hhigh, if_pos rfl]
  · refine Owes.of_runIf (f := fun p => p.holdEnd c) rfl hhold ?_
    unfold Part.holdEnd
    exact if_pos hhold
  · have hguard : ((s.part.chan c).relay == .closed && (s.part.chan c).ramp == .rampingDown) = true := by simp [hrelay, hramp]
    have hstep : s.part.fresh.unloadStep c =
        if (s.part.chan c).setpoint - 50 = 0 then
          (s.part.fresh.mapChan c (fun ch => { ch with setpoint := 0, ramp := .idle })).later [.unloadDone c]
        else s.part.fresh.mapChan c (fun ch => { ch with setpoint := (s.part.chan c).setpoint - 50 }) := by
      unfold Part.unloadStep
      exact if_pos ⟨hrelay, hramp⟩
    refine ⟨fun hhigh => ?_, fun hlow => ?_⟩
    · exact Does.of_runIf (f := fun p => p.unloadStep c) rfl hguard ((hstep.trans (if_neg (by omega))).trans
        (Part.mapChan_congr _ c rfl)) rfl
    · exact Owes.of_runIf (f := fun p => p.unloadStep c) rfl hguard (hstep.trans (if_pos (by omega)))

end Sys2Proof.Machine
end

section
/-! The module links: completions, second attempts, timeouts and recovery (R152 to R162). -/

namespace Sys2Proof.Machine

/-! ### One link changed twice -/

theorem Part.mapLink_mapLink (p : Part) (b : Bay) (f g : Link → Link) :
    (p.mapLink b f).mapLink b g = p.mapLink b (fun l => g (f l)) := by
  unfold Part.mapLink
  rw [Part.mapBay_mapBay]

theorem Link.next_nil {l : Link} (h : l.queue = []) (now : Nat) :
    l.next now = { l with state := .idle, inFlight := none, second := false, timer := none } := by
  unfold Link.next
  rw [h]

theorem Link.next_cons {l : Link} {e : Entry} {q : List Entry} (h : l.queue = e :: q) (hl : l.line = []) (now : Nat) :
    l.next now = { l with
      state := .busy, inFlight := some e, second := false, timer := some now, queue := q, line := [] } := by
  unfold Link.next
  rw [h]
  dsimp only
  unfold Link.refill Link.start
  rw [hl]
  simp

/-! ### Completions (R152, R158, R162) -/

/-- An OUTPUT_ON completed OK, which is not taken as a GONE discard, clears the output-left-off mark (R25). -/
theorem Part.outputOn_ok {p : Part} {b : Bay} {e : Entry} (hkind : e.kind = .outputOn) (hgone : e.gone = false) (data : List Byte) :
    p.outputOn b e (.ok data) = p.mapCtx b e.target (fun c => { c with outputOff := false }) := if_pos ⟨hkind, hgone⟩

/-- Every other completion leaves it. -/
theorem Part.outputOn_other {p : Part} {b : Bay} {e : Entry} {reply : LinkReply}
    (h : e.kind ≠ .outputOn ∨ e.gone = true ∨ ∀ data, reply ≠ .ok data) : p.outputOn b e reply = p := by
  unfold Part.outputOn
  split
  next data =>
    refine if_neg ?_
    rintro ⟨hkind, hgone⟩
    rcases h with h | h | h
    · exact h hkind
    · rw [hgone] at h
      exact nomatch h
    · exact h data rfl
  next => rfl

theorem Part.outputOn_cases (p : Part) (b : Bay) (e : Entry) (reply : LinkReply) :
    p.outputOn b e reply = p ∨ p.outputOn b e reply = p.mapCtx b e.target (fun c => { c with outputOff := false }) := by
  by_cases h : e.kind ≠ .outputOn ∨ e.gone = true ∨ ∀ data, reply ≠ .ok data
  · exact .inl (Part.outputOn_other h)
  · push Not at h
    obtain ⟨hkind, hgone, data, rfl⟩ := h
    exact .inr (Part.outputOn_ok hkind (by simpa using hgone) data)

@[simp] theorem Part.link_outputOn (p : Part) (b : Bay) (e : Entry) (reply : LinkReply) (b' : Bay) :
    (p.outputOn b e reply).link b' = p.link b' := by
  rcases Part.outputOn_cases p b e reply with h | h
  · rw [h]
  · rw [h, Part.link_mapCtx]

@[simp] theorem Part.outputOn_todo (p : Part) (b : Bay) (e : Entry) (reply : LinkReply) :
    (p.outputOn b e reply).todo = p.todo := by
  rcases Part.outputOn_cases p b e reply with h | h
  · rw [h]
  · rw [h, Part.mapCtx_todo]

theorem Entry.gone_eq_true {e : Entry} : e.gone = true ↔ e.fell = true ∧ e.purpose ∈ [Purpose.isolate, .participate] := by
  simp [Entry.gone]

theorem Entry.gone_eq_false {e : Entry} : e.gone = false ↔ e.fell = false ∨ e.purpose ∉ [Purpose.isolate, .participate] := by
  cases h : e.fell <;> simp [Entry.gone, h]

/-- A completion that the transaction in flight may bring. -/
theorem exec_linkTransactionComplete {s : State} {b : Bay} {e : Entry} {reply : LinkReply}
    (he : (s.part.link b).inFlight = some e) (hmay : (s.part.link b).mayEnd e reply = true) :
    exec (.linkTransactionComplete b reply) s = s.run (fun p => p.linkComplete b e reply) := by
  show execLinkTransactionComplete b reply s = _
  unfold execLinkTransactionComplete
  rw [he]
  exact State.runIf_true s _ hmay

/-- The part once the transaction in flight of a link is over. -/
def Part.linkOver (p : Part) (b : Bay) (e : Entry) (reply : LinkReply) : Part := (p.fresh.mapLink b Link.over).outputOn b e reply

/-- Outside HALTED a completion owes its report, and then the next entry. -/
theorem Owes.linkTransactionComplete {s : State} {b : Bay} {e : Entry} {reply : LinkReply}
    (he : (s.part.link b).inFlight = some e) (hmay : (s.part.link b).mayEnd e reply = true) (hphase : s.part.phase ≠ .halted) :
    Owes (.linkTransactionComplete b reply) s s.book
      ((s.part.linkOver b e reply).later [.report b e (reportOf reply), .linkNext b]) :=
  Owes.of_runWith (exec_linkTransactionComplete he hmay) (if_neg (by exact hphase))

@[simp] theorem Part.link_linkOver (p : Part) (b : Bay) (e : Entry) (reply : LinkReply) :
    (p.linkOver b e reply).link b = (p.link b).over := by
  unfold Part.linkOver
  rw [Part.link_outputOn, Part.link_mapLink]
  rfl

@[simp] theorem Part.linkOver_todo (p : Part) (b : Bay) (e : Entry) (reply : LinkReply) : (p.linkOver b e reply).todo = [] := by
  unfold Part.linkOver
  rw [Part.outputOn_todo]
  rfl

theorem Part.linkOver_other {p : Part} {b : Bay} {e : Entry} {reply : LinkReply}
    (h : e.kind ≠ .outputOn ∨ e.gone = true ∨ ∀ data, reply ≠ .ok data) :
    p.linkOver b e reply = p.fresh.mapLink b Link.over := Part.outputOn_other h

/-- A report whose requester is gone is dropped (R158). -/
theorem Part.onReport_dropped {p : Part} {b : Bay} {e : Entry} (h : (p.ctx b e.who.slot).isRequester e.who = false) (r : Report) :
    p.onReport b e r = p := if_neg (by simp [h])

theorem Part.later_fresh {q : Part} (h : q.todo = []) (l : List Conseq) : (q.later l).fresh = q := by
  unfold Part.fresh
  rw [← h]
  rfl

/-- The first consequence of a command whose own effect owes nothing else. -/
theorem Owes.step {c : Instr} {s : State} {m : Memory} {q : Part} {k : Conseq} {rest : List Conseq}
    (h : Owes c s m (q.later (k :: rest))) (hq : q.todo = []) : Reaches 1 c s m ((consequence k q).later rest) := by
  refine h.first (k := k) (rest := rest) (by rw [Part.later_todo, hq, List.nil_append]) ?_
  rw [Part.later_fresh hq]
  rfl

theorem Reaches.step {n : Nat} {c : Instr} {s : State} {m : Memory} {q : Part} {k : Conseq} {rest : List Conseq}
    (h : Reaches n c s m (q.later (k :: rest))) (hn : n < 64) (hq : q.todo = []) :
    Reaches (n + 1) c s m ((consequence k q).later rest) := by
  refine h.next (k := k) (rest := rest) hn (by rw [Part.later_todo, hq, List.nil_append]) ?_
  rw [Part.later_fresh hq]
  rfl

@[simp] theorem Part.later_nil (p : Part) : p.later [] = p := by
  unfold Part.later
  rw [List.append_nil]

theorem Owes.report_dropped {c : Instr} {s : State} {m : Memory} {q : Part} {b : Bay} {e : Entry} {r : Report} {rest : List Conseq}
    (h : Owes c s m (q.later (.report b e r :: rest))) (hq : q.todo = [])
    (hreq : (q.ctx b e.who.slot).isRequester e.who = false) : Reaches 1 c s m (q.later rest) := by
  have hdropped : consequence (.report b e r) q = q := Part.onReport_dropped hreq r
  have hstep := h.step hq
  rwa [hdropped] at hstep

/-- A link whose transaction is over goes on (R152). -/
theorem Reaches.linkNext {n : Nat} {c : Instr} {s : State} {m : Memory} {q : Part} {b : Bay}
    (h : Reaches n c s m (q.later [.linkNext b])) (hn : n < 64) (hq : q.todo = []) (hstate : (q.link b).state = .busy)
    (hover : (q.link b).inFlight = none) : Does c s m (q.mapLink b (Link.next q.samples)) := by
  have hgo : consequence (.linkNext b) q = q.mapLink b (Link.next q.samples) :=
    if_pos ⟨hstate, Option.isNone_iff_eq_none.mpr hover⟩
  have hstep := h.step hn hq
  rw [hgo, Part.later_nil] at hstep
  exact hstep.does (by rw [Part.mapLink_todo, hq])

/-- Settles O36. -/
theorem linkCompletionsFreeTheLink : Obligations.LinkCompletionsFreeTheLink := by
  unfold Obligations.LinkCompletionsFreeTheLink
  intro s b e reply he hmay
  refine ⟨fun hphase => ?_, fun hphase => ⟨⟨_, Owes.linkTransactionComplete he hmay hphase, ?_, ?_, ?_, ?_⟩, ?_⟩⟩
  · exact Does.of_runWith (exec_linkTransactionComplete he hmay) (if_pos (by exact hphase)) rfl
  · show ((s.part.linkOver b e reply).link b).inFlight = none
    rw [Part.link_linkOver]
    rfl
  · rw [Part.later_todo, Part.linkOver_todo]
    rfl
  · rintro data rfl hkind hgone
    rw [Part.ctx_later]
    unfold Part.linkOver
    rw [Part.outputOn_ok hkind (Entry.gone_eq_false.mpr hgone), Part.ctx_mapCtx]
  · intro h x
    rw [Part.ctx_later, Part.linkOver_other (by rwa [Entry.gone_eq_true]), Part.ctx_mapLink]
    rfl
  · intro hkind hreq hstate
    have howes := Owes.linkTransactionComplete he hmay hphase
    rw [Part.linkOver_other (.inl hkind)] at howes
    have hctx : ((s.part.fresh.mapLink b Link.over).ctx b e.who.slot).isRequester e.who = false := by
      rw [Part.ctx_mapLink]
      exact hreq
    have hover : (s.part.fresh.mapLink b Link.over).link b = (s.part.link b).over := Part.link_mapLink _ _ _
    have hdoes := (howes.report_dropped rfl hctx).linkNext (by omega) rfl ((congrArg Link.state hover).trans hstate)
      (congrArg Link.inFlight hover)
    have hnext : ∀ f : Link → Link, Link.next s.part.samples (s.part.link b).over = f (s.part.link b) →
        Does (.linkTransactionComplete b reply) s s.book (s.part.fresh.mapLink b f) := fun f hf => by
      have hgo := (Part.mapLink_mapLink s.part.fresh b Link.over (Link.next s.part.samples)).trans (Part.mapLink_congr _ b hf)
      rw [← hgo]
      exact hdoes
    refine ⟨fun hqueue => hnext _ (Link.next_nil (by exact hqueue) _), fun f l hqueue hline => hnext _ ?_⟩
    exact Link.next_cons (by exact hqueue) (by exact hline) _

/-! ### Second attempts, timeouts and recovery (R155 to R157) -/

theorem Part.link_muteSlot (p : Part) (b : Bay) (x : Slot) : (p.muteSlot b x).link b =
    { (p.link b).remove (fun e => e.target == x) with mute := (p.link b).mute.set x true } := by
  exact Part.link_mapLink p b (fun l => { l.remove (fun e => e.target == x) with mute := l.mute.set x true })

/-- Settles O37. -/
theorem retriesTimeoutsAndRecovery : Obligations.RetriesTimeoutsAndRecovery := by
  unfold Obligations.RetriesTimeoutsAndRecovery
  refine ⟨fun s b e he => ⟨fun hsecond => ?_, fun hphase => ?_⟩, fun p b x => ⟨?_, fun e he => ?_, ?_⟩,
    fun s b hstate => ⟨fun hphase => ?_, fun hphase hqueue => ?_, fun hphase e l hqueue hline => ?_⟩⟩
  · exact Does.of_runIf (f := fun p => p.mapLink b (fun l => { l with second := true })) rfl (by simp [he, hsecond]) rfl rfl
  · have htimeout : exec (.linkTimeout b) s = s.run (fun p => p.linkTimeout b e) := by
      show execLinkTimeout b s = _
      unfold execLinkTimeout
      rw [he]
    have hlink := Part.link_mapLink s.part.fresh b (fun l => { l.over with state := .recovering })
    exact ⟨_, Owes.of_runWith htimeout (if_neg (by exact hphase)), congrArg Link.state hlink, congrArg Link.inFlight hlink,
      congrArg Link.timer hlink, rfl⟩
  · show ((p.muteSlot b x).link b).mute[x] = true
    rw [Part.link_muteSlot]
    exact Vector.getElem_set_self _
  · rw [Part.link_muteSlot] at he
    have hmem := ((Link.mem_remove _ (p.link b) e).mp he).2
    simpa using hmem
  · show p.todo ++ _ = _
    rw [List.filter_append]
    rfl
  all_goals
    have hdoes : ∀ f : Link → Link,
        (if s.part.phase = .halted then Link.haltedIdle else Link.next s.part.samples) (s.part.link b) = f (s.part.link b) →
        Does (.busRecoveryEnd b) s s.book (s.part.fresh.mapLink b f) := fun f hf =>
      Does.of_runIf (f := fun p => p.mapLink b (if p.phase = .halted then Link.haltedIdle else Link.next p.samples)) rfl
        (by simp [hstate]) (Part.mapLink_congr _ b hf) rfl
  · exact hdoes _ (by rw [if_pos hphase]; rfl)
  · exact hdoes _ (by rw [if_neg hphase]; exact Link.next_nil hqueue _)
  · exact hdoes _ (by rw [if_neg hphase]; exact Link.next_cons hqueue hline _)

end Sys2Proof.Machine
end

section
/-! Admission: identity answers, sampling bytes and plan records (R12, R13, R39, R40, R66). -/

namespace Sys2Proof.Machine

theorem Ctx.identifyingOn_of {c : Ctx} (hstate : c.state = .identifying) (hexit : c.exit = .stay) : c.identifyingOn = true := by
  simp [Ctx.identifyingOn, hstate, hexit]

theorem Part.requester_of {p : Part} {b : Bay} {e : Requester} (h : (p.ctx b e.slot).isRequester e = true) :
    p.requester b e.slot = ⟨b, e.slot, e.adm⟩ := by
  have hadm : (p.ctx b e.slot).adm = some e.adm := by
    simp only [Ctx.isRequester, Bool.and_eq_true, beq_iff_eq] at h
    exact h.2
  unfold Part.requester
  rw [hadm]
  rfl

@[simp] theorem Part.handOver_handovers (p : Part) (b : Bay) (e : Entry) : (p.handOver b e).2.handovers = p.handovers + 1 := by
  obtain ⟨l, t, h⟩ := Part.handOver_eq p b e
  rw [h]

/-- What an identity answer with no valid block makes of the context (R12). -/
theorem Part.badIdentity_does (p : Part) (b : Bay) (x : Slot) :
    ((p.ctx b x).attempts = 1 → (p.badIdentity b x).ctx b x = { p.ctx b x with attempts := 2 } ∧
      (p.badIdentity b x).handovers = p.handovers + 1) ∧
    ((p.ctx b x).attempts ≠ 1 → ((p.badIdentity b x).ctx b x).ident = none ∧
      ((p.badIdentity b x).ctx b x).out = (p.ctx b x).out ++ [.verdict .incomplete (some .badIdentity)]) := by
  unfold Part.badIdentity
  refine ⟨fun h => ?_, fun h => ?_⟩
  · rw [if_pos h]
    unfold Part.handIdentityRead
    rw [Part.ctx_handOver, Part.ctx_mapCtx, Part.handOver_handovers]
    exact ⟨rfl, rfl⟩
  · rw [if_neg h]
    unfold Part.failIdentity Part.endWith
    rw [Part.ctx_later, Part.ctx_mapCtx, Part.ctx_mapCtx]
    exact ⟨rfl, rfl⟩

/-- A valid identity with no entry in the directory (R13, R15). -/
theorem Part.goodIdentity_unplanned {p : Part} {b : Bay} {x : Slot} {m : ModuleId} (h : p.dir.lookup m.identity = none) :
    ∃ r, (p.goodIdentity b x m).ctx b x = { p.ctx b x with
        ident := some m, digests := some (digestsOf p.dir.key p.dir.mask m), state := .unplanned
        out := (p.ctx b x).out ++ [.record r] } ∧
      r.kind = .presence ∧ r.direction = some .inserted ∧ r.identity = some m ∧ r.bay = b ∧ r.slot = x ∧ r.stamp = p.stamp := by
  unfold Part.goodIdentity
  dsimp only [Part.mapCtx_dir]
  rw [h]
  dsimp only
  rw [Part.ctx_later, Part.ctx_mapCtx, Part.ctx_mapCtx]
  exact ⟨_, rfl, rfl, rfl, rfl, rfl, rfl, rfl⟩

/-- A valid identity with an entry: the sampling byte that its serial digest names is read (R40). -/
theorem Part.goodIdentity_planned {p : Part} {b : Bay} {x : Slot} {m : ModuleId} {l : Lookup} (h : p.dir.lookup m.identity = some l) :
    (p.goodIdentity b x m).ctx b x = { p.ctx b x with
        ident := some m, digests := some (digestsOf p.dir.key p.dir.mask m), lookup := some l, entryIndex := some l.index } ∧
      (p.goodIdentity b x m).admReads = p.admReads ++
        [⟨false, p.requester b x, p.base + 0x40 + (digestsOf p.dir.key p.dir.mask m).serial.toNat % 64⟩] := by
  have hreq : ∀ f : Ctx → Ctx, ∀ q : Part, (f (q.ctx b x)).adm = (q.ctx b x).adm → (q.mapCtx b x f).requester b x = q.requester b x :=
    fun f q hf => by
      unfold Part.requester
      rw [Part.ctx_mapCtx, hf]
  unfold Part.goodIdentity
  dsimp only [Part.mapCtx_dir]
  rw [h]
  dsimp only
  rw [hreq _ _ rfl, hreq _ _ rfl]
  refine ⟨?_, rfl⟩
  have hctx := Part.ctx_mapCtx (p.mapCtx b x (fun c => { c with ident := some m, digests := some (digestsOf p.dir.key p.dir.mask m) }))
    b x (fun c => { c with lookup := some l, entryIndex := some l.index })
  exact hctx.trans (by rw [Part.ctx_mapCtx])

theorem Part.onReport_identify {p : Part} {b : Bay} {e : Entry} (hreq : (p.ctx b e.who.slot).isRequester e.who = true)
    (hpurpose : e.purpose = .identify) (r : Report) : p.onReport b e r = p.onIdentity b e.who.slot r := by
  unfold Part.onReport
  dsimp only
  rw [if_pos hreq, hpurpose]

theorem Part.onIdentity_valid {p : Part} {b : Bay} {x : Slot} {data : List Byte} (h : (p.ctx b x).identifyingOn = true)
    (hvalid : validBlock data = true) : p.onIdentity b x (.ok data) = p.goodIdentity b x (blockIdentity data) := by
  unfold Part.onIdentity
  rw [if_pos h]
  exact if_pos hvalid

theorem Part.onIdentity_invalid {p : Part} {b : Bay} {x : Slot} {reply : LinkReply} (h : (p.ctx b x).identifyingOn = true)
    (hvalid : ∀ data, reply = .ok data → validBlock data = false) : p.onIdentity b x (reportOf reply) = p.badIdentity b x := by
  unfold Part.onIdentity
  rw [if_pos h]
  cases reply with
  | ok data => exact if_neg (by simp [hvalid data rfl])
  | nack => rfl
  | badLength n => rfl

/-! ### The sampling byte and the plan record -/

/-- The reference used for the variant that a sampling byte chooses (R40). -/
theorem Refs.used_eq (r : Refs) (v : Fin 4) : r.used v = ((r.get v).map (fun n => (v, n))).getD (0, r.v0) := by
  unfold Refs.used
  cases r.get v <;> rfl

/-- What a bad plan record makes of the context (R66). -/
theorem Part.ctx_badPlan (p : Part) (b : Bay) (x : Slot) (ref bad : Nat) : (p.badPlan b x ref bad).ctx b x = { p.ctx b x with
    usedRef := some ref, badCheck := some bad, exit := if (p.ctx b x).exit = .stay then .ending else (p.ctx b x).exit
    out := (p.ctx b x).out ++ [.verdict .incomplete (some .badPlan)] } := by
  unfold Part.badPlan Part.endWith
  rw [Part.ctx_later, Part.ctx_mapCtx, Part.ctx_mapCtx]

/-- What a context whose sampling byte has been read does with the variant and reference used (R40, R50, R66). -/
def Part.sampled (p : Part) (who : Requester) (used : Fin 4 × Nat) : Part :=
  let q := (p.dropRead false who).mapCtx who.bay who.slot (fun c => { c with variant := some used.1, usedRef := some used.2 })
  if used.2 < p.shelfCount then { q with admReads := q.admReads ++ [⟨true, who, q.planAddr used.2⟩] }
  else q.badPlan who.bay who.slot used.2 15

/-- What a valid plan record makes of the context (R13, R15, R17). -/
theorem Part.enterPlanned_does (p : Part) (b : Bay) (x : Slot) (plan : Plan) : ∃ r,
    (p.enterPlanned b x plan).ctx b x = { p.ctx b x with
      state := if (p.bay b).insert = .join ∧ ((p.bay b).state = .running ∨ (p.bay b).state = .finished) then .running else .planned
      plan := some plan, checkIndex := 0, failed := 0, out := (p.ctx b x).out ++ [.record r] } ∧
    (p.enterPlanned b x plan).admReads = p.admReads ∧
    r.kind = .presence ∧ r.direction = some .inserted ∧ r.bay = b ∧ r.slot = x ∧ r.stamp = p.stamp := by
  refine ⟨(p.ctx b x).presenceRecord b x .inserted none p.stamp, ?_, ?_, rfl, rfl, rfl, rfl, rfl⟩
  · have hbay : ∀ f, ((p.mapCtx b x f).later [.output b x]).bay b = (p.bay b).mapCtx x f := fun f =>
      Part.bay_mapBay p b (fun u => u.mapCtx x f)
    unfold Part.enterPlanned
    dsimp only
    rw [hbay]
    by_cases h : (p.bay b).insert = .join ∧ ((p.bay b).state = .running ∨ (p.bay b).state = .finished)
    · rw [if_pos (by exact h), if_pos h, Part.ctx_later, Part.ctx_mapCtx, Part.ctx_mapBay_ctxs _ _ _ rfl, Part.ctx_later,
        Part.ctx_mapCtx]
      rfl
    · rw [if_neg (by exact h), if_neg h, Part.ctx_later, Part.ctx_later, Part.ctx_mapCtx]
      rfl
  · unfold Part.enterPlanned
    dsimp only
    split
    · simp only [Part.later_admReads, Part.mapCtx_admReads, Part.mapBay_admReads]
    · simp only [Part.later_admReads, Part.mapCtx_admReads]

/-- Settles O38. -/
theorem samplingByteChoosesTheVariant : Obligations.SamplingByteChoosesTheVariant := by
  unfold Obligations.SamplingByteChoosesTheVariant
  refine ⟨fun s b e reply => ?_, fun s who v l => ?_⟩
  · dsimp only
    intro he hmay hphase hkind hpurpose hreq hstate hexit
    have hover := Part.linkOver_other (p := s.part) (b := b) (reply := reply) (e := e) (.inl (by rw [hkind]; exact nofun))
    have hctx : ∀ y, (s.part.linkOver b e reply).ctx b y = s.part.ctx b y := fun y => by
      rw [hover, Part.ctx_mapLink]
      rfl
    have hon : ((s.part.linkOver b e reply).ctx b e.who.slot).identifyingOn = true := by
      rw [hctx]
      exact Ctx.identifyingOn_of hstate hexit
    have hdir : (s.part.linkOver b e reply).dir = s.part.dir := by rw [hover]; rfl
    have hreach := (Owes.linkTransactionComplete he hmay hphase).step (Part.linkOver_todo _ b e reply)
    have hreport : consequence (.report b e (reportOf reply)) (s.part.linkOver b e reply) =
        (s.part.linkOver b e reply).onIdentity b e.who.slot (reportOf reply) :=
      Part.onReport_identify (by rw [hctx]; exact hreq) hpurpose _
    rw [hreport] at hreach
    refine ⟨_, hreach, ?_, fun hinvalid => ?_⟩
    · rintro data m d rfl hvalid rfl rfl
      rw [show reportOf (.ok data) = .ok data from rfl, Part.onIdentity_valid hon hvalid, Part.ctx_later]
      refine ⟨fun hlookup => ?_, fun l hlookup => ?_⟩
      · obtain ⟨r, hr, hkind', hdirection, hident, hbay, hslot, hstamp⟩ := Part.goodIdentity_unplanned (b := b) (x := e.who.slot)
          (hdir.symm ▸ hlookup)
        rw [hctx, hdir] at hr
        exact ⟨r, hr, hkind', hdirection, hident, hbay, hslot, by rw [hstamp, hover]; rfl⟩
      · obtain ⟨hr, hreads⟩ := Part.goodIdentity_planned (b := b) (x := e.who.slot) (hdir.symm ▸ hlookup)
        rw [hctx, hdir] at hr
        refine ⟨hr, hreads.trans ?_⟩
        rw [Part.requester_of (by rw [hctx]; exact hreq), hdir, hover]
        rfl
    · rw [Part.onIdentity_invalid hon hinvalid, Part.ctx_later]
      obtain ⟨hagain, hfails⟩ := Part.badIdentity_does (s.part.linkOver b e reply) b e.who.slot
      rw [hctx] at hagain hfails
      refine ⟨fun h => ⟨(hagain h).1, (hagain h).2.trans ?_⟩, hfails⟩
      rw [hover]
      rfl
  · dsimp only
    intro hread hreq hstate hexit hlookup
    have hon := Ctx.identifyingOn_of hstate hexit
    have hsampled : s.part.fresh.samplingRead who v = s.part.fresh.sampled who (l.refs.used ⟨v.toNat % 4, Nat.mod_lt _ (by decide)⟩) := by
      unfold Part.samplingRead
      dsimp only
      rw [if_pos (by exact Bool.and_eq_true_iff.mpr ⟨hreq, hon⟩), show (s.part.fresh.ctx who.bay who.slot).lookup = some l from hlookup]
      rfl
    rw [← Refs.used_eq]
    have hctx := Part.ctx_mapCtx (s.part.fresh.dropRead false who) who.bay who.slot (fun c => { c with
      variant := some (l.refs.used ⟨v.toNat % 4, Nat.mod_lt _ (by decide)⟩).1
      usedRef := some (l.refs.used ⟨v.toNat % 4, Nat.mod_lt _ (by decide)⟩).2 })
    refine ⟨fun hlt => ⟨_, Does.of_runIf (f := fun p => p.samplingRead who v) rfl hread (hsampled.trans (if_pos hlt)) rfl, rfl, hctx⟩,
      fun hge => ⟨_, Owes.of_runIf (f := fun p => p.samplingRead who v) rfl hread (hsampled.trans (if_neg (by exact Nat.not_lt.mpr hge))),
        rfl, ?_⟩⟩
    rw [Part.ctx_badPlan, hctx]
    exact ⟨rfl, rfl, rfl⟩

/-- Settles O39. -/
theorem planReadPlansTheContext : Obligations.PlanReadPlansTheContext := by
  unfold Obligations.PlanReadPlansTheContext
  intro s who bytes
  dsimp only
  intro hread hreq hstate hexit
  have hon := Ctx.identifyingOn_of hstate hexit
  have hplan : s.part.fresh.planRead who bytes = match validate bytes with
      | .valid plan => (s.part.fresh.dropRead true who).enterPlanned who.bay who.slot plan
      | .invalid i => (s.part.fresh.dropRead true who).badPlan who.bay who.slot ((s.part.ctx who.bay who.slot).usedRef.getD 0) i := by
    unfold Part.planRead
    exact if_pos (by exact Bool.and_eq_true_iff.mpr ⟨hreq, hon⟩)
  refine ⟨fun plan hvalid => ?_, fun i hinvalid => ?_⟩
  · rw [hvalid] at hplan
    obtain ⟨r, hctx, hreads, hkind, hdirection, hbay, hslot, hstamp⟩ :=
      Part.enterPlanned_does (s.part.fresh.dropRead true who) who.bay who.slot plan
    exact ⟨_, r, Owes.of_runIf (f := fun p => p.planRead who bytes) rfl hread hplan, hreads, hctx, hkind, hdirection, hbay, hslot, hstamp⟩
  · rw [hinvalid] at hplan
    refine ⟨_, Owes.of_runIf (f := fun p => p.planRead who bytes) rfl hread hplan, ?_⟩
    rw [Part.ctx_badPlan]
    exact ⟨rfl, rfl, rfl⟩

end Sys2Proof.Machine
end

section
/-! Measurements judged (R72 to R75, R83, R143), and the result of a check (R87, R88, R166). -/

namespace Sys2Proof.Machine

/-! ### Values against windows -/

theorem Window.not_has_eq (w : Window) (v : Nat) : (!w.has v) = decide (v < w.low ∨ w.high < v) := by
  have h := Window.has_iff (w := w) (v := v)
  by_cases hin : w.low ≤ v ∧ v ≤ w.high
  · rw [h.mpr hin]
    exact (decide_eq_false (by omega)).symm
  · rw [Bool.eq_false_iff.mpr (fun hh => hin (h.mp hh))]
    exact (decide_eq_true (by omega)).symm

theorem apart_eq (a b : Nat) : apart a b = max a b - min a b := by
  unfold apart
  omega

/-! ### What the operations leave -/

theorem Part.ctx_keepFlying (p : Part) (b : Bay) (s : Slot) : ∃ o, (p.keepFlying b s).ctx b s =
    (p.ctx b s).mapWork (fun w => { w with outstanding := o }) := ⟨_, Part.ctx_mapWork p b s _⟩

@[simp] theorem Part.keepFlying_stamp (p : Part) (b : Bay) (s : Slot) : (p.keepFlying b s).stamp = p.stamp := rfl

/-- A check that is not DERATE ends NOT_ISOLATED (R73). -/
theorem Part.ctx_notIsolated {p : Part} {b : Bay} {s : Slot} (h : (p.ctx b s).derating = false) (t : Slot) (reason : Reason)
    (mean : Option Nat) : ∃ o r, (p.notIsolated b s t reason mean).ctx b s = { p.ctx b s with
      phase := .release
      work := { (p.ctx b s).work.stopped with
        outcome := .notIsolated, stamp := some p.stamp, limits := Limits.unchecked, value1 := some t.val
        value2 := some reason.code, value3 := mean, step := .idle, await := none, outstanding := o, release := r } } := by
  have hrelease : ∀ q : Part, (∃ k, q.ctx b s = (p.ctx b s).mapWork (fun w => { w with outstanding := k })) →
      ∃ o r, ((q.mapWork b s (fun w => { w with
          outcome := .notIsolated, stamp := some p.stamp, limits := Limits.unchecked, value1 := some t.val
          value2 := some reason.code, value3 := mean })).enterRelease b s).ctx b s = { p.ctx b s with
        phase := .release
        work := { (p.ctx b s).work.stopped with
          outcome := .notIsolated, stamp := some p.stamp, limits := Limits.unchecked, value1 := some t.val
          value2 := some reason.code, value3 := mean, step := .idle, await := none, outstanding := o, release := r } } := by
    rintro q ⟨k, hk⟩
    obtain ⟨o, r, hr⟩ := Part.ctx_enterRelease (q.mapWork b s (fun w => { w with
      outcome := .notIsolated, stamp := some p.stamp, limits := Limits.unchecked, value1 := some t.val
      value2 := some reason.code, value3 := mean })) b s
    rw [Part.ctx_mapWork, hk] at hr
    exact ⟨o, r, hr.trans (by simp only [Ctx.mapWork, Work.stopped])⟩
  obtain ⟨k, hk⟩ := Part.ctx_keepFlying (p.withdrawEntries b s (fun e => e.purpose == .isolate)) b s
  rw [Part.ctx_withdrawEntries] at hk
  unfold Part.notIsolated
  simp only [h, Bool.false_eq_true, if_false]
  exact hrelease _ ⟨k, hk⟩

@[simp] theorem Part.ctx_endWith (p : Part) (b : Bay) (s : Slot) (v : Verdict) (cause : Option Cause) :
    (p.endWith b s v cause).ctx b s = { p.ctx b s with
      exit := if (p.ctx b s).exit = .stay then .ending else (p.ctx b s).exit
      out := (p.ctx b s).out ++ [OutItem.verdict v cause] } := Part.ctx_mapCtx p b s _

theorem Ctx.derating_of {c : Ctx} {k : Check} (h : c.check = some k) : c.derating = k.isDerate := by
  unfold Ctx.derating
  rw [h]
  rfl

/-! ### Measurements -/

/-- The part that judges a measurement, which is over. -/
def Part.judging (p : Part) (b : Bay) (x : Slot) : Part := p.fresh.mapWork b x (fun w => { w with meas := none })

@[simp] theorem Part.ctx_judging (p : Part) (b : Bay) (x : Slot) :
    (p.judging b x).ctx b x = (p.ctx b x).mapWork (fun w => { w with meas := none }) := Part.ctx_mapWork p.fresh b x _

section

variable {p : Part} {b : Bay} {x : Slot} {m : Measurement} {t : Stamp} {plan : Plan} {k : Check}

theorem Part.measured_prepare (hmeas : (p.ctx b x).work.meas = some m) (hdone : m.done = some t)
    (hplan : (p.ctx b x).plan = some plan) (hcheck : (p.ctx b x).check = some k) (hphase : (p.ctx b x).phase = .prepare) :
    p.fresh.measured b x = (p.judging b x).judgeIsolation b x plan m := by
  unfold Part.measured
  dsimp only
  rw [Part.ctx_fresh, hmeas, hplan, hcheck]
  dsimp only
  rw [hdone, hphase]
  rfl

theorem Part.measured_steady {o : SteadyCheck} (hmeas : (p.ctx b x).work.meas = some m) (hdone : m.done = some t)
    (hplan : (p.ctx b x).plan = some plan) (hcheck : (p.ctx b x).check = some k) (hphase : (p.ctx b x).phase = .measure)
    (hbody : k.body = .steady o) : p.fresh.measured b x = (p.judging b x).judgePass b x o m t := by
  unfold Part.measured
  dsimp only
  rw [Part.ctx_fresh, hmeas, hplan, hcheck]
  dsimp only
  rw [hdone, hphase, hbody]
  rfl

theorem Part.measured_share {o : ShareCheck} (hmeas : (p.ctx b x).work.meas = some m) (hdone : m.done = some t)
    (hplan : (p.ctx b x).plan = some plan) (hcheck : (p.ctx b x).check = some k) (hphase : (p.ctx b x).phase = .measure)
    (hbody : k.body = .share o) : p.fresh.measured b x = (p.judging b x).judgeShare b x o m t := by
  unfold Part.measured
  dsimp only
  rw [Part.ctx_fresh, hmeas, hplan, hcheck]
  dsimp only
  rw [hdone, hphase, hbody]
  rfl

theorem Part.measured_derate {o : DerateCheck} (hmeas : (p.ctx b x).work.meas = some m) (hdone : m.done = some t)
    (hplan : (p.ctx b x).plan = some plan) (hcheck : (p.ctx b x).check = some k) (hphase : (p.ctx b x).phase = .measure)
    (hbody : k.body = .derate o) : p.fresh.measured b x = (p.judging b x).judgePlateau b x o m t := by
  unfold Part.measured
  dsimp only
  rw [Part.ctx_fresh, hmeas, hplan, hcheck]
  dsimp only
  rw [hdone, hphase, hbody]
  rfl

end

/-- The settle span of the next STEADY pass, or RELEASE (R75). -/
theorem Part.ctx_judgePass {p : Part} {b : Bay} {x : Slot} {o : SteadyCheck} {m : Measurement} {v i : PointWindow} (t : Stamp)
    (hm : m.windows = [v, i]) : ∃ r : Record, ((p.judgePass b x o m t).ctx b x).work.passes = (p.ctx b x).work.passes ++ [r] ∧
      r.kind = .measure ∧ r.number = (p.ctx b x).work.passes.length + 1 ∧ r.value1 = some v.mean ∧ r.value2 = some i.mean ∧
      r.stamp = t ∧ r.limits = o.limits v.mean i.mean ∧ ((p.judgePass b x o m t).ctx b x).loop = (p.ctx b x).loop - 1 ∧
      (if (p.ctx b x).loop - 1 = 0 ∨ o.exit.holds o.window v.mean v.clipped v.drifted = true then
          ((p.judgePass b x o m t).ctx b x).phase = .release
        else ((p.judgePass b x o m t).ctx b x).phase = .apply ∧
          ((p.judgePass b x o m t).ctx b x).work.span = some ⟨.steadySettle, p.timer o.settle.ticks⟩) := by
  refine ⟨(p.ctx b x).passRecord b x (o.limits v.mean i.mean)
    { (p.ctx b x).marks with clipped := v.clipped, drifted := v.drifted } v.mean i.mean t, ?_⟩
  unfold Part.judgePass
  rw [hm]
  dsimp only
  by_cases hend : (p.ctx b x).loop - 1 = 0 ∨ o.exit.holds o.window v.mean v.clipped v.drifted = true
  · rw [if_pos hend, if_pos hend]
    obtain ⟨u, r, h⟩ := Part.ctx_enterRelease (p.mapCtx b x (fun c =>
      { c with marks := { (p.ctx b x).marks with clipped := v.clipped, drifted := v.drifted }, loop := (p.ctx b x).loop - 1 }.mapWork
        (fun w => { w with
          passes := w.passes ++ [c.passRecord b x (o.limits v.mean i.mean)
            { (p.ctx b x).marks with clipped := v.clipped, drifted := v.drifted } v.mean i.mean t]
          limits := o.limits v.mean i.mean, stamp := some t }))) b x
    rw [h, Part.ctx_mapCtx]
    exact ⟨rfl, rfl, rfl, rfl, rfl, rfl, rfl, rfl, rfl⟩
  · rw [if_neg hend, if_neg hend, Part.ctx_startSpan, Part.ctx_mapCtx, Part.ctx_setPhase, Part.ctx_mapCtx]
    exact ⟨rfl, rfl, rfl, rfl, rfl, rfl, rfl, rfl, rfl, rfl⟩

theorem Part.ctx_judgeShare {p : Part} {b : Bay} {x : Slot} {o : ShareCheck} {m : Measurement} {own : PointWindow} (t : Stamp)
    (hown : m.windows.find? (fun w => w.point == some x) = some own) :
    ((p.judgeShare b x o m t).ctx b x).phase = .release ∧
      ((p.judgeShare b x o m t).ctx b x).work.limits =
        ⟨some (decide (o.imbalance < imbalance own.mean (meanOf (m.windows.map PointWindow.mean)))), none, none⟩ ∧
      ((p.judgeShare b x o m t).ctx b x).work.value1 = some own.mean ∧
      ((p.judgeShare b x o m t).ctx b x).work.value2 = some (meanOf (m.windows.map PointWindow.mean)) ∧
      ((p.judgeShare b x o m t).ctx b x).work.value3 = some (imbalance own.mean (meanOf (m.windows.map PointWindow.mean))) ∧
      ((p.judgeShare b x o m t).ctx b x).work.stamp = some t := by
  unfold Part.judgeShare
  dsimp only
  rw [hown]
  dsimp only
  obtain ⟨u, r, h⟩ := Part.ctx_enterRelease (p.mapCtx b x (fun c =>
    { c with marks := { c.marks with clipped := own.clipped, drifted := own.drifted } }.mapWork (fun w => { w with
      limits := ⟨some (decide (o.imbalance < imbalance own.mean (meanOf (m.windows.map PointWindow.mean)))), none, none⟩
      value1 := some own.mean, value2 := some (meanOf (m.windows.map PointWindow.mean))
      value3 := some (imbalance own.mean (meanOf (m.windows.map PointWindow.mean))), stamp := some t }))) b x
  rw [h, Part.ctx_mapCtx]
  exact ⟨rfl, rfl, rfl, rfl, rfl, rfl⟩

theorem Part.ctx_judgePlateau {p : Part} {b : Bay} {x : Slot} {o : DerateCheck} {m : Measurement} {v : PointWindow} (t : Stamp)
    (hm : m.windows = [v]) :
    ((p.judgePlateau b x o m t).ctx b x).phase = .release ∧
      ((p.judgePlateau b x o m t).ctx b x).work.limits =
        { (p.ctx b x).work.limits with b := some (!o.window.has v.mean), c := some false } ∧
      ((p.judgePlateau b x o m t).ctx b x).work.value2 = some v.mean ∧
      ((p.judgePlateau b x o m t).ctx b x).work.stamp = some t ∧
      ((p.judgePlateau b x o m t).ctx b x).derate.exitHolds = o.exit.holds o.window v.mean v.clipped v.drifted := by
  unfold Part.judgePlateau
  rw [hm]
  dsimp only
  obtain ⟨u, r, h⟩ := Part.ctx_enterRelease (p.mapCtx b x (fun c =>
    ({ c with marks := { c.marks with clipped := v.clipped, drifted := v.drifted } }.mapWork (fun w => { w with
      limits := { w.limits with b := some (!o.window.has v.mean), c := some false }, value2 := some v.mean, stamp := some t })).mapLoop
        (fun l => { l with exitHolds := o.exit.holds o.window v.mean v.clipped v.drifted }))) b x
  rw [h, Part.ctx_mapCtx]
  exact ⟨rfl, rfl, rfl, rfl, rfl⟩

/-! ### The result of a check (R87, R88) -/

/-- What the result of a check makes of its context, as it stands when the result is applied (R27, R87, R88, R145). -/
def Part.Applied (b : Bay) (x : Slot) (c : Ctx) (k : Check) (plan : Plan) (q : Part) : Prop :=
  let noPlateau := k.isDerate && c.derate.outcome == .noPlateau
  (q.ctx b x).failed = c.failed + (if c.checkFailed then 1 else 0) ∧ (q.ctx b x).phase = .none ∧
  (c.checkFailed = true → noPlateau = true → (q.ctx b x).out = [.verdict .incomplete (some .noPlateau)]) ∧
  (c.checkFailed = true → noPlateau = false → k.onFail = .skipRest → (q.ctx b x).out = [.verdict .fail none]) ∧
  (c.checkFailed = true → noPlateau = false → k.onFail = .stopOutput →
    (q.ctx b x).outputOff = true ∧ (q.ctx b x).work.step = .stopOutput ∧ (q.ctx b x).out = []) ∧
  (c.checkFailed = false ∨ noPlateau = false ∧ k.onFail = .continue →
    (c.checkIndex + 1 < plan.checks.length →
      (q.ctx b x).checkIndex = c.checkIndex + 1 ∧ (q.ctx b x).out = [] ∧ q.todo.head? = some (.boundary b x)) ∧
    (plan.checks.length ≤ c.checkIndex + 1 →
      (q.ctx b x).out = [.verdict (if c.failed + (if c.checkFailed then 1 else 0) = 0 then .pass else .fail) none]))

theorem Part.Applied.later {b : Bay} {x : Slot} {c : Ctx} {k : Check} {plan : Plan} {q : Part} (h : q.Applied b x c k plan)
    (l : List Conseq) : (q.later l).Applied b x c k plan := by
  obtain ⟨hfailed, hphase, hno, hskip, hstop, hnext⟩ := h
  refine ⟨hfailed, hphase, hno, hskip, hstop, fun hf => ⟨fun hlt => ?_, (hnext hf).2⟩⟩
  obtain ⟨hindex, hout, hhead⟩ := (hnext hf).1 hlt
  refine ⟨hindex, hout, ?_⟩
  rw [Part.later_todo, List.head?_append, hhead]
  rfl

/-- The next check boundary, or the end of the plan (R27, R87). -/
theorem Part.nextCheck_does {p : Part} {b : Bay} {x : Slot} {plan : Plan} (hplan : (p.ctx b x).plan = some plan) (ht : p.todo = [])
    (hout : (p.ctx b x).out = []) :
    ((p.nextCheck b x).ctx b x).failed = (p.ctx b x).failed ∧ ((p.nextCheck b x).ctx b x).phase = .none ∧
    ((p.ctx b x).checkIndex + 1 < plan.checks.length →
      ((p.nextCheck b x).ctx b x).checkIndex = (p.ctx b x).checkIndex + 1 ∧ ((p.nextCheck b x).ctx b x).out = [] ∧
      (p.nextCheck b x).todo.head? = some (.boundary b x)) ∧
    (plan.checks.length ≤ (p.ctx b x).checkIndex + 1 →
      ((p.nextCheck b x).ctx b x).out = [.verdict (if (p.ctx b x).failed = 0 then .pass else .fail) none]) := by
  unfold Part.nextCheck
  dsimp only
  rw [hplan]
  by_cases hlt : (p.ctx b x).checkIndex + 1 < plan.checks.length
  · rw [if_pos (by exact hlt), Part.ctx_later, Part.ctx_mapCtx, Part.later_todo, Part.mapCtx_todo, ht]
    exact ⟨rfl, rfl, fun _ => ⟨rfl, hout, rfl⟩, fun hge => absurd hlt (by omega)⟩
  · rw [if_neg (by exact hlt), Part.ctx_later, Part.ctx_endWith, Part.ctx_setPhase]
    exact ⟨rfl, rfl, fun h => absurd h hlt, fun _ => congrArg (· ++ _) hout⟩

/-- The result of a check applied (R87, R88). -/
theorem Part.checkResult_applied {p : Part} {b : Bay} {x : Slot} {k : Check} {plan : Plan} (ht : p.todo = [])
    (hphase : (p.ctx b x).phase = .record) (hexit : (p.ctx b x).exit = .stay) (hout : (p.ctx b x).out = [])
    (hplan : (p.ctx b x).plan = some plan) (hcheck : (p.ctx b x).check = some k) :
    (p.checkResult b x).Applied b x (p.ctx b x) k plan := by
  unfold Part.checkResult Part.Applied
  dsimp only
  rw [hcheck]
  dsimp only
  rw [if_pos ⟨hphase, hexit⟩]
  cases hfailed : (p.ctx b x).checkFailed with
  | false =>
    obtain ⟨hf, hp, hlt, hge⟩ := Part.nextCheck_does hplan ht hout
    rw [if_neg nofun]
    exact ⟨hf, hp, nofun, nofun, nofun, fun _ => ⟨hlt, hge⟩⟩
  | true =>
    rw [if_pos rfl]
    have hctx := Part.ctx_mapCtx p b x (fun c => { c with failed := c.failed + 1 })
    cases hno : (k.isDerate && (p.ctx b x).derate.outcome == .noPlateau) with
    | true =>
      rw [if_pos rfl, Part.ctx_later, Part.ctx_endWith, Part.ctx_setPhase, hctx]
      exact ⟨rfl, rfl, fun _ _ => congrArg (· ++ _) hout, nofun, nofun, fun h => absurd h (by simp)⟩
    | false =>
      rw [if_neg nofun]
      cases hon : k.onFail with
      | skipRest =>
        dsimp only
        rw [Part.ctx_later, Part.ctx_endWith, Part.ctx_setPhase, hctx]
        exact ⟨rfl, rfl, nofun, fun _ _ _ => congrArg (· ++ _) hout, nofun, fun h => absurd h (by simp)⟩
      | stopOutput =>
        dsimp only
        have hctx' := Part.ctx_mapCtx (p.mapCtx b x (fun c => { c with failed := c.failed + 1 })) b x
          (fun c => { c with phase := .none, outputOff := true })
        rw [Part.ctx_handOwn (plan := plan) (by rw [hctx', hctx]; exact hplan), hctx', hctx]
        exact ⟨rfl, rfl, nofun, nofun, fun _ _ _ => ⟨rfl, rfl, hout⟩, fun h => absurd h (by simp)⟩
      | _ =>
        obtain ⟨hf, hp, hlt, hge⟩ := Part.nextCheck_does (p := p.mapCtx b x (fun c => { c with failed := c.failed + 1 }))
          ((congrArg Ctx.plan hctx).trans hplan) (by rw [Part.mapCtx_todo, ht]) ((congrArg Ctx.out hctx).trans hout)
        rw [hctx] at hf hlt hge
        exact ⟨hf, hp, nofun, nofun, nofun, fun _ => ⟨hlt, hge⟩⟩

/-- When a check is judged failed (R87, R145). -/
theorem Ctx.checkFailed_eq {c : Ctx} {k : Check} (h : c.check = some k) : c.checkFailed =
    if k.isDerate then decide (0 < c.derate.failed) || c.derate.outcome == .noPlateau
    else c.work.limits.a == some true || c.work.limits.b == some true || c.work.limits.c == some true ||
      c.work.outcome == .notIsolated || c.work.outcome == .disturbed || c.work.outcome == .noTrip := by
  unfold Ctx.checkFailed
  rw [Ctx.derating_of h]
  rfl

/-! ### What a context owes, in order (R166) -/

/-- What a context does with the next of what it owes (R85, R166, R167). -/
def Part.outputItem (p : Part) (b : Bay) (x : Slot) : OutItem → Part
  | .record r => p.makeReady b x r
  | .verdict v cause =>
    let q := p.mapCtx b x (fun c => { c with state := .ended, phase := .none, verdict := some v, cause := cause })
    (q.makeReady b x ((q.ctx b x).verdictRecord b x q.stamp)).later [.bayTest b]
  | .applyResult => p.later [.checkResult b x]
  | .plateauReturn => p.later [.plateauReturn b x]
  | .becomeAbsent => p.becomeAbsent b x

theorem Part.output_cons {p : Part} {b : Bay} {x : Slot} {o : OutItem} {l : List OutItem} (hline : (p.ctx b x).inLine = false)
    (hslot : ∀ e ∈ (p.bay b).line, e.slot ≠ x) (hout : (p.ctx b x).out = o :: l) :
    p.output b x = (p.mapCtx b x (fun c => { c with out := l })).outputItem b x o := by
  have hhas : (p.bay b).lineHas x = false := by
    unfold BayUnit.lineHas
    rw [List.any_eq_false]
    exact fun e he => by simpa using hslot e he
  unfold Part.output
  dsimp only
  rw [if_neg (by simp [hline, hhas])]
  split
  next hnil => exact absurd (hnil.symm.trans hout) nofun
  next o' l' hcons =>
    obtain ⟨rfl, rfl⟩ := List.cons.inj (hcons.symm.trans hout)
    cases o' <;> rfl

/-- A record enters a buffer with room (R166). -/
theorem Part.makeReady_room {p : Part} {b : Bay} {x : Slot} (h : (p.bay b).buffer.length < 8) (hline : (p.bay b).line = [])
    (r : Record) : p.makeReady b x r =
      (p.mapBay b (fun u => { u with buffer := u.buffer ++ [r] })).later [.writer, .output b x] := by
  have hroom : (p.bay b).hasRoom = true := by
    unfold BayUnit.hasRoom
    rw [hline]
    exact Bool.and_eq_true_iff.mpr ⟨decide_eq_true h, rfl⟩
  unfold Part.makeReady
  exact if_pos hroom

/-- The record count of a page written while a record waits in the entry line: its producer goes on (R166, R172). -/
theorem Owes.lineEnters {s : State} {g : Settings} {b : Bay} {r : Record} {l : List Record} {n : Nat} {e : LineEntry}
    {es : List LineEntry} (hg : s.part.settings = some g) (hdrain : (s.part.bay b).drain = .count)
    (hbuffer : (s.part.bay b).buffer = r :: l) (hpage : (s.part.bay b).currentPage = some n)
    (hline : (s.part.bay b).line = e :: es) : ∃ q : Part,
      Owes (.recordCountWritten b) s
        (s.book.writeBytes (s.part.base + g.poolOffset * 4096 + 4096 * n + 6) [BitVec.ofNat 8 ((s.part.bay b).pageCount + 1)])
        (q.later [.output b e.slot, .roomMade b, .writer, .bayTest b]) ∧
      q.todo = [] ∧ q.ctx b e.slot = { s.part.ctx b e.slot with inLine := false } ∧ (∀ x, x ≠ e.slot → q.ctx b x = s.part.ctx b x) ∧
      ∃ cs, q.bay b = { s.part.bay b with
        ctxs := cs, drain := .idle, buffer := l ++ [e.record], line := es, pageCount := (s.part.bay b).pageCount + 1
        fullWrites := (s.part.bay b).fullWrites ++ (if (s.part.bay b).pageCount + 1 = 63 then [n] else []) } := by
  have hwritten := State.drainWritten_eq hdrain (fun p => p.recordLeft b)
  unfold Part.drainBytes at hwritten
  simp only [hdrain, hbuffer, hpage, Option.getD_some] at hwritten
  rw [Part.pageAddr_eq hg] at hwritten
  have hbay := Part.bay_mapBay s.part.fresh b BayUnit.recordWritten
  have henters := Part.lineEnters_cons (p := s.part.fresh.mapBay b BayUnit.recordWritten) (b := b) (e := e) (l := es)
    (by rw [hbay]; exact hline)
  refine ⟨((s.part.fresh.mapBay b BayUnit.recordWritten).mapBay b (fun u => { u with buffer := u.buffer ++ [e.record], line := es })).mapCtx
      b e.slot (fun c => { c with inLine := false }), Owes.of_runWith hwritten ?_, rfl, ?_, fun x hx => ?_, ?_⟩
  · rw [Part.recordLeft_eq, henters, Part.later_later]
    rfl
  · rw [Part.ctx_mapCtx, Part.ctx_mapBay_ctxs _ _ _ rfl, Part.ctx_mapBay_ctxs _ _ _ rfl]
    rfl
  · rw [Part.ctx_mapCtx_other _ _ _ (Ne.symm hx), Part.ctx_mapBay_ctxs _ _ _ rfl, Part.ctx_mapBay_ctxs _ _ _ rfl]
    rfl
  · have hentered := Part.bay_mapBay (s.part.fresh.mapBay b BayUnit.recordWritten) b
      (fun u => { u with buffer := u.buffer ++ [e.record], line := es })
    have hgoes := Part.bay_mapBay ((s.part.fresh.mapBay b BayUnit.recordWritten).mapBay b
      (fun u => { u with buffer := u.buffer ++ [e.record], line := es })) b (fun u => u.mapCtx e.slot (fun c => { c with inLine := false }))
    have hrecord : (s.part.fresh.bay b).recordWritten = { s.part.bay b with
        drain := .idle, buffer := l, pageCount := (s.part.bay b).pageCount + 1
        fullWrites := (s.part.bay b).fullWrites ++ (if (s.part.bay b).pageCount + 1 = 63 then [n] else []) } := by
      unfold BayUnit.recordWritten
      simp [hbuffer, hpage]
    rw [hentered, hbay, hrecord] at hgoes
    exact ⟨_, hgoes⟩

/-- Settles O43. -/
theorem measurementsAreJudged : Obligations.MeasurementsAreJudged := by
  unfold Obligations.MeasurementsAreJudged
  intro applied
  have happlied : ∀ {b x c k plan q}, c.check = some k → Part.Applied b x c k plan q → applied b x c k plan q :=
    fun hcheck h => by
      unfold Part.Applied at h
      rw [Ctx.checkFailed_eq hcheck] at h
      exact h
  refine ⟨fun s b x plan k m t => ?_, fun p b x ht => ?_, fun s g b r l n e es k plan => ?_⟩
  · dsimp only
    intro hmeas hdone hplan hcheck
    have hguard : (s.part.ctx b x).measurementDone = true := by
      unfold Ctx.measurementDone
      rw [hmeas]
      exact Option.isSome_iff_exists.mpr ⟨t, hdone⟩
    have howes : ∀ q, s.part.fresh.measured b x = q → Owes (.measurementComplete b x) s s.book q := fun q hq =>
      Owes.of_runIf (f := fun p => p.measured b x) rfl hguard hq
    have hctx := Part.ctx_judging s.part b x
    refine ⟨fun hphase => ⟨fun hall => ?_, fun w hfind hkind => ?_⟩, fun o v i hphase hbody hwindows => ?_,
      fun o own hphase hbody hown => ?_, fun o v hphase hbody hwindows => ?_⟩
    · have hnone : m.windows.find? (fun w => decide (plan.isolation ≤ w.mean)) = none := by
        rw [List.find?_eq_none]
        intro w hw
        have hlow := List.all_eq_true.mp hall w hw
        simp only [decide_eq_true_eq] at hlow ⊢
        omega
      refine ⟨_, howes _ (Part.measured_prepare hmeas hdone hplan hcheck hphase), ?_⟩
      unfold Part.judgeIsolation
      dsimp only
      rw [hnone]
      exact Part.phase_enterApply _ b x
    · refine ⟨_, howes _ (Part.measured_prepare hmeas hdone hplan hcheck hphase), ?_⟩
      unfold Part.judgeIsolation
      dsimp only
      rw [hfind]
      obtain ⟨u, r, h⟩ := Part.ctx_notIsolated (p := s.part.judging b x) (b := b) (s := x) (by
        rw [hctx]
        exact (Ctx.derating_of hcheck).trans hkind) (w.point.getD x) .current (some w.mean)
      rw [h]
      exact ⟨rfl, rfl, rfl, rfl⟩
    · obtain ⟨r, hpasses, hkind, hnumber, hvolts, hamps, hstamp, hlimits, hloop, hends⟩ :=
        Part.ctx_judgePass (p := s.part.judging b x) (b := b) (x := x) (o := o) t hwindows
      rw [hctx] at hpasses hnumber hloop hends
      refine ⟨_, r, howes _ (Part.measured_steady hmeas hdone hplan hcheck hphase hbody), hpasses, hkind, hnumber, hvolts, hamps,
        hstamp, ?_, ?_, ?_, hloop, hends⟩
      all_goals rw [hlimits]
      all_goals unfold SteadyCheck.limits
      · exact congrArg some (Window.not_has_eq _ _)
      · rw [apart_eq]
      · rfl
    · obtain ⟨hrelease, hlimits, hown', hmean, himbalance, hstamp⟩ :=
        Part.ctx_judgeShare (p := s.part.judging b x) (b := b) (x := x) (o := o) t hown
      have hmeanOf : meanOf (m.windows.map PointWindow.mean) = (m.windows.map PointWindow.mean).sum / m.windows.length := by
        unfold meanOf
        rw [List.length_map]
      unfold imbalance at hlimits himbalance
      rw [hmeanOf, apart_eq] at hlimits himbalance
      rw [hmeanOf] at hmean
      exact ⟨_, howes _ (Part.measured_share hmeas hdone hplan hcheck hphase hbody), hrelease, hlimits, hown', hmean, himbalance,
        hstamp⟩
    · obtain ⟨hrelease, hlimits, hvolts, hstamp, hexit⟩ :=
        Part.ctx_judgePlateau (p := s.part.judging b x) (b := b) (x := x) (o := o) t hwindows
      rw [hctx, Window.not_has_eq] at hlimits
      exact ⟨_, howes _ (Part.measured_derate hmeas hdone hplan hcheck hphase hbody), hrelease, by rw [hlimits]; rfl, by rw [hlimits],
        by rw [hlimits], hvolts, hstamp, hexit⟩
  · dsimp only
    intro hline hslot
    have hbay : ∀ f : Ctx → Ctx, (p.mapCtx b x f).bay b = (p.bay b).mapCtx x f := fun f => Part.bay_mapBay p b (fun u => u.mapCtx x f)
    refine ⟨fun r l hout hroom hempty => ?_, fun l hout => ?_, fun k plan hphase hexit hout hplan hcheck => ?_⟩
    · have hq : consequence (.output b x) p =
          ((p.mapCtx b x (fun c => { c with out := l })).mapBay b (fun u => { u with buffer := u.buffer ++ [r] })).later
            [.writer, .output b x] :=
        (Part.output_cons hline hslot hout).trans
          (Part.makeReady_room (by rw [hbay]; exact hroom) (by rw [hbay]; exact hempty) r)
      have hbay' := Part.bay_mapBay (p.mapCtx b x (fun c => { c with out := l })) b (fun u => { u with buffer := u.buffer ++ [r] })
      rw [hbay] at hbay'
      rw [hq]
      refine ⟨congrArg BayUnit.buffer hbay', (congrArg BayUnit.line hbay').trans hempty, ?_, ?_⟩
      · rw [Part.ctx_later, Part.ctx_mapBay_ctxs _ _ _ rfl, Part.ctx_mapCtx]
      · rw [Part.later_todo, Part.mapBay_todo, Part.mapCtx_todo, ht, List.nil_append]
    · have hq : consequence (.output b x) p = (p.mapCtx b x (fun c => { c with out := l })).later [.checkResult b x] :=
        Part.output_cons hline hslot hout
      rw [hq]
      have hsame := hbay (fun c => { c with out := l })
      refine ⟨(congrArg BayUnit.buffer hsame).trans rfl, Part.ctx_mapCtx p b x _, ?_⟩
      rw [Part.later_todo, Part.mapCtx_todo, ht, List.nil_append]
    · exact happlied hcheck (Part.checkResult_applied ht hphase hexit hout hplan hcheck)
  · dsimp only
    intro hg hdrain hbuffer hpage hline hothers hphase hexit hout hplan hcheck
    obtain ⟨q, hq, ht, hctx, -, cs, hbay⟩ := Owes.lineEnters hg hdrain hbuffer hpage hline
    have hout' : (q.ctx b e.slot).out = .applyResult :: [] := by
      rw [hctx]
      exact hout
    have houtput : consequence (.output b e.slot) q = (q.mapCtx b e.slot (fun c => { c with out := [] })).later [.checkResult b e.slot] :=
      Part.output_cons (by rw [hctx]) (by rw [hbay]; exact hothers) hout'
    have hfirst := hq.step ht
    rw [houtput, Part.later_later] at hfirst
    have hctx' := Part.ctx_mapCtx q b e.slot (fun c => { c with out := [] })
    rw [hctx] at hctx'
    have hresult := Part.checkResult_applied (p := q.mapCtx b e.slot (fun c => { c with out := [] })) (b := b) (x := e.slot) (k := k)
      (plan := plan) ht (by rw [hctx']; exact hphase) (by rw [hctx']; exact hexit) (by rw [hctx'])
      (by rw [hctx']; exact hplan) (by rw [hctx']; exact hcheck)
    rw [hctx'] at hresult
    exact ⟨_, hfirst.step (by omega) ht, happlied hcheck (hresult.later _)⟩

end Sys2Proof.Machine
end

section
/-! A trip firing (R77, R81, R116, R119, R143). -/

namespace Sys2Proof.Machine

/-! ### The load channels through the operations of a check -/

@[simp] theorem Part.handOver_chans (p : Part) (b : Bay) (e : Entry) : (p.handOver b e).2.chans = p.chans := by
  obtain ⟨l, t, h⟩ := Part.handOver_eq p b e
  rw [h]
  rfl

@[simp] theorem Part.handOwn_chans (p : Part) (b : Bay) (s : Slot) (kind : TxKind) (trim : Nat) (step : SubStep) :
    (p.handOwn b s kind trim step).chans = p.chans := by
  unfold Part.handOwn
  split
  · rfl
  · exact Part.handOver_chans _ _ _

@[simp] theorem Part.startSpan_chans (p : Part) (b : Bay) (s : Slot) (k : SpanKind) (span : Span) :
    (p.startSpan b s k span).chans = p.chans := rfl

@[simp] theorem Part.enterRecover_chans (p : Part) (b : Bay) (s : Slot) (span : Span) :
    (p.enterRecover b s span).chans = p.chans := rfl

@[simp] theorem Part.withdrawEntries_chans (p : Part) (b : Bay) (s : Slot) (f : Entry → Bool) :
    (p.withdrawEntries b s f).chans = p.chans := rfl

theorem Part.ocpTrip_chans (p : Part) (b : Bay) (s : Slot) (plan : Plan) (q : OcpCheck) (k : Capture) (firedAt : Nat) :
    (p.ocpTrip b s plan q k firedAt).chans = p.chans := rfl

theorem Part.ovpTrip_chans (p : Part) (b : Bay) (s : Slot) (plan : Plan) (q : OvpCheck) (k : Capture) (volts : Nat) :
    (p.ovpTrip b s plan q k volts).chans = p.chans := by
  unfold Part.ovpTrip
  dsimp only
  split
  · simp only [Part.mapWork_chans, Part.enterRecover_chans, Part.withdrawEntries_chans]
  · simp only [Part.handOwn_chans, Part.mapWork_chans, Part.enterRecover_chans, Part.withdrawEntries_chans]

theorem Part.derateTrip_chans (p : Part) (b : Bay) (s : Slot) (k : Capture) : (p.derateTrip b s k).chans = p.chans := by
  unfold Part.derateTrip
  rw [Part.handOwn_chans]
  rfl

/-- What the owner of a channel does with a capture leaves the channels. -/
theorem Part.onTrip_chans (p : Part) (c : Chan) (setpoint peak volts : Nat) (f : Firing) :
    (p.onTrip c setpoint peak volts f).chans = p.chans := by
  unfold Part.onTrip
  split
  · rfl
  · dsimp only
    split
    · split
      · split
        · exact Part.ocpTrip_chans _ _ _ _ _ _ _
        · exact Part.ovpTrip_chans _ _ _ _ _ _ _
        · exact Part.derateTrip_chans _ _ _ _
        · exact Part.derateTrip_chans _ _ _ _
        · rfl
      · rfl
    · rfl

theorem Part.chan_eq_of_chans {p q : Part} (h : p.chans = q.chans) (c : Chan) : p.chan c = q.chan c := by
  unfold Part.chan
  rw [h]

theorem Part.chan_dropChan (p : Part) (c : Chan) : (p.dropChan c).chan c = (p.chan c).drop := by
  unfold Part.dropChan
  dsimp only
  split
  · exact Part.chan_mapChan p c _
  · exact Part.chan_mapChan p c _

/-- A drop in CLOSED (R116). -/
theorem Channel.drop_closed {c : Channel} (h : c.relay = .closed) :
    c.drop = { c with setpoint := 0, ramp := .dropped, params := none, ceilingHold := false, detector := none } := by
  unfold Channel.drop
  rw [h]

@[simp] theorem Part.dropChan_bays (p : Part) (c : Chan) : (p.dropChan c).bays = p.bays := by
  unfold Part.dropChan
  dsimp only
  split <;> rfl

theorem Part.link_dropChan (p : Part) (c : Chan) (b : Bay) : (p.dropChan c).link b = p.link b := by
  unfold Part.link Part.bay
  rw [Part.dropChan_bays]

@[simp] theorem Part.dropChan_tick (p : Part) (c : Chan) : (p.dropChan c).tick = p.tick := by
  unfold Part.dropChan
  dsimp only
  split <;> rfl

/-! ### A capture handed to the owner -/

section

variable {p : Part} {c : Chan} {b : Bay} {x : Slot} {plan : Plan} {k : OnFail}

theorem Part.onTrip_ocp {o : OcpCheck} (howner : (p.chan c).owner = some (b, x)) (habort : (p.ctx b x).work.aborting = none)
    (hplan : (p.ctx b x).plan = some plan) (hcheck : (p.ctx b x).check = some ⟨k, .ocp o⟩) (hphase : (p.ctx b x).phase = .apply)
    (setpoint peak volts : Nat) (f : Firing) :
    p.onTrip c setpoint peak volts f = p.ocpTrip b x plan o (captureOf setpoint peak f) f.sample := by
  have hunaborted : (p.ctx b x).unaborted = true := Option.isNone_iff_eq_none.mpr habort
  unfold Part.onTrip
  rw [howner]
  dsimp only
  rw [if_pos hunaborted, hplan, hcheck]
  dsimp only
  rw [hphase]

theorem Part.onTrip_ovp {o : OvpCheck} (howner : (p.chan c).owner = some (b, x)) (habort : (p.ctx b x).work.aborting = none)
    (hplan : (p.ctx b x).plan = some plan) (hcheck : (p.ctx b x).check = some ⟨k, .ovp o⟩) (hphase : (p.ctx b x).phase = .apply)
    (setpoint peak volts : Nat) (f : Firing) :
    p.onTrip c setpoint peak volts f = p.ovpTrip b x plan o (captureOf setpoint peak f) volts := by
  have hunaborted : (p.ctx b x).unaborted = true := Option.isNone_iff_eq_none.mpr habort
  unfold Part.onTrip
  rw [howner]
  dsimp only
  rw [if_pos hunaborted, hplan, hcheck]
  dsimp only
  rw [hphase]

theorem Part.onTrip_derate {o : DerateCheck} (howner : (p.chan c).owner = some (b, x)) (habort : (p.ctx b x).work.aborting = none)
    (hplan : (p.ctx b x).plan = some plan) (hcheck : (p.ctx b x).check = some ⟨k, .derate o⟩)
    (hphase : (p.ctx b x).phase = .apply ∨ (p.ctx b x).phase = .measure) (setpoint peak volts : Nat) (f : Firing) :
    p.onTrip c setpoint peak volts f = p.derateTrip b x (captureOf setpoint peak f) := by
  have hunaborted : (p.ctx b x).unaborted = true := Option.isNone_iff_eq_none.mpr habort
  unfold Part.onTrip
  rw [howner]
  dsimp only
  rw [if_pos hunaborted, hplan, hcheck]
  dsimp only
  obtain hphase | hphase := hphase
  · rw [hphase]
  · rw [hphase]

end

theorem Part.ctx_ocpTrip (p : Part) (b : Bay) (x : Slot) (plan : Plan) (o : OcpCheck) (k : Capture) (firedAt : Nat) :
    (p.ocpTrip b x plan o k firedAt).ctx b x = { p.ctx b x with
      phase := .observe
      work := { (p.ctx b x).work.stopped with
        capture := some k, stamp := some p.stamp, value1 := some k.peak
        limits := { (p.ctx b x).work.limits with a := some (!o.window.has k.peak) }
        watch := some (.restart plan.restart o.confirm firedAt 0 0 none)
        span := some ⟨.restartWindow, p.timer o.restartWindow.ticks⟩ } } := by
  unfold Part.ocpTrip
  dsimp only
  rw [Part.ctx_startSpan, Part.ctx_setPhase, Part.ctx_mapWork]
  rfl

@[simp] theorem Part.link_mapWork (p : Part) (b : Bay) (s : Slot) (f : Work → Work) (b' : Bay) :
    (p.mapWork b s f).link b' = p.link b' := Part.link_mapCtx p b s _ b'

@[simp] theorem Part.link_enterRecover (p : Part) (b : Bay) (s : Slot) (span : Span) (b' : Bay) :
    (p.enterRecover b s span).link b' = p.link b' := by
  unfold Part.enterRecover Part.startSpan Part.setPhase
  rw [Part.link_mapWork, Part.link_mapWork, Part.link_mapCtx]

/-- The transaction in flight is not withdrawn (R159). -/
theorem Part.flying_withdrawEntries (p : Part) (b : Bay) (s : Slot) (f : Entry → Bool) :
    ((p.withdrawEntries b s f).link b).flying = (p.link b).flying := by
  unfold Part.withdrawEntries
  rw [Part.link_mapLink]
  rfl

/-- An overvoltage trip: RECOVER, with the nominal trim next, behind a TRIM_SET in flight (R81). -/
theorem Part.ctx_ovpTrip {p : Part} {b : Bay} {x : Slot} {plan : Plan} (hplan : (p.ctx b x).plan = some plan) (o : OvpCheck)
    (k : Capture) (volts : Nat) : ∃ st aw tr, (p.ovpTrip b x plan o k volts).ctx b x = { p.ctx b x with
      phase := .recover
      work := { (p.ctx b x).work.stopped with
        capture := some k, stamp := some p.stamp, value1 := some volts
        limits := { (p.ctx b x).work.limits with a := some (!o.window.has volts) }
        recoverTick := p.tick, span := some ⟨.recovery, p.timer o.recovery.ticks⟩, step := st, await := aw, trim := tr } } ∧
      ((p.ctx b x).work.await.any (p.link b).flying = true → st = .restoreWait) ∧
      ((p.ctx b x).work.await.any (p.link b).flying = false → st = .restoreTrim ∧ tr = plan.nominal) := by
  have hmain : ∀ q : Part, q.ctx b x = { p.ctx b x with
        phase := .recover
        work := { (p.ctx b x).work.stopped with
          capture := some k, stamp := some p.stamp, value1 := some volts
          limits := { (p.ctx b x).work.limits with a := some (!o.window.has volts) }
          recoverTick := p.tick, span := some ⟨.recovery, p.timer o.recovery.ticks⟩ } } →
      (q.link b).flying = (p.link b).flying →
      ∃ st aw tr, (if (q.ctx b x).work.await.any (q.link b).flying then q.mapWork b x (fun w => { w with step := .restoreWait })
          else q.handOwn b x .trimSet plan.nominal .restoreTrim).ctx b x = { p.ctx b x with
        phase := .recover
        work := { (p.ctx b x).work.stopped with
          capture := some k, stamp := some p.stamp, value1 := some volts
          limits := { (p.ctx b x).work.limits with a := some (!o.window.has volts) }
          recoverTick := p.tick, span := some ⟨.recovery, p.timer o.recovery.ticks⟩, step := st, await := aw, trim := tr } } ∧
        ((p.ctx b x).work.await.any (p.link b).flying = true → st = .restoreWait) ∧
        ((p.ctx b x).work.await.any (p.link b).flying = false → st = .restoreTrim ∧ tr = plan.nominal) := fun q hq hlink => by
    have hawait : (q.ctx b x).work.await.any (q.link b).flying = (p.ctx b x).work.await.any (p.link b).flying := by
      rw [hq, hlink]
      rfl
    rw [hawait]
    by_cases hfly : (p.ctx b x).work.await.any (p.link b).flying = true
    · rw [if_pos hfly, Part.ctx_mapWork, hq]
      exact ⟨_, _, _, rfl, fun _ => rfl, fun h => absurd hfly (by simp [h])⟩
    · rw [if_neg hfly, Part.ctx_handOwn (plan := plan) (by rw [hq]; exact hplan), hq]
      exact ⟨_, _, _, rfl, fun h => absurd h hfly, fun _ => ⟨rfl, rfl⟩⟩
  refine hmain _ ?_ ?_
  · rw [Part.ctx_enterRecover, Part.ctx_withdrawEntries, Part.ctx_mapWork]
    rfl
  · rw [Part.link_enterRecover, Part.flying_withdrawEntries, Part.link_mapWork]

theorem Part.ctx_derateTrip {p : Part} {b : Bay} {x : Slot} {plan : Plan} (hplan : (p.ctx b x).plan = some plan) (k : Capture) :
    ∃ aw, (p.derateTrip b x k).ctx b x = { p.ctx b x with
      phase := .recover, derate := { (p.ctx b x).derate with tripped := true }
      work := { (p.ctx b x).work.stopped with
        capture := some k, stamp := some p.stamp, limits := { (p.ctx b x).work.limits with c := some true }
        step := .derateClear, await := aw } } := by
  have hctx := Part.ctx_mapCtx p b x (fun c =>
    (c.mapWork (fun w =>
      { w.stopped with capture := some k, stamp := some p.stamp, limits := { w.limits with c := some true } })).mapLoop
      (fun l => { l with tripped := true }))
  unfold Part.derateTrip
  dsimp only
  rw [Part.ctx_handOwn (plan := plan) (by rw [Part.ctx_setPhase, hctx]; exact hplan), Part.ctx_setPhase, hctx]
  exact ⟨_, rfl⟩

/-- Settles O42. -/
theorem tripDropsTheChannel : Obligations.TripDropsTheChannel := by
  unfold Obligations.TripDropsTheChannel
  intro s c d f hdetector hfiring hrelay
  have htrip : s.part.fresh.tripFiring c = (s.part.fresh.dropChan c).onTrip c (s.part.chan c).setpoint
      (d.peaks.getD (f.current, f.voltage)).1 (d.peaks.getD (f.current, f.voltage)).2 f := by
    unfold Part.tripFiring
    dsimp only
    rw [Part.chan_fresh, hdetector]
    dsimp only
    rw [hfiring]
  have hfired : (s.part.chan c).fired = true := by
    unfold Channel.fired
    rw [hdetector]
    exact Option.isSome_iff_exists.mpr ⟨f, hfiring⟩
  have hchan : ((s.part.fresh.dropChan c).chan c) = { s.part.chan c with
      setpoint := 0, ramp := .dropped, params := none, ceilingHold := false, detector := none } :=
    (Part.chan_dropChan s.part.fresh c).trans (Channel.drop_closed hrelay)
  have hctx : ∀ b x, (s.part.fresh.dropChan c).ctx b x = s.part.ctx b x := fun b x => Part.ctx_dropChan s.part.fresh c b x
  have howner : ((s.part.fresh.dropChan c).chan c).owner = (s.part.chan c).owner := by rw [hchan]
  refine ⟨_, Owes.of_runIf (f := fun p => p.tripFiring c) rfl hfired htrip, ?_⟩
  rw [Part.chan_eq_of_chans (Part.onTrip_chans _ _ _ _ _ _) c, hchan]
  refine ⟨rfl, rfl, rfl, rfl, fun b x plan k o how habort hplan hcheck hphase => ?_,
    fun b x plan k o how habort hplan hcheck hphase => ?_, fun b x plan k o how habort hplan hcheck hphase => ?_⟩
  · rw [Part.onTrip_ocp (howner.trans how) (by rw [hctx]; exact habort) (by rw [hctx]; exact hplan) (by rw [hctx]; exact hcheck)
      (by rw [hctx]; exact hphase), Part.ctx_ocpTrip, hctx, Window.not_has_eq]
    refine ⟨rfl, rfl, rfl, ?_⟩
    unfold Part.timer
    rw [Part.dropChan_tick]
    rfl
  · rw [Part.onTrip_ovp (howner.trans how) (by rw [hctx]; exact habort) (by rw [hctx]; exact hplan) (by rw [hctx]; exact hcheck)
      (by rw [hctx]; exact hphase)]
    obtain ⟨st, aw, tr, hq, hfly, hstill⟩ := Part.ctx_ovpTrip (p := s.part.fresh.dropChan c) (b := b) (x := x)
      (by rw [hctx]; exact hplan) o (captureOf (s.part.chan c).setpoint (d.peaks.getD (f.current, f.voltage)).1 f)
      (d.peaks.getD (f.current, f.voltage)).2
    rw [hctx, Part.link_dropChan] at hfly hstill
    rw [hq, hctx, Window.not_has_eq]
    refine ⟨rfl, rfl, rfl, rfl, ?_, Part.dropChan_tick _ _, hfly, hstill⟩
    unfold Part.timer
    rw [Part.dropChan_tick]
    rfl
  · rw [Part.onTrip_derate (howner.trans how) (by rw [hctx]; exact habort) (by rw [hctx]; exact hplan) (by rw [hctx]; exact hcheck)
      (by rw [hctx]; exact List.mem_pair.mp hphase)]
    obtain ⟨aw, hq⟩ := Part.ctx_derateTrip (p := s.part.fresh.dropChan c) (b := b) (x := x)
      (by rw [hctx]; exact hplan) (captureOf (s.part.chan c).setpoint (d.peaks.getD (f.current, f.voltage)).1 f)
    rw [hq]
    exact ⟨rfl, rfl, rfl, rfl, rfl⟩

end Sys2Proof.Machine
end

section
/-! The relays of a channel, and the requests, grants and releases of buses and channels (R84, R97 to R105, R112, R117). -/

namespace Sys2Proof.Machine

/-! ### Placing an entry (R97) -/

theorem throughLastMarked_unmarked {α : Type} {marked : α → Bool} {r : List α} (h : ∀ e ∈ r, marked e = false) :
    throughLastMarked marked r = 0 := by
  induction r with
  | nil => rfl
  | cons e r ih =>
    unfold throughLastMarked
    dsimp only
    rw [ih (fun f hf => h f (List.mem_cons_of_mem e hf)), h e (List.mem_cons_self ..)]
    rfl

/-- Behind the last marked entry stand the unmarked ones. -/
theorem throughLastMarked_append {α : Type} {marked : α → Bool} {l r : List α} (hr : ∀ e ∈ r, marked e = false)
    (hl : ∀ e ∈ l.getLast?, marked e = true) : throughLastMarked marked (l ++ r) = l.length := by
  induction l with
  | nil => exact throughLastMarked_unmarked hr
  | cons e l ih =>
    rw [List.cons_append]
    unfold throughLastMarked
    dsimp only
    cases l with
    | nil =>
      rw [List.nil_append, throughLastMarked_unmarked hr, if_neg (by omega), if_pos (hl e rfl)]
      rfl
    | cons f l =>
      rw [ih (by rwa [List.getLast?_cons_cons] at hl), if_pos (by simp)]
      rfl

theorem placeEntry_marked {α : Type} {marked : α → Bool} {e : α} {l r : List α} (he : marked e = true)
    (hr : ∀ f ∈ r, marked f = false) (hl : ∀ f ∈ l.getLast?, marked f = true) : placeEntry marked e (l ++ r) = l ++ e :: r := by
  unfold placeEntry
  rw [if_pos he, throughLastMarked_append hr hl]
  simp

theorem placeEntry_unmarked {α : Type} {marked : α → Bool} {e : α} {l : List α} (he : marked e = false) :
    placeEntry marked e l = l ++ [e] := if_neg (by simp [he])

/-! ### Grants -/

theorem Part.requestChan_some {p : Part} {k : Chan} (h : p.freeChan = some k) (b : Bay) (s : Slot) :
    p.requestChan b s = p.grantChan b s k := by
  unfold Part.requestChan
  rw [h]

theorem Part.requestChan_none {p : Part} (h : p.freeChan = none) (b : Bay) (s : Slot) : p.requestChan b s =
    { p with chanQueue := placeEntry ChanEntry.plateau ⟨b, s, p.plateauRequest b s⟩ p.chanQueue } := by
  unfold Part.requestChan
  rw [h]

theorem Part.chan_grantChan (p : Part) (b : Bay) (s : Slot) (c : Chan) :
    (p.grantChan b s c).chan c = (p.chan c).connect b s p.samples := Part.chan_mapChan p c _

@[simp] theorem Part.ctx_grantChan (p : Part) (b : Bay) (s : Slot) (c : Chan) :
    (p.grantChan b s c).ctx b s = { p.ctx b s with phase := .connect } := Part.ctx_setPhase _ b s _

/-- A channel request leaves the buses. -/
theorem Part.bus_requestChan (p : Part) (b : Bay) (s : Slot) (b' : Bay) :
    ((p.requestChan b s).bay b').busHolder = (p.bay b').busHolder ∧ ((p.requestChan b s).bay b').busQueue = (p.bay b').busQueue := by
  cases h : p.freeChan with
  | none =>
    rw [Part.requestChan_none h]
    exact ⟨rfl, rfl⟩
  | some k =>
    rw [Part.requestChan_some h]
    by_cases hb : b = b'
    · subst hb
      have hbay : (p.grantChan b s k).bay b = (p.bay b).mapCtx s (fun c => { c with phase := .connect }) :=
        Part.bay_mapBay (p.mapChan k _) b (fun u => u.mapCtx s (fun c => { c with phase := .connect }))
      rw [hbay]
      exact ⟨rfl, rfl⟩
    · have hbay : (p.grantChan b s k).bay b' = p.bay b' := Part.bay_mapCtx_other (p.mapChan k _) s _ hb
      rw [hbay]
      exact ⟨rfl, rfl⟩

/-- The part that grants a bus, before the channel request. -/
def Part.granting (p : Part) (b : Bay) (s : Slot) : Part :=
  (p.mapBay b (fun u => { u with busHolder := some s })).setPhase b s .channelWait

@[simp] theorem Part.ctx_granting (p : Part) (b : Bay) (s : Slot) :
    (p.granting b s).ctx b s = { p.ctx b s with phase := .channelWait } := by
  unfold Part.granting
  rw [Part.ctx_setPhase, Part.ctx_mapBay_ctxs p b (fun u => { u with busHolder := some s }) rfl]

theorem Part.bus_granting (p : Part) (b : Bay) (s : Slot) : ((p.granting b s).bay b).busHolder = some s ∧
    ((p.granting b s).bay b).busQueue = (p.bay b).busQueue := by
  have hheld := Part.bay_mapBay p b (fun u => { u with busHolder := some s })
  have hbay := Part.bay_mapBay (p.mapBay b (fun u => { u with busHolder := some s })) b
    (fun u => u.mapCtx s (fun c => { c with phase := .channelWait }))
  rw [hheld] at hbay
  have hgranting : (p.granting b s).bay b = _ := hbay
  rw [hgranting]
  exact ⟨rfl, rfl⟩

theorem Part.bus_grantBus (p : Part) (b : Bay) (s : Slot) : ((p.grantBus b s).bay b).busHolder = some s ∧
    ((p.grantBus b s).bay b).busQueue = (p.bay b).busQueue := by
  obtain ⟨hholder, hqueue⟩ := Part.bus_requestChan (p.granting b s) b s b
  obtain ⟨hs, hq⟩ := Part.bus_granting p b s
  exact ⟨hholder.trans hs, hqueue.trans hq⟩

/-- The lowest-numbered channel without an owner (R102). -/
theorem Part.freeChan_lowest {p : Part} {k : Chan} (h : p.freeChan = some k) :
    (p.chan k).owner = none ∧ ∀ j, j < k → (p.chan j).owner ≠ none := by
  have hmem : ∀ j : Chan, j ∈ allChans := by decide
  have hrising : allChans.Pairwise (· < ·) := by decide
  obtain ⟨hk, as, bs, hsplit, has⟩ := List.find?_eq_some_iff_append.mp h
  refine ⟨Option.isNone_iff_eq_none.mp hk, fun j hj hfree => ?_⟩
  have hjas : j ∈ as := by
    have hj' := hsplit ▸ hmem j
    rw [hsplit, List.pairwise_append] at hrising
    rcases List.mem_append.mp hj' with hin | hin
    · exact hin
    · rcases List.mem_cons.mp hin with rfl | hbs
      · exact absurd hj (lt_irrefl _)
      · exact absurd hj (not_lt.mpr (le_of_lt ((List.pairwise_cons.mp hrising.2.1).1 j hbs)))
  have := has j hjas
  rw [hfree] at this
  exact nomatch this

/-- The test of a request against the plateau of its zone reads no phase (R98). -/
theorem Part.plateauRequest_setPhase (p : Part) (b : Bay) (s : Slot) (ph : Phase) :
    (p.setPhase b s ph).plateauRequest b s = p.plateauRequest b s := by
  unfold Part.plateauRequest
  rw [Part.ctx_setPhase]
  rfl

theorem Part.requestBus_held {p : Part} {b : Bay} {s y : Slot} (h : (p.bay b).busHolder = some y) : p.requestBus b s =
    (p.setPhase b s .busWait).mapBay b (fun u =>
      { u with busQueue := placeEntry BusEntry.plateau ⟨s, p.plateauRequest b s⟩ u.busQueue }) := by
  have hbay : (p.setPhase b s .busWait).bay b = (p.bay b).mapCtx s (fun c => { c with phase := .busWait }) :=
    Part.bay_mapBay p b (fun u => u.mapCtx s (fun c => { c with phase := .busWait }))
  have hholder : ((p.setPhase b s .busWait).bay b).busHolder = some y := by
    rw [hbay]
    exact h
  unfold Part.requestBus
  dsimp only
  rw [hholder, Part.plateauRequest_setPhase]

theorem Part.requestBus_free {p : Part} {b : Bay} {s : Slot} (h : (p.bay b).busHolder = none) :
    p.requestBus b s = (p.setPhase b s .busWait).grantBus b s := by
  have hbay : (p.setPhase b s .busWait).bay b = (p.bay b).mapCtx s (fun c => { c with phase := .busWait }) :=
    Part.bay_mapBay p b (fun u => u.mapCtx s (fun c => { c with phase := .busWait }))
  have hholder : ((p.setPhase b s .busWait).bay b).busHolder = none := by
    rw [hbay]
    exact h
  unfold Part.requestBus
  dsimp only
  rw [hholder]

theorem Part.releaseBus_refused {p : Part} {b : Bay} (h : p.mayReleaseBus b = false) : p.releaseBus b = p := if_neg (by simp [h])

theorem Part.releaseBus_empty {p : Part} {b : Bay} (h : p.mayReleaseBus b = true) (hq : (p.bay b).busQueue = []) :
    p.releaseBus b = p.mapBay b (fun u => { u with busHolder := none }) := by
  unfold Part.releaseBus
  rw [if_pos h, hq]

theorem Part.releaseBus_next {p : Part} {b : Bay} {e : BusEntry} {l : List BusEntry} (h : p.mayReleaseBus b = true)
    (hq : (p.bay b).busQueue = e :: l) :
    p.releaseBus b = (p.mapBay b (fun u => { u with busHolder := none, busQueue := l })).grantBus b e.slot := by
  unfold Part.releaseBus
  rw [if_pos h, hq]

/-- A release is taken only when the bay owns and awaits no channel (R105). -/
theorem Part.mayReleaseBus_iff_free (p : Part) (b : Bay) : p.mayReleaseBus b = true ↔
    (∀ k, (p.chan k).owner.map Prod.fst ≠ some b) ∧ ∀ e ∈ p.chanQueue, e.bay ≠ b := by
  rw [Part.mayReleaseBus_iff]
  refine and_congr_left' (forall_congr' fun k => ?_)
  show (∀ x, (p.chan k).owner ≠ some (b, x)) ↔ _
  cases (p.chan k).owner with
  | none => simp
  | some o =>
    obtain ⟨b', x⟩ := o
    simp

/-! ### Channels OPEN (R84, R103) -/

@[simp] theorem Part.ctx_handRestore (p : Part) (b : Bay) (s t : Slot) (b' : Bay) (x : Slot) :
    (p.handRestore b s t).ctx b' x = p.ctx b' x := by
  unfold Part.handRestore
  split
  · rfl
  · split
    · rfl
    · exact Part.ctx_handOver _ _ _ _ _

theorem Part.handRestore_tables (p : Part) (b : Bay) (s t : Slot) :
    (p.handRestore b s t).chans = p.chans ∧ (p.handRestore b s t).chanQueue = p.chanQueue := by
  unfold Part.handRestore
  split
  · exact ⟨rfl, rfl⟩
  · split
    · exact ⟨rfl, rfl⟩
    · obtain ⟨l, n, h⟩ := Part.handOver_eq p b { target := t, kind := .outputOn, cmd := _, data := _, who := _, purpose := .restore, onValue := _, ref := 0, fell := false }
      rw [h]
      exact ⟨rfl, rfl⟩

theorem Part.restoreStandby_does (p : Part) (b : Bay) (s : Slot) : (∀ b' x, (p.restoreStandby b s).ctx b' x = p.ctx b' x) ∧
    (p.restoreStandby b s).chans = p.chans ∧ (p.restoreStandby b s).chanQueue = p.chanQueue := by
  have hfold : ∀ (l : List Slot) (q : Part), (∀ b' x, (l.foldl (fun p t => p.handRestore b s t) q).ctx b' x = q.ctx b' x) ∧
      (l.foldl (fun p t => p.handRestore b s t) q).chans = q.chans ∧
      (l.foldl (fun p t => p.handRestore b s t) q).chanQueue = q.chanQueue := fun l => by
    induction l with
    | nil => exact fun q => ⟨fun _ _ => rfl, rfl, rfl⟩
    | cons t l ih =>
      intro q
      obtain ⟨hctx, hchans, hqueue⟩ := ih (q.handRestore b s t)
      obtain ⟨hc, hk⟩ := Part.handRestore_tables q b s t
      exact ⟨fun b' x => (hctx b' x).trans (Part.ctx_handRestore q b s t b' x), hchans.trans hc, hqueue.trans hk⟩
  exact hfold allSlots p

theorem Part.releaseChan_free {p : Part} (h : p.chanQueue = []) (c : Chan) : p.releaseChan c = p.mapChan c Channel.released := by
  unfold Part.releaseChan
  dsimp only
  rw [Part.mapChan_chanQueue, h]

theorem Part.releaseChan_next {p : Part} {e : ChanEntry} {l : List ChanEntry} (h : p.chanQueue = e :: l) (c : Chan) :
    p.releaseChan c = ({ p.mapChan c Channel.released with chanQueue := l }).grantChan e.bay e.slot c := by
  unfold Part.releaseChan
  dsimp only
  rw [Part.mapChan_chanQueue, h]

/-- A check whose channel is OPEN releases it, and restores its standby set in RELEASE (R84, R103). -/
theorem Part.onOpen_owned {p : Part} {c : Chan} {b : Bay} {x : Slot} (h : (p.chan c).owner = some (b, x)) :
    ((p.onOpen c).ctx b x).phase = .release ∧ ((p.onOpen c).ctx b x).work.release = .restoring ∧
      (p.onOpen c).chans = (p.releaseChan c).chans ∧ (p.onOpen c).chanQueue = (p.releaseChan c).chanQueue ∧
      ∀ b' y, b' ≠ b → (p.onOpen c).ctx b' y = (p.releaseChan c).ctx b' y := by
  have hopen : p.onOpen c = ((((p.releaseChan c).setPhase b x .release).mapWork b x (fun w =>
      { w with release := .restoring })).restoreStandby b x).later [.releaseGo b x] := by
    unfold Part.onOpen
    rw [h]
  obtain ⟨hctx, hchans, hqueue⟩ := Part.restoreStandby_does (((p.releaseChan c).setPhase b x .release).mapWork b x (fun w =>
    { w with release := .restoring })) b x
  rw [hopen]
  refine ⟨?_, ?_, by rw [Part.later_chans, hchans, Part.mapWork_chans, Part.setPhase_chans],
    by rw [Part.later_chanQueue, hqueue, Part.mapWork_chanQueue, Part.setPhase_chanQueue], fun b' y hb => ?_⟩
  · rw [Part.ctx_later, hctx, Part.ctx_mapWork, Part.ctx_setPhase]
    rfl
  · rw [Part.ctx_later, hctx, Part.ctx_mapWork]
    rfl
  · rw [Part.ctx_later, hctx]
    have hphase := Part.bay_mapCtx_other (p.releaseChan c) x (fun c => { c with phase := .release }) (Ne.symm hb)
    have hwork := Part.bay_mapCtx_other ((p.releaseChan c).setPhase b x .release) x
      (fun c => c.mapWork (fun w => { w with release := .restoring })) (Ne.symm hb)
    exact congrArg (fun u => BayUnit.ctx u y) (hwork.trans hphase)

/-- The channel whose relays have opened, at the report to its owner. -/
def Part.opened (p : Part) (c : Chan) : Part := p.mapChan c (fun ch => { ch with relay := .opened, ramp := .idle, params := none })

/-- Settles O40. -/
theorem relaysMove : Obligations.RelaysMove := by
  unfold Obligations.RelaysMove
  refine ⟨fun s c => ⟨fun hclosing => ⟨fun hpending => ?_, fun hpending => ?_⟩, fun hopening => ?_⟩, fun p b x => ⟨fun y hy => ?_,
    fun hfree => ?_, fun k hk => Part.freeChan_lowest hk, fun howns hasks => ?_, fun hbusy => ?_⟩⟩
  · refine Owes.of_runIf (f := fun p => p.relaysClosed c) rfl (by simp [hclosing]) ?_
    unfold Part.relaysClosed
    dsimp only
    rw [Part.chan_fresh, if_pos hclosing, if_neg (by simp [hpending])]
    rfl
  · refine Does.of_runIf (f := fun p => p.relaysClosed c) rfl (by simp [hclosing]) ?_ rfl
    unfold Part.relaysClosed
    dsimp only
    rw [Part.chan_fresh, if_pos hclosing, if_pos hpending]
    rfl
  · have hopen : s.part.fresh.relaysOpen c = if s.part.phase = .halted then s.part.fresh.opened c
        else (s.part.fresh.opened c).later [.chanOpen c] := if_pos hopening
    have howes : s.part.phase ≠ .halted → Owes (.relaysOpen c) s s.book ((s.part.fresh.opened c).later [.chanOpen c]) := fun hphase =>
      Owes.of_runIf (f := fun p => p.relaysOpen c) rfl (by simp [hopening]) (hopen.trans (if_neg hphase))
    refine ⟨howes, fun hphase => Does.of_runIf (f := fun p => p.relaysOpen c) rfl (by simp [hopening])
      (hopen.trans (if_pos hphase)) rfl, fun b x hphase howner => ?_⟩
    have hchan : (s.part.fresh.opened c).chan c = { s.part.chan c with relay := .opened, ramp := .idle, params := none } :=
      Part.chan_mapChan _ _ _
    obtain ⟨hrelease, hrestoring, hchans, hqueue, hothers⟩ := Part.onOpen_owned (p := s.part.fresh.opened c) (c := c) (b := b) (x := x)
      (by rw [hchan]; exact howner)
    have hreleased : ((s.part.fresh.opened c).mapChan c Channel.released).chan c = Channel.released ((s.part.fresh.opened c).chan c) :=
      Part.chan_mapChan _ _ _
    refine ⟨_, (howes hphase).step rfl, hrelease, hrestoring, fun hnone => ?_, fun e l hnext => ?_⟩
    · have hgone := (Part.chan_eq_of_chans (hchans.trans (congrArg Part.chans (Part.releaseChan_free (p := s.part.fresh.opened c) hnone c))) c).trans hreleased
      exact ⟨congrArg Channel.owner hgone, congrArg Channel.bay hgone⟩
    · have hto := Part.releaseChan_next (p := s.part.fresh.opened c) hnext c
      have hgrant := (Part.chan_eq_of_chans (hchans.trans (congrArg Part.chans hto)) c).trans (Part.chan_grantChan _ _ _ _)
      refine ⟨hqueue.trans (congrArg Part.chanQueue hto), congrArg Channel.owner hgrant, congrArg Channel.bay hgrant,
        congrArg Channel.relay hgrant, congrArg Channel.setpoint hgrant, fun hb => ?_⟩
      have hother := hothers e.bay e.slot hb
      rw [hto, Part.ctx_grantChan] at hother
      exact congrArg Ctx.phase hother
  · have hbus := Part.requestBus_held (s := x) hy
    have hctx : (p.requestBus b x).ctx b x = { p.ctx b x with phase := .busWait } := by
      rw [hbus, Part.ctx_mapBay_ctxs _ b (fun u =>
        { u with busQueue := placeEntry BusEntry.plateau ⟨x, p.plateauRequest b x⟩ u.busQueue }) rfl, Part.ctx_setPhase]
    have hwaits := Part.bay_mapBay p b (fun u => u.mapCtx x (fun c => { c with phase := .busWait }))
    have hbay := Part.bay_mapBay (p.setPhase b x .busWait) b (fun u =>
      { u with busQueue := placeEntry BusEntry.plateau ⟨x, p.plateauRequest b x⟩ u.busQueue })
    rw [← hbus, show (p.setPhase b x .busWait).bay b = _ from hwaits] at hbay
    refine ⟨(congrArg BayUnit.busHolder hbay).trans hy, congrArg Ctx.phase hctx, fun hplain => ?_, fun hplateau l r hsplit hr hl => ?_⟩
    · refine (congrArg BayUnit.busQueue hbay).trans ?_
      dsimp only
      rw [hplain]
      exact placeEntry_unmarked rfl
    · refine (congrArg BayUnit.busQueue hbay).trans ?_
      dsimp only [BayUnit.mapCtx_busQueue]
      rw [hplateau, hsplit]
      exact placeEntry_marked rfl hr hl
  · rw [Part.requestBus_free hfree]
    refine ⟨(Part.bus_grantBus _ b x).1, fun k hk => ?_, fun hk => ?_⟩
    · have hgrant : (p.setPhase b x .busWait).grantBus b x = ((p.setPhase b x .busWait).granting b x).grantChan b x k :=
        Part.requestChan_some (by exact hk) b x
      rw [hgrant, Part.chan_grantChan, Part.ctx_grantChan]
      exact ⟨rfl, rfl, rfl⟩
    · have hgrant : (p.setPhase b x .busWait).grantBus b x = _ :=
        Part.requestChan_none (p := (p.setPhase b x .busWait).granting b x) (by exact hk) b x
      refine ⟨?_, by rw [hgrant]; rfl, ⟨b, x, ((p.setPhase b x .busWait).granting b x).plateauRequest b x⟩, rfl, rfl, ?_⟩
      · have hctx := Part.ctx_granting (p.setPhase b x .busWait) b x
        rw [hgrant]
        exact congrArg Ctx.phase hctx
      · rw [hgrant]
        exact placeEntry_perm _ _ _
  · have hmay := (Part.mayReleaseBus_iff_free p b).mpr ⟨howns, hasks⟩
    refine ⟨fun hempty => ?_, fun e l hnext => ?_⟩
    · rw [Part.releaseBus_empty hmay hempty, Part.bay_mapBay]
    · obtain ⟨hholder, hqueue⟩ := Part.bus_grantBus (p.mapBay b (fun u => { u with busHolder := none, busQueue := l })) b e.slot
      rw [Part.releaseBus_next hmay hnext]
      refine ⟨hholder, hqueue.trans ?_⟩
      rw [Part.bay_mapBay]
  · refine Part.releaseBus_refused (Bool.eq_false_iff.mpr fun hmay => ?_)
    obtain ⟨howns, hasks⟩ := (Part.mayReleaseBus_iff_free p b).mp hmay
    rcases hbusy with ⟨k, hk⟩ | ⟨e, he, hb⟩
    · exact howns k hk
    · exact hasks e he hb

end Sys2Proof.Machine
end

section
/-! BAY_START (R16, R18) and BAY_ADMIT (R10 to R12). -/

namespace Sys2Proof.Machine

/-! ### Contexts of a bay changed in turn -/

theorem Part.mapCtx_eq_mapBay (p : Part) (b : Bay) (x : Slot) (f : Ctx → Ctx) :
    p.mapCtx b x f = p.mapBay b (fun u => { u with ctxs := (p.bay b).ctxs.set x (f (p.ctx b x)) }) := Part.mapBay_congr p b rfl

theorem Part.ctx_mapBay_set (p : Part) (b : Bay) (cs : Vector Ctx 6) (x : Slot) :
    (p.mapBay b (fun u => { u with ctxs := cs })).ctx b x = cs[x] := by
  have hbay := Part.bay_mapBay p b (fun u => { u with ctxs := cs })
  exact congrArg (fun u => BayUnit.ctx u x) hbay

/-- The same change of the contexts of several slots. -/
theorem Part.foldl_mapCtx (b : Bay) (f : Ctx → Ctx) (l : List Slot) (p : Part) (hl : l.Nodup) : ∃ cs : Vector Ctx 6,
    l.foldl (fun p s => p.mapCtx b s f) p = p.mapBay b (fun u => { u with ctxs := cs }) ∧
      ∀ x : Slot, cs[x] = if x ∈ l then f (p.ctx b x) else p.ctx b x := by
  induction l generalizing p with
  | nil => exact ⟨(p.bay b).ctxs, (Part.mapBay_self p b).symm, fun x => rfl⟩
  | cons s l ih =>
    obtain ⟨hs, hl⟩ := List.nodup_cons.mp hl
    obtain ⟨cs, hfold, hcs⟩ := ih (p.mapCtx b s f) hl
    refine ⟨cs, ?_, fun x => ?_⟩
    · rw [List.foldl_cons, hfold, Part.mapCtx_eq_mapBay, Part.mapBay_mapBay]
    · rw [hcs]
      by_cases hx : x = s
      · subst hx
        rw [if_neg hs, if_pos (List.mem_cons_self ..), Part.ctx_mapCtx]
      · rw [Part.ctx_mapCtx_other p b f (Ne.symm hx)]
        simp only [List.mem_cons, hx, false_or]

theorem nodup_allSlots : allSlots.Nodup := by decide

theorem mem_allSlots (x : Slot) : x ∈ allSlots := by
  revert x
  decide

/-- The contexts that meet `f` start, and stand at their first boundary (R16, R21). -/
theorem Part.startCtxs_eq (p : Part) (b : Bay) (f : Ctx → Bool) : ∃ cs : Vector Ctx 6, p.startCtxs b f =
      (p.mapBay b (fun u => { u with ctxs := cs })).later ((allSlots.filter (fun s => f (p.ctx b s))).map (fun s => .boundary b s)) ∧
    ∀ x : Slot, cs[x] = if f (p.ctx b x) then { p.ctx b x with state := .running, checkIndex := 0 } else p.ctx b x := by
  obtain ⟨cs, hfold, hcs⟩ := Part.foldl_mapCtx b (fun c => { c with state := .running, checkIndex := 0 })
    (allSlots.filter (fun s => f (p.ctx b s))) p (nodup_allSlots.filter _)
  refine ⟨cs, congrArg (Part.later · ((allSlots.filter (fun s => f (p.ctx b s))).map (fun s => .boundary b s))) hfold, fun x => ?_⟩
  rw [hcs]
  simp only [List.mem_filter, mem_allSlots, true_and]

theorem BayUnit.allCtx_iff {u : BayUnit} {f : Ctx → Bool} : u.allCtx f = true ↔ ∀ x, f (u.ctx x) = true := by
  unfold BayUnit.allCtx
  rw [List.all_eq_true]
  exact ⟨fun h x => h x (mem_allSlots x), fun h x _ => h x⟩

/-- A context that is not to be started (R16). -/
theorem Ctx.startable_eq_false {c : Ctx} (h : c.state ≠ .planned) : c.startable = false := by
  unfold Ctx.startable
  rw [beq_eq_false_iff_ne.mpr h]
  rfl

theorem Ctx.finished_iff {c : Ctx} : c.finished = true ↔ c.state ∈ [CtxState.ended, .unplanned, .absent] := by
  unfold Ctx.finished
  simp [or_assoc]

/-- RUNNING with every context done is FINISHED (R18). -/
theorem Part.bayTest_finished {p : Part} {b : Bay} (hstate : (p.bay b).state = .running)
    (h : ∀ x, (p.ctx b x).state ∈ [CtxState.ended, .unplanned, .absent]) :
    p.bayTest b = p.mapBay b (fun u => { u with state := .finished }) := by
  unfold Part.bayTest
  dsimp only
  rw [hstate]
  exact if_pos (BayUnit.allCtx_iff.mpr fun x => Ctx.finished_iff.mpr (h x))

/-- The test that makes a bay FINISHED, as the first consequence of a command (R18). -/
theorem Owes.bayTest_finished {c : Instr} {s : State} {m : Memory} {q : Part} {b : Bay} {rest : List Conseq}
    (h : Owes c s m (q.later (.bayTest b :: rest))) (hq : q.todo = []) (hstate : (q.bay b).state = .running)
    (hdone : ∀ x, (q.ctx b x).state ∈ [CtxState.ended, .unplanned, .absent]) :
    ∃ r, Reaches 1 c s m r ∧ (r.bay b).state = .finished ∧ ∀ x, r.ctx b x = q.ctx b x := by
  have hrun : consequence (.bayTest b) q = q.mapBay b (fun u => { u with state := .finished }) :=
    Part.bayTest_finished hstate hdone
  have hreach := h.step hq
  rw [hrun] at hreach
  exact ⟨_, hreach, congrArg BayUnit.state (Part.bay_mapBay q b (fun u => { u with state := .finished })),
    fun x => Part.ctx_mapBay_ctxs q b (fun u => { u with state := .finished }) rfl b x⟩

/-- The part that has taken a BAY_START, before its contexts start (R16). -/
def Part.starting (p : Part) (o : OrderSlot) (rest : List OrderSlot) (bytes : List Byte) (b : Bay) : Part :=
  ((p.taking o rest bytes).mapBay b (fun u =>
    { u with state := u.state.started (allSlots.filter (fun x => (p.ctx b x).startable)).length })).answer o .done
      [(0x44, 1, (allSlots.filter (fun x => (p.ctx b x).startable)).length)]

theorem BayState.started_eq {st : BayState} (h : st = .ready ∨ st = .running ∨ st = .finished) (n : Nat) :
    st.started n = if st = .finished ∧ n = 0 then .finished else .running := by
  rcases h with rfl | rfl | rfl
  · rfl
  · rfl
  · cases n <;> rfl

/-- Settles O21. -/
theorem bayStartStartsPlannedContexts : Obligations.BayStartStartsPlannedContexts := by
  unfold Obligations.BayStartStartsPlannedContexts
  intro s o rest bytes b
  dsimp only
  intro hs hcode hb hstate
  have htake := Part.takeOrder_start (s.part.taking o rest bytes) o (0 :: bytes) hcode hb
  have hstate' : (s.part.bay b).state = .ready ∨ (s.part.bay b).state = .running ∨ (s.part.bay b).state = .finished := by
    simpa using hstate
  have hstart : (s.part.taking o rest bytes).orderStart o b =
      ((s.part.starting o rest bytes b).startCtxs b Ctx.startable).later [.bayTest b] := by
    unfold Part.orderStart
    exact if_pos hstate'
  have hctx : ∀ x, (s.part.starting o rest bytes b).ctx b x = s.part.ctx b x := fun x =>
    Part.ctx_mapBay_ctxs (s.part.taking o rest bytes) b (fun u =>
      { u with state := u.state.started (allSlots.filter (fun x => (s.part.ctx b x).startable)).length }) rfl b x
  obtain ⟨cs, hcs, hctxs⟩ := Part.startCtxs_eq (s.part.starting o rest bytes b) b Ctx.startable
  simp only [hctx] at hcs hctxs
  have howes := Owes.copied (bytes := bytes) hs
  rw [htake, hstart, hcs, Part.later_later, Part.later_later] at howes
  have hfirst := Part.bay_mapBay (s.part.taking o rest bytes) b (fun u =>
    { u with state := u.state.started (allSlots.filter (fun x => (s.part.ctx b x).startable)).length })
  have hbay := Part.bay_mapBay (s.part.starting o rest bytes b) b (fun u => { u with ctxs := cs })
  rw [show (s.part.starting o rest bytes b).bay b = _ from hfirst] at hbay
  have hst : ((s.part.bay b).state.started (allSlots.filter (fun x => (s.part.ctx b x).startable)).length) =
      if (s.part.bay b).state = .finished ∧ (allSlots.filter (fun x => (s.part.ctx b x).startable)).length = 0 then .finished
      else .running := BayState.started_eq hstate' _
  refine ⟨_, howes, (congrArg BayUnit.state hbay).trans hst, ?_, fun x => (Part.ctx_mapBay_set _ b cs x).trans (hctxs x),
    fun c hc => ?_, ?_, ?_, ?_, fun hready hdone => ?_⟩
  · exact Part.answer_answers _ o .done _
  · have hother := Part.bay_mapBay_other (s.part.starting o rest bytes b) (fun u => { u with ctxs := cs }) (Ne.symm hc)
    exact hother.trans (Part.bay_mapBay_other (s.part.taking o rest bytes) (fun u =>
      { u with state := u.state.started (allSlots.filter (fun x => (s.part.ctx b x).startable)).length }) (Ne.symm hc))
  · rw [Part.later_chans, Part.mapBay_chans]
    rfl
  · rw [Part.later_zones, Part.mapBay_zones]
    rfl
  · rw [Part.later_todo, Part.mapBay_todo]
    rfl
  · have hnone : allSlots.filter (fun x => (s.part.ctx b x).startable) = [] := List.filter_eq_nil_iff.mpr fun x _ => by
      rw [Ctx.startable_eq_false fun h => by simpa [h] using hdone x]
      exact nofun
    have hsame : ∀ x, ((s.part.starting o rest bytes b).mapBay b (fun u => { u with ctxs := cs })).ctx b x = s.part.ctx b x := fun x => by
      rw [Part.ctx_mapBay_set, hctxs, if_neg (by
        rw [Ctx.startable_eq_false fun h => by simpa [h] using hdone x]
        exact nofun)]
    have hrunning := (congrArg BayUnit.state hbay).trans (hst.trans (if_neg fun h => hready h.1))
    rw [hnone, List.map_nil, List.nil_append, List.cons_append] at howes
    obtain ⟨r, hreach, hfinished, hkept⟩ := howes.bayTest_finished rfl hrunning (fun x => by
      rw [hsame]
      exact hdone x)
    exact ⟨r, hreach, hfinished, fun x => (hkept x).trans (hsame x)⟩

/-! ### BAY_ADMIT -/

/-- What admitting identifies: the contexts of the slots, and the link of their bay (R10, R12). -/
structure Part.Identified (b : Bay) (l : List Slot) (p q : Part) : Prop where
  bay   : ∃ cs k, q.bay b = { p.bay b with ctxs := cs, link := k }
  eq    : ∃ bays n h t, q = { p with bays := bays, nextAdm := n, handovers := h, todo := t }
  bays  : ∀ c, c ≠ b → q.bay c = p.bay c
  ctx   : ∀ x ∈ l, (q.ctx b x).state = .identifying ∧ (q.ctx b x).attempts = 1
  other : ∀ x ∉ l, q.ctx b x = p.ctx b x

/-- One context identifies (R8, R12). -/
theorem Part.identify_does (p : Part) (b : Bay) (x : Slot) : ∃ k h t, p.identify b x =
    { (p.mapCtx b x (fun _ => { Ctx.reset with state := .identifying, adm := some p.nextAdm, attempts := 1 })).mapLink b (fun _ => k) with
      nextAdm := nextAdmission p.nextAdm, handovers := h, todo := t } := by
  have hhand : ∀ q : Part, ∃ k h t, q.handIdentityRead b x = { q.mapLink b (fun _ => k) with handovers := h, todo := t } := fun q => by
    unfold Part.handIdentityRead
    obtain ⟨l, t, h⟩ := Part.handOver_eq q b { target := x, kind := .identityRead, cmd := q.identityCmd, data := none, who := q.requester b x, purpose := .identify, onValue := 0, ref := 0, fell := false }
    exact ⟨l, _, t, h⟩
  obtain ⟨k, h, t, hk⟩ := hhand ({ p with nextAdm := nextAdmission p.nextAdm }.mapCtx b x (fun _ =>
    { Ctx.reset with state := .identifying, adm := some p.nextAdm, attempts := 1 }))
  exact ⟨k, h, t, hk⟩

theorem Part.identify_identified (p : Part) (b : Bay) (x : Slot) : Part.Identified b [x] p (p.identify b x) := by
  obtain ⟨k, h, t, heq⟩ := Part.identify_does p b x
  have hctxs := Part.bay_mapBay p b (fun u =>
    u.mapCtx x (fun _ => { Ctx.reset with state := .identifying, adm := some p.nextAdm, attempts := 1 }))
  have hlink := Part.bay_mapBay (p.mapCtx b x (fun _ =>
    { Ctx.reset with state := .identifying, adm := some p.nextAdm, attempts := 1 })) b (fun u => { u with link := k })
  rw [show (p.mapCtx b x (fun _ => { Ctx.reset with state := .identifying, adm := some p.nextAdm, attempts := 1 })).bay b = _
    from hctxs] at hlink
  have hctx : ∀ y, (p.identify b x).ctx b y =
      (p.mapCtx b x (fun _ => { Ctx.reset with state := .identifying, adm := some p.nextAdm, attempts := 1 })).ctx b y := fun y => by
    rw [heq]
    exact Part.ctx_mapLink _ b (fun _ => k) b y
  have hbay : ∃ cs k, (p.identify b x).bay b = { p.bay b with ctxs := cs, link := k } := by
    rw [heq]
    exact ⟨_, k, hlink⟩
  refine ⟨hbay, ⟨_, _, h, t, heq⟩, fun c hc => ?_, fun y hy => ?_, fun y hy => ?_⟩
  · rw [heq]
    exact (Part.bay_mapLink_other _ (fun _ => k) (Ne.symm hc)).trans (Part.bay_mapCtx_other p x _ (Ne.symm hc))
  · obtain rfl := List.mem_singleton.mp hy
    rw [hctx, Part.ctx_mapCtx]
    exact ⟨rfl, rfl⟩
  · rw [hctx, Part.ctx_mapCtx_other p b _ (fun h => hy (List.mem_singleton.mpr h.symm))]

theorem Part.identify_fold (b : Bay) (l : List Slot) (p : Part) (hl : l.Nodup) :
    Part.Identified b l p (l.foldl (fun p s => p.identify b s) p) := by
  induction l generalizing p with
  | nil =>
    exact ⟨⟨_, _, rfl⟩, ⟨_, _, _, _, rfl⟩, fun _ _ => rfl, nofun, fun _ _ => rfl⟩
  | cons s l ih =>
    obtain ⟨hs, hl⟩ := List.nodup_cons.mp hl
    obtain ⟨⟨cs, k, hbay⟩, ⟨bays, n, h, t, heq⟩, hbays, hctx, hother⟩ := ih (p.identify b s) hl
    obtain ⟨⟨cs', k', hbay'⟩, ⟨bays', n', h', t', heq'⟩, hbays', hctx', hother'⟩ := Part.identify_identified p b s
    refine ⟨⟨cs, k, ?_⟩, ⟨bays, n, h, t, ?_⟩, fun c hc => (hbays c hc).trans (hbays' c hc), fun x hx => ?_, fun x hx => ?_⟩
    · rw [List.foldl_cons, hbay, hbay']
    · rw [List.foldl_cons, heq, heq']
    · rcases List.mem_cons.mp hx with rfl | hx
      · rw [List.foldl_cons, hother x hs]
        exact hctx' x (List.mem_singleton_self x)
      · exact hctx x hx
    · rw [List.mem_cons, not_or] at hx
      rw [List.foldl_cons, hother x hx.2, hother' x (fun h => hx.1 (List.mem_singleton.mp h))]

/-- The part that has taken a BAY_ADMIT, before its scan (R10). -/
def Part.admitting (p : Part) (o : OrderSlot) (rest : List OrderSlot) (bytes : List Byte) (b : Bay) (start : StartPolicy)
    (insert : InsertPolicy) : Part :=
  (p.taking o rest bytes).mapBay b (fun u => { u with state := .admitting, start := start, insert := insert, pendingOrder := some o })

theorem Part.bay_admitting (p : Part) (o : OrderSlot) (rest : List OrderSlot) (bytes : List Byte) (b : Bay) (start : StartPolicy)
    (insert : InsertPolicy) : (p.admitting o rest bytes b start insert).bay b =
      { p.bay b with state := .admitting, start := start, insert := insert, pendingOrder := some o } :=
  Part.bay_mapBay (p.taking o rest bytes) b (fun u =>
    { u with state := .admitting, start := start, insert := insert, pendingOrder := some o })

theorem Part.present_admitting (p : Part) (o : OrderSlot) (rest : List OrderSlot) (bytes : List Byte) (b : Bay) (start : StartPolicy)
    (insert : InsertPolicy) (x : Slot) : ((p.admitting o rest bytes b start insert).bay b).present x = (p.bay b).present x := by
  rw [Part.bay_admitting]
  rfl

theorem Part.ctx_admitting (p : Part) (o : OrderSlot) (rest : List OrderSlot) (bytes : List Byte) (b : Bay) (start : StartPolicy)
    (insert : InsertPolicy) (x : Slot) : (p.admitting o rest bytes b start insert).ctx b x = p.ctx b x := by
  unfold Part.ctx
  rw [Part.bay_admitting]
  rfl

theorem Part.chans_admitting (p : Part) (o : OrderSlot) (rest : List OrderSlot) (bytes : List Byte) (b : Bay) (start : StartPolicy)
    (insert : InsertPolicy) : (p.admitting o rest bytes b start insert).chans = p.chans := by
  unfold Part.admitting
  rw [Part.mapBay_chans]
  rfl

theorem Part.zones_admitting (p : Part) (o : OrderSlot) (rest : List OrderSlot) (bytes : List Byte) (b : Bay) (start : StartPolicy)
    (insert : InsertPolicy) : (p.admitting o rest bytes b start insert).zones = p.zones := by
  unfold Part.admitting
  rw [Part.mapBay_zones]
  rfl

/-- The last context of an admission has been identified, or there is none (R11). -/
theorem Part.bayTest_admitted {p : Part} {b : Bay} (hstate : (p.bay b).state = .admitting)
    (h : ∀ x, (p.ctx b x).state ≠ .identifying) : p.bayTest b = p.admitted b := by
  unfold Part.bayTest
  dsimp only
  rw [hstate]
  have hall : (p.bay b).allCtx (fun c => c.state != .identifying) = true := BayUnit.allCtx_iff.mpr fun x => bne_iff_ne.mpr (h x)
  exact if_pos hall

theorem BayUnit.countCtx_eq_zero {u : BayUnit} {f : Ctx → Bool} (h : ∀ x, f (u.ctx x) = false) : u.countCtx f = 0 := by
  unfold BayUnit.countCtx
  rw [List.filter_eq_nil_iff.mpr fun x _ => by simp [h x]]
  rfl

theorem BayUnit.countCtx_eq_six {u : BayUnit} {f : Ctx → Bool} (h : ∀ x, f (u.ctx x) = true) : u.countCtx f = 6 := by
  unfold BayUnit.countCtx
  rw [List.filter_eq_self.mpr fun x _ => h x]
  rfl

/-- The counts of a bay with every context ABSENT (R11, R197). -/
theorem BayUnit.admitCounts_absent {u : BayUnit} (h : ∀ x, (u.ctx x).state = .absent) :
    u.admitCounts = [(0x44, 1, 0), (0x45, 1, 0), (0x46, 1, 0), (0x47, 1, 6)] := by
  unfold BayUnit.admitCounts
  rw [BayUnit.countCtx_eq_zero (fun x => by rw [h x]; rfl), BayUnit.countCtx_eq_zero (fun x => by rw [h x]; rfl),
    BayUnit.countCtx_eq_zero (fun x => by rw [h x]; rfl), BayUnit.countCtx_eq_six (fun x => by rw [h x]; rfl)]

/-- A pending long order answered (R11, R20 to R23). -/
theorem Part.answerPending_some {p : Part} {b : Bay} {o : OrderSlot} (h : (p.bay b).pendingOrder = some o) (code : AnswerCode)
    (l : List (Nat × Nat × Nat)) :
    p.answerPending b code l = (p.mapBay b (fun u => { u with pendingOrder := none })).answer o code l := by
  unfold Part.answerPending
  rw [h]

theorem Part.answerPending_none {p : Part} {b : Bay} (h : (p.bay b).pendingOrder = none) (code : AnswerCode)
    (l : List (Nat × Nat × Nat)) : p.answerPending b code l = p := by
  unfold Part.answerPending
  rw [h]

/-- An admission that is over, with an order pending and nothing to start (R11). -/
theorem Part.admitted_does {p : Part} {b : Bay} {o : OrderSlot} (h : (p.bay b).pendingOrder = some o)
    (habsent : ∀ x, (p.ctx b x).state = .absent) :
    ((p.admitted b).bay b).state = (if (p.bay b).start = .auto then .running else .ready) ∧
      ((p.admitted b).bay b).pendingOrder = none ∧
      (p.admitted b).answers[o] = some ⟨if p.takenWrite = some o then .waiting else .fields, .done,
        answerFields [(0x44, 1, 0), (0x45, 1, 0), (0x46, 1, 0), (0x47, 1, 6)]⟩ := by
  have hcounts : (p.bay b).admitCounts = [(0x44, 1, 0), (0x45, 1, 0), (0x46, 1, 0), (0x47, 1, 6)] :=
    BayUnit.admitCounts_absent habsent
  have hbay := Part.bay_mapBay p b (fun u => { u with state := if u.start = .auto then .running else .ready })
  have hpending := Part.answerPending_some (p := p.mapBay b (fun u => { u with state := if u.start = .auto then .running else .ready }))
    (b := b) (o := o) (by rw [hbay]; exact h) .done (p.bay b).admitCounts
  rw [Part.mapBay_mapBay, hcounts] at hpending
  have hanswered := Part.bay_mapBay p b (fun u =>
    { u with state := if u.start = .auto then .running else .ready, pendingOrder := none })
  unfold Part.admitted
  dsimp only
  rw [hcounts, hpending]
  by_cases hauto : (p.bay b).start = .auto
  · rw [if_pos hauto, if_pos hauto]
    rw [if_pos hauto] at hanswered
    obtain ⟨cs, hcs, hctxs⟩ := Part.startCtxs_eq ((p.mapBay b (fun u =>
      { u with state := if u.start = .auto then .running else .ready, pendingOrder := none })).answer o .done
        [(0x44, 1, 0), (0x45, 1, 0), (0x46, 1, 0), (0x47, 1, 6)]) b Ctx.startable
    have hstarted := Part.bay_mapBay ((p.mapBay b (fun u =>
      { u with state := if u.start = .auto then .running else .ready, pendingOrder := none })).answer o .done
        [(0x44, 1, 0), (0x45, 1, 0), (0x46, 1, 0), (0x47, 1, 6)]) b (fun u => { u with ctxs := cs })
    rw [Part.answer_bay, hanswered] at hstarted
    rw [hcs]
    refine ⟨congrArg BayUnit.state hstarted, congrArg BayUnit.pendingOrder hstarted, ?_⟩
    exact Part.answer_answers (p.mapBay b (fun u =>
      { u with state := if u.start = .auto then .running else .ready, pendingOrder := none })) o .done _
  · rw [if_neg hauto, if_neg hauto]
    rw [if_neg hauto] at hanswered
    exact ⟨congrArg BayUnit.state hanswered, congrArg BayUnit.pendingOrder hanswered, Part.answer_answers _ o .done _⟩

/-- Settles O22. -/
theorem bayAdmitScansTheBay : Obligations.BayAdmitScansTheBay := by
  unfold Obligations.BayAdmitScansTheBay
  intro s o rest bytes b start insert
  dsimp only
  intro hs hcode hb hstate hstart hinsert
  have htake := Part.takeOrder_admit (s.part.taking o rest bytes) o (0 :: bytes) hcode hb
  have hadmit : (s.part.taking o rest bytes).orderAdmit o b (0 :: bytes) =
      ((allSlots.filter (fun x => (s.part.bay b).present x)).foldl (fun p x => p.identify b x)
        (s.part.admitting o rest bytes b start insert)).later [.bayTest b] := by
    unfold Part.orderAdmit
    rw [hstart, hinsert]
    refine (if_pos hstate).trans ?_
    simp only [← Part.present_admitting s.part o rest bytes b start insert]
    rfl
  have hfirst := Part.bay_admitting s.part o rest bytes b start insert
  have hctx := Part.ctx_admitting s.part o rest bytes b start insert
  obtain ⟨⟨cs, k, hbay⟩, ⟨bays, n, h, t, heq⟩, hbays, hident, hother⟩ := Part.identify_fold b
    (allSlots.filter (fun x => (s.part.bay b).present x)) (s.part.admitting o rest bytes b start insert) (nodup_allSlots.filter _)
  rw [hfirst] at hbay
  have howes := Owes.copied (bytes := bytes) hs
  rw [htake, hadmit, Part.later_later] at howes
  refine ⟨_, howes, congrArg BayUnit.state hbay, congrArg BayUnit.start hbay, congrArg BayUnit.insert hbay,
    congrArg BayUnit.pendingOrder hbay, fun x hx => ?_, fun x hx => ?_, fun c hc => ?_, ?_, ?_, fun hnone => ?_⟩
  · exact hident x (List.mem_filter.mpr ⟨mem_allSlots x, hx⟩)
  · refine (hother x fun hm => ?_).trans (hctx x)
    rw [(List.mem_filter.mp hm).2] at hx
    exact absurd hx nofun
  · exact (hbays c hc).trans (Part.bay_mapBay_other (s.part.taking o rest bytes) (fun u =>
      { u with state := .admitting, start := start, insert := insert, pendingOrder := some o }) (Ne.symm hc))
  · rw [Part.later_chans, heq]
    exact Part.chans_admitting s.part o rest bytes b start insert
  · rw [Part.later_zones, heq]
    exact Part.zones_admitting s.part o rest bytes b start insert
  · have hempty : allSlots.filter (fun x => (s.part.bay b).present x) = [] := List.filter_eq_nil_iff.mpr fun x _ => by
      rw [(hnone x).1]
      exact nofun
    rw [hempty] at howes
    have habsent : ∀ x, ((s.part.admitting o rest bytes b start insert).ctx b x).state = .absent := fun x => by
      rw [hctx]
      exact (hnone x).2
    obtain ⟨hst, hpend, hans⟩ := Part.admitted_does (p := s.part.admitting o rest bytes b start insert) (b := b) (o := o)
      (congrArg BayUnit.pendingOrder hfirst) habsent
    have htest : (s.part.admitting o rest bytes b start insert).bayTest b = (s.part.admitting o rest bytes b start insert).admitted b :=
      Part.bayTest_admitted (congrArg BayUnit.state hfirst) fun x => by
        rw [habsent x]
        exact nofun
    have hrun : consequence (.bayTest b) (s.part.admitting o rest bytes b start insert) =
        (s.part.admitting o rest bytes b start insert).admitted b := htest
    have hreach := howes.step (k := .bayTest b) rfl
    rw [List.foldl_nil, hrun] at hreach
    rw [show ((s.part.admitting o rest bytes b start insert).bay b).start = start from congrArg BayUnit.start hfirst] at hst
    exact ⟨_, _, hreach, hst, hpend, hans, rfl, rfl⟩

end Sys2Proof.Machine
end

section
/-! A sample instant (R4, R119, R122 to R128), field by field. -/

namespace Sys2Proof.Machine

theorem tab6_get {α : Type} (f : Fin 6 → α) (x : Fin 6) : (tab6 f)[x] = f x :=
  match x with
  | 0 => rfl | 1 => rfl | 2 => rfl | 3 => rfl | 4 => rfl | 5 => rfl

/-! ### A detector on a sample (R119) -/

theorem TripDetector.sample_fired {d : TripDetector} (h : d.firing ≠ none) (volts : Nat) (good : Bool) (amps number : Nat) :
    d.sample volts good amps number = d := by
  obtain ⟨f, hf⟩ := Option.ne_none_iff_exists'.mp h
  unfold TripDetector.sample
  rw [hf]

theorem TripDetector.sample_watching {d : TripDetector} (h : d.firing = none) (volts : Nat) (good : Bool) (amps number : Nat) :
    d.sample volts good amps number =
      { d with
        samples := d.samples + 1, run := if volts < d.collapse then d.run + 1 else 0, seen := d.seen || good
        peaks := some ((d.peaks.map (fun k => (max k.1 amps, max k.2 volts))).getD (amps, volts))
        firing :=
          if (d.seen = true ∧ good = false) ∨ d.confirm ≤ (if volts < d.collapse then d.run + 1 else 0) then
            some ⟨number, amps, volts, min (10 * (d.samples + 1) - d.offset) 4294967295,
              if (d.seen = true ∧ good = false) ∧ d.confirm ≤ (if volts < d.collapse then d.run + 1 else 0) then .both
              else if d.seen = true ∧ good = false then .powerGood else .collapse⟩
          else none } := by
  obtain ⟨slot, collapse, confirm, samples, offset, run, seen, peaks, firing⟩ := d
  dsimp only at h
  subst h
  have hfell : (seen && !good) = decide (seen = true ∧ good = false) := by cases seen <;> cases good <;> rfl
  unfold TripDetector.sample
  dsimp only
  rw [hfell]
  by_cases hpg : seen = true ∧ good = false <;>
    by_cases hlow : confirm ≤ (if volts < collapse then run + 1 else 0) <;>
      cases peaks <;> simp [hpg, hlow]

/-! ### A measurement on a sample (R124, R125) -/

theorem PointWindow.gather_full {need : Nat} {w : PointWindow} (h : w.count = need) (tol : Nat) (r : PointSample) (v : Nat) :
    w.gather need tol r v = w := if_pos h

theorem PointWindow.gather_invalid {need : Nat} {w : PointWindow} {r : PointSample} (h : w.count ≠ need) (hr : r.valid = false)
    (tol v : Nat) : w.gather need tol r v = { w with clipped := w.clipped || r.clips } := by
  unfold PointWindow.gather
  rw [if_neg h, hr]
  rfl

theorem PointWindow.gather_first {need : Nat} {w : PointWindow} {r : PointSample} (h : w.count ≠ need) (hr : r.valid = true)
    (hf : w.first = none) (tol v : Nat) :
    w.gather need tol r v = { w with clipped := w.clipped || r.clips, first := some v, sum := v, count := 1 } := by
  unfold PointWindow.gather
  rw [if_neg h, hr, hf]
  rfl

theorem PointWindow.gather_more {need : Nat} {w : PointWindow} {r : PointSample} {a : Nat} (h : w.count ≠ need)
    (hr : r.valid = true) (hf : w.first = some a) (tol v : Nat) :
    w.gather need tol r v = { w with
      clipped := w.clipped || r.clips, sum := w.sum + v, count := w.count + 1
      drifted := w.drifted || decide (tol < max v a - min v a) } := by
  unfold PointWindow.gather
  rw [if_neg h, hr, hf, ← apart_eq]
  rfl

/-- A window on a sample of its point, case by case (R124, R125, R126). -/
theorem PointWindow.gather_does (e : PointWindow) (need tol : Nat) (r : PointSample × Nat) :
    (e.count = need → e.gather need tol r.1 r.2 = e) ∧
      (e.count ≠ need → r.1.valid = false → e.gather need tol r.1 r.2 = { e with clipped := e.clipped || r.1.clips }) ∧
      (e.count ≠ need → r.1.valid = true → e.first = none →
        e.gather need tol r.1 r.2 = { e with clipped := e.clipped || r.1.clips, first := some r.2, sum := r.2, count := 1 }) ∧
      (∀ a, e.count ≠ need → r.1.valid = true → e.first = some a →
        e.gather need tol r.1 r.2 = { e with
          clipped := e.clipped || r.1.clips, sum := e.sum + r.2, count := e.count + 1
          drifted := e.drifted || decide (tol < max r.2 a - min r.2 a) }) :=
  ⟨fun h => PointWindow.gather_full h _ _ _, fun h hr => PointWindow.gather_invalid h hr _ _,
    fun h hr hf => PointWindow.gather_first h hr hf _ _, fun _ h hr hf => PointWindow.gather_more h hr hf _ _⟩

/-- The sample that a window's point makes. -/
def windowSample (bus : PointSample × Nat) (slots : Slot → PointSample × Nat) : Option Slot → PointSample × Nat
  | none => bus
  | some t => slots t

theorem Measurement.sample_done {m : Measurement} (h : m.done ≠ none) (now : Stamp) (bus : PointSample × Nat)
    (slots : Slot → PointSample × Nat) : m.sample now bus slots = m := by
  obtain ⟨t, ht⟩ := Option.ne_none_iff_exists'.mp h
  unfold Measurement.sample
  rw [ht]

theorem Measurement.sample_running {m : Measurement} (h : m.done = none) (now : Stamp) (bus : PointSample × Nat)
    (slots : Slot → PointSample × Nat) :
    m.sample now bus slots = { m with
      windows := m.windows.map (fun w => w.gather m.need m.tol (windowSample bus slots w.point).1 (windowSample bus slots w.point).2)
      done := if (m.windows.map (fun w => w.gather m.need m.tol (windowSample bus slots w.point).1
        (windowSample bus slots w.point).2)).all (fun e => decide (m.need ≤ e.count)) then some now else none } := by
  unfold Measurement.sample
  rw [h]
  rfl

/-! ### A channel and a bay on a sample -/

theorem Channel.sample_detector {ch : Channel} {b : Bay} {d : TripDetector} (hb : ch.bay = some b) (hd : ch.detector = some d)
    (c : Chan) (x : Samples) (number : Nat) :
    (ch.sample c x number).detector = some (d.sample x.busFixed[b] x.powerGood[b][d.slot] x.chanCurrent[c] number) := by
  unfold Channel.sample
  rw [hb, hd]

theorem Channel.sample_unarmed {ch : Channel} (hd : ch.detector = none) (c : Chan) (x : Samples) (number : Nat) :
    ch.sample c x number = ch := by
  unfold Channel.sample
  rw [hd]
  cases ch.bay <;> rfl

/-- A sample changes nothing of a channel but its detector. -/
theorem Channel.sample_keeps (ch : Channel) (c : Chan) (x : Samples) (number : Nat) :
    (ch.sample c x number).setpoint = ch.setpoint ∧ (ch.sample c x number).relay = ch.relay ∧
      (ch.sample c x number).ramp = ch.ramp ∧ (ch.sample c x number).owner = ch.owner := by
  unfold Channel.sample
  split <;> exact ⟨rfl, rfl, rfl, rfl⟩

theorem Part.chan_sampleInstant (p : Part) (x : Samples) (c : Chan) :
    (p.sampleInstant x).chan c = (p.chan c).sample c x (p.samples + 1) := tab4_get _ c

theorem Part.bay_sampleInstant (p : Part) (x : Samples) (b : Bay) :
    (p.sampleInstant x).bay b = (p.bay b).sample b x p.stamp (p.samples + 1) p.tick := tab8_get _ b

/-- The work of a context on a sample of its bay. -/
theorem Part.ctx_sampleInstant (p : Part) (x : Samples) (b : Bay) (k : Slot) :
    (p.sampleInstant x).ctx b k =
      (p.ctx b k).mapWork (Work.sample p.stamp ((p.bay b).points b x) x.busFixed[b] x.powerGood[b][k] (p.samples + 1) p.tick) := by
  unfold Part.ctx
  rw [Part.bay_sampleInstant]
  exact tab6_get _ k

theorem Part.slotPoints_sampleInstant (p : Part) (x : Samples) (b : Bay) (k : Slot) :
    ((p.sampleInstant x).bay b).slotPoints[k] = ((p.bay b).slotPoints[k].sample currentScales x.slotCurrent[b][k]).point := by
  rw [Part.bay_sampleInstant]
  refine (tab6_get _ k).trans ?_
  exact congrArg (fun r : PointSample × Nat => r.1.point) (tab6_get _ k)

theorem Part.presence_sampleInstant (p : Part) (x : Samples) (b : Bay) (k : Slot) :
    ((p.sampleInstant x).bay b).presence[k] = (p.bay b).presence[k].sample x.present[b][k] := by
  rw [Part.bay_sampleInstant]
  exact tab6_get _ k

/-- What a window of a bay reads at a sample (R125). -/
def BayUnit.reads (u : BayUnit) (b : Bay) (x : Samples) : Option Slot → PointSample × Nat :=
  windowSample (u.points b x).bus (fun t => (u.points b x).slots[t])

theorem BayUnit.reads_slot (u : BayUnit) (b : Bay) (x : Samples) (y : Slot) :
    u.reads b x (some y) = (u.slotPoints[y].sample currentScales x.slotCurrent[b][y], x.slotCurrent[b][y]) := tab6_get _ y

/-- The windows of a measurement on a sample of its bay. -/
def BayUnit.gathered (u : BayUnit) (b : Bay) (x : Samples) (m : Measurement) : List PointWindow :=
  m.windows.map (fun w => w.gather m.need m.tol (u.reads b x w.point).1 (u.reads b x w.point).2)

/-! ### The obligation -/

/-- Settles O53. -/
theorem sampleInstantsSampleEverything : Obligations.SampleInstantsSampleEverything := by
  unfold Obligations.SampleInstantsSampleEverything
  intro s x
  refine ⟨{ s with part := s.part.sampleInstant x }, rfl, rfl, rfl, rfl, rfl, rfl, rfl, rfl, rfl, fun c => ?_, fun b => ?_⟩
  · dsimp only
    rw [Part.chan_sampleInstant]
    obtain ⟨hset, hrelay, hramp, howner⟩ := (s.part.chan c).sample_keeps c x (s.part.samples + 1)
    refine ⟨hset, hrelay, hramp, howner, fun hd => ?_, fun b d hb hd => ⟨fun hf => ?_, fun hf => ?_⟩⟩
    · rw [Channel.sample_unarmed hd, hd]
    · rw [Channel.sample_detector hb hd, TripDetector.sample_fired hf]
    · rw [Channel.sample_detector hb hd, TripDetector.sample_watching hf]
  · have hbay := Part.bay_sampleInstant s.part x b
    refine ⟨congrArg BayUnit.busPoint hbay, (congrArg BayUnit.buffer hbay).trans rfl, (congrArg BayUnit.link hbay).trans rfl, fun k => ?_⟩
    have hctx := Part.ctx_sampleInstant s.part x b k
    have hpres := Part.presence_sampleInstant s.part x b k
    dsimp only
    refine ⟨Part.slotPoints_sampleInstant s.part x b k, (congrArg Presence.filtered hpres).trans rfl,
      (congrArg Presence.count hpres).trans rfl, ?_, fun h => ?_, fun h => ?_, fun m hm hdone => ?_, fun m hm hdone => ?_,
      fun volts confirm fired run at0 hw => ?_, fun hw => ?_, fun volts confirm fired run at0 d hw => ?_, fun d hw => ?_⟩
    · rw [hctx]
      rfl
    all_goals rw [hctx]
    · exact congrArg (Option.map _) h
    · exact congrArg (Option.map _) h
    · refine (congrArg (Option.map _) hm).trans (congrArg some ?_)
      exact Measurement.sample_done hdone _ _ _
    · refine ⟨(s.part.bay b).gathered b x m, List.length_map _, ?_, fun i e he =>
        ⟨e.gather m.need m.tol ((s.part.bay b).reads b x e.point).1 ((s.part.bay b).reads b x e.point).2, ?_, ?_⟩⟩
      · refine (congrArg (Option.map _) hm).trans (congrArg some ?_)
        exact Measurement.sample_running hdone _ _ _
      · unfold BayUnit.gathered
        rw [List.getElem?_map, he]
        rfl
      · have hgather := PointWindow.gather_does e m.need m.tol ((s.part.bay b).reads b x e.point)
        obtain ⟨point, value, first, sum, count, clipped, drifted⟩ := e
        cases point with
        | none => exact hgather
        | some y =>
          rw [BayUnit.reads_slot] at hgather ⊢
          exact hgather
    · exact congrArg (Option.map _) hw
    · exact congrArg (Option.map _) hw
    · exact (congrArg (Option.map _) hw).trans hw.symm
    · exact (congrArg (Option.map _) hw).trans hw.symm

end Sys2Proof.Machine
end

section
/-! Members of a zone whose plateau is settled (R135, R136, R144, R145), and the two span ends of a zone (R134, R135). -/

namespace Sys2Proof.Machine

/-! ### A context that settles a plateau -/

/-- How the loop of a context ends at a settling, if it does (R145). -/
def Ctx.loopEnd (c : Ctx) (missed : Bool) : Option CheckOutcome := c.derate.endsWith missed (c.loop - 1)

/-- A context whose loop has counted a plateau, its records not yet made (R144, R145). -/
def Ctx.counted (c : Ctx) (r : Record) (missed : Bool) : Ctx :=
  { c with
    loop := c.loop - 1, phase := .record
    derate := { c.derate.settled r.number (r.limits.anyFailed || r.outcome != .performed) missed with
      outcome := (c.loopEnd missed).getD .performed } }

/-- What a context owes behind its PLATEAU record (R145). -/
def Ctx.afterPlateau (c : Ctx) (b : Bay) (s : Slot) (r : Record) (missed : Bool) (now : Stamp) : List OutItem :=
  match c.loopEnd missed with
  | none => [.plateauReturn]
  | some o =>
    [.record (({ c with
        loop := c.loop - 1, phase := .record
        derate := c.derate.settled r.number (r.limits.anyFailed || r.outcome != CheckOutcome.performed) missed }).summaryRecord b s o now),
      .applyResult]

/-- A context that has settled a plateau (R144, R145). -/
def Ctx.settled (c : Ctx) (b : Bay) (s : Slot) (r : Record) (missed : Bool) (now : Stamp) : Ctx :=
  { c.counted r missed with out := c.withoutReturn ++ [.record r] ++ c.afterPlateau b s r missed now }

/-- What a settling makes of the list of the zone (R144, R145). -/
def Zone.settleMember (b : Bay) (s : Slot) (ended : Bool) (z : Zone) : Zone :=
  if ended then z.leave b s else z.mark b s (fun m => { m with measured := true, started := false })

theorem Part.settleWith_eq (p : Part) (b : Bay) (s : Slot) (r : Record) (missed : Bool) :
    p.settleWith b s r missed =
      (p.mapCtx b s (fun c => c.settled b s r missed p.stamp)).mapZone (zoneOf b)
        (Zone.settleMember b s ((p.ctx b s).loopEnd missed).isSome) := by
  rfl

theorem Part.ctx_mapCtx_ne (p : Part) {b c : Bay} {x y : Slot} (f : Ctx → Ctx) (h : b ≠ c ∨ x ≠ y) :
    (p.mapCtx b x f).ctx c y = p.ctx c y := by
  by_cases hb : b = c
  · subst hb
    exact Part.ctx_mapCtx_other p b f (h.resolve_left (fun hn => hn rfl))
  · exact congrArg (fun u => BayUnit.ctx u y) (Part.bay_mapCtx_other p x f hb)

/-! ### What a settled context keeps and owes -/

theorem Ctx.mem_withoutReturn {c : Ctx} {r : Record} (h : .record r ∈ c.out) : .record r ∈ c.withoutReturn :=
  List.mem_filter.mpr ⟨h, rfl⟩

theorem Ctx.settled_keeps {c : Ctx} {r' : Record} (h : .record r' ∈ c.out) (b : Bay) (s : Slot) (r : Record) (missed : Bool)
    (now : Stamp) : .record r' ∈ (c.settled b s r missed now).out :=
  List.mem_append_left _ (List.mem_append_left _ (Ctx.mem_withoutReturn h))

theorem Ctx.settled_owes (c : Ctx) (b : Bay) (s : Slot) (r : Record) (missed : Bool) (now : Stamp) :
    .record r ∈ (c.settled b s r missed now).out :=
  List.mem_append_left _ (List.mem_append_right _ (List.mem_singleton_self _))

/-- A member that has not started settles as MISSED by its zone's plateau (R144). -/
theorem Part.settleMissed_eq (p : Part) (b : Bay) (s : Slot) :
    ∃ r : Record, r.kind = .plateau ∧ r.outcome = .missed ∧ r.number = (p.zone (zoneOf b)).index + 1 ∧
      p.settleMissed b s = p.settleWith b s r true :=
  ⟨_, rfl, rfl, rfl, rfl⟩

/-! ### Settling a member of a zone's list -/

theorem Zone.settleMember_sameBut (b : Bay) (s : Slot) (ended : Bool) (y : Zone) : y.SameBut (y.settleMember b s ended) := by
  unfold Zone.settleMember
  split <;> exact ⟨_, rfl⟩

/-- The other members of the list stay as they are. -/
theorem Zone.mem_settleMember_other {b : Bay} {s : Slot} {m : Member} (h : m.is b s = false) (ended : Bool) (y : Zone) :
    m ∈ (y.settleMember b s ended).joined ↔ m ∈ y.joined := by
  unfold Zone.settleMember
  split
  · unfold Zone.leave
    rw [List.mem_filter, h]
    simp
  · unfold Zone.mark
    rw [List.mem_map]
    constructor
    · rintro ⟨m', hm', heq⟩
      split at heq
      next his =>
        subst heq
        exact absurd (his.symm.trans h) nofun
      next => exact heq ▸ hm'
    · exact fun hm => ⟨m, hm, if_neg (by simp [h])⟩

/-- The member that settles owes the plateau no more. -/
theorem Zone.measured_settleMember {b : Bay} {s : Slot} {m : Member} (h : m.is b s = true) (ended : Bool) (y : Zone)
    (hm : m ∈ (y.settleMember b s ended).joined) : m.measured = true := by
  unfold Zone.settleMember at hm
  split at hm
  · unfold Zone.leave at hm
    have hnot := (List.mem_filter.mp hm).2
    rw [h] at hnot
    exact absurd hnot nofun
  · unfold Zone.mark at hm
    obtain ⟨m', -, heq⟩ := List.mem_map.mp hm
    split at heq
    next => exact heq ▸ rfl
    next his => exact absurd (heq ▸ h) his

/-! ### The owing members at the end of the plateau limit span -/

/-- What the end of the plateau limit span keeps of the part, for the zone `z` (R135). -/
structure Part.LimitRun (z : ZoneNo) (p q : Part) : Prop where
  zone    : (p.zone z).SameBut (q.zone z)
  started : ∀ b x, (q.ctx b x).derate.started = (p.ctx b x).derate.started
  late    : ∀ b x, (p.ctx b x).marks.late = true → (q.ctx b x).marks.late = true
  records : ∀ b x r, .record r ∈ (p.ctx b x).out → .record r ∈ (q.ctx b x).out

namespace Part.LimitRun

variable {z : ZoneNo} {p q r : Part}

theorem refl (p : Part) : p.LimitRun z p := ⟨.refl _, fun _ _ => rfl, fun _ _ h => h, fun _ _ _ h => h⟩

theorem trans (h : p.LimitRun z q) (k : q.LimitRun z r) : p.LimitRun z r :=
  ⟨h.zone.trans k.zone, fun b x => (k.started b x).trans (h.started b x), fun b x hl => k.late b x (h.late b x hl),
    fun b x r hr => k.records b x r (h.records b x r hr)⟩

theorem measuring (h : p.LimitRun z q) (m : Member) : q.measuring m = p.measuring m := by
  unfold Part.measuring
  rw [h.started]

theorem of_ctx (b : Bay) (x : Slot) (hz : (p.zone z).SameBut (q.zone z))
    (hother : ∀ c y, b ≠ c ∨ x ≠ y → q.ctx c y = p.ctx c y)
    (hstarted : (q.ctx b x).derate.started = (p.ctx b x).derate.started)
    (hlate : (p.ctx b x).marks.late = true → (q.ctx b x).marks.late = true)
    (hrecords : ∀ r, .record r ∈ (p.ctx b x).out → .record r ∈ (q.ctx b x).out) : p.LimitRun z q := by
  have hcase : ∀ c y, (c = b ∧ y = x) ∨ q.ctx c y = p.ctx c y := fun c y => by
    by_cases h : b = c ∧ x = y
    · exact .inl ⟨h.1.symm, h.2.symm⟩
    · exact .inr (hother c y (by
        rcases Decidable.not_and_iff_not_or_not.mp h with h | h
        · exact .inl h
        · exact .inr h))
  refine ⟨hz, fun c y => ?_, fun c y h => ?_, fun c y r h => ?_⟩
  · rcases hcase c y with ⟨rfl, rfl⟩ | heq
    · exact hstarted
    · rw [heq]
  · rcases hcase c y with ⟨rfl, rfl⟩ | heq
    · exact hlate h
    · rw [heq]
      exact h
  · rcases hcase c y with ⟨rfl, rfl⟩ | heq
    · exact hrecords r h
    · rw [heq]
      exact h

theorem mapCtx (p : Part) (b : Bay) (x : Slot) (f : Ctx → Ctx)
    (hstarted : (f (p.ctx b x)).derate.started = (p.ctx b x).derate.started)
    (hlate : (p.ctx b x).marks.late = true → (f (p.ctx b x)).marks.late = true)
    (hrecords : ∀ r, .record r ∈ (p.ctx b x).out → .record r ∈ (f (p.ctx b x)).out) : p.LimitRun z (p.mapCtx b x f) := by
  refine of_ctx b x (.refl _) (fun c y h => Part.ctx_mapCtx_ne p f h) ?_ ?_ ?_ <;> rw [Part.ctx_mapCtx]
  · exact hstarted
  · exact hlate
  · exact hrecords

theorem mapZone (p : Part) (z' : ZoneNo) (f : Zone → Zone) (hf : ∀ y : Zone, y.SameBut (f y)) : p.LimitRun z (p.mapZone z' f) := by
  refine ⟨?_, fun _ _ => rfl, fun _ _ h => h, fun _ _ _ h => h⟩
  by_cases h : z' = z
  · subst h
    rw [Part.zone_mapZone]
    exact hf _
  · rw [Part.zone_mapZone_other _ _ h]
    exact .refl _

theorem settleWith (p : Part) (b : Bay) (x : Slot) (r : Record) (missed : Bool) (h : (p.ctx b x).derate.started = false) :
    p.LimitRun z (p.settleWith b x r missed) := by
  rw [Part.settleWith_eq]
  refine (mapCtx p b x _ h.symm id fun r' hr' => Ctx.settled_keeps hr' ..).trans (mapZone _ _ _ fun y => ?_)
  exact Zone.settleMember_sameBut ..

theorem limitMember (p : Part) (m : Member) : p.LimitRun z (p.limitMember m) := by
  unfold Part.limitMember
  split
  next => exact refl p
  next hmeasured =>
    split
    next => exact mapCtx p _ _ _ rfl (fun _ => rfl) fun _ h => h
    next hmeasuring =>
      obtain ⟨r, -, -, -, heq⟩ := Part.settleMissed_eq p m.bay m.slot
      rw [heq]
      refine settleWith p _ _ r true ?_
      unfold Part.measuring at hmeasuring
      simp only [hmeasured, Bool.not_false, Bool.true_and, Bool.or_eq_true, not_or, Bool.not_eq_true] at hmeasuring
      exact hmeasuring.2

theorem fold (l : List Member) (p : Part) : p.LimitRun z (l.foldl Part.limitMember p) := by
  induction l generalizing p with
  | nil => exact refl p
  | cons m l ih => exact (limitMember p m).trans (ih _)

end Part.LimitRun

/-! ### What the end of the span makes of one owing member, and of all of them (R135) -/

theorem Part.limitMember_measured (p : Part) {m : Member} (h : m.measured = true) : p.limitMember m = p := if_pos h

theorem Part.limitMember_late {p : Part} {m : Member} (h : m.measured = false) (hm : p.measuring m = true) :
    p.limitMember m = p.mapCtx m.bay m.slot (fun c => { c with marks := { c.marks with late := true } }) := by
  unfold Part.limitMember
  rw [if_neg (by simp [h]), if_pos hm]

theorem Part.limitMember_missed {p : Part} {m : Member} (h : m.measured = false) (hm : p.measuring m = false) :
    p.limitMember m = p.settleMissed m.bay m.slot := by
  unfold Part.limitMember
  rw [if_neg (by simp [h]), if_neg (by simp [hm])]

/-- The members still measuring are LATE. -/
theorem Part.limitFold_late {l : List Member} {p : Part} {m : Member} (hm : m ∈ l) (hmeasuring : p.measuring m = true) :
    ((l.foldl Part.limitMember p).ctx m.bay m.slot).marks.late = true := by
  have hmeasured : m.measured = false := by
    unfold Part.measuring at hmeasuring
    simp only [Bool.and_eq_true, Bool.not_eq_true'] at hmeasuring
    exact hmeasuring.1
  induction l generalizing p with
  | nil => exact absurd hm nofun
  | cons m' l ih =>
    rcases List.mem_cons.mp hm with rfl | hm
    · refine (Part.LimitRun.fold (z := 0) l (p.limitMember m)).late m.bay m.slot ?_
      rw [Part.limitMember_late hmeasured hmeasuring, Part.ctx_mapCtx]
    · exact ih hm (((Part.LimitRun.limitMember (z := 0) p m').measuring m).trans hmeasuring)

/-- The members of the zone that have not started owe a MISSED record. -/
theorem Part.limitFold_missed {l : List Member} {p : Part} {m : Member} (hm : m ∈ l) (hmeasured : m.measured = false)
    (hmeasuring : p.measuring m = false) :
    ∃ r, .record r ∈ ((l.foldl Part.limitMember p).ctx m.bay m.slot).out ∧ r.kind = .plateau ∧ r.outcome = .missed ∧
      r.number = (p.zone (zoneOf m.bay)).index + 1 := by
  induction l generalizing p with
  | nil => exact absurd hm nofun
  | cons m' l ih =>
    rcases List.mem_cons.mp hm with rfl | hm
    · obtain ⟨r, hkind, hout, hnumber, heq⟩ := Part.settleMissed_eq p m.bay m.slot
      refine ⟨r, (Part.LimitRun.fold (z := 0) l (p.limitMember m)).records _ _ r ?_, hkind, hout, hnumber⟩
      rw [Part.limitMember_missed hmeasured hmeasuring, heq, Part.settleWith_eq, Part.ctx_mapZone, Part.ctx_mapCtx]
      exact Ctx.settled_owes ..
    · have hrun := Part.LimitRun.limitMember (z := zoneOf m.bay) p m'
      obtain ⟨r, hr, hkind, hout, hnumber⟩ := ih hm ((hrun.measuring m).trans hmeasuring)
      obtain ⟨j, hzone⟩ := hrun.zone
      exact ⟨r, hr, hkind, hout, hnumber.trans (by rw [hzone])⟩

/-- A member that is not given MISSED stays in its list as it is. -/
theorem Part.limitFold_stays {l : List Member} {p : Part} {z : ZoneNo} {m : Member}
    (h : ∀ m' ∈ l, m.is m'.bay m'.slot = true → m'.measured = false → p.measuring m' = true) :
    m ∈ ((l.foldl Part.limitMember p).zone z).joined ↔ m ∈ (p.zone z).joined := by
  induction l generalizing p with
  | nil => rfl
  | cons m' l ih =>
    have hrun := Part.LimitRun.limitMember (z := z) p m'
    refine (ih fun n hn his hmeasured => (hrun.measuring n).trans (h n (List.mem_cons_of_mem _ hn) his hmeasured)).trans ?_
    by_cases hmeasured : m'.measured = true
    · rw [Part.limitMember_measured p hmeasured]
    · rw [Bool.not_eq_true] at hmeasured
      by_cases hmeasuring : p.measuring m' = true
      · rw [Part.limitMember_late hmeasured hmeasuring]
        rfl
      · have his : m.is m'.bay m'.slot = false := by
          rw [← Bool.not_eq_true]
          exact fun his => hmeasuring (h m' (List.mem_cons_self ..) his hmeasured)
        obtain ⟨r, -, -, -, heq⟩ := Part.settleMissed_eq p m'.bay m'.slot
        rw [Part.limitMember_missed hmeasured (by simpa using hmeasuring), heq, Part.settleWith_eq]
        by_cases hz : zoneOf m'.bay = z
        · subst hz
          rw [Part.zone_mapZone]
          exact Zone.mem_settleMember_other his _ _
        · rw [Part.zone_mapZone_other _ _ hz]
          rfl

/-- Where no member is measuring, what still owes the plateau was none of the members dealt with. -/
theorem Part.limitFold_owing {l : List Member} {p : Part} {z : ZoneNo} {m : Member}
    (h : ∀ m' ∈ l, zoneOf m'.bay = z ∧ (m'.measured = true ∨ p.measuring m' = false))
    (hm : m ∈ ((l.foldl Part.limitMember p).zone z).joined) (howing : m.measured = false) :
    m ∈ (p.zone z).joined ∧ m ∉ l := by
  induction l generalizing p with
  | nil => exact ⟨hm, nofun⟩
  | cons m' l ih =>
    have hrun := Part.LimitRun.limitMember (z := z) p m'
    obtain ⟨hz, hcase⟩ := h m' (List.mem_cons_self ..)
    obtain ⟨hmem, hnot⟩ := ih (fun n hn => by
      rw [hrun.measuring n]
      exact h n (List.mem_cons_of_mem _ hn)) hm
    by_cases hmeasured : m'.measured = true
    · rw [Part.limitMember_measured p hmeasured] at hmem
      refine ⟨hmem, fun hcons => ?_⟩
      rcases List.mem_cons.mp hcons with rfl | hl
      · exact absurd (hmeasured.symm.trans howing) nofun
      · exact hnot hl
    · rw [Bool.not_eq_true] at hmeasured
      obtain ⟨r, -, -, -, heq⟩ := Part.settleMissed_eq p m'.bay m'.slot
      have hmeasuring : p.measuring m' = false := hcase.resolve_left (by simp [hmeasured])
      rw [Part.limitMember_missed hmeasured hmeasuring, heq, Part.settleWith_eq, hz, Part.zone_mapZone] at hmem
      have his : m.is m'.bay m'.slot = false := by
        rw [← Bool.not_eq_true]
        intro his
        exact absurd ((Zone.measured_settleMember his _ _ hmem).symm.trans howing) nofun
      refine ⟨(Zone.mem_settleMember_other his _ _).mp hmem, fun hcons => ?_⟩
      rcases List.mem_cons.mp hcons with rfl | hl
      · exact absurd his (by simp [Member.is])
      · exact hnot hl

/-! ### A plateau closed (R136) -/

theorem Part.outputs_eq (p : Part) (l : List (Bay × Slot)) : ∃ n t, p.outputs l = { p with free := n, todo := t } := ⟨_, _, rfl⟩

@[simp] theorem Part.outputs_zone (p : Part) (l : List (Bay × Slot)) (z : ZoneNo) : (p.outputs l).zone z = p.zone z := by
  obtain ⟨n, t, h⟩ := p.outputs_eq l
  rw [h]
  rfl

@[simp] theorem Part.outputs_ctx (p : Part) (l : List (Bay × Slot)) (b : Bay) (x : Slot) : (p.outputs l).ctx b x = p.ctx b x := by
  obtain ⟨n, t, h⟩ := p.outputs_eq l
  rw [h]
  rfl

namespace Part.LimitRun

variable {z : ZoneNo} {p : Part}

theorem outputs (p : Part) (l : List (Bay × Slot)) : p.LimitRun z (p.outputs l) := by
  obtain ⟨n, t, h⟩ := Part.outputs_eq p l
  rw [h]
  exact ⟨.refl _, fun _ _ => rfl, fun _ _ h => h, fun _ _ _ h => h⟩

theorem noPlateau (p : Part) (b : Bay) (x : Slot) : p.LimitRun z (p.noPlateau b x) :=
  mapCtx p b x _ rfl id fun _ hr => List.mem_append_left _ (Ctx.mem_withoutReturn hr)

theorem noPlateaus (l : List (Bay × Slot)) (p : Part) : p.LimitRun z (l.foldl (fun p x => p.noPlateau x.1 x.2) p) := by
  induction l generalizing p with
  | nil => exact refl p
  | cons x l ih => exact (noPlateau p x.1 x.2).trans (ih _)

end Part.LimitRun

/-- A zone that closes its plateau: on to the next one, or RETURNING; the contexts keep their LATE marks and what they owe (R136). -/
theorem Part.closePlateau_does (p : Part) (z : ZoneNo) :
    ((p.closePlateau z).zone z).limit = none ∧ ((p.closePlateau z).zone z).state ∈ [ZoneState.moving, .returning] ∧
      (∀ b x, (p.ctx b x).marks.late = true → ((p.closePlateau z).ctx b x).marks.late = true) ∧
      ∀ b x r, .record r ∈ (p.ctx b x).out → .record r ∈ ((p.closePlateau z).ctx b x).out := by
  cases hnext : (p.zone z).schedule.bind (fun l => l[(p.zone z).index + 1]?) with
  | some q =>
    have heq : p.closePlateau z = p.mapZone z (Zone.nextPlateau p.tick q) := by
      unfold Part.closePlateau
      dsimp only
      rw [hnext]
    have hzone : (p.mapZone z (Zone.nextPlateau p.tick q)).zone z = Zone.nextPlateau p.tick q (p.zone z) := Part.zone_mapZone ..
    rw [heq, hzone]
    unfold Zone.nextPlateau
    rw [Zone.setTarget_limit, Zone.setTarget_state]
    exact ⟨rfl, List.mem_cons_self .., fun _ _ h => h, fun _ _ _ h => h⟩
  | none =>
    have heq : p.closePlateau z = (((p.zone z).joined.map (fun m => (m.bay, m.slot))).foldl (fun p x => p.noPlateau x.1 x.2)
        (p.mapZone z (fun z => Zone.setTarget p.tick z.rest { z with state := .returning, limit := none, joined := [] }))).outputs
          ((p.zone z).joined.map (fun m => (m.bay, m.slot))) := by
      unfold Part.closePlateau
      dsimp only
      rw [hnext]
    have hrun := (Part.LimitRun.noPlateaus (z := z) ((p.zone z).joined.map (fun m => (m.bay, m.slot)))
      (p.mapZone z (fun z => Zone.setTarget p.tick z.rest { z with state := .returning, limit := none, joined := [] }))).trans
        (.outputs _ ((p.zone z).joined.map (fun m => (m.bay, m.slot))))
    obtain ⟨j, hj⟩ := hrun.zone
    rw [Part.zone_mapZone] at hj
    rw [heq]
    refine ⟨?_, ?_, hrun.late, hrun.records⟩
    · rw [hj]
      exact Zone.setTarget_limit ..
    · rw [hj]
      refine List.mem_cons_of_mem _ (List.mem_singleton.mpr ?_)
      exact Zone.setTarget_state ..

/-! ### The plateau limit span over (R135) -/

/-- The part at the end of the plateau limit span of a zone, its members dealt with. -/
def Part.limited (p : Part) (z : ZoneNo) : Part :=
  (p.zone z).joined.foldl Part.limitMember (p.mapZone z (fun z => { z with limit := none }))

/-- With a member left that owes the plateau, the zone is CLOSING (R135). -/
theorem Part.plateauLimit_owed {p : Part} {z : ZoneNo} (h : ((p.limited z).zone z).joined.all Member.measured = false) :
    ∃ l, p.plateauLimit z = ((p.limited z).mapZone z (fun z => { z with state := .closing })).outputs l :=
  ⟨_, congrArg (Part.outputs · _) (if_neg (Bool.eq_false_iff.mp h))⟩

theorem Part.plateauLimit_settled {p : Part} {z : ZoneNo} (h : ((p.limited z).zone z).joined.all Member.measured = true) :
    ∃ l, p.plateauLimit z = ((p.limited z).closePlateau z).outputs l :=
  ⟨_, congrArg (Part.outputs · _) (if_pos h)⟩

theorem Part.limited_limit (p : Part) (z : ZoneNo) : ((p.limited z).zone z).limit = none := by
  obtain ⟨j, hj⟩ := (Part.LimitRun.fold (z := z) (p.zone z).joined (p.mapZone z (fun z => { z with limit := none }))).zone
  unfold Part.limited
  rw [hj, Part.zone_mapZone]

theorem Part.plateauLimit_closing {p : Part} {z : ZoneNo} (h : ((p.limited z).zone z).joined.all Member.measured = false) :
    ((p.plateauLimit z).zone z).limit = none ∧ ((p.plateauLimit z).zone z).state = .closing ∧
      ((p.plateauLimit z).zone z).joined = ((p.limited z).zone z).joined := by
  obtain ⟨l, heq⟩ := Part.plateauLimit_owed h
  have hzone : (p.plateauLimit z).zone z = { (p.limited z).zone z with state := .closing } := by
    rw [heq, Part.outputs_zone]
    exact Part.zone_mapZone (p.limited z) z (fun z => { z with state := .closing })
  rw [hzone]
  exact ⟨p.limited_limit z, rfl, rfl⟩

theorem Part.plateauLimit_closed {p : Part} {z : ZoneNo} (h : ((p.limited z).zone z).joined.all Member.measured = true) :
    ((p.plateauLimit z).zone z).limit = none ∧ ((p.plateauLimit z).zone z).state ∈ [ZoneState.moving, .returning] := by
  obtain ⟨l, heq⟩ := Part.plateauLimit_settled h
  obtain ⟨hlimit, hstate, -, -⟩ := (p.limited z).closePlateau_does z
  rw [heq, Part.outputs_zone]
  exact ⟨hlimit, hstate⟩

/-- What follows the members' turns takes neither LATE marks nor records. -/
theorem Part.plateauLimit_keeps (p : Part) (z : ZoneNo) :
    (∀ b x, ((p.limited z).ctx b x).marks.late = true → ((p.plateauLimit z).ctx b x).marks.late = true) ∧
      ∀ b x r, .record r ∈ ((p.limited z).ctx b x).out → .record r ∈ ((p.plateauLimit z).ctx b x).out := by
  cases h : ((p.limited z).zone z).joined.all Member.measured with
  | false =>
    obtain ⟨l, heq⟩ := Part.plateauLimit_owed h
    simp only [heq, Part.outputs_ctx, Part.ctx_mapZone]
    exact ⟨fun _ _ h => h, fun _ _ _ h => h⟩
  | true =>
    obtain ⟨l, heq⟩ := Part.plateauLimit_settled h
    obtain ⟨-, -, hlate, hrecords⟩ := (p.limited z).closePlateau_does z
    simp only [heq, Part.outputs_ctx]
    exact ⟨hlate, hrecords⟩

theorem Part.not_all_measured {l : List Member} {m : Member} (hm : m ∈ l) (h : m.measured = false) :
    l.all Member.measured = false := by
  rw [List.all_eq_false]
  exact ⟨m, hm, by simp [h]⟩

/-- The end of the plateau limit span, member by member (R135). -/
theorem Part.plateauLimit_does (p : Part) (z : ZoneNo) :
    ((p.plateauLimit z).zone z).limit = none ∧
      ((p.plateauLimit z).zone z).state ∈ [ZoneState.closing, .moving, .returning] ∧
      (∀ m ∈ (p.zone z).joined, p.measuring m = true → ((p.plateauLimit z).ctx m.bay m.slot).marks.late = true) ∧
      (∀ m ∈ (p.zone z).joined, m.measured = false → p.measuring m = false → zoneOf m.bay = z →
        ∃ r, .record r ∈ ((p.plateauLimit z).ctx m.bay m.slot).out ∧ r.kind = .plateau ∧ r.outcome = .missed ∧
          r.number = (p.zone z).index + 1) ∧
      (∀ m ∈ (p.zone z).joined, m.measured = false →
        (∀ m' ∈ (p.zone z).joined, m.is m'.bay m'.slot = true → m'.measured = false → p.measuring m' = true) →
          ((p.plateauLimit z).zone z).state = .closing ∧ m ∈ ((p.plateauLimit z).zone z).joined) ∧
      ((∀ m ∈ (p.zone z).joined, zoneOf m.bay = z ∧ (m.measured = true ∨ p.measuring m = false)) →
        ((p.plateauLimit z).zone z).state ≠ .closing) := by
  obtain ⟨hlate, hrecords⟩ := p.plateauLimit_keeps z
  have hzone : (p.mapZone z (fun z => { z with limit := none })).zone z = { p.zone z with limit := none } := Part.zone_mapZone ..
  refine ⟨?_, ?_, fun m hm hmeasuring => ?_, fun m hm hmeasured hmeasuring hz => ?_, fun m hm hmeasured hstays => ?_, fun hnone => ?_⟩
  · cases h : ((p.limited z).zone z).joined.all Member.measured with
    | false => exact (Part.plateauLimit_closing h).1
    | true => exact (Part.plateauLimit_closed h).1
  · cases h : ((p.limited z).zone z).joined.all Member.measured with
    | false =>
      obtain ⟨-, hstate, -⟩ := Part.plateauLimit_closing h
      rw [hstate]
      exact List.mem_cons_self ..
    | true => exact List.mem_cons_of_mem _ (Part.plateauLimit_closed h).2
  · exact hlate _ _ (Part.limitFold_late (p := p.mapZone z (fun z => { z with limit := none })) hm hmeasuring)
  · obtain ⟨r, hr, hkind, hout, hnumber⟩ :=
      Part.limitFold_missed (p := p.mapZone z (fun z => { z with limit := none })) hm hmeasured hmeasuring
    rw [hz, hzone] at hnumber
    exact ⟨r, hrecords _ _ r hr, hkind, hout, hnumber⟩
  · have hstay : m ∈ ((p.limited z).zone z).joined :=
      (Part.limitFold_stays (p := p.mapZone z (fun z => { z with limit := none })) hstays).mpr (by
        rw [hzone]
        exact hm)
    obtain ⟨-, hstate, hjoined⟩ := Part.plateauLimit_closing (Part.not_all_measured hstay hmeasured)
    rw [hjoined]
    exact ⟨hstate, hstay⟩
  · have hall : ((p.limited z).zone z).joined.all Member.measured = true := by
      rw [List.all_eq_true]
      intro m hm
      cases hmeasured : m.measured with
      | true => rfl
      | false =>
        obtain ⟨hmem, hnot⟩ := Part.limitFold_owing (p := p.mapZone z (fun z => { z with limit := none })) hnone hm hmeasured
        rw [hzone] at hmem
        exact absurd hmem hnot
    obtain ⟨-, hstate⟩ := Part.plateauLimit_closed hall
    intro h
    rw [h] at hstate
    exact absurd hstate (by decide)

/-- A member of a list that names each context once is the only one of its context (R139). -/
theorem Part.eq_of_member_is {l : List Member} {m m' : Member} (h : (l.map (fun m => (m.bay, m.slot))).Nodup) (hm : m ∈ l)
    (hm' : m' ∈ l) (his : m.is m'.bay m'.slot = true) : m' = m := by
  unfold Member.is at his
  rw [Bool.and_eq_true_iff, beq_iff_eq, beq_iff_eq] at his
  exact (List.inj_on_of_nodup_map h hm hm' (Prod.ext his.1 his.2)).symm

theorem Part.measuring_iff {p : Part} {m : Member} :
    p.measuring m = true ↔ m.measured = false ∧ (m.started = true ∨ (p.ctx m.bay m.slot).derate.started = true) := by
  unfold Part.measuring
  rw [Bool.and_eq_true_iff, Bool.or_eq_true_iff, Bool.not_eq_true']

/-- Settles O50. -/
theorem plateausOpenAndClose : Obligations.PlateausOpenAndClose := by
  unfold Obligations.PlateausOpenAndClose
  intro s z
  dsimp only
  refine ⟨fun t ht hnow => ?_, fun t ht hnow => ?_, fun t ht hnow hstate => ?_, fun t ht hnow hstate => ?_⟩
  · refine State.runIf_false s _ ?_
    rw [Bool.and_eq_false_iff, Bool.eq_false_iff, Ne, SpanTimer.any_due ht]
    omega
  · refine State.runIf_false s _ ?_
    rw [Bool.and_eq_false_iff, Bool.eq_false_iff, Ne, SpanTimer.any_due ht]
    omega
  · have hguard : ((s.part.zone z).settle.any (SpanTimer.due s.part.tick) && (s.part.zone z).state == .settling) = true :=
      Bool.and_eq_true_iff.mpr ⟨(SpanTimer.any_due ht).mpr hnow, beq_iff_eq.mpr hstate⟩
    refine Owes.of_runIf (f := fun p => p.openPlateau z) rfl hguard ?_
    unfold Part.openPlateau
    have hjoined : (s.part.fresh.mapZone z (fun y =>
        { y with state := .opened, settle := none, limit := y.plateau.map (fun q => ⟨s.part.fresh.tick, q.limit.ticks⟩) })).zone z =
        { s.part.zone z with
          state := .opened, settle := none
          limit := (s.part.zone z).plateau.map (fun q => ⟨s.part.tick, q.limit.ticks⟩) } := Part.zone_mapZone ..
    dsimp only
    rw [hjoined]
    rfl
  · have hguard : ((s.part.zone z).limit.any (SpanTimer.due s.part.tick) && (s.part.zone z).state == .opened) = true :=
      Bool.and_eq_true_iff.mpr ⟨(SpanTimer.any_due ht).mpr hnow, beq_iff_eq.mpr hstate⟩
    obtain ⟨hlimit, hst, hlate, hmissed, hstays, hnone⟩ := s.part.fresh.plateauLimit_does z
    have hmeasuring : ∀ m : Member, s.part.fresh.measuring m = true ↔
        m.measured = false ∧ (m.started = true ∨ (s.part.ctx m.bay m.slot).derate.started = true) := fun m =>
      Part.measuring_iff
    refine ⟨_, Owes.of_runIf (f := fun p => p.plateauLimit z) rfl hguard rfl, hlimit, hst, fun m hm hmeasured hmeas => ?_,
      fun m hm hmeasured hmeas hz => ?_, fun hne hall => ?_, fun hnodup hex => ?_, fun hall => ?_⟩
    · exact hlate m hm ((hmeasuring m).mpr ⟨hmeasured, hmeas⟩)
    · exact hmissed m hm hmeasured (Bool.eq_false_iff.mpr fun h => hmeas ((hmeasuring m).mp h).2) hz
    · obtain ⟨m, hm⟩ := List.exists_mem_of_ne_nil _ hne
      exact (hstays m hm (hall m hm).1 fun m' hm' _ _ => (hmeasuring m').mpr (hall m' hm')).1
    · have hown : ∀ m ∈ (s.part.zone z).joined, m.measured = false →
          (m.started = true ∨ (s.part.ctx m.bay m.slot).derate.started = true) →
          ((s.part.fresh.plateauLimit z).zone z).state = .closing ∧ m ∈ ((s.part.fresh.plateauLimit z).zone z).joined :=
        fun m hm hmeasured hmeas => hstays m hm hmeasured fun m' hm' his _ => by
          rw [Part.eq_of_member_is hnodup hm hm' his]
          exact (hmeasuring m).mpr ⟨hmeasured, hmeas⟩
      obtain ⟨m, hm, hmeasured, hmeas⟩ := hex
      exact ⟨(hown m hm hmeasured hmeas).1, fun m hm hmeasured hmeas =>
        ⟨hlate m hm ((hmeasuring m).mpr ⟨hmeasured, hmeas⟩), (hown m hm hmeasured hmeas).2⟩⟩
    · refine hnone fun m hm => ⟨(hall m hm).1, ?_⟩
      refine (hall m hm).2.imp_right fun hnot => Bool.eq_false_iff.mpr fun h => hnot ((hmeasuring m).mp h).2

end Sys2Proof.Machine
end

section
/-! Withdrawals (R22, R23, R109, R176). -/

namespace Sys2Proof.Machine

/-! ### A pending long order answered -/

theorem Part.answerPending_bay (p : Part) (b : Bay) (code : AnswerCode) (l : List (Nat × Nat × Nat)) :
    (p.answerPending b code l).bay b = { p.bay b with pendingOrder := none } := by
  cases h : (p.bay b).pendingOrder with
  | none =>
    rw [Part.answerPending_none h]
    generalize p.bay b = u at h
    cases u
    cases h
    rfl
  | some o =>
    rw [Part.answerPending_some h]
    exact Part.bay_mapBay p b (fun u => { u with pendingOrder := none })

theorem Part.answerPending_bay_other (p : Part) {b c : Bay} (hc : c ≠ b) (code : AnswerCode) (l : List (Nat × Nat × Nat)) :
    (p.answerPending b code l).bay c = p.bay c := by
  cases h : (p.bay b).pendingOrder with
  | none => rw [Part.answerPending_none h]
  | some o =>
    rw [Part.answerPending_some h]
    exact Part.bay_mapBay_other p (fun u => { u with pendingOrder := none }) (Ne.symm hc)

@[simp] theorem Part.answerPending_todo (p : Part) (b : Bay) (code : AnswerCode) (l : List (Nat × Nat × Nat)) :
    (p.answerPending b code l).todo = p.todo := by
  unfold Part.answerPending
  split <;> rfl

@[simp] theorem Part.answerPending_zones (p : Part) (b : Bay) (code : AnswerCode) (l : List (Nat × Nat × Nat)) :
    (p.answerPending b code l).zones = p.zones := by
  unfold Part.answerPending
  split <;> rfl

theorem Part.answerPending_answered {p : Part} {b : Bay} {o : OrderSlot} (h : (p.bay b).pendingOrder = some o) (code : AnswerCode)
    (l : List (Nat × Nat × Nat)) : (p.answerPending b code l).answers[o].any (fun a => a.code == code) = true := by
  rw [Part.answerPending_some h]
  show ((Part.answer _ o code l).answers[o.val]).any (fun a => a.code == code) = true
  rw [Part.answer_answers]
  exact beq_self_eq_true code

/-! ### A bay that is done enters EMPTY (R23, R176) -/

theorem Part.bay_enterEmpty (p : Part) (b : Bay) : (p.enterEmpty b).bay b = (p.bay b).emptied :=
  Part.bay_mapBay p b BayUnit.emptied

theorem Part.bayTest_emptied {p : Part} {b : Bay} {n : Nat} (hstate : (p.bay b).state = .withdrawing)
    (hdrained : (p.bay b).drained = true) (hpage : (p.bay b).currentPage = some n) (hfull : (p.bay b).pageFull = true)
    (hstandby : (p.bay b).standbyEmpty = true) : p.bayTest b = (p.answerPending b .done []).enterEmpty b := by
  have htest : p.bayTest b = p.withdrawTest b := by
    unfold Part.bayTest
    dsimp only
    rw [hstate]
  rw [htest]
  unfold Part.withdrawTest
  dsimp only
  rw [if_pos hdrained, hpage]
  dsimp only
  rw [if_pos hfull, if_pos hstandby]

/-! ### The obligation -/

/-- The FULL mark of the last page of a bay that is done with all else takes it to EMPTY (R23, R176). -/
theorem fullMark_empties {s : State} {g : Settings} {b : Bay} {n : Nat} (hg : s.part.settings = some g)
    (hstate : (s.part.bay b).state = .withdrawing) (hpage : (s.part.bay b).currentPage = some n)
    (hfull : (s.part.bay b).fullWrites = [n]) (hbuffer : (s.part.bay b).buffer = []) (hline : (s.part.bay b).line = [])
    (habsent : ∀ x, (s.part.ctx b x).state = .absent) (hstandby : ∀ x : Slot, (s.part.bay b).standby[x] = none) :
    ∃ q, Does (.fullMarkWritten b) s (s.book.writeBytes (s.part.base + g.poolOffset * 4096 + 4096 * n) [2]) q ∧
      (q.bay b).state = .empty ∧ (q.bay b).cause = none ∧ (q.bay b).pendingOrder = none ∧
      (q.bay b).firstPage = none ∧ (q.bay b).currentPage = none ∧ (q.bay b).busHolder = none ∧
      ∀ o, (s.part.bay b).pendingOrder = some o → q.answers[o].any (fun a => a.code == .done) = true := by
  obtain ⟨k, m, howes, -⟩ := Owes.fullMarkWritten hg hfull
  have hbay : ({ s.part.fresh.mapBay b (BayUnit.markedFull n) with pendingSet := k, messages := m } : Part).bay b =
      BayUnit.markedFull n (s.part.bay b) := Part.bay_mapBay s.part.fresh b (BayUnit.markedFull n)
  have hreach := howes.step rfl
  have htodo : ({ s.part.fresh.mapBay b (BayUnit.markedFull n) with pendingSet := k, messages := m } : Part).todo = [] := rfl
  generalize ({ s.part.fresh.mapBay b (BayUnit.markedFull n) with pendingSet := k, messages := m } : Part) = p at hbay hreach htodo
  have hdrained : (p.bay b).drained = true := by
    unfold BayUnit.drained
    have hall : (p.bay b).allCtx (fun c => c.state == .absent) = true := BayUnit.allCtx_iff.mpr fun x => by
      rw [hbay]
      exact beq_iff_eq.mpr (habsent x)
    rw [hall, hbay]
    unfold BayUnit.markedFull
    rw [hbuffer, hline]
    rfl
  have hstand : (p.bay b).standbyEmpty = true := by
    unfold BayUnit.standbyEmpty
    rw [List.all_eq_true, hbay]
    intro x _
    exact Option.isNone_iff_eq_none.mpr (hstandby x)
  have hrun : consequence (.bayTest b) p = (p.answerPending b .done []).enterEmpty b :=
    Part.bayTest_emptied (by rw [hbay]; exact hstate) hdrained (by rw [hbay]; exact hpage)
      (by rw [hbay]; unfold BayUnit.markedFull; rw [hpage]; simp) hstand
  rw [hrun, Part.later_nil] at hreach
  have hempty := (p.answerPending b .done []).bay_enterEmpty b
  have htodo' : ((p.answerPending b .done []).enterEmpty b).todo = [] := (Part.answerPending_todo p b .done []).trans htodo
  refine ⟨_, hreach.does htodo', ?_⟩
  rw [hempty]
  refine ⟨rfl, rfl, rfl, rfl, rfl, rfl, fun o ho => ?_⟩
  exact Part.answerPending_answered (p := p) (by rw [hbay]; exact ho) .done []

/-! ### A BAY_WITHDRAW taken (R22) -/

/-- The part that has taken a BAY_WITHDRAW, its order in the place of the pending one, the withdrawal not yet begun. -/
def Part.withdrawing (p : Part) (o : OrderSlot) (b : Bay) : Part :=
  (p.answerPending b .superseded []).mapBay b (fun u => { u with pendingOrder := some o })

theorem Part.orderWithdraw_taken {p : Part} {b : Bay} (h : (p.bay b).state ∉ [BayState.empty, .withdrawing]) (o : OrderSlot) :
    p.orderWithdraw o b = ((p.withdrawing o b).beginWithdraw b .withdrawn).withdrawCtxs b .withdrawn := by
  unfold Part.orderWithdraw
  cases hstate : (p.bay b).state with
  | empty => exact absurd (hstate ▸ h) (by decide)
  | withdrawing => exact absurd (hstate ▸ h) (by decide)
  | _ => rfl

theorem Part.bay_withdrawing (p : Part) (o : OrderSlot) (b : Bay) :
    (p.withdrawing o b).bay b = { p.bay b with pendingOrder := some o } := by
  have hbay := Part.bay_mapBay (p.answerPending b .superseded []) b (fun u => { u with pendingOrder := some o })
  rw [Part.answerPending_bay] at hbay
  exact hbay

theorem Part.bay_withdrawing_other (p : Part) (o : OrderSlot) {b c : Bay} (hc : c ≠ b) :
    (p.withdrawing o b).bay c = p.bay c :=
  (Part.bay_mapBay_other (p.answerPending b .superseded []) (fun u => { u with pendingOrder := some o }) (Ne.symm hc)).trans
    (Part.answerPending_bay_other p hc _ _)

/-- What a BAY_WITHDRAW taken makes of its bay (R22). -/
theorem Part.orderWithdraw_does {p : Part} {b : Bay} (h : (p.bay b).state ∉ [BayState.empty, .withdrawing]) (o : OrderSlot) :
    ((p.orderWithdraw o b).bay b).state = .withdrawing ∧ ((p.orderWithdraw o b).bay b).cause = some .withdrawn ∧
      ((p.orderWithdraw o b).bay b).pendingOrder = some o ∧
      (∀ k, (p.bay b).pendingOrder = some k → (p.orderWithdraw o b).answers[k].any (fun a => a.code == .superseded) = true) ∧
      ((p.orderWithdraw o b).bay b).busQueue = [] ∧ (∀ e ∈ (p.orderWithdraw o b).chanQueue, e.bay ≠ b) ∧
      (∀ x, (p.ctx b x).WithdrawnAs .withdrawn ((p.orderWithdraw o b).ctx b x)) ∧
      ∀ c, c ≠ b → (p.orderWithdraw o b).bay c = p.bay c := by
  have hne : ((p.withdrawing o b).bay b).state ≠ .withdrawing := by
    rw [Part.bay_withdrawing]
    exact fun hw => h (List.mem_cons_of_mem _ (List.mem_singleton.mpr hw))
  have hbegun := Part.bay_beginWithdraw (p.withdrawing o b) b .withdrawn hne
  have hqueue : (((p.withdrawing o b).beginWithdraw b .withdrawn).bay b).busQueue = [] := by rw [hbegun]
  obtain ⟨hapart, hbay, hctxs, -, hchan⟩ := ((p.withdrawing o b).beginWithdraw b .withdrawn).withdrawCtxs_withdrawn b .withdrawn
  obtain ⟨cs, k, holder, hbay⟩ := hbay hqueue
  rw [hbegun, Part.bay_withdrawing] at hbay
  have hctx : ∀ x, ((p.withdrawing o b).beginWithdraw b .withdrawn).ctx b x = p.ctx b x := fun x => by
    unfold Part.ctx
    rw [hbegun, Part.bay_withdrawing]
    rfl
  rw [Part.orderWithdraw_taken h, hbay]
  refine ⟨rfl, rfl, rfl, fun j hj => ?_, rfl, fun e he => ?_, fun x => ?_, fun c hc => ?_⟩
  · rw [hapart.answers, Part.answers_beginWithdraw]
    exact Part.answerPending_answered hj .superseded []
  · have hmem := hchan hqueue e he
    rw [Part.chanQueue_beginWithdraw _ b .withdrawn hne] at hmem
    exact bne_iff_ne.mp (List.mem_filter.mp hmem).2
  · rw [← hctx]
    exact hctxs hqueue x (mem_allSlots x)
  · rw [hapart.others c hc, Part.bay_beginWithdraw_other _ _ hc, Part.bay_withdrawing_other _ _ hc]

/-- Settles O24. -/
theorem withdrawalsBeginAndContextsLeave : Obligations.WithdrawalsBeginAndContextsLeave := by
  unfold Obligations.WithdrawalsBeginAndContextsLeave
  refine ⟨fun p b cause => ⟨fun h => ?_, fun h => if_pos h⟩, fun p b x => ⟨?_, fun e he => ?_, fun y hy => ?_⟩,
    fun s o rest bytes b => ?_, fun s g b n hg hstate hpage hfull hbuffer hline habsent hstandby =>
      fullMark_empties hg hstate hpage hfull hbuffer hline habsent hstandby⟩
  · have hbay := Part.bay_beginWithdraw p b cause h
    refine ⟨congrArg BayUnit.state hbay, congrArg BayUnit.cause hbay, congrArg BayUnit.busQueue hbay, fun e he => ?_⟩
    rw [Part.chanQueue_beginWithdraw p b cause h] at he
    exact bne_iff_ne.mp (List.mem_filter.mp he).2
  · unfold Part.becomeAbsent
    rw [Part.ctx_later, Part.ctx_mapCtx]
  · have hlink : (p.becomeAbsent b x).link b = (p.link b).remove (fun e => e.who == p.requester b x && true) := by
      unfold Part.becomeAbsent
      exact (Part.link_mapCtx _ b x _ b).trans (Part.link_mapLink p b _)
    rw [hlink, Link.mem_remove] at he
    simpa using he.2
  · unfold Part.becomeAbsent
    rw [Part.ctx_later, Part.ctx_mapCtx_other _ _ _ (Ne.symm hy), Part.ctx_withdrawEntries]
  · dsimp only
    intro hs hcode hb hstate
    have howes := Owes.copied (bytes := bytes) hs
    rw [Part.takeOrder_withdraw (s.part.taking o rest bytes) o (0 :: bytes) hcode hb] at howes
    obtain ⟨hst, hcause, hpending, hsuper, hqueue, hchan, hctxs, hother⟩ :=
      Part.orderWithdraw_does (p := s.part.taking o rest bytes) (b := b) hstate o
    exact ⟨_, howes, hst, hcause, hpending, hsuper, hqueue, hchan, hctxs, hother⟩

end Sys2Proof.Machine
end

section
/-! RUN written 0 in RUNNING: the stop (R22, R109, R138, R185). -/

namespace Sys2Proof.Machine

/-! ### Members only leave (R140) -/

/-- The zones and the nudge pending mark are the same. -/
def Part.SameZones (p q : Part) : Prop := q.zones = p.zones ∧ q.nudge = p.nudge

namespace Part.SameZones

variable {p q r : Part}

theorem refl (p : Part) : p.SameZones p := ⟨rfl, rfl⟩

theorem trans (h : p.SameZones q) (k : q.SameZones r) : p.SameZones r := ⟨k.1.trans h.1, k.2.trans h.2⟩

theorem mapBay (p : Part) (b : Bay) (f : BayUnit → BayUnit) : p.SameZones (p.mapBay b f) := ⟨rfl, rfl⟩

theorem requestChan (p : Part) (b : Bay) (s : Slot) : p.SameZones (p.requestChan b s) := by
  unfold Part.requestChan
  split <;> exact ⟨rfl, rfl⟩

theorem releaseBus (p : Part) (b : Bay) : p.SameZones (p.releaseBus b) := by
  unfold Part.releaseBus
  split
  · split
    · exact ⟨rfl, rfl⟩
    · exact (((mapBay p b (fun u => { u with busHolder := none, busQueue := _ })).trans
        (mapBay _ b (fun u => { u with busHolder := some _ }))).trans (mapBay _ b _)).trans (requestChan _ b _)
  · exact refl p

theorem giveUpBus (p : Part) (b : Bay) (s : Slot) : p.SameZones (p.giveUpBus b s) := by
  unfold Part.giveUpBus
  split
  · exact releaseBus p b
  · exact refl p

theorem dropChan (p : Part) (c : Chan) : p.SameZones (p.dropChan c) := by
  unfold Part.dropChan
  dsimp only
  split <;> exact ⟨rfl, rfl⟩

theorem openChan (p : Part) (c : Chan) : p.SameZones (p.openChan c) := by
  unfold Part.openChan
  dsimp only
  split
  · exact ⟨rfl, rfl⟩
  · exact refl p
  · exact ⟨rfl, rfl⟩
  · split
    · exact ⟨rfl, rfl⟩
    · exact (dropChan p c).trans ⟨rfl, rfl⟩

theorem abortChannel (p : Part) (c : Chan) : p.SameZones (p.abortChannel c) := (dropChan p c).trans (openChan _ c)

theorem composeAbort (p : Part) (b : Bay) (s : Slot) : p.SameZones (p.composeAbort b s) := by
  unfold Part.composeAbort
  dsimp only
  split <;> exact ⟨rfl, rfl⟩

theorem becomeAbsent (p : Part) (b : Bay) (s : Slot) : p.SameZones (p.becomeAbsent b s) := ⟨rfl, rfl⟩

theorem beginWithdraw (p : Part) (b : Bay) (cause : Cause) : p.SameZones (p.beginWithdraw b cause) := by
  unfold Part.beginWithdraw
  split <;> exact ⟨rfl, rfl⟩

theorem answerPending (p : Part) (b : Bay) (code : AnswerCode) (l : List (Nat × Nat × Nat)) :
    p.SameZones (p.answerPending b code l) := by
  unfold Part.answerPending
  split <;> exact ⟨rfl, rfl⟩

end Part.SameZones

/-- The zones are the same but for members that have left, and the nudge pending mark is the same. -/
structure Part.Fewer (p q : Part) : Prop where
  nudge : q.nudge = p.nudge
  zones : ∀ z, ∃ l, q.zone z = { p.zone z with joined := l } ∧ ∀ m ∈ l, m ∈ (p.zone z).joined

namespace Part.Fewer

variable {p q r : Part}

theorem of_same (h : p.SameZones q) : p.Fewer q :=
  ⟨h.2, fun z => ⟨(p.zone z).joined, congrArg (fun v => v[z]) h.1, fun _ hm => hm⟩⟩

theorem refl (p : Part) : p.Fewer p := of_same (.refl p)

theorem trans (h : p.Fewer q) (k : q.Fewer r) : p.Fewer r := by
  refine ⟨k.nudge.trans h.nudge, fun z => ?_⟩
  obtain ⟨l, hq, hl⟩ := h.zones z
  obtain ⟨l', hr, hl'⟩ := k.zones z
  rw [hq] at hr hl'
  exact ⟨l', hr, fun m hm => hl m (hl' m hm)⟩

theorem has_false (h : p.Fewer q) {z : ZoneNo} {b : Bay} {s : Slot} (hp : (p.zone z).has b s = false) :
    (q.zone z).has b s = false := by
  obtain ⟨l, hq, hl⟩ := h.zones z
  unfold Zone.has at hp ⊢
  rw [hq, List.any_eq_false]
  exact fun m hm => List.any_eq_false.mp hp m (hl m hm)

theorem leave (p : Part) (z : ZoneNo) (b : Bay) (s : Slot) : p.Fewer (p.mapZone z (Zone.leave b s)) := by
  refine ⟨rfl, fun y => ?_⟩
  by_cases h : z = y
  · subst h
    rw [Part.zone_mapZone]
    exact ⟨_, rfl, fun m hm => List.mem_of_mem_filter hm⟩
  · rw [Part.zone_mapZone_other _ _ h]
    exact ⟨_, rfl, fun _ hm => hm⟩

end Part.Fewer

/-! ### A context that leaves its zone's list -/

theorem Zone.has_leave (b : Bay) (s : Slot) (y : Zone) : (y.leave b s).has b s = false := by
  unfold Zone.leave Zone.has
  rw [List.any_eq_false]
  intro m hm
  have hnot := (List.mem_filter.mp hm).2
  simpa using hnot

/-- Members have left, the context of the slot among them. -/
def Part.Leaves (b : Bay) (s : Slot) (p q : Part) : Prop := p.Fewer q ∧ (q.zone (zoneOf b)).has b s = false

namespace Part.Leaves

variable {b : Bay} {s : Slot} {p q r : Part}

theorem after (h : p.Fewer q) (k : q.Leaves b s r) : p.Leaves b s r := ⟨h.trans k.1, k.2⟩

theorem before (h : p.Leaves b s q) (k : q.Fewer r) : p.Leaves b s r := ⟨h.1.trans k, k.has_false h.2⟩

theorem leaveZone (p : Part) (b : Bay) (s : Slot) : p.Leaves b s (p.leaveZone b s) := by
  unfold Part.leaveZone
  dsimp only
  split
  next =>
    have hleft : p.Leaves b s (p.mapZone (zoneOf b) (Zone.leave b s)) := by
      refine ⟨.leave p _ b s, ?_⟩
      rw [Part.zone_mapZone]
      exact Zone.has_leave b s _
    split
    · exact hleft.before (.of_same ⟨rfl, rfl⟩)
    · exact hleft
  next h => exact ⟨.refl p, by simpa using h⟩

theorem endAtBoundary (p : Part) (cause : Cause) : p.Leaves b s (p.endAtBoundary b s cause) :=
  (leaveZone p b s).before (.of_same (.mapBay _ b _))

theorem abortBefore (p : Part) (cause : Cause) : p.Leaves b s (p.abortBefore b s cause) := by
  unfold Part.abortBefore
  extract_lets c number started stage p1 p2 p3 p4 p5
  have h5 : p.Leaves b s p5 := after (q := p4) (.of_same ⟨rfl, rfl⟩) (leaveZone p4 b s)
  clear_value p5 started stage
  split
  · exact h5.before (.of_same (.trans (.mapBay p5 b _) (.composeAbort _ b s)))
  · exact h5.before (.of_same (.trans (.trans ⟨rfl, rfl⟩ (.composeAbort (p5.leaveChanQueue b s) b s)) (.giveUpBus _ b s)))
  · exact h5.before (.of_same (.composeAbort p5 b s))
  · split
    · exact h5.before (.of_same (.trans (.trans (.mapBay p5 b _) (.mapBay _ b _)) (.abortChannel _ _)))
    · split
      · exact h5.before (.of_same ⟨rfl, rfl⟩)
      · exact h5.before (.of_same (.composeAbort p5 b s))

theorem abort {p : Part} (cause : Cause) (h : (p.ctx b s).work.aborting = none) : p.Leaves b s (p.abort b s cause) := by
  unfold Part.abort
  dsimp only
  rw [if_neg (by rw [h]; exact nofun)]
  split
  · exact after (.of_same (.mapBay p b _)) ((leaveZone _ b s).before (.of_same (.mapBay _ b _)))
  · exact abortBefore p cause

end Part.Leaves

/-! ### A context removed (R6, R22) -/

theorem Part.Fewer.abort (p : Part) (b : Bay) (s : Slot) (cause : Cause) : p.Fewer (p.abort b s cause) := by
  cases h : (p.ctx b s).work.aborting with
  | none => exact (Part.Leaves.abort cause h).1
  | some c =>
    have hsame : p.abort b s cause = p := if_pos (by rw [h]; rfl)
    rw [hsame]
    exact .refl p

theorem Part.Fewer.removeCtx (p : Part) (b : Bay) (s : Slot) (cause : Cause) (t : Option Stamp) :
    p.Fewer (p.removeCtx b s cause t) := by
  unfold Part.removeCtx
  dsimp only
  split
  · exact .refl p
  · split
    · exact .of_same (.mapBay p b _)
    · split
      · exact .of_same (.trans (.mapBay p b _) (.mapBay _ b _))
      · exact (Part.Leaves.endAtBoundary p cause).1.trans (.of_same (.mapBay _ b _))
      · exact (Part.Leaves.endAtBoundary p cause).1.trans (.of_same (.mapBay _ b _))
      · split
        · exact .of_same (.trans (.trans (.mapBay p b _) (.mapBay _ b _)) (.mapBay _ b _))
        · split
          · exact (Part.Leaves.endAtBoundary p cause).1.trans (.of_same (.mapBay _ b _))
          · split
            · exact (Part.Fewer.abort p b s cause).trans (.of_same (.mapBay _ b _))
            · exact Part.Fewer.trans (.of_same (.mapBay p b _)) (.abort _ b s cause)
      · split
        · exact .of_same (.becomeAbsent p b s)
        · exact .of_same (.mapBay p b _)

/-- A context whose withdrawal takes it out of its zone's list (R22, R140). -/
def Ctx.LeavesZone (c : Ctx) : Prop :=
  c.exit = .stay ∧ (c.state = .planned ∨ c.state = .paused ∨ c.atBoundary = true ∨ c.atPlateau = true ∨
    c.inCheck = true ∧ c.work.aborting = none)

theorem Ctx.atBoundary_iff {c : Ctx} :
    c.atBoundary = true ↔ c.state = .running ∧ c.phase = .none ∧ c.work.step ≠ .stopOutput ∧ c.exit = .stay := by
  unfold Ctx.atBoundary
  simp [and_assoc]

theorem Ctx.atPlateau_iff {c : Ctx} :
    c.atPlateau = true ↔ c.state = .running ∧ c.phase = .plateauWait ∧ c.derate.started = false ∧ c.exit = .stay := by
  unfold Ctx.atPlateau
  simp [and_assoc]

theorem Ctx.inCheck_iff {c : Ctx} :
    c.inCheck = true ↔ c.state = .running ∧ c.phase ≠ .none ∧ c.atPlateau = false ∧ c.exit = .stay := by
  unfold Ctx.inCheck
  simp [and_assoc]

theorem Ctx.stopping_iff {c : Ctx} :
    c.stopping = true ↔ c.state = .running ∧ c.phase = .none ∧ c.work.step = .stopOutput ∧ c.exit = .stay := by
  unfold Ctx.stopping
  simp [and_assoc]

/-- A context removed at a boundary, as it leaves its zone's list. -/
theorem Part.Leaves.removeCtx {p : Part} {b : Bay} {s : Slot} (h : (p.ctx b s).LeavesZone) (cause : Cause) (t : Option Stamp) :
    p.Leaves b s (p.removeCtx b s cause t) := by
  obtain ⟨hexit, hcase⟩ := h
  have hend : p.Leaves b s ((p.endAtBoundary b s cause).leaveBehind b s t) :=
    (Part.Leaves.endAtBoundary p cause).before (.of_same (.mapBay _ b _))
  unfold Part.removeCtx
  dsimp only
  by_cases habsent : (p.ctx b s).state = .absent
  · exfalso
    rw [Ctx.atBoundary_iff, Ctx.atPlateau_iff, Ctx.inCheck_iff, habsent] at hcase
    simp at hcase
  rw [if_neg (by simp [habsent, hexit]), if_neg (by simp [hexit])]
  rcases hcase with hstate | hstate | hbound | hplateau | ⟨hcheck, habort⟩
  · rw [hstate]
    exact hend
  · rw [hstate]
    exact hend
  · obtain ⟨hstate, hphase, hstep, -⟩ := Ctx.atBoundary_iff.mp hbound
    rw [hstate]
    dsimp only
    rw [if_neg (by rw [Ctx.stopping_iff]; exact fun h => hstep h.2.2.1), if_pos (by simp [hbound])]
    exact hend
  · obtain ⟨hstate, hphase, -, -⟩ := Ctx.atPlateau_iff.mp hplateau
    rw [hstate]
    dsimp only
    rw [if_neg (by rw [Ctx.stopping_iff, hphase]; exact fun h => nomatch h.2.1), if_pos (by simp [hplateau])]
    exact hend
  · obtain ⟨hstate, hphase, hplateau, -⟩ := Ctx.inCheck_iff.mp hcheck
    have hbound : (p.ctx b s).atBoundary = false := Bool.eq_false_iff.mpr fun h => hphase (Ctx.atBoundary_iff.mp h).2.1
    rw [hstate]
    dsimp only
    rw [if_neg (by rw [Ctx.stopping_iff]; exact fun h => hphase h.2.1), if_neg (by simp [hbound, hplateau])]
    split
    · exact (Part.Leaves.abort cause habort).before (.of_same (.mapBay _ b _))
    · refine Part.Leaves.after (.of_same (.mapBay p b _)) (Part.Leaves.abort cause ?_)
      exact (congrArg (fun c : Ctx => c.work.aborting)
        (Part.ctx_mapCtx p b s (fun c => { c with exit := .leaving, fellAt := t }))).trans habort

/-! ### The contexts of a bay withdrawn (R22) -/

theorem Part.Fewer.fold {α : Type} {f : Part → α → Part} (hf : ∀ (p : Part) (x : α), p.Fewer (f p x)) (l : List α) (p : Part) :
    p.Fewer (l.foldl f p) := by
  induction l generalizing p with
  | nil => exact .refl p
  | cons x l ih => exact (hf p x).trans (ih _)

theorem Part.removeCtxs_leaves {b : Bay} {x : Slot} (cause : Cause) {l : List Slot} {p : Part} (hq : (p.bay b).busQueue = [])
    (hx : x ∈ l) (h : (p.ctx b x).LeavesZone) : p.Leaves b x (l.foldl (fun p s => p.removeCtx b s cause none) p) := by
  induction l generalizing p with
  | nil => exact absurd hx nofun
  | cons s l ih =>
    have hwithin : p.Within b s (p.removeCtx b s cause none) := Part.Within.removeCtx p cause none
    by_cases hs : x = s
    · subst hs
      exact (Part.Leaves.removeCtx h cause none).before (Part.Fewer.fold (fun p s => .removeCtx p b s cause none) l _)
    · refine Part.Leaves.after (.removeCtx p b s cause none) (ih (hwithin.busQueue hq) ?_ ?_)
      · exact (List.mem_cons.mp hx).resolve_left hs
      · rw [hwithin.ctxs hq x hs]
        exact h

theorem Part.later_outputs_later (q : Part) (l k : List Conseq) (m : List (Bay × Slot)) :
    ∃ n t, ((q.later l).outputs m).later k = { q with free := n, todo := t } := by
  obtain ⟨n, t, h⟩ := (q.later l).outputs_eq m
  rw [h]
  exact ⟨n, _, rfl⟩

/-- What follows the removals of one bay's contexts is owed, in a free order. -/
theorem Part.withdrawCtxs_eq (p : Part) (b : Bay) (cause : Cause) : ∃ n t, p.withdrawCtxs b cause =
    { allSlots.foldl (fun p s => p.removeCtx b s cause none) p with free := n, todo := t } := Part.later_outputs_later _ _ _ _

theorem Part.Fewer.withdrawCtxs (p : Part) (b : Bay) (cause : Cause) : p.Fewer (p.withdrawCtxs b cause) := by
  obtain ⟨n, t, h⟩ := p.withdrawCtxs_eq b cause
  have hfold := Part.Fewer.fold (fun p s => .removeCtx p b s cause none) allSlots p
  rw [h]
  generalize allSlots.foldl (fun p s => p.removeCtx b s cause none) p = q at hfold
  exact hfold.trans (.of_same ⟨rfl, rfl⟩)

theorem Part.Leaves.withdrawCtxs {p : Part} {b : Bay} {x : Slot} (hq : (p.bay b).busQueue = []) (h : (p.ctx b x).LeavesZone)
    (cause : Cause) : p.Leaves b x (p.withdrawCtxs b cause) := by
  obtain ⟨n, t, heq⟩ := p.withdrawCtxs_eq b cause
  have hfold := Part.removeCtxs_leaves cause hq (mem_allSlots x) h
  rw [heq]
  generalize allSlots.foldl (fun p s => p.removeCtx b s cause none) p = q at hfold
  exact hfold.before (.of_same ⟨rfl, rfl⟩)

/-! ### Every bay begins its withdrawal (R22, R185) -/

/-- One bay at a stop: its pending order answered, its withdrawal begun. -/
def Part.beginStop (p : Part) (b : Bay) : Part :=
  if (p.bay b).state = .empty then p else (p.answerPending b .stopped []).beginWithdraw b .stopped

/-- What the stop makes of a bay. -/
def BayUnit.stopBegun (u : BayUnit) : BayUnit :=
  if u.state = .empty then u
  else if u.state = .withdrawing then { u with pendingOrder := none }
  else { u with state := .withdrawing, cause := some .stopped, busQueue := [], pendingOrder := none }

theorem Part.bay_beginStop (p : Part) (b : Bay) : (p.beginStop b).bay b = (p.bay b).stopBegun := by
  unfold Part.beginStop BayUnit.stopBegun
  by_cases hempty : (p.bay b).state = .empty
  · rw [if_pos hempty, if_pos hempty]
  · rw [if_neg hempty, if_neg hempty]
    have hbay := p.answerPending_bay b .stopped []
    by_cases hw : (p.bay b).state = .withdrawing
    · have hsame : (p.answerPending b .stopped []).beginWithdraw b .stopped = p.answerPending b .stopped [] :=
        if_pos (by rw [hbay]; exact hw)
      rw [if_pos hw, hsame, hbay]
    · rw [if_neg hw, Part.bay_beginWithdraw _ b .stopped (by rw [hbay]; exact hw), hbay]

theorem Part.bay_beginStop_other (p : Part) {b c : Bay} (h : c ≠ b) : (p.beginStop b).bay c = p.bay c := by
  unfold Part.beginStop
  split
  · rfl
  · rw [Part.bay_beginWithdraw_other _ _ h, Part.answerPending_bay_other p h]

theorem Part.SameZones.beginStop (p : Part) (b : Bay) : p.SameZones (p.beginStop b) := by
  unfold Part.beginStop
  split
  · exact .refl p
  · exact (Part.SameZones.answerPending p b .stopped []).trans (.beginWithdraw _ b .stopped)

theorem Part.still_answerPending (p : Part) (b : Bay) (code : AnswerCode) (l : List (Nat × Nat × Nat)) :
    (p.answerPending b code l).still = p.still := by
  unfold Part.answerPending
  split <;> rfl

theorem Part.still_beginStop (p : Part) (b : Bay) : (p.beginStop b).still = p.still := by
  unfold Part.beginStop
  split
  · rfl
  · rw [Part.still_beginWithdraw, Part.still_answerPending]

/-- The slot's order has been answered STOPPED. -/
def Part.answeredStopped (p : Part) (o : OrderSlot) : Prop := p.answers[o].any (fun a => a.code == .stopped) = true

theorem Part.answeredStopped_beginStop {p : Part} {b : Bay} {o : OrderSlot}
    (h : p.answeredStopped o ∨ (p.bay b).state ≠ .empty ∧ (p.bay b).pendingOrder = some o) : (p.beginStop b).answeredStopped o := by
  unfold Part.beginStop
  by_cases hempty : (p.bay b).state = .empty
  · rw [if_pos hempty]
    exact h.resolve_right fun h => h.1 hempty
  · rw [if_neg hempty]
    unfold Part.answeredStopped
    rw [Part.answers_beginWithdraw]
    cases hpending : (p.bay b).pendingOrder with
    | none =>
      rw [Part.answerPending_none hpending]
      exact h.resolve_right fun h => nomatch hpending.symm.trans h.2
    | some k =>
      by_cases hk : k = o
      · subst hk
        exact Part.answerPending_answered hpending .stopped []
      · rw [Part.answerPending_some hpending]
        have hsame := h.resolve_right fun h => hk (Option.some.inj (hpending.symm.trans h.2))
        show ((Part.answer _ k .stopped []).answers[o.val]).any (fun a => a.code == .stopped) = true
        rw [Part.answer_answers_other _ .stopped [] hk]
        exact hsame

/-- Operations on the bays, one after the other, each on its own bay. -/
theorem Part.bay_foldl {f : Part → Bay → Part} {g : BayUnit → BayUnit} (hown : ∀ (p : Part) b, (f p b).bay b = g (p.bay b))
    (hother : ∀ (p : Part) b c, c ≠ b → (f p b).bay c = p.bay c) (l : List Bay) (p : Part) (hl : l.Nodup) (b : Bay) :
    (l.foldl f p).bay b = if b ∈ l then g (p.bay b) else p.bay b := by
  induction l generalizing p with
  | nil => rfl
  | cons c l ih =>
    obtain ⟨hc, hl⟩ := List.nodup_cons.mp hl
    rw [List.foldl_cons, ih _ hl]
    by_cases hb : b = c
    · subst hb
      rw [if_neg hc, if_pos (List.mem_cons_self ..), hown]
    · rw [hother p c b hb]
      simp only [List.mem_cons, hb, false_or]

theorem Part.answeredStopped_foldl {l : List Bay} {p : Part} (hl : l.Nodup) {o : OrderSlot}
    (h : p.answeredStopped o ∨ ∃ b ∈ l, (p.bay b).state ≠ .empty ∧ (p.bay b).pendingOrder = some o) :
    (l.foldl Part.beginStop p).answeredStopped o := by
  induction l generalizing p with
  | nil =>
    refine h.resolve_right ?_
    rintro ⟨b, hb, -⟩
    exact absurd hb nofun
  | cons c l ih =>
    obtain ⟨hc, hl⟩ := List.nodup_cons.mp hl
    refine ih hl ?_
    rcases h with h | ⟨b, hb, hstate, hpending⟩
    · exact .inl (Part.answeredStopped_beginStop (.inl h))
    · by_cases hbc : b = c
      · subst hbc
        exact .inl (Part.answeredStopped_beginStop (.inr ⟨hstate, hpending⟩))
      · refine .inr ⟨b, (List.mem_cons.mp hb).resolve_left hbc, ?_⟩
        rw [Part.bay_beginStop_other p hbc]
        exact ⟨hstate, hpending⟩

/-! ### The contexts of every withdrawing bay act (R22, R185) -/

/-- One bay's contexts at a stop. -/
def Part.stopCtxs (p : Part) (b : Bay) : Part := if (p.bay b).state = .withdrawing then p.withdrawCtxs b .stopped else p

/-- What the bays of a list make of the part when their contexts are withdrawn. -/
structure Part.StopsMade (l : List Bay) (p q : Part) : Prop where
  fewer   : p.Fewer q
  still   : q.still = p.still
  answers : q.answers = p.answers
  same    : ∀ b, (p.bay b).SameState (q.bay b)
  others  : ∀ b, b ∉ l ∨ (p.bay b).state ≠ .withdrawing → q.bay b = p.bay b
  bays    : ∀ b ∈ l, (p.bay b).state = .withdrawing → (p.bay b).busQueue = [] →
    (q.bay b).cause = (p.bay b).cause ∧ (q.bay b).busQueue = [] ∧ ∀ x, (p.ctx b x).WithdrawnAs .stopped (q.ctx b x)
  leaves  : ∀ b ∈ l, (p.bay b).state = .withdrawing → (p.bay b).busQueue = [] → ∀ x, (p.ctx b x).LeavesZone →
    (q.zone (zoneOf b)).has b x = false

theorem Part.StopsMade.nil (p : Part) : p.StopsMade [] p :=
  ⟨.refl p, rfl, rfl, fun _ => ⟨rfl, rfl⟩, fun _ _ => rfl, nofun, nofun⟩

theorem Part.stopCtxs_made (p : Part) (b : Bay) : p.StopsMade [b] (p.stopCtxs b) := by
  unfold Part.stopCtxs
  by_cases hstate : (p.bay b).state = .withdrawing
  · rw [if_pos hstate]
    obtain ⟨hapart, hbay, hctxs, -, -⟩ := p.withdrawCtxs_withdrawn b .stopped
    refine ⟨.withdrawCtxs p b .stopped, hapart.still, hapart.answers, fun c => ?_, fun c hc => ?_, fun c hc _ hq => ?_,
      fun c hc _ hq x hx => ?_⟩
    · by_cases hc : c = b
      · subst hc
        exact hapart.own
      · rw [hapart.others c hc]
        exact ⟨rfl, rfl⟩
    · refine hapart.others c fun hcb => ?_
      subst hcb
      rcases hc with hc | hc
      · exact hc (List.mem_singleton_self c)
      · exact hc hstate
    · obtain rfl := List.mem_singleton.mp hc
      obtain ⟨cs, k, n, heq⟩ := hbay hq
      exact ⟨(congrArg BayUnit.cause heq).trans rfl, (congrArg BayUnit.busQueue heq).trans hq, fun x => hctxs hq x (mem_allSlots x)⟩
    · obtain rfl := List.mem_singleton.mp hc
      exact (Part.Leaves.withdrawCtxs hq hx .stopped).2
  · rw [if_neg hstate]
    refine ⟨.refl p, rfl, rfl, fun _ => ⟨rfl, rfl⟩, fun _ _ => rfl, fun c hc hw => ?_, fun c hc hw => ?_⟩
    · exact absurd (List.mem_singleton.mp hc ▸ hw) hstate
    · exact absurd (List.mem_singleton.mp hc ▸ hw) hstate

theorem Part.StopsMade.cons {b : Bay} {l : List Bay} {p q r : Part} (hb : b ∉ l) (h : p.StopsMade [b] q) (k : q.StopsMade l r) :
    p.StopsMade (b :: l) r := by
  have hne : ∀ c ∈ l, c ∉ [b] := fun c hc hcb => hb (List.mem_singleton.mp hcb ▸ hc)
  have hctx : ∀ c ∈ l, ∀ x, q.ctx c x = p.ctx c x := fun c hc x =>
    congrArg (fun u => BayUnit.ctx u x) (h.others c (.inl (hne c hc)))
  refine ⟨h.fewer.trans k.fewer, k.still.trans h.still, k.answers.trans h.answers,
    fun c => ⟨(k.same c).1.trans (h.same c).1, (k.same c).2.trans (h.same c).2⟩, fun c hc => ?_, fun c hc hw hq => ?_,
    fun c hc hw hq x hx => ?_⟩
  · rcases hc with hc | hc
    · rw [List.mem_cons, not_or] at hc
      rw [k.others c (.inl hc.2), h.others c (.inl (fun hm => hc.1 (List.mem_singleton.mp hm)))]
    · rw [k.others c (.inr (by rw [(h.same c).1]; exact hc)), h.others c (.inr hc)]
  · rcases List.mem_cons.mp hc with rfl | hc
    · have hsame := k.others c (.inl hb)
      obtain ⟨hcause, hqueue, hctxs⟩ := h.bays c (List.mem_singleton_self c) hw hq
      refine ⟨(congrArg BayUnit.cause hsame).trans hcause, (congrArg BayUnit.busQueue hsame).trans hqueue, fun x => ?_⟩
      have hx : r.ctx c x = q.ctx c x := congrArg (fun u => BayUnit.ctx u x) hsame
      rw [hx]
      exact hctxs x
    · have hsame := h.others c (.inl (hne c hc))
      obtain ⟨hcause, hqueue, hctxs⟩ := k.bays c hc (by rw [hsame]; exact hw) (by rw [hsame]; exact hq)
      refine ⟨hcause.trans (congrArg BayUnit.cause hsame), hqueue, fun x => ?_⟩
      rw [← hctx c hc x]
      exact hctxs x
  · rcases List.mem_cons.mp hc with rfl | hc
    · exact k.fewer.has_false (h.leaves c (List.mem_singleton_self c) hw hq x hx)
    · have hsame := h.others c (.inl (hne c hc))
      refine k.leaves c hc (by rw [hsame]; exact hw) (by rw [hsame]; exact hq) x ?_
      rw [hctx c hc x]
      exact hx

theorem Part.stopCtxs_foldl (l : List Bay) (p : Part) (hl : l.Nodup) : p.StopsMade l (l.foldl Part.stopCtxs p) := by
  induction l generalizing p with
  | nil => exact .nil p
  | cons b l ih =>
    obtain ⟨hb, hl⟩ := List.nodup_cons.mp hl
    exact .cons hb (p.stopCtxs_made b) (ih _ hl)

/-! ### RUN_STOP in RUNNING (R185) -/

theorem Zone.stop_stop (now : Nat) (y : Zone) : (y.stop now).stop now = y.stop now := by
  have hreturning : ∀ y : Zone, y.state = .returning → y.stop now = y := fun y h => by
    unfold Zone.stop
    rw [h]
  cases h : y.state with
  | moving | settling | opened | closing =>
    refine hreturning _ ?_
    unfold Zone.stop
    rw [h]
    exact Zone.setTarget_state ..
  | _ =>
    have hsame : y.stop now = y := by
      unfold Zone.stop
      rw [h]
    rw [hsame, hsame]

/-- The part that has entered STOPPING with no taking in progress, its withdrawals not yet begun. -/
def Part.stopped (p : Part) : Part :=
  { p with phase := .stopping, nudge := false, stopOwed := false, zones := tab2 (fun z => (p.zone z).stop p.tick) }

theorem Part.zone_stopped (p : Part) (z : ZoneNo) : p.stopped.zone z = (p.zone z).stop p.tick := tab2_get _ z

theorem Part.enterStopping_eq {p : Part} (h : p.sweep.taking = false) :
    p.enterStopping = allBays.foldl Part.stopCtxs (allBays.foldl Part.beginStop p.stopped) := by
  have hzones : tab2 (fun z => (tab2 (fun z => (p.zone z).stop p.tick))[z].stop p.tick) = tab2 (fun z => (p.zone z).stop p.tick) :=
    congrArg tab2 (funext fun z => by rw [tab2_get, Zone.stop_stop])
  have hstopped : { p with
      phase := .stopping, nudge := false, stopOwed := false
      zones := tab2 (fun z => (tab2 (fun z => (p.zone z).stop p.tick))[z].stop p.tick) } = p.stopped := by
    rw [hzones]
    rfl
  unfold Part.enterStopping
  rw [if_neg (by simp [h]), ← hstopped]
  rfl

/-- What the stop makes of the part, its contexts withdrawn (R185). -/
theorem Part.enterStopping_made {p : Part} (h : p.sweep.taking = false) :
    (allBays.foldl Part.beginStop p.stopped).StopsMade allBays p.enterStopping := by
  rw [Part.enterStopping_eq h]
  exact Part.stopCtxs_foldl allBays _ (by decide)

theorem Part.still_beginStops (p : Part) : (allBays.foldl Part.beginStop p).still = p.still :=
  Closed.fold (P := fun q : Part => q.still = p.still) (fun q b hq => (q.still_beginStop b).trans hq) allBays p rfl

theorem Part.bay_beginStops (p : Part) (b : Bay) : (allBays.foldl Part.beginStop p).bay b = (p.bay b).stopBegun := by
  rw [Part.bay_foldl Part.bay_beginStop (fun p b c hc => p.bay_beginStop_other hc) allBays p (by decide), if_pos (mem_allBays b)]

theorem Part.enterStopping_still (p : Part) : p.enterStopping.phase = .stopping ∧ p.enterStopping.attempt = p.attempt := by
  cases h : p.sweep.taking with
  | true =>
    have heq : p.enterStopping = { p with
        phase := .stopping, nudge := false, stopOwed := true, zones := tab2 (fun z => (p.zone z).stop p.tick) } := if_pos h
    rw [heq]
    exact ⟨rfl, rfl⟩
  | false =>
    have hstill := (Part.enterStopping_made h).still.trans p.stopped.still_beginStops
    exact ⟨congrArg Still.phase hstill, congrArg Still.attempt hstill⟩

theorem BayUnit.stopBegun_empty {u : BayUnit} (h : u.state = .empty) : u.stopBegun = u := if_pos h

theorem BayUnit.stopBegun_nonempty {u : BayUnit} (h : u.state ≠ .empty) :
    u.stopBegun.state = .withdrawing ∧ u.stopBegun.pendingOrder = none := by
  unfold BayUnit.stopBegun
  rw [if_neg h]
  split
  next hw => exact ⟨hw, rfl⟩
  next => exact ⟨rfl, rfl⟩

theorem BayUnit.stopBegun_admitted {u : BayUnit} (h : u.state ∉ [BayState.empty, .withdrawing]) :
    u.stopBegun = { u with state := .withdrawing, cause := some .stopped, busQueue := [], pendingOrder := none } := by
  unfold BayUnit.stopBegun
  rw [if_neg (fun he => h (by rw [he]; decide)), if_neg (fun hw => h (by rw [hw]; decide))]

theorem Part.sameZones_beginStops (p : Part) : p.SameZones (allBays.foldl Part.beginStop p) :=
  Closed.fold (P := fun q : Part => p.SameZones q) (fun q b hq => hq.trans (.beginStop q b)) allBays p (.refl p)

theorem Zone.stop_joined (now : Nat) (y : Zone) : (y.stop now).joined = y.joined := by
  unfold Zone.stop
  cases h : y.state with
  | moving | settling | opened | closing => exact Zone.setTarget_joined ..
  | _ => rfl

/-- What RUN written 0 makes of a bay of a RUNNING part (R22, R185). -/
theorem Part.enterStopping_bay {p : Part} (h : p.sweep.taking = false) (b : Bay) :
    ((p.bay b).state = .empty → p.enterStopping.bay b = p.bay b) ∧
      ((p.bay b).state ≠ .empty → (p.enterStopping.bay b).state = .withdrawing ∧ (p.enterStopping.bay b).pendingOrder = none ∧
        ∀ o, (p.bay b).pendingOrder = some o → p.enterStopping.answeredStopped o) ∧
      ((p.bay b).state ∉ [BayState.empty, .withdrawing] →
        (p.enterStopping.bay b).cause = some .stopped ∧ (p.enterStopping.bay b).busQueue = [] ∧
          ∀ x, (p.ctx b x).WithdrawnAs .stopped (p.enterStopping.ctx b x) ∧
            ((p.ctx b x).LeavesZone → (p.enterStopping.zone (zoneOf b)).has b x = false)) := by
  have hmade := Part.enterStopping_made h
  have hbegun : (allBays.foldl Part.beginStop p.stopped).bay b = (p.bay b).stopBegun := p.stopped.bay_beginStops b
  refine ⟨fun hempty => ?_, fun hstate => ?_, fun hstate => ?_⟩
  · have hsame := hbegun.trans (BayUnit.stopBegun_empty hempty)
    rw [hmade.others b (.inr (by rw [hsame, hempty]; exact nofun)), hsame]
  · obtain ⟨hwithdrawing, hpending⟩ := BayUnit.stopBegun_nonempty hstate
    obtain ⟨hst, hpd⟩ := hmade.same b
    rw [hst, hpd, hbegun]
    refine ⟨hwithdrawing, hpending, fun o ho => ?_⟩
    unfold Part.answeredStopped
    rw [hmade.answers]
    exact Part.answeredStopped_foldl (by decide) (.inr ⟨b, mem_allBays b, hstate, ho⟩)
  · have hbay := hbegun.trans (BayUnit.stopBegun_admitted hstate)
    have hctx : ∀ x, (allBays.foldl Part.beginStop p.stopped).ctx b x = p.ctx b x := fun x =>
      (congrArg (fun u => BayUnit.ctx u x) hbay).trans rfl
    have hw : ((allBays.foldl Part.beginStop p.stopped).bay b).state = .withdrawing := by rw [hbay]
    have hq : ((allBays.foldl Part.beginStop p.stopped).bay b).busQueue = [] := by rw [hbay]
    obtain ⟨hcause, hqueue, hctxs⟩ := hmade.bays b (mem_allBays b) hw hq
    rw [hbay] at hcause
    refine ⟨hcause, hqueue, fun x => ⟨?_, fun hx => ?_⟩⟩
    · rw [← hctx]
      exact hctxs x
    · refine hmade.leaves b (mem_allBays b) hw hq x ?_
      rw [hctx]
      exact hx

theorem Part.enterStopping_zones {p : Part} (h : p.sweep.taking = false) :
    p.enterStopping.nudge = false ∧ ∀ z, ∃ l, p.enterStopping.zone z = { (p.zone z).stop p.tick with joined := l } ∧
      ∀ m ∈ l, m ∈ (p.zone z).joined := by
  have hfewer := (Part.enterStopping_made h).fewer
  obtain ⟨hzones, hnudge⟩ := p.stopped.sameZones_beginStops
  refine ⟨hfewer.nudge.trans hnudge, fun z => ?_⟩
  obtain ⟨l, hzone, hl⟩ := hfewer.zones z
  have hsame : (allBays.foldl Part.beginStop p.stopped).zone z = (p.zone z).stop p.tick :=
    (congrArg (fun v : Vector Zone 2 => v[z]) hzones).trans (p.zone_stopped z)
  rw [hsame] at hzone hl
  exact ⟨l, hzone, fun m hm => by
    rw [← Zone.stop_joined p.tick]
    exact hl m hm⟩

/-- What a RUNNING part has become when its RUN_STOP completes (R182, R185). -/
theorem Part.after_enterStopping (p : Part) :
    ((p.after Part.enterStopping).phase = .stopping ∨ (p.after Part.enterStopping).phase = .idle) ∧
      (p.after Part.enterStopping).attempt = p.attempt := by
  obtain ⟨hstop, hkept⟩ := p.fresh.enterStopping_still
  have hstill := Part.still_settle Config.cascadeBound p.fresh.enterStopping
  have hphase : (settle Config.cascadeBound p.fresh.enterStopping).phase = .stopping := (congrArg Still.phase hstill).trans hstop
  unfold Part.after
  refine ⟨?_, ?_⟩
  · rcases Part.finish_phase p (settle Config.cascadeBound p.fresh.enterStopping) with h | h
    · exact .inl (h.trans hphase)
    · exact .inr h.2
  · exact (Part.finish_attempt p _).trans ((congrArg Still.attempt hstill).trans hkept)

/-- Settles O4. -/
theorem runStopEntersStopping : Obligations.RunStopEntersStopping := by
  unfold Obligations.RunStopEntersStopping
  intro s hphase
  have hexec := exec_runStop_running hphase
  refine ⟨fun hattempt => ?_, fun htaking => ?_, fun htaking => ?_⟩
  · obtain ⟨hst, hkept⟩ := s.part.after_enterStopping
    refine ⟨_, hexec, hst, ?_⟩
    show (s.part.after Part.enterStopping).runBit = false
    unfold Part.runBit
    rw [hkept, hattempt]
    rcases hst with h | h <;> rw [h] <;> rfl
  · exact Does.of_runWith (m := s.book) hexec (if_pos htaking) rfl
  · obtain ⟨hnudge, hzones⟩ := Part.enterStopping_zones (p := s.part.fresh) htaking
    refine ⟨_, Owes.of_runWith (m := s.book) hexec rfl, s.part.fresh.enterStopping_still.1, hnudge, hzones, fun b => ?_⟩
    obtain ⟨hempty, hstops, hwithdrawn⟩ := Part.enterStopping_bay (p := s.part.fresh) htaking b
    refine ⟨hempty, hstops, fun hstate => ?_⟩
    obtain ⟨hcause, hqueue, hctxs⟩ := hwithdrawn hstate
    exact ⟨hcause, hqueue, fun x => ⟨(hctxs x).1, fun hexit hcase => (hctxs x).2 ⟨hexit, hcase⟩⟩⟩

end Sys2Proof.Machine
end

section
/-! The boards rewritten (R29, R185, R194, R198). -/

namespace Sys2Proof.Machine

/-! ### The content of a board -/

theorem sum_boardFields_zone (z : Zone) : (z.boardFields.map Prod.fst).sum = 12 := by
  unfold Zone.boardFields
  cases z.latest <;> rfl

theorem sum_slotFields (u : BayUnit) : ((allSlots.flatMap u.slotFields).map Prod.fst).sum = 192 := by
  have hwidths : ∀ s, (u.slotFields s).map Prod.fst = [1, 1, 2, 1, 1, 1, 1, 1, 1, 1, 1, 20] := fun s => rfl
  rw [List.map_flatMap]
  simp only [hwidths]
  rfl

theorem length_boardFields (p : Part) (b : Bay) : (fieldBytes (p.boardFields b)).length = 254 := by
  rw [length_fieldBytes]
  unfold Part.boardFields
  dsimp only
  rw [List.map_append, List.map_append, List.map_append, List.map_append, List.sum_append, List.sum_append, List.sum_append,
    List.sum_append, sum_boardFields_zone, sum_slotFields]
  rfl

/-- A board shows nothing of its changed mark and its write count. -/
theorem Part.boardFields_congr {p q : Part} {b : Bay} (hbay : ∃ x n, q.bay b = { p.bay b with boardChanged := x, writeCount := n })
    (hzones : q.zones = p.zones) (hchans : q.chans = p.chans) : q.boardFields b = p.boardFields b := by
  obtain ⟨x, n, hbay⟩ := hbay
  unfold Part.boardFields Part.connected Part.chan Part.zone
  rw [hbay, hzones, hchans]
  rfl

theorem Part.rewriting_eq_some {p : Part} {b : Bay} {content : List (Nat × Nat)} :
    p.rewriting b = some content ↔ ∃ k l, p.sweep = .boards k b content l := by
  unfold Part.rewriting
  cases hs : p.sweep with
  | boards k c content' l =>
    by_cases hc : c = b
    · subst hc
      simp
    · simp [hc]
  | _ => simp

theorem Part.mem_changedSince {old p : Part} {b : Bay} : b ∈ old.changedSince p ↔ (p.bay b).boardChanged = true ∨
    p.boardFields b ≠ old.boardFields b ∧ ∀ k l, p.sweep ≠ .boards k b (p.boardFields b) l := by
  unfold Part.changedSince
  rw [List.mem_filter, Bool.or_eq_true_iff, Bool.and_eq_true_iff, bne_iff_ne, bne_iff_ne, Ne, Ne, Part.rewriting_eq_some]
  simp [mem_allBays]

/-- With the contents kept, the changed boards are those that were changed. -/
theorem Part.changedSince_kept {old p : Part} (h : ∀ b, p.boardFields b = old.boardFields b) :
    old.changedSince p = allBays.filter (fun b => (p.bay b).boardChanged) := by
  unfold Part.changedSince
  refine List.filter_congr fun b _ => ?_
  rw [h b]
  simp

/-! ### The end of a pass -/

theorem Part.passOver_final (p : Part) : p.passOver .final = { p with sweep := .finished, sweepTimer := none } := rfl

theorem Part.passOver_nudged {p : Part} {k : PassKind} (hk : k ≠ .final) (hnudge : p.nudge = true) (hphase : p.phase = .running) :
    p.passOver k = { p with sweep := .marks, sweepTimer := none, nudge := false } := by
  have hgo : (p.nudge && p.phase == .running) = true := by rw [hnudge, hphase]; rfl
  cases k with
  | final => exact absurd rfl hk
  | _ => exact if_pos hgo

theorem Part.passOver_timer {p : Part} {k : PassKind} (hk : k ≠ .final) (h : ¬ (p.nudge = true ∧ p.phase = .running)) :
    p.passOver k = { p with sweep := .idle, sweepTimer := some ⟨p.tick, sweepTicks p.sweepCode⟩ } := by
  have hgo : ¬ (p.nudge && p.phase == .running) = true := by
    rw [Bool.and_eq_true_iff, beq_iff_eq]
    exact h
  cases k with
  | final => exact absurd rfl hk
  | _ => exact if_neg hgo

@[simp] theorem Part.passOver_bays (p : Part) (k : PassKind) : (p.passOver k).bays = p.bays := by
  unfold Part.passOver
  split
  · rfl
  · split <;> rfl

@[simp] theorem Part.passOver_phase (p : Part) (k : PassKind) : (p.passOver k).phase = p.phase := by
  unfold Part.passOver
  split
  · rfl
  · split <;> rfl

@[simp] theorem Part.passOver_todo (p : Part) (k : PassKind) : (p.passOver k).todo = p.todo := by
  unfold Part.passOver
  split
  · rfl
  · split <;> rfl

/-! ### A board written (R29, R194) -/

/-- The part with the write count of a board increased (R29). -/
def Part.boardCounted (p : Part) (b : Bay) : Part :=
  p.fresh.mapBay b (fun u => { u with writeCount := (u.writeCount + 1) % 65536 })

theorem Part.bay_boardCounted (p : Part) (b : Bay) :
    (p.boardCounted b).bay b = { p.bay b with writeCount := ((p.bay b).writeCount + 1) % 65536 } :=
  Part.bay_mapBay p.fresh b (fun u => { u with writeCount := (u.writeCount + 1) % 65536 })

theorem Part.bay_boardCounted_eq (p : Part) (b c : Bay) : ∃ n, (p.boardCounted b).bay c = { p.bay c with writeCount := n } := by
  by_cases hc : b = c
  · subst hc
    exact ⟨_, p.bay_boardCounted b⟩
  · exact ⟨(p.bay c).writeCount, Part.bay_mapBay_other p.fresh (fun u => { u with writeCount := (u.writeCount + 1) % 65536 }) hc⟩

theorem Part.boardFields_boardCounted (p : Part) (b c : Bay) : (p.boardCounted b).boardFields c = p.boardFields c := by
  obtain ⟨n, hn⟩ := p.bay_boardCounted_eq b c
  exact Part.boardFields_congr ⟨_, n, hn⟩ rfl rfl

/-- The next board of a pass begins to be rewritten. -/
def Part.nextBoard (p : Part) (b : Bay) (k : PassKind) (c : Bay) (l : List Bay) : Part :=
  { (p.boardCounted b).mapBay c (fun u => { u with boardChanged := false }) with sweep := .boards k c (p.boardFields c) l }

@[simp] theorem Part.nextBoard_sweep (p : Part) (b : Bay) (k : PassKind) (c : Bay) (l : List Bay) :
    (p.nextBoard b k c l).sweep = .boards k c (p.boardFields c) l := rfl

@[simp] theorem Part.nextBoard_phase (p : Part) (b : Bay) (k : PassKind) (c : Bay) (l : List Bay) :
    (p.nextBoard b k c l).phase = p.phase := rfl

@[simp] theorem Part.nextBoard_sweepTimer (p : Part) (b : Bay) (k : PassKind) (c : Bay) (l : List Bay) :
    (p.nextBoard b k c l).sweepTimer = p.sweepTimer := rfl

@[simp] theorem Part.nextBoard_nudge (p : Part) (b : Bay) (k : PassKind) (c : Bay) (l : List Bay) :
    (p.nextBoard b k c l).nudge = p.nudge := rfl

@[simp] theorem Part.nextBoard_todo (p : Part) (b : Bay) (k : PassKind) (c : Bay) (l : List Bay) :
    (p.nextBoard b k c l).todo = [] := rfl

theorem Part.boardDone_cons (p : Part) (b : Bay) (k : PassKind) (c : Bay) (l : List Bay) :
    p.fresh.boardDone b k (c :: l) = p.nextBoard b k c l := by
  unfold Part.nextBoard
  rw [← p.boardFields_boardCounted b c]
  rfl

theorem Part.boardDone_nil (p : Part) (b : Bay) (k : PassKind) : p.fresh.boardDone b k [] = (p.boardCounted b).passOver k := rfl

theorem exec_boardWritten {s : State} {k : PassKind} {b : Bay} {content : List (Nat × Nat)} {rest : List Bay}
    (h : s.part.sweep = .boards k b content rest) : exec (.boardWritten b) s =
      s.runWith (s.book.writeBytes (s.part.base + 0x1000 + 256 * b.val) (fieldBytes content ++ leBytes 2 ((s.part.bay b).writeCount + 1)))
        (fun p => p.boardDone b k rest) := by
  show execBoardWritten b s = _
  unfold execBoardWritten
  rw [h]
  exact if_pos rfl

theorem Does.boardWritten_next {s : State} {k : PassKind} {b : Bay} {content : List (Nat × Nat)} {c : Bay} {l : List Bay}
    (h : s.part.sweep = .boards k b content (c :: l)) : Does (.boardWritten b) s
      (s.book.writeBytes (s.part.base + 0x1000 + 256 * b.val) (fieldBytes content ++ leBytes 2 ((s.part.bay b).writeCount + 1)))
      (s.part.nextBoard b k c l) :=
  Does.of_runWith (exec_boardWritten h) (s.part.boardDone_cons b k c l) (s.part.nextBoard_todo b k c l)

theorem Does.boardWritten_last {s : State} {k : PassKind} {b : Bay} {content : List (Nat × Nat)}
    (h : s.part.sweep = .boards k b content []) : Does (.boardWritten b) s
      (s.book.writeBytes (s.part.base + 0x1000 + 256 * b.val) (fieldBytes content ++ leBytes 2 ((s.part.bay b).writeCount + 1)))
      ((s.part.boardCounted b).passOver k) :=
  Does.of_runWith (exec_boardWritten h) (s.part.boardDone_nil b k) (Part.passOver_todo _ _)

theorem Part.bay_nextBoard (p : Part) (b : Bay) (k : PassKind) (c : Bay) (l : List Bay) :
    (p.nextBoard b k c l).bay c = { (p.boardCounted b).bay c with boardChanged := false } :=
  Part.bay_mapBay (p.boardCounted b) c (fun u => { u with boardChanged := false })

theorem Part.bay_nextBoard_other (p : Part) (b : Bay) (k : PassKind) {c d : Bay} (h : c ≠ d) (l : List Bay) :
    (p.nextBoard b k c l).bay d = (p.boardCounted b).bay d :=
  Part.bay_mapBay_other (p.boardCounted b) (fun u => { u with boardChanged := false }) h

theorem Part.bay_nextBoard_count (p : Part) (b : Bay) (k : PassKind) (c : Bay) (l : List Bay) :
    ((p.nextBoard b k c l).bay b).writeCount = ((p.bay b).writeCount + 1) % 65536 := by
  by_cases hc : c = b
  · subst hc
    rw [Part.bay_nextBoard, Part.bay_boardCounted]
  · rw [Part.bay_nextBoard_other p b k hc l, Part.bay_boardCounted]

theorem Part.bay_passOver (p : Part) (k : PassKind) (b : Bay) : (p.passOver k).bay b = p.bay b :=
  congrArg (fun v : Vector BayUnit 8 => v[b]) (p.passOver_bays k)

/-! ### How a sweep or a rewrite ends -/

@[simp] theorem Part.stands_phase (p : Part) (l : List Bay) (phase : PartState) (sweep : Sweep) (timer : Option SpanTimer)
    (nudge : Bool) : (p.stands l phase sweep timer nudge).phase = phase := rfl

@[simp] theorem Part.stands_sweep (p : Part) (l : List Bay) (phase : PartState) (sweep : Sweep) (timer : Option SpanTimer)
    (nudge : Bool) : (p.stands l phase sweep timer nudge).sweep = sweep := rfl

@[simp] theorem Part.stands_sweepTimer (p : Part) (l : List Bay) (phase : PartState) (sweep : Sweep) (timer : Option SpanTimer)
    (nudge : Bool) : (p.stands l phase sweep timer nudge).sweepTimer = timer := rfl

@[simp] theorem Part.stands_nudge (p : Part) (l : List Bay) (phase : PartState) (sweep : Sweep) (timer : Option SpanTimer)
    (nudge : Bool) : (p.stands l phase sweep timer nudge).nudge = nudge := rfl

@[simp] theorem Part.stands_boardChanged (p : Part) (l : List Bay) (phase : PartState) (sweep : Sweep) (timer : Option SpanTimer)
    (nudge : Bool) (b : Bay) : ((p.stands l phase sweep timer nudge).bay b).boardChanged = decide (b ∈ l) := by
  rw [Part.stands_bay]

/-- A command that ends with a rewrite in progress leaves the pass to it. -/
theorem Part.EndsAs.boards {old p q : Part} {k : PassKind} {b : Bay} {content : List (Nat × Nat)} {rest : List Bay}
    (h : Part.EndsAs old p q) (hs : p.sweep = .boards k b content rest) :
    q = p.stands (old.changedSince p) p.phase p.sweep p.sweepTimer p.nudge := by
  obtain ⟨-, -, -, hstill⟩ := h
  exact hstill (fun j => by rw [hs]; exact nofun) (by rw [hs]; exact fun h => nomatch h.1) (by rw [hs]; exact fun h => nomatch h.1)

/-- A command that ends with no sweep in progress, the final pass of a stop not due, leaves it so. -/
theorem Part.EndsAs.idle {old p q : Part} (h : Part.EndsAs old p q) (hs : p.sweep = .idle)
    (hnot : ¬ (p.phase = .stopping ∧ p.stopOwed = false ∧ ∀ b, (p.bay b).state = .empty)) :
    q = p.stands (old.changedSince p) p.phase p.sweep p.sweepTimer p.nudge := by
  obtain ⟨-, -, -, hstill⟩ := h
  exact hstill (fun j => by rw [hs]; exact nofun) (fun h => hnot h.2) (by rw [hs]; exact fun h => nomatch h.1)

/-- A command that starts the sweep timer and changes no board. -/
theorem Part.EndsAs.timer {old p q : Part} {timer : Option SpanTimer}
    (h : Part.EndsAs old { p with sweep := .idle, sweepTimer := timer } q)
    (hnot : ¬ (p.phase = .stopping ∧ p.stopOwed = false ∧ ∀ b, (p.bay b).state = .empty))
    (hfields : ∀ b, p.boardFields b = old.boardFields b) :
    q.phase = p.phase ∧ q.sweep = .idle ∧ q.sweepTimer = timer ∧ q.nudge = p.nudge ∧
      ∀ b, (q.bay b).boardChanged = (p.bay b).boardChanged := by
  have hchanged := Part.changedSince_kept (old := old) (p := { p with sweep := .idle, sweepTimer := timer }) hfields
  have hq := h.idle rfl hnot
  rw [hq, hchanged]
  refine ⟨rfl, rfl, rfl, rfl, fun b => ?_⟩
  rw [Part.stands_boardChanged, Bool.eq_iff_iff, decide_eq_true_iff, List.mem_filter]
  exact ⟨fun hb => hb.2, fun hb => ⟨mem_allBays b, hb⟩⟩

/-- A sweep that finds no bay waiting and no record unwritten goes on to its rewrites (R194). -/
theorem Part.EndsAs.sweepPass {s : State} {q : Part} (hphase : s.part.phase = .running)
    (h : Part.EndsAs s.part (s.atPass .sweep) q) :
    (∀ b rest, allBays.filter (fun b => (s.part.bay b).boardChanged) = b :: rest →
      q = (s.atPass .sweep).stands rest .running (.boards .sweep b (s.part.boardFields b) rest) none s.part.nudge) ∧
    ((∀ b, (s.part.bay b).boardChanged = false) →
      (s.part.nudge = true → q = (s.atPass .sweep).stands [] .running .marks none false) ∧
      (s.part.nudge = false →
        q = (s.atPass .sweep).stands [] .running .idle (some ⟨s.part.tick, sweepTicks s.part.sweepCode⟩) s.part.nudge)) := by
  have hchanged := State.atPass_changed s .sweep
  have hphase' : (s.atPass .sweep).phase = .running := hphase
  obtain ⟨hrewrites, hover⟩ := h.1 .sweep rfl
  refine ⟨fun b rest hl => ?_, fun hnone => ?_⟩
  · rw [hrewrites b rest (hchanged.trans hl), hphase']
    rfl
  · have hempty : s.part.changedSince (s.atPass .sweep) = [] := by
      rw [hchanged, List.filter_eq_nil_iff]
      intro b _
      simp [hnone b]
    obtain ⟨hnudged, -, htimer⟩ := (hover hempty).2 nofun
    refine ⟨fun hnudge => ?_, fun hnudge => ?_⟩
    · rw [hnudged ⟨hnudge, hphase'⟩, hphase']
    · have hnot : ¬ ((s.atPass .sweep).nudge = true ∧ (s.atPass .sweep).phase = .running) := fun h =>
        absurd (hnudge.symm.trans h.1) nofun
      rw [htimer hnot (by rw [hphase']; exact fun h => nomatch h.1), hphase']
      rfl

/-! ### The parts of the obligation -/

/-- A sweep that picks no order goes on to its rewrites (R194). -/
theorem slotMarksRead_rewrites {s : State} {marks : List Byte} (hphase : s.part.phase = .running) (hsweep : s.part.sweep = .marks)
    (hlength : marks.length = (s.part.settings.map Settings.slotCount).getD 0) (hpick : s.part.pickSlots marks = [])
    (hw : ∀ b, (s.part.bay b).waiting = false ∧ (s.part.bay b).buffer = []) :
    ∃ t, exec (.slotMarksRead marks) s = .next t ∧ Part.EndsAs s.part (s.atPass .sweep) t.part := by
  have hread : s.part.fresh.marksRead marks = s.part.fresh.rescan .sweep := by
    unfold Part.marksRead
    rw [show s.part.fresh.sweep = .marks from hsweep]
    dsimp only
    rw [if_pos (by exact hlength), if_pos (by exact hphase), show s.part.fresh.pickSlots marks = [] from hpick]
    unfold Part.nextTaking
    rw [if_neg (by rw [show s.part.fresh.phase = .running from hphase]; exact nofun)]
  exact Owes.rewrites hw (Owes.of_runWith (f := fun p => p.marksRead marks) rfl hread)

/-- What a board written leaves of the pass (R29, R190, R194). -/
theorem boardWritten_does {s : State} {k : PassKind} {b : Bay} {content : List (Nat × Nat)} {rest : List Bay}
    (h : s.part.sweep = .boards k b content rest) :
    ∃ q, Does (.boardWritten b) s
        (s.book.writeBytes (s.part.base + 0x1000 + 256 * b.val)
          (fieldBytes content ++ leBytes 2 ((s.part.bay b).writeCount + 1))) q ∧
      (q.bay b).writeCount = ((s.part.bay b).writeCount + 1) % 65536 ∧ q.phase = s.part.phase ∧
      (∀ c, rest.head? ≠ some c → (q.bay c).boardChanged = (s.part.bay c).boardChanged) ∧
      (∀ c l, rest = c :: l → q.sweep = .boards k c (s.part.boardFields c) l ∧ (q.bay c).boardChanged = false) ∧
      (rest = [] → k ≠ .final → s.part.nudge = true → s.part.phase = .running → q.sweep = .marks ∧ q.nudge = false) ∧
      (rest = [] → k ≠ .final → s.part.nudge = false →
        q.sweep = .idle ∧ q.sweepTimer = some ⟨s.part.tick, sweepTicks s.part.sweepCode⟩) ∧
      (rest = [] → k = .final → q.sweep = .finished ∧ q.sweepTimer = none) := by
  have hkept : ∀ c, ((s.part.boardCounted b).bay c).boardChanged = (s.part.bay c).boardChanged := fun c => by
    obtain ⟨n, hn⟩ := s.part.bay_boardCounted_eq b c
    rw [hn]
  cases rest with
  | cons c l =>
    refine ⟨_, Does.boardWritten_next h, s.part.bay_nextBoard_count b k c l, s.part.nextBoard_phase b k c l, fun d hd => ?_,
      fun c' l' heq => ?_, nofun, nofun, nofun⟩
    · have hcd : c ≠ d := fun hcd => hd (congrArg some hcd)
      rw [Part.bay_nextBoard_other s.part b k hcd l]
      exact hkept d
    · injection heq with hc hl
      subst hc hl
      exact ⟨s.part.nextBoard_sweep b k c l, congrArg BayUnit.boardChanged (s.part.bay_nextBoard b k c l)⟩
  | nil =>
    refine ⟨_, Does.boardWritten_last h, ?_, Part.passOver_phase _ k, fun d _ => ?_, nofun, fun _ hk hnudge hphase => ?_,
      fun _ hk hnudge => ?_, fun _ hk => ?_⟩
    · rw [Part.bay_passOver, Part.bay_boardCounted]
    · rw [Part.bay_passOver]
      exact hkept d
    · rw [Part.passOver_nudged hk (by exact hnudge) (by exact hphase)]
      exact ⟨rfl, rfl⟩
    · have hnot : ¬ ((s.part.boardCounted b).nudge = true ∧ (s.part.boardCounted b).phase = .running) := fun h =>
        absurd (hnudge.symm.trans h.1) nofun
      rw [Part.passOver_timer hk hnot]
      exact ⟨rfl, rfl⟩
    · subst hk
      exact ⟨rfl, rfl⟩

/-- The next board of a pass, or the timer after its last, as the part then stands (R185, R194). -/
theorem boardWritten_ends {s : State} {k : PassKind} {b : Bay} {content : List (Nat × Nat)} {rest : List Bay}
    (h : s.part.sweep = .boards k b content rest) :
    ∃ t, exec (.boardWritten b) s = .next t ∧
      (∀ c l, rest = c :: l → t.part.phase = s.part.phase ∧ t.part.sweep = .boards k c (s.part.boardFields c) l ∧
        t.part.sweepTimer = s.part.sweepTimer ∧ t.part.nudge = s.part.nudge) ∧
      (rest = [] → k ≠ .final → ¬ (s.part.nudge = true ∧ s.part.phase = .running) →
        ¬ (s.part.phase = .stopping ∧ s.part.stopOwed = false ∧ ∀ c, (s.part.bay c).state = .empty) →
        t.part.phase = s.part.phase ∧ t.part.sweep = .idle ∧
        t.part.sweepTimer = some ⟨s.part.tick, sweepTicks s.part.sweepCode⟩ ∧ t.part.nudge = s.part.nudge ∧
        ∀ c, (t.part.bay c).boardChanged = (s.part.bay c).boardChanged) := by
  cases rest with
  | cons c l =>
    obtain ⟨t, hexec, -, -, hends⟩ := Does.boardWritten_next h
    refine ⟨t, hexec, fun c' l' heq => ?_, nofun⟩
    injection heq with hc hl
    subst hc hl
    have hq := hends.boards (s.part.nextBoard_sweep b k c l)
    rw [hq, Part.stands_phase, Part.stands_sweep, Part.stands_sweepTimer, Part.stands_nudge]
    exact ⟨s.part.nextBoard_phase b k c l, s.part.nextBoard_sweep b k c l, s.part.nextBoard_sweepTimer b k c l,
      s.part.nextBoard_nudge b k c l⟩
  | nil =>
    obtain ⟨t, hexec, -, -, hends⟩ := Does.boardWritten_last h
    refine ⟨t, hexec, nofun, fun _ hk hnudge hstop => ?_⟩
    have hsame : ∀ c, ∃ n, (s.part.boardCounted b).bay c = { s.part.bay c with writeCount := n } := s.part.bay_boardCounted_eq b
    rw [Part.passOver_timer hk (by exact hnudge)] at hends
    have hstate : ¬ ((s.part.boardCounted b).phase = .stopping ∧ (s.part.boardCounted b).stopOwed = false ∧
        ∀ c, ((s.part.boardCounted b).bay c).state = .empty) := fun he => hstop ⟨he.1, he.2.1, fun c => by
      obtain ⟨n, hn⟩ := hsame c
      have hc := he.2.2 c
      rwa [hn] at hc⟩
    obtain ⟨hphase, hsweep, htimer, hkeptNudge, hchanged⟩ := hends.timer hstate (fun c => s.part.boardFields_boardCounted b c)
    refine ⟨hphase, hsweep, htimer, hkeptNudge, fun c => ?_⟩
    obtain ⟨n, hn⟩ := hsame c
    rw [hchanged c, hn]

/-- The end of the final pass with no access in progress takes the part to IDLE (R182, R185). -/
theorem Part.EndsAs.finished {old p q : Part} {timer : Option SpanTimer}
    (h : Part.EndsAs old { p with sweep := .finished, sweepTimer := timer } q) (hphase : p.phase = .stopping) (hquiet : p.quiet = true) :
    ∃ l, q = p.stands l .idle .idle none false := by
  obtain ⟨-, -, hidle, -⟩ := h
  exact ⟨_, hidle rfl ⟨hphase, hquiet⟩⟩

theorem Part.quiet_boardCounted (p : Part) (b : Bay) : (p.boardCounted b).quiet = p.quiet := by
  have hbays : ∀ c, ((p.boardCounted b).bay c).drain = (p.bay c).drain ∧ ((p.boardCounted b).bay c).fullWrites = (p.bay c).fullWrites :=
    fun c => by
      obtain ⟨n, hn⟩ := p.bay_boardCounted_eq b c
      rw [hn]
      exact ⟨rfl, rfl⟩
  unfold Part.quiet
  simp only [hbays]
  rfl

theorem boardWritten_final {s : State} {b : Bay} {content : List (Nat × Nat)} (h : s.part.sweep = .boards .final b content [])
    (hphase : s.part.phase = .stopping) (hquiet : s.part.quiet = true) :
    ∃ t, exec (.boardWritten b) s = .next t ∧ t.part.phase = .idle ∧ t.part.sweep = .idle ∧ t.part.sweepTimer = none ∧
      t.part.settings = s.part.settings ∧ t.part.dir = s.part.dir ∧ t.part.cursor = s.part.cursor := by
  obtain ⟨t, hexec, -, -, hends⟩ := Does.boardWritten_last h
  rw [Part.passOver_final] at hends
  obtain ⟨l, hq⟩ := hends.finished (by exact hphase) ((s.part.quiet_boardCounted b).trans hquiet)
  refine ⟨t, hexec, ?_⟩
  rw [hq]
  exact ⟨rfl, rfl, rfl, rfl, rfl, rfl⟩

/-! ### RUN written 0 with every bay EMPTY (R185) -/

theorem Part.enterStopping_empty {p : Part} (hsweep : p.sweep.taking = false) (hempty : ∀ b, (p.bay b).state = .empty) :
    p.enterStopping = p.stopped := by
  have hbegin : ∀ b ∈ allBays, p.stopped.beginStop b = p.stopped := fun b _ => if_pos (hempty b)
  have hctxs : ∀ b ∈ allBays, p.stopped.stopCtxs b = p.stopped := fun b _ =>
    if_neg (by rw [show (p.stopped.bay b).state = .empty from hempty b]; exact nofun)
  have hfold : ∀ (f : Part → Bay → Part) (l : List Bay), (∀ b ∈ l, f p.stopped b = p.stopped) → l.foldl f p.stopped = p.stopped := by
    intro f l hf
    induction l with
    | nil => rfl
    | cons b l ih =>
      rw [List.foldl_cons, hf b (List.mem_cons_self ..)]
      exact ih fun c hc => hf c (List.mem_cons_of_mem _ hc)
  rw [Part.enterStopping_eq hsweep, hfold _ _ hbegin, hfold _ _ hctxs]

theorem Zone.stop_resting {y : Zone} (h : y.state ∈ [ZoneState.rest, .returning, .faulted]) (now : Nat) : y.stop now = y := by
  unfold Zone.stop
  cases hs : y.state with
  | moving | settling | opened | closing =>
    rw [hs] at h
    exact absurd h (by decide)
  | _ => rfl

/-- A stop whose final pass is due at once (R185). -/
theorem Part.EndsAs.stop {old p q : Part} (h : Part.EndsAs old p q) (hsweep : p.sweep = .idle) (hphase : p.phase = .stopping)
    (howed : p.stopOwed = false) (hempty : ∀ b, (p.bay b).state = .empty) (hquiet : p.quiet = true) :
    (∀ b rest, old.changedSince p = b :: rest → q = p.stands rest .stopping (.boards .final b (p.boardFields b) rest) none p.nudge) ∧
      (old.changedSince p = [] → q = p.stands [] .idle .idle none false) := by
  obtain ⟨-, hfinal, -, -⟩ := h
  obtain ⟨hrewrites, hnone⟩ := hfinal hsweep ⟨hphase, howed, hempty⟩
  refine ⟨fun b rest hl => ?_, fun hl => (hnone hl).1 ⟨hphase, hquiet⟩⟩
  rw [hrewrites b rest hl, hphase]

theorem runStop_empty {s : State} (hphase : s.part.phase = .running) (hsweep : s.part.sweep = .idle)
    (hempty : ∀ b, (s.part.bay b).state = .empty) (hquiet : s.part.quiet = true) :
    ∃ t, exec .runStop s = .next t ∧
      ((∀ z, (s.part.zone z).state ∈ [.rest, .returning, .faulted]) →
        (∀ b rest, allBays.filter (fun b => (s.part.bay b).boardChanged) = b :: rest →
          t.part.phase = .stopping ∧ t.part.sweep = .boards .final b (s.part.boardFields b) rest ∧ t.part.sweepTimer = none) ∧
        ((∀ b, (s.part.bay b).boardChanged = false) →
          t.part.phase = .idle ∧ t.part.sweep = .idle ∧ t.part.sweepTimer = none)) ∧
      (t.part.phase = .idle ∧ t.part.sweepTimer = none ∨
        t.part.phase = .stopping ∧ ∃ b content rest, t.part.sweep = .boards .final b content rest) := by
  have htaking : s.part.fresh.sweep.taking = false := by
    rw [show s.part.fresh.sweep = .idle from hsweep]
    rfl
  have hdoes : Does .runStop s s.book s.part.fresh.stopped :=
    Does.of_runWith (exec_runStop_running hphase) (Part.enterStopping_empty htaking hempty) rfl
  obtain ⟨t, hexec, -, -, hends⟩ := hdoes
  obtain ⟨hcons, hnil⟩ := hends.stop (by exact hsweep) rfl rfl (by exact hempty) (by exact hquiet)
  refine ⟨t, hexec, fun hzones => ?_, ?_⟩
  · have hsame : s.part.fresh.stopped.zones = s.part.zones := by
      refine Vector.ext fun i hi => ?_
      exact (s.part.fresh.zone_stopped ⟨i, hi⟩).trans (Zone.stop_resting (hzones ⟨i, hi⟩) _)
    have hfields : ∀ b, s.part.fresh.stopped.boardFields b = s.part.boardFields b := fun b =>
      Part.boardFields_congr ⟨_, _, rfl⟩ hsame rfl
    have hchanged : s.part.changedSince s.part.fresh.stopped = allBays.filter (fun b => (s.part.bay b).boardChanged) :=
      Part.changedSince_kept hfields
    refine ⟨fun b rest hl => ?_, fun hnone => ?_⟩
    · rw [hcons b rest (hchanged.trans hl), Part.stands_phase, Part.stands_sweep, Part.stands_sweepTimer, hfields b]
      exact ⟨rfl, rfl, rfl⟩
    · have hempty : allBays.filter (fun b => (s.part.bay b).boardChanged) = [] := List.filter_eq_nil_iff.mpr fun b _ => by
        rw [hnone b]
        exact nofun
      rw [hnil (hchanged.trans hempty)]
      exact ⟨rfl, rfl, rfl⟩
  · cases hl : s.part.changedSince s.part.fresh.stopped with
    | nil =>
      rw [hnil hl]
      exact .inl ⟨rfl, rfl⟩
    | cons b rest =>
      rw [hcons b rest hl]
      exact .inr ⟨rfl, b, _, rest, rfl⟩

/-- Settles O30. -/
theorem boardsAreRewritten : Obligations.BoardsAreRewritten := by
  unfold Obligations.BoardsAreRewritten
  refine ⟨length_boardFields, fun old p b => Part.mem_changedSince, fun s marks hphase hsweep hlength hpick hw => ?_,
    fun s k b content rest h => boardWritten_does h, fun s k b content rest h => boardWritten_ends h,
    fun s b content h hphase hquiet => boardWritten_final h hphase hquiet,
    fun s hphase hsweep hempty hquiet => runStop_empty hphase hsweep hempty hquiet⟩
  obtain ⟨t, hexec, hends⟩ := slotMarksRead_rewrites hphase hsweep hlength hpick hw
  obtain ⟨hcons, hnone⟩ := hends.sweepPass hphase
  have hover : (∀ b, (s.part.bay b).boardChanged = false) →
      ∃ sweep timer nudge, t.part = (s.atPass .sweep).stands [] .running sweep timer nudge := fun hkept => by
    obtain ⟨hnudged, htimer⟩ := hnone hkept
    cases hnudge : s.part.nudge with
    | true => exact ⟨_, _, _, hnudged hnudge⟩
    | false => exact ⟨_, _, _, htimer hnudge⟩
  refine ⟨t, hexec, ?_, fun b rest hl => ?_, fun hkept => ⟨fun c => ?_, fun hnudge => ?_, fun hnudge => ?_⟩⟩
  · cases hl : allBays.filter (fun b => (s.part.bay b).boardChanged) with
    | cons b rest => rw [hcons b rest hl, Part.stands_phase]
    | nil =>
      obtain ⟨sweep, timer, nudge, hq⟩ := hover fun b =>
        Bool.eq_false_iff.mpr (List.filter_eq_nil_iff.mp hl b (mem_allBays b))
      rw [hq, Part.stands_phase]
  · rw [hcons b rest hl, Part.stands_sweep, Part.stands_sweepTimer, Part.stands_nudge]
    exact ⟨rfl, rfl, rfl, fun c => Part.stands_boardChanged ..⟩
  · obtain ⟨sweep, timer, nudge, hq⟩ := hover hkept
    rw [hq, Part.stands_boardChanged]
    rfl
  · obtain ⟨hnudged, -⟩ := hnone hkept
    rw [hnudged hnudge]
    exact ⟨rfl, rfl, rfl⟩
  · obtain ⟨-, htimer⟩ := hnone hkept
    rw [htimer hnudge]
    exact ⟨rfl, rfl⟩

end Sys2Proof.Machine
end

section
/-! A filtered rise (R4, R5, R8, R12, R89, R90, R167). -/

namespace Sys2Proof.Machine

/-! ### A hand-over that the link takes (R151) -/

/-- An entry as it is handed over. -/
def Entry.numbered (e : Entry) (n : Nat) : Entry := { e with ref := n, fell := false }

theorem Part.handOver_idle {p : Part} {b : Bay} {e : Entry} (hmute : (p.bay b).muted e.target = false) (hline : (p.link b).line = [])
    (hroom : (p.link b).queue.length < 12) (hstate : (p.link b).state = .idle) :
    (p.handOver b e).2 = { p with handovers := p.handovers + 1 }.mapLink b (Link.start (e.numbered p.handovers) p.samples) := by
  unfold Part.handOver
  dsimp only
  rw [if_neg (by rw [show (Part.bay { p with handovers := p.handovers + 1 } b).muted e.target = false from hmute]; exact nofun),
    if_pos (by rw [show (Part.link { p with handovers := p.handovers + 1 } b).line = [] from hline]; exact decide_eq_true hroom),
    if_pos (show (Part.link { p with handovers := p.handovers + 1 } b).state = .idle from hstate)]
  rfl

theorem Part.handOver_queued {p : Part} {b : Bay} {e : Entry} (hmute : (p.bay b).muted e.target = false)
    (hline : (p.link b).line = []) (hroom : (p.link b).queue.length < 12) (hstate : (p.link b).state ≠ .idle) :
    (p.handOver b e).2 = { p with handovers := p.handovers + 1 }.mapLink b
      (fun l => { l with queue := l.queue ++ [e.numbered p.handovers] }) := by
  unfold Part.handOver
  dsimp only
  rw [if_neg (by rw [show (Part.bay { p with handovers := p.handovers + 1 } b).muted e.target = false from hmute]; exact nofun),
    if_pos (by rw [show (Part.link { p with handovers := p.handovers + 1 } b).line = [] from hline]; exact decide_eq_true hroom),
    if_neg (show (Part.link { p with handovers := p.handovers + 1 } b).state ≠ .idle from hstate)]
  rfl

theorem Part.handOver_todo {p : Part} {b : Bay} {e : Entry} (hmute : (p.bay b).muted e.target = false) :
    (p.handOver b e).2.todo = p.todo := by
  unfold Part.handOver
  dsimp only
  rw [if_neg (by rw [show (Part.bay { p with handovers := p.handovers + 1 } b).muted e.target = false from hmute]; exact nofun)]
  split
  · split <;> rfl
  · split <;> rfl

/-- Entries taken out of a link where none waits for room (R151, R159). -/
theorem Link.remove_of_line_nil {l : Link} (h : l.line = []) (f : Entry → Bool) :
    l.remove f = { l with queue := l.queue.filter (fun e => !f e) } := by
  unfold Link.remove Link.refill
  rw [h]
  simp

/-! ### A context identifies (R8, R12) -/

/-- The part with a context IDENTIFYING, its IDENTITY_READ not yet handed over. -/
def Part.numbering (p : Part) (b : Bay) (x : Slot) : Part :=
  { p with nextAdm := nextAdmission p.nextAdm }.mapCtx b x
    (fun _ => { Ctx.reset with state := .identifying, adm := some p.nextAdm, attempts := 1 })

/-- The IDENTITY_READ of a context that identifies (R12). -/
def Part.identityEntry (p : Part) (b : Bay) (x : Slot) : Entry :=
  { target := x, kind := .identityRead, cmd := p.identityCmd, data := none, who := ⟨b, x, p.nextAdm⟩, purpose := .identify
    onValue := 0, ref := 0, fell := false }

theorem Part.identify_eq (p : Part) (b : Bay) (x : Slot) :
    p.identify b x = ((p.numbering b x).handOver b (p.identityEntry b x)).2 := by
  have hwho : (p.numbering b x).requester b x = ⟨b, x, p.nextAdm⟩ := by
    unfold Part.requester Part.numbering
    rw [Part.ctx_mapCtx]
    rfl
  unfold Part.identityEntry
  rw [← hwho]
  rfl

theorem Part.link_numbering (p : Part) (b : Bay) (x : Slot) : (p.numbering b x).link b = p.link b :=
  Part.link_mapCtx { p with nextAdm := nextAdmission p.nextAdm } b x _ b

theorem Part.muted_numbering (p : Part) (b : Bay) (x y : Slot) : ((p.numbering b x).bay b).muted y = (p.bay b).muted y :=
  congrArg (fun l : Link => l.mute[y]) (p.link_numbering b x)

theorem Part.ctx_identify (p : Part) (b : Bay) (x : Slot) :
    (p.identify b x).ctx b x = { Ctx.reset with state := .identifying, adm := some p.nextAdm, attempts := 1 } := by
  rw [Part.identify_eq, Part.ctx_handOver]
  exact Part.ctx_mapCtx { p with nextAdm := nextAdmission p.nextAdm } b x _

theorem Part.identify_nextAdm (p : Part) (b : Bay) (x : Slot) : (p.identify b x).nextAdm = nextAdmission p.nextAdm := by
  obtain ⟨k, h, t, heq⟩ := p.identify_does b x
  rw [heq]

theorem Part.identify_todo {p : Part} {b : Bay} {x : Slot} (h : (p.bay b).muted x = false) : (p.identify b x).todo = p.todo := by
  rw [Part.identify_eq, Part.handOver_todo (by rw [Part.muted_numbering]; exact h)]
  rfl

/-- The link of a bay whose context identifies, where no entry waits for room (R12, R151). -/
theorem Part.link_identify {p : Part} {b : Bay} {x : Slot} (hmute : (p.bay b).muted x = false) (hline : (p.link b).line = [])
    (hroom : (p.link b).queue.length < 12) :
    ((p.link b).state = .idle →
      (p.identify b x).link b = Link.start ((p.identityEntry b x).numbered p.handovers) p.samples (p.link b)) ∧
      ((p.link b).state ≠ .idle →
        (p.identify b x).link b = { p.link b with queue := (p.link b).queue ++ [(p.identityEntry b x).numbered p.handovers] }) := by
  have hlink := p.link_numbering b x
  have hmute' : ((p.numbering b x).bay b).muted (p.identityEntry b x).target = false := (p.muted_numbering b x x).trans hmute
  refine ⟨fun hstate => ?_, fun hstate => ?_⟩
  · rw [Part.identify_eq, Part.handOver_idle hmute' (by rw [hlink]; exact hline) (by rw [hlink]; exact hroom)
      (by rw [hlink]; exact hstate)]
    exact (Part.link_mapLink { p.numbering b x with handovers := p.handovers + 1 } b _).trans (congrArg _ hlink)
  · rw [Part.identify_eq, Part.handOver_queued hmute' (by rw [hlink]; exact hline) (by rw [hlink]; exact hroom)
      (by rw [hlink]; exact hstate)]
    exact (Part.link_mapLink { p.numbering b x with handovers := p.handovers + 1 } b
      (fun l => { l with queue := l.queue ++ [(p.identityEntry b x).numbered p.handovers] })).trans (congrArg (fun l : Link =>
        { l with queue := l.queue ++ [(p.identityEntry b x).numbered p.handovers] }) hlink)

/-! ### Which checks a presence change disturbs (R89) -/

/-- A check in a phase that a disturbance cuts short. -/
def Ctx.Cut (c : Ctx) (k : Check) : Prop :=
  c.phase ∈ [.prepare, .apply] ∧ k.isDerate = false ∨
    c.phase = .measure ∧ ((∃ o, k.body = .steady o) ∨ ∃ o, k.body = .share o)

/-- A check in a phase that a disturbance leaves to run to its end. -/
def Ctx.Goes (c : Ctx) (k : Check) : Prop :=
  c.phase ∈ [.observe, .recover] ∧ (∃ o, k.body = .ocp o) ∨ c.phase = .recover ∧ ∃ o, k.body = .ovp o

theorem Ctx.sensitive_iff {c : Ctx} {k : Check} (h : c.check = some k) : c.sensitive = true ↔ c.Cut k ∨ c.Goes k := by
  unfold Ctx.sensitive Ctx.Cut Ctx.Goes Check.isDerate
  rw [h, Option.map_some]
  cases hbody : k.body <;> cases hphase : c.phase <;> simp

theorem Ctx.phase_of_cut {c : Ctx} {k : Check} (h : c.Cut k) : c.phase ∈ [Phase.prepare, .apply, .measure] := by
  rcases h with ⟨hphase, -⟩ | ⟨hphase, -⟩
  · exact List.mem_append_left [Phase.measure] hphase
  · rw [hphase]
    decide

theorem Ctx.phase_of_goes {c : Ctx} {k : Check} (h : c.Goes k) : c.phase ∉ [Phase.prepare, .apply, .measure] := by
  rcases h with ⟨hphase, -⟩ | ⟨hphase, -⟩
  · intro hcut
    generalize c.phase = x at hphase hcut
    revert hphase hcut
    cases x <;> decide
  · rw [hphase]
    decide

/-! ### The disturbed check itself (R89) -/

/-- A check disturbed, its outcome and its moment kept. -/
theorem Part.ctx_disturbed_mapWork (p : Part) (b : Bay) (y : Slot) :
    (p.mapWork b y (fun w => { w with outcome := .disturbed, stamp := some p.stamp })).ctx b y =
      (p.ctx b y).mapWork (fun w => { w with outcome := .disturbed, stamp := some p.stamp }) := Part.ctx_mapWork p b y _

theorem Part.disturb_cut {p : Part} {b : Bay} {y : Slot} (h : (p.ctx b y).phase ∈ [Phase.prepare, .apply, .measure]) :
    ((p.disturb b y).ctx b y).phase = .release ∧ ((p.disturb b y).ctx b y).work.outcome = .disturbed ∧
      ((p.disturb b y).ctx b y).work.stamp = some p.stamp := by
  have hrelease : ∀ q : Part, (q.ctx b y).work.outcome = .disturbed → (q.ctx b y).work.stamp = some p.stamp →
      ((q.enterRelease b y).ctx b y).phase = .release ∧ ((q.enterRelease b y).ctx b y).work.outcome = .disturbed ∧
        ((q.enterRelease b y).ctx b y).work.stamp = some p.stamp := fun q hout hstamp => by
    obtain ⟨o, r, heq⟩ := Part.ctx_enterRelease q b y
    rw [heq]
    exact ⟨rfl, hout, hstamp⟩
  have hctx := p.ctx_disturbed_mapWork b y
  unfold Part.disturb
  dsimp only
  simp only [List.mem_cons, List.not_mem_nil, or_false] at h
  rcases h with h | h | h
  · rw [h]
    refine hrelease _ ?_ ?_
    all_goals
      unfold Part.keepFlying
      dsimp only
      rw [Part.ctx_mapWork, Part.ctx_withdrawEntries, hctx]
      rfl
  · rw [h]
    exact hrelease _ (by rw [hctx]; rfl) (by rw [hctx]; rfl)
  · rw [h]
    exact hrelease _ (by rw [hctx]; rfl) (by rw [hctx]; rfl)

theorem Part.disturb_goes {p : Part} {b : Bay} {y : Slot} (h : (p.ctx b y).phase ∉ [Phase.prepare, .apply, .measure]) :
    (p.disturb b y).ctx b y = (p.ctx b y).mapWork (fun w => { w with outcome := .disturbed, stamp := some p.stamp }) := by
  have hctx := p.ctx_disturbed_mapWork b y
  unfold Part.disturb
  dsimp only
  cases hphase : (p.ctx b y).phase with
  | prepare | apply | measure => exact absurd (hphase ▸ h) (by decide)
  | _ => exact hctx

/-- The presence change of a slot, in the check of another slot that holds the bus (R89). -/
theorem Part.disturbBay_ctx {p : Part} {b : Bay} {x y : Slot} {k : Check} (hholder : (p.bay b).busHolder = some y) (hne : y ≠ x)
    (hcheck : (p.ctx b y).check = some k) (habort : (p.ctx b y).work.aborting = none)
    (hout : (p.ctx b y).work.outcome ≠ .disturbed) :
    ((p.ctx b y).Cut k ∨ (p.ctx b y).Goes k →
      ((p.disturbBay b x).ctx b y).work.outcome = .disturbed ∧ ((p.disturbBay b x).ctx b y).work.stamp = some p.stamp) ∧
      ((p.ctx b y).Cut k → ((p.disturbBay b x).ctx b y).phase = .release) ∧
      ((p.ctx b y).Goes k → ((p.disturbBay b x).ctx b y).phase = (p.ctx b y).phase) ∧
      (¬ ((p.ctx b y).Cut k ∨ (p.ctx b y).Goes k) → (p.disturbBay b x).ctx b y = p.ctx b y) := by
  have hunaborted : (p.ctx b y).unaborted = true := by
    unfold Ctx.unaborted
    rw [habort]
    rfl
  have hsensitive := Ctx.sensitive_iff hcheck
  have hyes : (p.ctx b y).Cut k ∨ (p.ctx b y).Goes k → p.disturbBay b x = p.disturb b y := fun h => by
    unfold Part.disturbBay
    rw [hholder]
    exact if_pos (by simp [hne, hsensitive.mpr h, hunaborted, hout])
  refine ⟨fun h => ?_, fun h => ?_, fun h => ?_, fun h => ?_⟩
  · rw [hyes h]
    rcases h with h | h
    · exact (Part.disturb_cut (Ctx.phase_of_cut h)).2
    · rw [Part.disturb_goes (Ctx.phase_of_goes h)]
      exact ⟨rfl, rfl⟩
  · rw [hyes (.inl h)]
    exact (Part.disturb_cut (Ctx.phase_of_cut h)).1
  · rw [hyes (.inr h), Part.disturb_goes (Ctx.phase_of_goes h)]
    rfl
  · have hsame : p.disturbBay b x = p := by
      unfold Part.disturbBay
      rw [hholder]
      exact if_neg (by simp [Bool.eq_false_iff.mpr (fun hs => h (hsensitive.mp hs))])
    rw [hsame]

theorem Part.disturbBay_alone {p : Part} {b : Bay} {x : Slot} (h : ∀ y, (p.bay b).busHolder = some y → y = x) :
    p.disturbBay b x = p := by
  unfold Part.disturbBay
  cases hholder : (p.bay b).busHolder with
  | none => rfl
  | some y => exact if_neg (by simp [h y hholder])

/-! ### The filtered rise outside HALTED (R5, R167) -/

theorem BayState.admitted_iff {st : BayState} : st.admitted = true ↔ st ∉ [BayState.empty, .withdrawing] := by
  cases st <;> decide

theorem Part.presenceNotice_eq (p : Part) : ∃ k m, p.presenceNotice = { p with pendingSet := k, messages := m } ∧
    (p.phase = .running ∨ p.phase = .stopping → k = p.pendingSet ||| BitVec.twoPow 7 4) ∧ (p.phase = .idle → k = p.pendingSet) := by
  have hraised := p.notify_pendingSet .presence
  obtain ⟨k, m, heq⟩ := p.notify_eq .presence
  unfold Part.presenceNotice
  split
  next h =>
    refine ⟨k, m, heq, fun _ => ?_, fun hidle => ?_⟩
    · rw [heq] at hraised
      exact hraised.trans (if_neg (by rcases h with h | h <;> rw [h] <;> exact nofun))
    · rw [hidle] at h
      exact absurd h (by decide)
  next h => exact ⟨p.pendingSet, p.messages, rfl, fun hr => absurd hr h, fun _ => rfl⟩

/-- The bay's check disturbed by a presence change of slot `x`, where the bay is admitted (R5, R6). -/
def Part.disturbed (p : Part) (b : Bay) (x : Slot) : Part := if (p.bay b).state.admitted then p.disturbBay b x else p

theorem Part.disturbed_does (p : Part) (b : Bay) (x : Slot) : p.Disturbance b x (p.disturbed b x) := by
  unfold Part.disturbed
  split
  · exact p.disturbBay_does b x
  · exact .refl p b x

theorem Part.disturbed_same {p : Part} {b : Bay} {x : Slot}
    (h : (p.bay b).state ∈ [BayState.empty, .withdrawing] ∨ ∀ y, (p.bay b).busHolder = some y → y = x) : p.disturbed b x = p := by
  unfold Part.disturbed
  split
  next hadmitted => exact Part.disturbBay_alone (h.resolve_left (BayState.admitted_iff.mp hadmitted))
  next => rfl

theorem Part.ctx_disturbed {p : Part} {b : Bay} (x : Slot) {y : Slot}
    (h : (p.bay b).state ∈ [BayState.empty, .withdrawing] ∨ (p.bay b).busHolder ≠ some y) :
    (p.disturbed b x).ctx b y = p.ctx b y := by
  rcases h with h | h
  · rw [Part.disturbed_same (.inl h)]
  · exact (p.disturbed_does b x).ctx y (.inr h)

/-- What a rise does to its own context, once the presence notice and the disturbance are made (R5, R8, R167). -/
def Part.rises (p : Part) (b : Bay) (x : Slot) : Part :=
  if (p.ctx b x).state = .absent then (if (p.bay b).state.admitted then p.identify b x else p)
  else p.mapPresence b x (fun f => { f with heldRise := true })

theorem Part.rise_eq (p : Part) (b : Bay) (x : Slot) : p.rise b x = (p.presenceNotice.disturbed b x).rises b x := rfl

theorem Part.rises_held {p : Part} {b : Bay} {x : Slot} (h : (p.ctx b x).state ≠ .absent) :
    p.rises b x = p.mapPresence b x (fun f => { f with heldRise := true }) := if_neg h

theorem Part.rises_elsewhere {p : Part} {b : Bay} {x : Slot} (h : (p.ctx b x).state = .absent)
    (hstate : (p.bay b).state ∈ [BayState.empty, .withdrawing]) : p.rises b x = p := by
  unfold Part.rises
  rw [if_pos h, if_neg fun hadmitted => BayState.admitted_iff.mp hadmitted hstate]

theorem Part.rises_identifies {p : Part} {b : Bay} {x : Slot} (h : (p.ctx b x).state = .absent)
    (hstate : (p.bay b).state ∉ [BayState.empty, .withdrawing]) : p.rises b x = p.identify b x := by
  unfold Part.rises
  rw [if_pos h, if_pos (BayState.admitted_iff.mpr hstate)]

theorem Part.bay_mapPresence (p : Part) (b : Bay) (x : Slot) (f : Presence → Presence) :
    (p.mapPresence b x f).bay b = { p.bay b with presence := (p.bay b).presence.set x (f (p.bay b).presence[x]) } :=
  Part.bay_mapBay p b (fun u => { u with presence := u.presence.set x (f u.presence[x]) })

theorem Part.bay_mapPresence_other (p : Part) {b c : Bay} (x : Slot) (f : Presence → Presence) (h : c ≠ b) :
    (p.mapPresence b x f).bay c = p.bay c :=
  Part.bay_mapBay_other p (fun u => { u with presence := u.presence.set x (f u.presence[x]) }) (Ne.symm h)

theorem Part.ctx_mapPresence (p : Part) (b : Bay) (x : Slot) (f : Presence → Presence) (c : Bay) (y : Slot) :
    (p.mapPresence b x f).ctx c y = p.ctx c y :=
  Part.ctx_mapBay_ctxs p b (fun u => { u with presence := u.presence.set x (f u.presence[x]) }) rfl c y

theorem Part.presence_mapPresence (p : Part) (b : Bay) (x : Slot) (f : Presence → Presence) :
    ((p.mapPresence b x f).bay b).presence[x] = f (p.bay b).presence[x] := by
  rw [Part.bay_mapPresence]
  exact Vector.getElem_set_self _

/-- What a rise leaves, in its bay and elsewhere. -/
structure Part.Rose (b : Bay) (x : Slot) (p q : Part) : Prop where
  bay   : ∃ cs k pr, q.bay b = { p.bay b with ctxs := cs, link := k, presence := pr } ∧
    pr[x].filtered = (p.bay b).presence[x].filtered
  bays  : ∀ c, c ≠ b → q.bay c = p.bay c
  ctx   : ∀ y, y ≠ x → q.ctx b y = p.ctx b y
  chans : q.chans = p.chans
  zones : q.zones = p.zones
  set   : q.pendingSet = p.pendingSet

theorem Part.rises_rose (p : Part) (b : Bay) (x : Slot) : p.Rose b x (p.rises b x) := by
  have hsame : p.Rose b x p := ⟨⟨_, _, _, rfl, rfl⟩, fun _ _ => rfl, fun _ _ => rfl, rfl, rfl, rfl⟩
  unfold Part.rises
  split
  · split
    · obtain ⟨⟨cs, k, hbay⟩, ⟨bays, n, h, t, heq⟩, hbays, -, hctx⟩ := p.identify_identified b x
      refine ⟨⟨cs, k, (p.bay b).presence, hbay, rfl⟩, hbays, fun y hy => hctx y (fun hm => hy (List.mem_singleton.mp hm)), ?_, ?_, ?_⟩
      all_goals rw [heq]
    · exact hsame
  · refine ⟨⟨_, _, _, p.bay_mapPresence b x _, ?_⟩, fun c hc => p.bay_mapPresence_other x _ hc, fun y _ => p.ctx_mapPresence b x _ b y,
      rfl, rfl, rfl⟩
    exact (congrArg Presence.filtered (Vector.getElem_set_self x.isLt)).trans rfl

/-! ### The rise behind its presence notice -/

theorem Part.rose_does (p : Part) (b : Bay) (x : Slot) :
    let q := (p.disturbed b x).rises b x
    (q.bay b).present x = (p.bay b).present x ∧
      ((∀ y, (p.bay b).busHolder = some y → y = x) → q.chans = p.chans) ∧ q.zones = p.zones ∧ (∀ c, c ≠ b → q.bay c = p.bay c) ∧
      (∀ y, y ≠ x → (p.bay b).state ∈ [BayState.empty, .withdrawing] ∨ (p.bay b).busHolder ≠ some y → q.ctx b y = p.ctx b y) ∧
      (q.bay b).state = (p.bay b).state ∧ (q.bay b).busHolder = (p.bay b).busHolder ∧ (q.bay b).busQueue = (p.bay b).busQueue ∧
      (q.bay b).standby = (p.bay b).standby ∧ q.pendingSet = p.pendingSet := by
  obtain ⟨⟨bays, chans, l, heq⟩, hbays, ⟨cs, k, hbay⟩, -, -, -, -⟩ := p.disturbed_does b x
  obtain ⟨⟨cs', k', pr, hbay', hpr⟩, hbays', hctx', hchans', hzones', hset'⟩ := (p.disturbed b x).rises_rose b x
  rw [hbay] at hbay' hpr
  dsimp only
  refine ⟨?_, fun halone => ?_, ?_, fun c hc => (hbays' c hc).trans (hbays c hc),
    fun y hy h => (hctx' y hy).trans (Part.ctx_disturbed x h), ?_, ?_, ?_, ?_, ?_⟩
  · unfold BayUnit.present
    rw [hbay']
    exact hpr
  · rw [hchans', Part.disturbed_same (.inr halone)]
  · rw [hzones', heq]
  · rw [hbay']
  · rw [hbay']
  · rw [hbay']
  · rw [hbay']
  · rw [hset', heq]

/-- A rise of a slot whose context is not yet ABSENT is held (R167). -/
theorem Part.rose_held {p : Part} {b : Bay} {x : Slot} (h : (p.ctx b x).state ≠ .absent) :
    let q := (p.disturbed b x).rises b x
    (q.bay b).presence[x].heldRise = true ∧ q.ctx b x = p.ctx b x ∧ q.nextAdm = p.nextAdm ∧
      ((∀ y, (p.bay b).busHolder = some y → y = x) → q.todo = p.todo) := by
  obtain ⟨⟨bays, chans, l, heq⟩, -, -, hctx, -, -, -⟩ := p.disturbed_does b x
  have hx : (p.disturbed b x).ctx b x = p.ctx b x := hctx x (.inl rfl)
  dsimp only
  rw [Part.rises_held (by rw [hx]; exact h)]
  refine ⟨?_, (Part.ctx_mapPresence _ b x _ b x).trans hx, ?_, fun halone => ?_⟩
  · exact congrArg Presence.heldRise ((p.disturbed b x).presence_mapPresence b x (fun f => { f with heldRise := true }))
  · show (p.disturbed b x).nextAdm = p.nextAdm
    rw [heq]
  · show (p.disturbed b x).todo = p.todo
    rw [Part.disturbed_same (.inr halone)]

/-- A rise in a bay that is EMPTY or WITHDRAWING leaves an ABSENT context (R5). -/
theorem Part.rose_elsewhere {p : Part} {b : Bay} {x : Slot} (h : (p.ctx b x).state = .absent)
    (hstate : (p.bay b).state ∈ [BayState.empty, .withdrawing]) : (p.disturbed b x).rises b x = p := by
  rw [Part.disturbed_same (.inl hstate), Part.rises_elsewhere h hstate]

/-- A rise of an ABSENT context in an admitted bay (R5, R8, R12). -/
theorem Part.rose_identifies {p : Part} {b : Bay} {x : Slot} (h : (p.ctx b x).state = .absent)
    (hstate : (p.bay b).state ∉ [BayState.empty, .withdrawing]) :
    let q := (p.disturbed b x).rises b x
    q.ctx b x = { Ctx.reset with state := .identifying, adm := some p.nextAdm, attempts := 1 } ∧
      q.nextAdm = nextAdmission p.nextAdm ∧
      ((∀ y, (p.bay b).busHolder = some y → y = x) → (p.bay b).muted x = false → q.todo = p.todo) ∧
      ((p.bay b).muted x = false → (p.link b).line = [] →
        ∃ e : Entry, e.target = x ∧ e.kind = .identityRead ∧ e.cmd = p.identityCmd ∧ e.who = ⟨b, x, p.nextAdm⟩ ∧
          e.purpose = .identify ∧
          ((p.link b).state = .idle → (p.link b).queue = [] → (q.link b).inFlight = some e ∧ (q.link b).state = .busy) ∧
          ((p.link b).state ≠ .idle → (p.link b).queue.length < 12 →
            (q.link b).inFlight = (p.link b).inFlight ∧ ∃ l, (q.link b).queue = l ++ [e] ∧
              ((∀ y, (p.bay b).busHolder = some y → y = x) → l = (p.link b).queue))) := by
  obtain ⟨⟨bays, chans, l, heq⟩, -, ⟨cs, k, hbay⟩, hctx, hlink, -, -⟩ := p.disturbed_does b x
  have hx : (p.disturbed b x).ctx b x = p.ctx b x := hctx x (.inl rfl)
  have hadm : (p.disturbed b x).nextAdm = p.nextAdm := by rw [heq]
  have hst : ((p.disturbed b x).bay b).state = (p.bay b).state := by rw [hbay]
  have hcmd : (p.disturbed b x).identityCmd = p.identityCmd := by rw [heq]; rfl
  have hmuted : ((p.disturbed b x).bay b).muted x = (p.bay b).muted x := by
    show ((p.disturbed b x).link b).mute[x] = (p.link b).mute[x]
    rcases hlink with hsame | ⟨y, f, -, -, -, hremove, -⟩
    · rw [hsame]
    · rw [hremove]
      rfl
  dsimp only
  rw [Part.rises_identifies (by rw [hx]; exact h) (by rw [hst]; exact hstate)]
  refine ⟨by rw [Part.ctx_identify, hadm], by rw [Part.identify_nextAdm, hadm], fun halone hmute => ?_, fun hmute hline => ?_⟩
  · rw [Part.identify_todo (by rw [hmuted]; exact hmute), Part.disturbed_same (.inr halone)]
  · have hqueue : ∃ l, (p.disturbed b x).link b = { p.link b with queue := l } ∧ l.length ≤ (p.link b).queue.length := by
      rcases hlink with hsame | ⟨y, f, -, -, -, hremove, -⟩
      · exact ⟨_, hsame, le_refl _⟩
      · exact ⟨_, hremove.trans (Link.remove_of_line_nil hline f), List.length_filter_le _ _⟩
    obtain ⟨l, hlink, hlength⟩ := hqueue
    refine ⟨((p.disturbed b x).identityEntry b x).numbered (p.disturbed b x).handovers, rfl, rfl, hcmd, ?_, rfl,
      fun hidle hempty => ?_, fun hbusy hroom => ?_⟩
    · rw [← hadm]
      rfl
    · rw [hempty] at hlength
      obtain ⟨hgo, -⟩ := Part.link_identify (p := p.disturbed b x) (by rw [hmuted]; exact hmute) (by rw [hlink]; exact hline)
        (by rw [hlink]; exact lt_of_le_of_lt hlength (by decide))
      rw [hgo (by rw [hlink]; exact hidle)]
      exact ⟨rfl, rfl⟩
    · obtain ⟨-, hgo⟩ := Part.link_identify (p := p.disturbed b x) (by rw [hmuted]; exact hmute) (by rw [hlink]; exact hline)
        (by rw [hlink]; exact lt_of_le_of_lt hlength hroom)
      rw [hgo (by rw [hlink]; exact hbusy)]
      exact ⟨by rw [hlink], _, rfl, fun halone => by rw [Part.disturbed_same (.inr halone)]⟩

/-! ### After the bus is released (R90) -/

theorem Part.afterBus_retry {p : Part} {b : Bay} {x : Slot} {k : Check} (hcheck : (p.ctx b x).check = some k)
    (hderate : k.isDerate = false) (habort : (p.ctx b x).work.aborting = none) (hout : (p.ctx b x).work.outcome = .disturbed)
    (hretry : (p.ctx b x).retry = 1) : p.afterBus b x = (p.mapCtx b x (Ctx.retryCheck k)).later [.boundary b x] := by
  unfold Part.afterBus
  dsimp only
  rw [if_neg (by rw [habort]; exact nofun), hcheck]
  dsimp only
  rw [if_neg (by rw [hderate]; exact nofun), if_pos ⟨hout, hretry⟩]

theorem Part.afterBus_over {p : Part} {b : Bay} {x : Slot} {k : Check} (hcheck : (p.ctx b x).check = some k)
    (hderate : k.isDerate = false) (habort : (p.ctx b x).work.aborting = none)
    (hover : ¬ ((p.ctx b x).work.outcome = .disturbed ∧ (p.ctx b x).retry = 1)) :
    p.afterBus b x = (p.mapCtx b x (fun c => { c with
      phase := .record, out := c.out ++ (c.checkRecords b x p.stamp).map OutItem.record ++ [OutItem.applyResult] })).later
        [.output b x] := by
  unfold Part.afterBus
  dsimp only
  rw [if_neg (by rw [habort]; exact nofun), hcheck]
  dsimp only
  rw [if_neg (by rw [hderate]; exact nofun), if_neg hover]

/-- The records of a disturbed check: its passes, and the record that says it was disturbed (R90). -/
theorem Ctx.checkRecords_disturbed {c : Ctx} {k : Check} (hcheck : c.check = some k) (hout : c.work.outcome = .disturbed) (b : Bay)
    (x : Slot) (now : Stamp) : ∃ l n t, c.checkRecords b x now = l ++ [c.finalRecord b x k.recordKind n t] := by
  unfold Ctx.checkRecords Check.recordKind
  rw [hcheck]
  dsimp only
  cases k.body with
  | steady _ => exact ⟨_, _, _, if_neg (by rw [hout]; exact nofun)⟩
  | _ => exact ⟨[], _, _, rfl⟩

theorem Ctx.finalRecord_disturbed {c : Ctx} (h : c.work.outcome = .disturbed) (b : Bay) (x : Slot) (k : RecordKind) (n : Nat)
    (t : Stamp) : (c.finalRecord b x k n t).kind = k ∧ (c.finalRecord b x k n t).outcome = .disturbed ∧
      (c.finalRecord b x k n t).limits = ⟨none, none, none⟩ ∧ (c.finalRecord b x k n t).last = true := by
  unfold Ctx.finalRecord
  dsimp only
  rw [h]
  exact ⟨rfl, rfl, rfl, rfl⟩

/-! ### The obligation -/

/-- The part that a filtered change has been seen by (R4). -/
def Part.filtered (p : Part) (b : Bay) (x : Slot) (present : Bool) : Part :=
  p.fresh.mapPresence b x (fun f => { f with filtered := present, count := 0 })

theorem Part.bay_filtered (p : Part) (b : Bay) (x : Slot) (present : Bool) : (p.filtered b x present).bay b =
    { p.bay b with presence := (p.bay b).presence.set x { (p.bay b).presence[x] with filtered := present, count := 0 } } :=
  Part.bay_mapPresence p.fresh b x (fun f => { f with filtered := present, count := 0 })

theorem Part.bay_filtered_other (p : Part) {b c : Bay} (x : Slot) (present : Bool) (h : c ≠ b) :
    (p.filtered b x present).bay c = p.bay c :=
  Part.bay_mapPresence_other p.fresh x (fun f => { f with filtered := present, count := 0 }) h

theorem Part.ctx_filtered (p : Part) (b : Bay) (x : Slot) (present : Bool) (c : Bay) (y : Slot) :
    (p.filtered b x present).ctx c y = p.ctx c y :=
  Part.ctx_mapPresence p.fresh b x (fun f => { f with filtered := present, count := 0 }) c y

theorem Part.present_filtered (p : Part) (b : Bay) (x : Slot) (present : Bool) :
    ((p.filtered b x present).bay b).present x = present :=
  congrArg Presence.filtered (Part.presence_mapPresence p.fresh b x (fun f => { f with filtered := present, count := 0 }))

/-- A part as a filtered change finds it, in all that the change reads: the bay but for its presence, contexts, link, tables. -/
structure Part.SeenAs (b : Bay) (p q : Part) : Prop where
  bay   : ∃ pr, q.bay b = { p.bay b with presence := pr }
  bays  : ∀ c, c ≠ b → q.bay c = p.bay c
  ctx   : ∀ c y, q.ctx c y = p.ctx c y
  chans : q.chans = p.chans
  zones : q.zones = p.zones
  adm   : q.nextAdm = p.nextAdm
  cmd   : q.identityCmd = p.identityCmd
  stamp : q.stamp = p.stamp
  todo  : q.todo = []

theorem Part.filtered_seenAs (p : Part) (b : Bay) (x : Slot) (present : Bool) (k : BitVec 7) (m : Nat) :
    p.SeenAs b ({ p.filtered b x present with pendingSet := k, messages := m } : Part) :=
  ⟨⟨_, p.bay_filtered b x present⟩, fun _ hc => p.bay_filtered_other x present hc, p.ctx_filtered b x present, rfl, rfl, rfl, rfl, rfl,
    rfl⟩

theorem exec_filteredRise_early {s : State} {b : Bay} {x : Slot} (h : (s.part.bay b).presence[x].count < 5000) :
    exec (.filteredRise b x) s = .next s := by
  refine State.runIf_false s _ ?_
  rw [Bool.and_eq_false_iff]
  exact .inr (decide_eq_false (by unfold Config.presenceSamples; omega))

theorem filteredRise_guard {s : State} {b : Bay} {x : Slot} (hpresent : (s.part.bay b).present x = false)
    (hcount : 5000 ≤ (s.part.bay b).presence[x].count) :
    (!(s.part.bay b).present x && (s.part.bay b).presence[x].steady) = true := by
  rw [hpresent]
  exact decide_eq_true hcount

/-- A rise seen outside HALTED, its presence notice made. -/
theorem Owes.filteredRise {s : State} {b : Bay} {x : Slot} (hpresent : (s.part.bay b).present x = false)
    (hcount : 5000 ≤ (s.part.bay b).presence[x].count) (hphase : s.part.phase ≠ .halted) :
    ∃ k m, Owes (.filteredRise b x) s s.book
        ((({ s.part.filtered b x true with pendingSet := k, messages := m } : Part).disturbed b x).rises b x) ∧
      (s.part.phase = .running ∨ s.part.phase = .stopping → k = s.part.pendingSet ||| BitVec.twoPow 7 4) ∧
      (s.part.phase = .idle → k = s.part.pendingSet) := by
  obtain ⟨k, m, heq, hraised, hkept⟩ := (s.part.filtered b x true).presenceNotice_eq
  refine ⟨k, m, ?_, hraised, hkept⟩
  refine Owes.of_runIf (f := fun p =>
    let q := p.mapPresence b x (fun f => { f with filtered := true, count := 0 })
    if p.phase = .halted then q else q.rise b x) rfl (filteredRise_guard hpresent hcount) ?_
  rw [← heq, ← Part.rise_eq]
  exact if_neg hphase

/-- Settles O34. -/
theorem riseIdentifiesTheModule : Obligations.RiseIdentifiesTheModule := by
  unfold Obligations.RiseIdentifiesTheModule
  refine ⟨fun s b x h => exec_filteredRise_early h, fun s b x hpresent hcount => ⟨fun hphase => ?_, fun hphase => ?_,
    fun y k hphase hstate hholder hne => ?_⟩, fun p b x k hcheck hderate habort hout => ⟨fun hretry => ?_, fun hretry => ?_⟩⟩
  · exact Does.of_runIf (f := fun p =>
      let q := p.mapPresence b x (fun f => { f with filtered := true, count := 0 })
      if p.phase = .halted then q else q.rise b x) rfl (filteredRise_guard hpresent hcount) (if_pos hphase) rfl
  · obtain ⟨k, m, howes, hraised, hkept⟩ := Owes.filteredRise hpresent hcount hphase
    obtain ⟨⟨pr, hbay⟩, hbays, hctxs, hchans, hzones, hadm, hcmd, -, htodo⟩ := s.part.filtered_seenAs b x true k m
    have hseen : (({ s.part.filtered b x true with pendingSet := k, messages := m } : Part).bay b).present x = true :=
      s.part.present_filtered b x true
    have hset : ({ s.part.filtered b x true with pendingSet := k, messages := m } : Part).pendingSet = k := rfl
    generalize ({ s.part.filtered b x true with pendingSet := k, messages := m } : Part) = p
      at howes hbay hbays hctxs hchans hzones hadm hcmd htodo hseen hset
    have hstate : (p.bay b).state = (s.part.bay b).state := by rw [hbay]
    have hholder : (p.bay b).busHolder = (s.part.bay b).busHolder := by rw [hbay]
    have hqueue : (p.bay b).busQueue = (s.part.bay b).busQueue := by rw [hbay]
    have hstandby : (p.bay b).standby = (s.part.bay b).standby := by rw [hbay]
    have hmuted : (p.bay b).muted x = (s.part.bay b).muted x := by rw [hbay]; rfl
    have hlink : p.link b = s.part.link b := (congrArg BayUnit.link hbay).trans rfl
    obtain ⟨hpres, hch, hzn, hother, hctx, hst, hho, hbq, hsb, hps⟩ := p.rose_does b x
    have hheld := Part.rose_held (p := p) (b := b) (x := x)
    have helse := Part.rose_elsewhere (p := p) (b := b) (x := x)
    have hident := Part.rose_identifies (p := p) (b := b) (x := x)
    dsimp only at hheld hident
    rw [hctxs, hadm, htodo, hholder] at hheld
    rw [hctxs, hstate] at helse
    rw [hctxs, hstate, hadm, htodo, hholder, hmuted, hlink, hcmd] at hident
    rw [hholder] at hch
    rw [hset] at hps
    refine ⟨_, howes, hpres.trans hseen, fun halone => (hch halone).trans hchans, hzn.trans hzones,
      fun c hc => (hother c hc).trans (hbays c hc), fun y hy h => (hctx y hy (by rw [hstate, hholder]; exact h)).trans (hctxs b y),
      hst.trans hstate, hho.trans hholder, hbq.trans hqueue, hsb.trans hstandby, fun hr => hps.trans (hraised hr),
      fun hidle => hps.trans (hkept hidle), fun hne => hheld hne, fun habsent hwhere => ?_, fun habsent hwhere => hident habsent hwhere⟩
    rw [helse habsent hwhere]
    exact ⟨hctxs b x, hadm, htodo⟩
  · dsimp only
    intro hcheck habort hout
    obtain ⟨n, m, howes, -, -⟩ := Owes.filteredRise hpresent hcount hphase
    obtain ⟨⟨pr, hbay⟩, -, hctxs, -, -, -, -, hstamp, -⟩ := s.part.filtered_seenAs b x true n m
    generalize ({ s.part.filtered b x true with pendingSet := n, messages := m } : Part) = p at howes hbay hctxs hstamp
    have hadmitted : p.disturbed b x = p.disturbBay b x :=
      if_pos (BayState.admitted_iff.mpr (by rw [hbay]; exact hstate))
    have hctx : ((p.disturbed b x).rises b x).ctx b y = (p.disturbBay b x).ctx b y := by
      rw [((p.disturbed b x).rises_rose b x).ctx y hne, hadmitted]
    obtain ⟨hboth, hcut, hgoes, hneither⟩ := Part.disturbBay_ctx (p := p) (x := x) (k := k) (by rw [hbay]; exact hholder) hne
      (by rw [hctxs]; exact hcheck) (by rw [hctxs]; exact habort) (by rw [hctxs]; exact hout)
    rw [← hctx, hctxs] at hboth hcut hgoes hneither
    rw [hstamp] at hboth
    exact ⟨_, howes, hboth, hcut, hgoes, hneither⟩
  · rw [Part.afterBus_retry hcheck hderate habort hout hretry]
    exact ⟨rfl, (Part.ctx_later _ _ b x).trans (Part.ctx_mapCtx p b x _)⟩
  · rw [Part.afterBus_over hcheck hderate habort (fun h => hretry h.2), Part.ctx_later, Part.ctx_mapCtx]
    obtain ⟨l, n, t, hrecords⟩ := Ctx.checkRecords_disturbed hcheck hout b x p.stamp
    obtain ⟨hkind, hoc, hlimits, hlast⟩ := Ctx.finalRecord_disturbed hout b x k.recordKind n t
    refine ⟨rfl, l.map OutItem.record, _, ?_, hkind, hoc, hlimits, hlast⟩
    rw [hrecords]
    simp

end Sys2Proof.Machine
end

section
/-! What a context that leaves keeps of its bay, and the abort path of its check (R6, R22, R91 to R93). -/

namespace Sys2Proof.Machine

/-! ### What stays of the bay -/

/-- Presence, standby set and MUTE marks of the bay stay, its link takes no new entry, and nothing owed is forgotten. -/
structure Part.Stays (b : Bay) (p q : Part) : Prop where
  presence : (q.bay b).presence = (p.bay b).presence
  standby  : (q.bay b).standby = (p.bay b).standby
  mute     : (q.link b).mute = (p.link b).mute
  entries  : ∀ e ∈ (q.link b).queue ++ (q.link b).line, e ∈ (p.link b).queue ++ (p.link b).line
  todo     : ∀ k ∈ p.todo, k ∈ q.todo

namespace Part.Stays

variable {b : Bay} {p q r : Part}

theorem refl (p : Part) : p.Stays b p := ⟨rfl, rfl, rfl, fun _ h => h, fun _ h => h⟩

theorem trans (h : p.Stays b q) (k : q.Stays b r) : p.Stays b r :=
  ⟨k.presence.trans h.presence, k.standby.trans h.standby, k.mute.trans h.mute, fun e he => h.entries e (k.entries e he),
    fun c hc => k.todo c (h.todo c hc)⟩

theorem of_bays (hb : q.bays = p.bays) (ht : ∀ k ∈ p.todo, k ∈ q.todo) : p.Stays b q := by
  have hbay : q.bay b = p.bay b := congrArg (fun v : Vector BayUnit 8 => v[b]) hb
  have hlink : q.link b = p.link b := congrArg BayUnit.link hbay
  refine ⟨by rw [hbay], by rw [hbay], by rw [hlink], fun e he => ?_, ht⟩
  rwa [hlink] at he

theorem later (p : Part) (l : List Conseq) : p.Stays b (p.later l) := of_bays rfl fun _ hk => List.mem_append_left _ hk

theorem mapChan (p : Part) (c : Chan) (f : Channel → Channel) : p.Stays b (p.mapChan c f) := of_bays rfl fun _ hk => hk

theorem mapBay (p : Part) (f : BayUnit → BayUnit)
    (hf : ∀ u : BayUnit, (f u).presence = u.presence ∧ (f u).standby = u.standby ∧ (f u).link = u.link := by
      exact fun _ => ⟨rfl, rfl, rfl⟩) : p.Stays b (p.mapBay b f) := by
  obtain ⟨hpres, hstandby, hlink⟩ := hf (p.bay b)
  have hbay := Part.bay_mapBay p b f
  have hlink' : (p.mapBay b f).link b = p.link b := (congrArg BayUnit.link hbay).trans hlink
  refine ⟨(congrArg BayUnit.presence hbay).trans hpres, (congrArg BayUnit.standby hbay).trans hstandby, by rw [hlink'], fun e he => ?_,
    fun _ hk => hk⟩
  rwa [hlink'] at he

theorem mapCtx (p : Part) (x : Slot) (f : Ctx → Ctx) : p.Stays b (p.mapCtx b x f) := mapBay p (fun u => u.mapCtx x f)

theorem requestChan (p : Part) (x : Slot) : p.Stays b (p.requestChan b x) := by
  unfold Part.requestChan
  split
  · exact (mapChan p _ _).trans (mapCtx _ x _)
  · exact of_bays rfl fun _ hk => hk

theorem releaseBus (p : Part) : p.Stays b (p.releaseBus b) := by
  unfold Part.releaseBus
  split
  · split
    · exact mapBay p (fun u => { u with busHolder := none })
    · exact (((mapBay p (fun u => { u with busHolder := none, busQueue := _ })).trans
        (mapBay _ (fun u => { u with busHolder := some _ }))).trans (mapCtx _ _ _)).trans (requestChan _ _)
  · exact refl p

end Part.Stays

/-- Where the context of slot `x` does not hold the bus, the bus stays with its holder, and the other contexts of the bay stay. -/
def Part.OwnCtx (b : Bay) (x : Slot) (p q : Part) : Prop :=
  (p.bay b).busHolder ≠ some x → (q.bay b).busHolder = (p.bay b).busHolder ∧ ∀ y, y ≠ x → q.ctx b y = p.ctx b y

/-- What the leaving of one context makes of its bay. -/
structure Part.Removal (b : Bay) (x : Slot) (p q : Part) : Prop where
  stays : p.Stays b q
  own   : p.OwnCtx b x q

namespace Part.Removal

variable {b : Bay} {x : Slot} {p q r : Part}

theorem refl (p : Part) : p.Removal b x p := ⟨.refl p, fun _ => ⟨rfl, fun _ _ => rfl⟩⟩

theorem trans (h : p.Removal b x q) (k : q.Removal b x r) : p.Removal b x r := by
  refine ⟨h.stays.trans k.stays, fun hx => ?_⟩
  obtain ⟨hholder, hctx⟩ := h.own hx
  obtain ⟨hholder', hctx'⟩ := k.own (by rw [hholder]; exact hx)
  exact ⟨hholder'.trans hholder, fun y hy => (hctx' y hy).trans (hctx y hy)⟩

theorem of_bays (hb : q.bays = p.bays) (ht : ∀ k ∈ p.todo, k ∈ q.todo) : p.Removal b x q := by
  have hbay : q.bay b = p.bay b := congrArg (fun v : Vector BayUnit 8 => v[b]) hb
  exact ⟨.of_bays hb ht, fun _ => ⟨(congrArg BayUnit.busHolder hbay).trans rfl, fun y _ => (congrArg (fun u => BayUnit.ctx u y) hbay).trans rfl⟩⟩

theorem later (p : Part) (l : List Conseq) : p.Removal b x (p.later l) := of_bays rfl fun _ hk => List.mem_append_left _ hk

theorem mapChan (p : Part) (c : Chan) (f : Channel → Channel) : p.Removal b x (p.mapChan c f) := of_bays rfl fun _ hk => hk

theorem mapZone (p : Part) (z : ZoneNo) (f : Zone → Zone) : p.Removal b x (p.mapZone z f) := of_bays rfl fun _ hk => hk

theorem mapCtx (p : Part) (f : Ctx → Ctx) : p.Removal b x (p.mapCtx b x f) := by
  have hbay := Part.bay_mapBay p b (fun u => u.mapCtx x f)
  exact ⟨.mapCtx p x f, fun _ => ⟨(congrArg BayUnit.busHolder hbay).trans rfl, fun y hy => Part.ctx_mapCtx_other p b f (Ne.symm hy)⟩⟩

theorem mapWork (p : Part) (f : Work → Work) : p.Removal b x (p.mapWork b x f) := mapCtx p _

theorem withdrawEntries (p : Part) (f : Entry → Bool) : p.Removal b x (p.withdrawEntries b x f) := by
  have hbay := Part.bay_mapBay p b (fun u => { u with link := u.link.remove (fun e => e.who == p.requester b x && f e) })
  have hlink : (p.withdrawEntries b x f).link b = (p.link b).remove (fun e => e.who == p.requester b x && f e) :=
    Part.link_mapLink p b _
  refine ⟨⟨(congrArg BayUnit.presence hbay).trans rfl, (congrArg BayUnit.standby hbay).trans rfl, by rw [hlink]; rfl, fun e he => ?_, fun _ hk => hk⟩,
    fun _ => ⟨(congrArg BayUnit.busHolder hbay).trans rfl, fun y _ => Part.ctx_withdrawEntries p b x f b y⟩⟩
  rw [hlink, Link.mem_remove] at he
  exact he.1

theorem leaveZone (p : Part) : p.Removal b x (p.leaveZone b x) := by
  unfold Part.leaveZone
  dsimp only
  split
  · split
    · exact (mapZone p _ _).trans (later _ _)
    · exact mapZone p _ _
  · exact refl p

theorem leaveBusQueue (p : Part) : p.Removal b x (p.leaveBusQueue b x) := by
  have hbay := Part.bay_mapBay p b (fun u => { u with busQueue := u.busQueue.filter (fun e => e.slot != x) })
  exact ⟨.mapBay p _, fun _ => ⟨(congrArg BayUnit.busHolder hbay).trans rfl, fun y _ => Part.ctx_leaveBusQueue p b x b y⟩⟩

theorem leaveChanQueue (p : Part) : p.Removal b x (p.leaveChanQueue b x) := of_bays rfl fun _ hk => hk

theorem giveUpBus (p : Part) : p.Removal b x (p.giveUpBus b x) := by
  unfold Part.giveUpBus
  split
  next h => exact ⟨.releaseBus p, fun hx => absurd h hx⟩
  next => exact refl p

theorem dropChan (p : Part) (c : Chan) : p.Removal b x (p.dropChan c) := by
  unfold Part.dropChan
  dsimp only
  split
  · exact (mapChan p c _).trans (later _ _)
  · exact mapChan p c _

theorem openChan (p : Part) (c : Chan) : p.Removal b x (p.openChan c) := by
  unfold Part.openChan
  dsimp only
  split
  · exact later p _
  · exact refl p
  · exact mapChan p c _
  · split
    · exact mapChan p c _
    · exact (dropChan p c).trans (mapChan _ c _)

theorem abortChannel (p : Part) (c : Chan) : p.Removal b x (p.abortChannel c) := (dropChan p c).trans (openChan _ c)

theorem composeAbort (p : Part) : p.Removal b x (p.composeAbort b x) := by
  unfold Part.composeAbort
  dsimp only
  split
  · exact refl p
  · exact mapCtx p _

theorem leaveBehind (p : Part) (t : Option Stamp) : p.Removal b x (p.leaveBehind b x t) := mapCtx p _

theorem endAtBoundary (p : Part) (cause : Cause) : p.Removal b x (p.endAtBoundary b x cause) := (leaveZone p).trans (mapCtx _ _)

end Part.Removal

/-! ### The abort path before RECORD (R91, R92) -/

/-- A check aborted: spans, windows and watch stopped, its cause, number and moment kept. -/
def Work.aborted (w : Work) (cause : Cause) (number : Nat) (now : Stamp) : Work :=
  { w.stopped with aborting := some cause, number := number, stamp := some now, step := .idle, await := none }

/-- The number of the check of a context as an abort finds it (R93, R148). -/
def Part.abortNumber (p : Part) (b : Bay) (x : Slot) : Nat :=
  ((p.ctx b x).check.map (fun k => (p.ctx b x).abortNumber k p.free)).getD 0

/-- A check marked aborted, with its cause, number and moment. -/
def Part.abortMarked (p : Part) (b : Bay) (x : Slot) (cause : Cause) : Part :=
  { p with free := p.free + 1 }.mapWork b x (fun w => w.aborted cause (p.abortNumber b x) p.stamp)

/-- What an aborted check still has on its link, and in its zone, taken away. -/
def Part.abortCleared (p : Part) (b : Bay) (x : Slot) : Part :=
  ((p.withdrawEntries b x (fun e : Entry => e.purpose != Purpose.restore)).keepFlying b x).leaveZone b x

/-- The abort path up to where the phase decides. -/
def Part.abortStart (p : Part) (b : Bay) (x : Slot) (cause : Cause) : Part := (p.abortMarked b x cause).abortCleared b x

theorem Part.abortBefore_busWait {p : Part} {b : Bay} {x : Slot} (h : (p.ctx b x).phase = .busWait) (cause : Cause) :
    p.abortBefore b x cause = ((p.abortStart b x cause).leaveBusQueue b x).composeAbort b x := by
  unfold Part.abortBefore
  dsimp only
  rw [h]
  rfl

theorem Part.abortBefore_channelWait {p : Part} {b : Bay} {x : Slot} (h : (p.ctx b x).phase = .channelWait) (cause : Cause) :
    p.abortBefore b x cause = (((p.abortStart b x cause).leaveChanQueue b x).composeAbort b x).giveUpBus b x := by
  unfold Part.abortBefore
  dsimp only
  rw [h]
  rfl

theorem Part.abortBefore_plateauWait {p : Part} {b : Bay} {x : Slot} (h : (p.ctx b x).phase = .plateauWait) (cause : Cause) :
    p.abortBefore b x cause = (p.abortStart b x cause).composeAbort b x := by
  unfold Part.abortBefore
  dsimp only
  rw [h]
  rfl

/-- The abort path with a channel: it drops and opens, the check in RELEASE (R92). -/
def Part.abortOpening (p : Part) (b : Bay) (x : Slot) (k : Chan) : Part :=
  ((p.setPhase b x .release).mapWork b x (fun w => { w with release := .opening })).abortChannel k

theorem Part.abortBefore_channel {p : Part} {b : Bay} {x : Slot} {k : Chan} (h : (p.ctx b x).phase ∉ [Phase.busWait, .channelWait, .plateauWait])
    (cause : Cause) (hk : (p.abortStart b x cause).chanOf b x = some k) :
    p.abortBefore b x cause = (p.abortStart b x cause).abortOpening b x k := by
  unfold Part.abortBefore
  dsimp only
  cases hphase : (p.ctx b x).phase with
  | busWait | channelWait | plateauWait => exact absurd (hphase ▸ h) (by decide)
  | _ =>
    dsimp only
    split
    next heq => cases heq.symm.trans hk; rfl
    next heq => cases heq.symm.trans hk

theorem Part.abortBefore_none {p : Part} {b : Bay} {x : Slot} (h : (p.ctx b x).phase ∉ [Phase.busWait, .channelWait, .plateauWait])
    (cause : Cause) (hk : (p.abortStart b x cause).chanOf b x = none) :
    p.abortBefore b x cause = if (p.ctx b x).phase = .release ∧ (p.ctx b x).work.release = .restoring then
      (p.abortStart b x cause).later [.releaseGo b x] else (p.abortStart b x cause).composeAbort b x := by
  unfold Part.abortBefore
  dsimp only
  cases hphase : (p.ctx b x).phase with
  | busWait | channelWait | plateauWait => exact absurd (hphase ▸ h) (by decide)
  | _ =>
    dsimp only
    split
    next heq => cases heq.symm.trans hk
    next => rfl

end Sys2Proof.Machine
end

section
/-! What an abort makes of its context, its link and its channel (R91 to R93). -/

namespace Sys2Proof.Machine

/-! ### The abort path up to where the phase decides -/

theorem Part.leaveZone_kept (p : Part) (b : Bay) (x : Slot) : (p.leaveZone b x).chans = p.chans ∧ (p.leaveZone b x).bays = p.bays ∧
    (p.leaveZone b x).stamp = p.stamp := by
  unfold Part.leaveZone
  dsimp only
  split
  · split <;> exact ⟨rfl, rfl, rfl⟩
  · exact ⟨rfl, rfl, rfl⟩

/-- Behind the withdrawal of an abort the context has no entry left but those that restore (R92 step 2, R159). -/
theorem Part.withdrawn_entries (p : Part) (b : Bay) (x : Slot) :
    ∀ e ∈ ((p.withdrawEntries b x (fun e : Entry => e.purpose != Purpose.restore)).link b).queue ++
        ((p.withdrawEntries b x (fun e : Entry => e.purpose != Purpose.restore)).link b).line,
      e.who = p.requester b x → e.purpose = .restore := by
  have hlink : (p.withdrawEntries b x (fun e : Entry => e.purpose != Purpose.restore)).link b =
      (p.link b).remove (fun e => e.who == p.requester b x && e.purpose != .restore) := Part.link_mapLink p b _
  intro e he hwho
  rw [hlink, Link.mem_remove] at he
  obtain ⟨-, hkept⟩ := he
  simpa [hwho] using hkept

theorem Part.abortCleared_behind (p : Part) (b : Bay) (x : Slot) :
    (p.withdrawEntries b x (fun e : Entry => e.purpose != Purpose.restore)).Removal b x (p.abortCleared b x) :=
  (Removal.mapWork _ _).trans (Removal.leaveZone _)

theorem Part.abortCleared_removal (p : Part) (b : Bay) (x : Slot) : p.Removal b x (p.abortCleared b x) :=
  (Removal.withdrawEntries p _).trans (p.abortCleared_behind b x)

theorem Part.ctx_abortCleared (p : Part) (b : Bay) (x : Slot) : ∃ o, (p.abortCleared b x).ctx b x =
    (p.ctx b x).mapWork (fun w => { w with outstanding := o }) := by
  obtain ⟨o, ho⟩ := Part.ctx_keepFlying (p.withdrawEntries b x (fun e : Entry => e.purpose != Purpose.restore)) b x
  rw [Part.ctx_withdrawEntries] at ho
  unfold Part.abortCleared
  rw [Part.ctx_leaveZone]
  exact ⟨o, ho⟩

theorem Part.abortCleared_kept (p : Part) (b : Bay) (x : Slot) : (p.abortCleared b x).chans = p.chans ∧
    (p.abortCleared b x).stamp = p.stamp ∧ ((p.abortCleared b x).bay b).busQueue = (p.bay b).busQueue := by
  have hlink := Part.bay_mapBay p b (fun u => { u with link := u.link.remove (fun e =>
    e.who == p.requester b x && e.purpose != Purpose.restore) })
  generalize hq : p.withdrawEntries b x (fun e : Entry => e.purpose != Purpose.restore) = q
  have hqueue : (q.bay b).busQueue = (p.bay b).busQueue := by
    rw [← hq]
    exact (congrArg BayUnit.busQueue hlink).trans rfl
  have hchans : q.chans = p.chans := by rw [← hq]; rfl
  have hstamp : q.stamp = p.stamp := by rw [← hq]; rfl
  have hkeep : ((q.keepFlying b x).bay b).busQueue = (q.bay b).busQueue :=
    (congrArg BayUnit.busQueue (Part.bay_mapBay q b (fun u => u.mapCtx x _))).trans rfl
  obtain ⟨hchans', hbays, hstamp'⟩ := (q.keepFlying b x).leaveZone_kept b x
  unfold Part.abortCleared
  rw [hq]
  exact ⟨hchans'.trans hchans, hstamp'.trans hstamp,
    (congrArg (fun v : Vector BayUnit 8 => v[b].busQueue) hbays).trans (hkeep.trans hqueue)⟩

theorem Part.abortMarked_removal (p : Part) (b : Bay) (x : Slot) (cause : Cause) : p.Removal b x (p.abortMarked b x cause) := by
  have hfree : p.Removal b x { p with free := p.free + 1 } := .of_bays rfl fun _ h => h
  exact hfree.trans (.mapWork _ _)

theorem Part.ctx_abortMarked (p : Part) (b : Bay) (x : Slot) (cause : Cause) : (p.abortMarked b x cause).ctx b x =
    (p.ctx b x).mapWork (fun w => w.aborted cause (p.abortNumber b x) p.stamp) := Part.ctx_mapWork { p with free := p.free + 1 } b x _

theorem Part.abortMarked_kept (p : Part) (b : Bay) (x : Slot) (cause : Cause) : (p.abortMarked b x cause).chans = p.chans ∧
    (p.abortMarked b x cause).stamp = p.stamp ∧ ((p.abortMarked b x cause).bay b).busQueue = (p.bay b).busQueue :=
  ⟨rfl, rfl, (congrArg BayUnit.busQueue (Part.bay_mapBay { p with free := p.free + 1 } b (fun u => u.mapCtx x _))).trans rfl⟩

theorem Part.abortStart_removal (p : Part) (b : Bay) (x : Slot) (cause : Cause) : p.Removal b x (p.abortStart b x cause) :=
  (p.abortMarked_removal b x cause).trans ((p.abortMarked b x cause).abortCleared_removal b x)

theorem Part.ctx_abortStart (p : Part) (b : Bay) (x : Slot) (cause : Cause) : ∃ o, (p.abortStart b x cause).ctx b x =
    (p.ctx b x).mapWork (fun w => { w.aborted cause (p.abortNumber b x) p.stamp with outstanding := o }) := by
  obtain ⟨o, ho⟩ := (p.abortMarked b x cause).ctx_abortCleared b x
  rw [Part.ctx_abortMarked] at ho
  exact ⟨o, ho⟩

theorem Part.abortStart_kept (p : Part) (b : Bay) (x : Slot) (cause : Cause) : (p.abortStart b x cause).chans = p.chans ∧
    (p.abortStart b x cause).stamp = p.stamp ∧ ((p.abortStart b x cause).bay b).busQueue = (p.bay b).busQueue := by
  obtain ⟨hchans, hstamp, hqueue⟩ := (p.abortMarked b x cause).abortCleared_kept b x
  obtain ⟨hchans', hstamp', hqueue'⟩ := p.abortMarked_kept b x cause
  exact ⟨hchans.trans hchans', hstamp.trans hstamp', hqueue.trans hqueue'⟩

theorem Part.chan_of_chans {p q : Part} (h : q.chans = p.chans) (k : Chan) : q.chan k = p.chan k :=
  congrArg (fun v : Vector Channel 4 => v[k]) h

theorem Part.chanOf_of_chans {p q : Part} (h : q.chans = p.chans) (b : Bay) (x : Slot) : q.chanOf b x = p.chanOf b x := by
  unfold Part.chanOf Part.chan
  rw [h]

theorem Part.entries_abortStart (p : Part) (b : Bay) (x : Slot) (cause : Cause) :
    ∀ e ∈ ((p.abortStart b x cause).link b).queue ++ ((p.abortStart b x cause).link b).line,
      e.who = p.requester b x → e.purpose = .restore := by
  intro e he hwho
  have hq : (p.abortMarked b x cause).requester b x = p.requester b x := by
    unfold Part.requester
    rw [Part.ctx_abortMarked]
    rfl
  exact Part.withdrawn_entries _ b x e (((p.abortMarked b x cause).abortCleared_behind b x).stays.entries e he)
    (hwho.trans hq.symm)

/-! ### The records of an abort -/

theorem Part.ctx_composeAbort_some {p : Part} {b : Bay} {x : Slot} {cause : Cause} (h : (p.ctx b x).work.aborting = some cause) :
    (p.composeAbort b x).ctx b x = { p.ctx b x with
      phase := .record, exit := if (p.ctx b x).exit = .leaving then .leaving else .ending
      out := (p.ctx b x).owedRecords ++ ((p.ctx b x).abortRecords b x cause p.stamp).map OutItem.record ++
        [OutItem.verdict .incomplete (some cause)] ++
        (if (p.ctx b x).exit = .leaving then
          (p.ctx b x).fellAt.toList.map (fun t => OutItem.record ((p.ctx b x).presenceRecord b x .removed none t)) ++
            [OutItem.becomeAbsent] else []) } := by
  unfold Part.composeAbort
  dsimp only
  rw [h]
  exact Part.ctx_mapCtx p b x _

/-- The records of a check aborted before RECORD (R93, R148). -/
def Ctx.AbortedAs (c : Ctx) (k : Check) (l : List OutItem) : Prop :=
  ∃ v, l = (if k.isDerate then [] else c.work.passes.map OutItem.record) ++ [.record v] ∧
    v.kind = k.recordKind ∧ v.outcome = .aborted ∧ v.last = true ∧ v.limits = ⟨none, none, none⟩ ∧ v.value1 = none ∧
    v.value2 = none ∧ v.value3 = none ∧ v.capture = c.work.capture ∧ v.adm = c.adm.getD 0 ∧ v.checkIndex = some c.checkIndex

theorem Ctx.abortRecords_abortedAs {c : Ctx} {k : Check} (h : c.check = some k) (b : Bay) (x : Slot) (cause : Cause) (now : Stamp) :
    c.AbortedAs k ((c.abortRecords b x cause now).map OutItem.record) ∧
      ∀ v, OutItem.record v ∈ ((c.abortRecords b x cause now).map OutItem.record).getLast? →
        v.cause = some cause ∧ v.stamp = c.work.stamp.getD now ∧ v.number = c.work.number := by
  unfold Ctx.abortRecords
  rw [h]
  dsimp only
  refine ⟨⟨{ c.ofCheck b x k.recordKind (c.work.stamp.getD now) with
    number := c.work.number, outcome := .aborted, cause := some cause, capture := c.work.capture, last := true }, ?_, rfl, rfl, rfl, rfl,
      rfl, rfl, rfl, rfl, rfl, rfl⟩, fun v hv => ?_⟩
  · split <;> simp
  · rw [List.map_append, List.map_singleton, List.getLast?_append_of_ne_nil _ (List.cons_ne_nil _ _)] at hv
    obtain rfl := OutItem.record.inj (Option.some.inj hv)
    exact ⟨rfl, rfl, rfl⟩

/-! ### A bus given up -/

theorem Part.ctx_requestChan_phase (p : Part) (b : Bay) (s x : Slot) :
    ∃ f, (p.requestChan b s).ctx b x = { p.ctx b x with phase := f } ∧ (s ≠ x → f = (p.ctx b x).phase) := by
  cases h : p.freeChan with
  | none =>
    rw [Part.requestChan_none h]
    exact ⟨_, rfl, fun _ => rfl⟩
  | some k =>
    rw [Part.requestChan_some h]
    by_cases hs : s = x
    · subst hs
      exact ⟨_, Part.ctx_grantChan p b s k, fun hne => absurd rfl hne⟩
    · exact ⟨_, Part.ctx_mapCtx_other (p.mapChan k _) b _ hs, fun _ => rfl⟩

theorem Part.ctx_grantBus_phase (p : Part) (b : Bay) (s x : Slot) :
    ∃ f, (p.grantBus b s).ctx b x = { p.ctx b x with phase := f } ∧ (s ≠ x → f = (p.ctx b x).phase) := by
  obtain ⟨f, heq, hsame⟩ := Part.ctx_requestChan_phase (p.granting b s) b s x
  by_cases hs : s = x
  · subst hs
    rw [Part.ctx_granting] at heq
    exact ⟨f, heq, fun hne => absurd rfl hne⟩
  · have hgrant : (p.granting b s).ctx b x = p.ctx b x :=
      (Part.ctx_mapCtx_other _ b _ hs).trans (Part.ctx_mapBay_ctxs p b (fun u => { u with busHolder := some s }) rfl b x)
    rw [hgrant] at heq hsame
    exact ⟨f, heq, hsame⟩

/-- A bus given up changes no more of a context than its phase, and nothing of one that does not wait for it. -/
theorem Part.ctx_giveUpBus_phase (p : Part) (b : Bay) (s x : Slot) :
    ∃ f, (p.giveUpBus b s).ctx b x = { p.ctx b x with phase := f } ∧
      ((∀ e ∈ (p.bay b).busQueue, e.slot ≠ x) → f = (p.ctx b x).phase) := by
  unfold Part.giveUpBus Part.releaseBus
  split
  · split
    · split
      next => exact ⟨_, Part.ctx_mapBay_ctxs p b (fun u => { u with busHolder := none }) rfl b x, fun _ => rfl⟩
      next e l hqueue =>
        obtain ⟨f, heq, hsame⟩ := Part.ctx_grantBus_phase
          (p.mapBay b (fun u => { u with busHolder := none, busQueue := l })) b e.slot x
        rw [Part.ctx_mapBay_ctxs p b (fun u => { u with busHolder := none, busQueue := l }) rfl] at heq hsame
        exact ⟨f, heq, fun h => hsame (h e (by rw [hqueue]; exact List.mem_cons_self))⟩
    · exact ⟨_, rfl, fun _ => rfl⟩
  · exact ⟨_, rfl, fun _ => rfl⟩

/-! ### The whole abort path before RECORD -/

theorem Part.abortOpening_removal (p : Part) (b : Bay) (x : Slot) (k : Chan) : p.Removal b x (p.abortOpening b x k) :=
  ((Removal.mapCtx p _).trans (Removal.mapWork _ _)).trans (Removal.abortChannel _ k)

/-- The phases in which a check waits, with neither bus nor channel to unwind. -/
def Phase.waits (f : Phase) : Prop := f ∈ [Phase.busWait, .channelWait, .plateauWait]

/-- How the abort path goes on, by the phase that the check was found in (R92). -/
theorem Part.abortBefore_cases (p : Part) (b : Bay) (x : Slot) (cause : Cause) :
    ((p.ctx b x).phase.waits ∧ ∃ q, (q = (p.abortStart b x cause).leaveBusQueue b x ∨ q = p.abortStart b x cause) ∧
        p.abortBefore b x cause = q.composeAbort b x) ∨
      ((p.ctx b x).phase = .channelWait ∧
        p.abortBefore b x cause = (((p.abortStart b x cause).leaveChanQueue b x).composeAbort b x).giveUpBus b x) ∨
      (¬ (p.ctx b x).phase.waits ∧
        ((∃ k, p.chanOf b x = some k ∧ p.abortBefore b x cause = (p.abortStart b x cause).abortOpening b x k) ∨
          (p.chanOf b x = none ∧ p.abortBefore b x cause =
            if (p.ctx b x).phase = .release ∧ (p.ctx b x).work.release = .restoring then
              (p.abortStart b x cause).later [.releaseGo b x] else (p.abortStart b x cause).composeAbort b x))) := by
  by_cases hbus : (p.ctx b x).phase = .busWait
  · exact .inl ⟨by rw [hbus]; exact List.mem_cons_self, _, .inl rfl, Part.abortBefore_busWait hbus cause⟩
  by_cases hchan : (p.ctx b x).phase = .channelWait
  · exact .inr (.inl ⟨hchan, Part.abortBefore_channelWait hchan cause⟩)
  by_cases hplateau : (p.ctx b x).phase = .plateauWait
  · exact .inl ⟨by rw [hplateau]; exact List.mem_of_getLast? rfl, _, .inr rfl, Part.abortBefore_plateauWait hplateau cause⟩
  have hwaits : (p.ctx b x).phase ∉ [Phase.busWait, .channelWait, .plateauWait] := by simp [hbus, hchan, hplateau]
  refine .inr (.inr ⟨hwaits, ?_⟩)
  cases hk : p.chanOf b x with
  | some k => exact .inl ⟨k, rfl, Part.abortBefore_channel hwaits cause (by rw [Part.chanOf_of_chans (p.abortStart_kept b x cause).1]; exact hk)⟩
  | none => exact .inr ⟨rfl, Part.abortBefore_none hwaits cause (by rw [Part.chanOf_of_chans (p.abortStart_kept b x cause).1]; exact hk)⟩

/-- Everything behind the start of an abort leaves its bay as the leaving of one context may. -/
theorem Part.abortBefore_goesOn (p : Part) (b : Bay) (x : Slot) (cause : Cause) :
    (p.abortStart b x cause).Removal b x (p.abortBefore b x cause) := by
  rcases p.abortBefore_cases b x cause with ⟨-, q, hq, heq⟩ | ⟨-, heq⟩ | ⟨-, ⟨k, -, heq⟩ | ⟨-, heq⟩⟩
  · rw [heq]
    rcases hq with rfl | rfl
    · exact (Removal.leaveBusQueue _).trans (Removal.composeAbort _)
    · exact Removal.composeAbort _
  · rw [heq]
    exact ((Removal.leaveChanQueue _).trans (Removal.composeAbort _)).trans (Removal.giveUpBus _)
  · rw [heq]
    exact Part.abortOpening_removal _ b x k
  · rw [heq]
    split
    · exact Removal.later _ _
    · exact Removal.composeAbort _

theorem Part.abortBefore_removal (p : Part) (b : Bay) (x : Slot) (cause : Cause) : p.Removal b x (p.abortBefore b x cause) :=
  (p.abortStart_removal b x cause).trans (p.abortBefore_goesOn b x cause)

theorem Part.entries_abortBefore (p : Part) (b : Bay) (x : Slot) (cause : Cause) :
    ∀ e ∈ ((p.abortBefore b x cause).link b).queue ++ ((p.abortBefore b x cause).link b).line,
      e.who = p.requester b x → e.purpose = .restore :=
  fun e he => p.entries_abortStart b x cause e ((p.abortBefore_goesOn b x cause).stays.entries e he)

/-- A context that leaves, aborted: its exit stands, its cause is kept, and nothing of its check runs on. -/
structure Ctx.AbortedWith (c : Ctx) (cause : Cause) : Prop where
  exit     : c.exit = .leaving
  aborting : c.work.aborting = some cause
  span     : c.work.span = none
  meas     : c.work.meas = none
  watch    : c.work.watch = none

theorem Ctx.AbortedWith.phase {c : Ctx} {cause : Cause} (h : c.AbortedWith cause) (f : Phase) : { c with phase := f }.AbortedWith cause :=
  ⟨h.exit, h.aborting, h.span, h.meas, h.watch⟩

theorem Part.composeAbort_abortedWith {p : Part} {b : Bay} {x : Slot} {cause : Cause} (h : (p.ctx b x).AbortedWith cause) :
    ((p.composeAbort b x).ctx b x).AbortedWith cause := by
  obtain ⟨hexit, haborting, hspan, hmeas, hwatch⟩ := h
  rw [Part.ctx_composeAbort_some haborting]
  exact ⟨if_pos hexit, haborting, hspan, hmeas, hwatch⟩

theorem Part.ctx_abortOpening (p : Part) (b : Bay) (x : Slot) (k : Chan) : (p.abortOpening b x k).ctx b x =
    { p.ctx b x with phase := .release, work := { (p.ctx b x).work with release := .opening } } := by
  unfold Part.abortOpening
  rw [Part.ctx_abortChannel, Part.ctx_mapWork, Part.ctx_setPhase]
  rfl

theorem Part.abortStart_abortedWith {p : Part} {b : Bay} {x : Slot} (h : (p.ctx b x).exit = .leaving) (cause : Cause) :
    ((p.abortStart b x cause).ctx b x).AbortedWith cause := by
  obtain ⟨o, heq⟩ := p.ctx_abortStart b x cause
  rw [heq]
  exact ⟨h, rfl, rfl, rfl, rfl⟩

theorem Part.abortBefore_abortedWith {p : Part} {b : Bay} {x : Slot} (h : (p.ctx b x).exit = .leaving) (cause : Cause) :
    ((p.abortBefore b x cause).ctx b x).AbortedWith cause := by
  have hstart := Part.abortStart_abortedWith h cause
  rcases p.abortBefore_cases b x cause with ⟨-, q, hq, heq⟩ | ⟨-, heq⟩ | ⟨-, ⟨k, -, heq⟩ | ⟨-, heq⟩⟩
  · rw [heq]
    refine Part.composeAbort_abortedWith ?_
    rcases hq with rfl | rfl
    · rw [Part.ctx_leaveBusQueue]
      exact hstart
    · exact hstart
  · rw [heq]
    have hcomposed := Part.composeAbort_abortedWith (p := (p.abortStart b x cause).leaveChanQueue b x)
      (by rw [Part.ctx_leaveChanQueue]; exact hstart)
    obtain ⟨f, hctx, -⟩ := Part.ctx_giveUpBus_phase (((p.abortStart b x cause).leaveChanQueue b x).composeAbort b x) b x x
    rw [hctx]
    exact hcomposed.phase f
  · rw [heq, Part.ctx_abortOpening]
    exact ⟨hstart.exit, hstart.aborting, hstart.span, hstart.meas, hstart.watch⟩
  · rw [heq]
    split
    · exact hstart
    · exact Part.composeAbort_abortedWith hstart

/-! ### The records of a check aborted where it waits -/

/-- What a context that falls within its check owes, once the abort's records are composed (R6, R93). -/
structure Ctx.ComposedAs (c : Ctx) (b : Bay) (x : Slot) (k : Check) (cause : Cause) (number : Nat) (now t : Stamp) (d : Ctx) : Prop where
  phase : d.phase = .record
  out   : ∃ l, c.AbortedAs k l ∧ d.out = c.owedRecords ++ l ++
      [.verdict .incomplete (some cause), .record (c.presenceRecord b x .removed none t), .becomeAbsent] ∧
    ∀ v, OutItem.record v ∈ l.getLast? → v.cause = some cause ∧ v.stamp = now ∧ v.number = number

theorem Part.composeAbort_left {p : Part} {b : Bay} {x : Slot} {k : Check} {cause : Cause} {t : Stamp}
    (h : (p.ctx b x).AbortedWith cause) (hcheck : (p.ctx b x).check = some k) (hfell : (p.ctx b x).fellAt = some t) :
    (p.ctx b x).ComposedAs b x k cause (p.ctx b x).work.number ((p.ctx b x).work.stamp.getD p.stamp) t
      ((p.composeAbort b x).ctx b x) := by
  obtain ⟨hrecords, hlast⟩ := Ctx.abortRecords_abortedAs hcheck b x cause p.stamp
  rw [Part.ctx_composeAbort_some h.aborting]
  refine ⟨rfl, _, hrecords, ?_, hlast⟩
  dsimp only
  rw [if_pos h.exit, hfell]
  simp

/-- A check aborted owes what it would have owed without the marks of the abort. -/
theorem Ctx.ComposedAs.of_aborted {c d : Ctx} {b : Bay} {x : Slot} {k : Check} {cause cause' : Cause} {n m : Nat} {o : List Nat}
    {now t u : Stamp}
    (h : (c.mapWork (fun w => { w.aborted cause' n u with outstanding := o })).ComposedAs b x k cause m now t d) :
    c.ComposedAs b x k cause m now t d := ⟨h.phase, h.out⟩

/-- The composing of an abort behind its start, whatever queue the context has left meanwhile. -/
theorem Part.composeAbort_started {p q : Part} {b : Bay} {x : Slot} {k : Check} {cause : Cause} {t : Stamp}
    (hexit : (p.ctx b x).exit = .leaving) (hfell : (p.ctx b x).fellAt = some t) (hcheck : (p.ctx b x).check = some k)
    (hq : q.ctx b x = (p.abortStart b x cause).ctx b x) :
    (p.ctx b x).ComposedAs b x k cause (p.abortNumber b x) p.stamp t ((q.composeAbort b x).ctx b x) := by
  obtain ⟨o, hctx⟩ := p.ctx_abortStart b x cause
  have h := Part.composeAbort_left (p := q) (k := k) (t := t) (by rw [hq]; exact Part.abortStart_abortedWith hexit cause)
    (by rw [hq, hctx]; exact hcheck) (by rw [hq, hctx]; exact hfell)
  rw [hq, hctx] at h
  exact h.of_aborted

theorem Ctx.ComposedAs.at_phase {c d : Ctx} {b : Bay} {x : Slot} {k : Check} {cause : Cause} {n : Nat} {now t : Stamp} {f : Phase}
    (h : c.ComposedAs b x k cause n now t d) (hf : f = d.phase) : c.ComposedAs b x k cause n now t { d with phase := f } :=
  ⟨hf.trans h.phase, h.out⟩

theorem Part.busQueue_composeAbort (p : Part) (b : Bay) (x : Slot) :
    ((p.composeAbort b x).bay b).busQueue = (p.bay b).busQueue := by
  unfold Part.composeAbort
  dsimp only
  split
  · rfl
  · exact (congrArg BayUnit.busQueue (Part.bay_mapBay p b (fun u => u.mapCtx x _))).trans rfl

theorem Part.abortBefore_waits {p : Part} {b : Bay} {x : Slot} {k : Check} {t : Stamp} (hexit : (p.ctx b x).exit = .leaving)
    (hfell : (p.ctx b x).fellAt = some t) (hcheck : (p.ctx b x).check = some k) (hwaits : (p.ctx b x).phase.waits)
    (hqueue : (p.ctx b x).phase = .channelWait → ∀ e ∈ (p.bay b).busQueue, e.slot ≠ x) (cause : Cause) :
    (p.ctx b x).ComposedAs b x k cause (p.abortNumber b x) p.stamp t ((p.abortBefore b x cause).ctx b x) := by
  rcases p.abortBefore_cases b x cause with ⟨-, q, hq, heq⟩ | ⟨hphase, heq⟩ | ⟨hnot, -⟩
  · rw [heq]
    refine Part.composeAbort_started hexit hfell hcheck ?_
    rcases hq with rfl | rfl
    · exact Part.ctx_leaveBusQueue _ b x b x
    · rfl
  · have hbus : ((p.abortStart b x cause).bay b).busQueue = (p.bay b).busQueue := (p.abortStart_kept b x cause).2.2
    rw [heq]
    have hleft : ((p.abortStart b x cause).leaveChanQueue b x).ctx b x = (p.abortStart b x cause).ctx b x :=
      Part.ctx_leaveChanQueue _ b x b x
    have hbus' : (((p.abortStart b x cause).leaveChanQueue b x).bay b).busQueue = (p.bay b).busQueue := hbus
    generalize (p.abortStart b x cause).leaveChanQueue b x = q at hleft hbus'
    obtain ⟨f, hgiven, hsame⟩ := Part.ctx_giveUpBus_phase (q.composeAbort b x) b x x
    rw [hgiven]
    exact (Part.composeAbort_started hexit hfell hcheck hleft).at_phase
      (hsame (by rw [Part.busQueue_composeAbort, hbus']; exact hqueue hphase))
  · exact absurd hwaits hnot

/-- The number of a check that waits, as an abort finds it (R93, R148). -/
theorem Part.abortNumber_eq {p : Part} {b : Bay} {x : Slot} {k : Check} (hcheck : (p.ctx b x).check = some k)
    (hphase : (p.ctx b x).phase ≠ .release) :
    (∀ o, k.body = .steady o → p.abortNumber b x = (p.ctx b x).work.passes.length + 1) ∧
      (∀ o, k.body = .derate o → p.abortNumber b x = (p.ctx b x).derate.plateau) ∧
      ((∀ o, k.body ≠ .steady o) → (∀ o, k.body ≠ .derate o) → p.abortNumber b x = 1) := by
  unfold Part.abortNumber Ctx.abortNumber
  rw [hcheck]
  refine ⟨fun o ho => ?_, fun o ho => ?_, fun hsteady hderate => ?_⟩
  · rw [Option.map_some, ho]
    exact if_neg fun h => hphase h.2
  · rw [Option.map_some, ho]
    rfl
  · rw [Option.map_some]
    cases hbody : k.body with
    | steady o => exact absurd hbody (hsteady o)
    | derate o => exact absurd hbody (hderate o)
    | _ => rfl

/-! ### A channel that drops and opens -/

/-- A drop leaves the relays, and the setpoint of a quiet channel is 0 behind it (R113, R116). -/
theorem Channel.drop_leaves (c : Channel) : c.drop.relay = c.relay ∧ (c.Quiet → c.drop.setpoint = 0) := by
  unfold Channel.drop Channel.Quiet
  cases hrelay : c.relay with
  | closed | closing => exact ⟨rfl, fun _ => rfl⟩
  | opened => exact ⟨hrelay, fun h => h.resolve_left nofun⟩
  | opening => exact ⟨rfl, fun h => h.resolve_left nofun⟩

/-- The channel behind an open request that finds its setpoint at 0 or its relays not CLOSED (R117). -/
theorem Part.chan_openChan_same (p : Part) (c : Chan) (h : (p.chan c).relay = .closed → (p.chan c).setpoint = 0) :
    ((p.openChan c).chan c).relay ≠ .closed ∧ ((p.openChan c).chan c).setpoint = (p.chan c).setpoint := by
  unfold Part.openChan
  dsimp only
  cases hrelay : (p.chan c).relay with
  | opened => exact ⟨fun hc => Relay.noConfusion (hrelay.symm.trans hc), rfl⟩
  | opening => exact ⟨fun hc => Relay.noConfusion (hrelay.symm.trans hc), rfl⟩
  | closing =>
    dsimp only
    rw [Part.chan_mapChan]
    exact ⟨fun hc => Relay.noConfusion (hrelay.symm.trans hc), rfl⟩
  | closed =>
    dsimp only
    rw [if_pos (h hrelay), Part.chan_mapChan]
    exact ⟨nofun, rfl⟩

theorem Part.chan_abortChannel (p : Part) (c : Chan) : ((p.abortChannel c).chan c).relay ≠ .closed ∧
    ((p.chan c).Quiet → ((p.abortChannel c).chan c).setpoint = 0) := by
  obtain ⟨hrelay, hquiet⟩ := (p.chan c).drop_leaves
  have hdrop := p.chan_dropChan c
  obtain ⟨hopen, hsetpoint⟩ := (p.dropChan c).chan_openChan_same c fun h => by
    rw [hdrop] at h ⊢
    exact hquiet (.inl (hrelay.symm.trans h))
  exact ⟨hopen, fun hq => hsetpoint.trans (by rw [hdrop]; exact hquiet hq)⟩

end Sys2Proof.Machine
end

section
/-! A filtered fall (R4, R6, R24, R89, R91 to R93, R160). -/

namespace Sys2Proof.Machine

/-! ### The fall of a context (R6) -/

/-- A context that leaves behind what it still owes. -/
def Ctx.leaves (c : Ctx) (l : List OutItem) : Ctx := { c with exit := .leaving, out := c.out ++ l }

theorem Part.ctx_leaveBehind_fall (p : Part) (b : Bay) (x : Slot) (t : Stamp) : (p.leaveBehind b x (some t)).ctx b x =
    (p.ctx b x).leaves [.record ((p.ctx b x).presenceRecord b x .removed none t), .becomeAbsent] := Part.ctx_mapCtx p b x _

theorem Part.abort_removal (p : Part) (b : Bay) (x : Slot) (cause : Cause) : p.Removal b x (p.abort b x cause) := by
  unfold Part.abort
  dsimp only
  split
  · exact .refl p
  · split
    · exact ((Removal.withdrawEntries p _).trans (.leaveZone _)).trans (.mapCtx _ _)
    · exact p.abortBefore_removal b x cause

theorem Part.removeCtx_removal (p : Part) (b : Bay) (x : Slot) (cause : Cause) (t : Stamp) :
    p.Removal b x (p.removeCtx b x cause (some t)) := by
  unfold Part.removeCtx
  dsimp only
  split
  · exact .refl p
  · split
    · exact .leaveBehind p _
    · split
      · exact (Removal.withdrawEntries p _).trans (.leaveBehind _ _)
      · exact (Removal.endAtBoundary p cause).trans (.leaveBehind _ _)
      · exact (Removal.endAtBoundary p cause).trans (.leaveBehind _ _)
      · split
        · exact ((Removal.withdrawEntries p _).trans (.mapCtx _ _)).trans (.leaveBehind _ _)
        · split
          · exact (Removal.endAtBoundary p cause).trans (.leaveBehind _ _)
          · split
            · exact (p.abort_removal b x cause).trans (.leaveBehind _ _)
            · exact (Removal.mapCtx p _).trans (Part.abort_removal _ b x cause)
      · exact .leaveBehind p _

theorem Part.removeCtx_absent {p : Part} {b : Bay} {x : Slot} (h : (p.ctx b x).state = .absent) (cause : Cause) (t : Option Stamp) :
    p.removeCtx b x cause t = p := if_pos (by rw [h]; rfl)

theorem Part.ctx_removeCtx_identifying {p : Part} {b : Bay} {x : Slot} (hstate : (p.ctx b x).state = .identifying)
    (hexit : (p.ctx b x).exit = .stay) (cause : Cause) (t : Stamp) : (p.removeCtx b x cause (some t)).ctx b x =
      (p.ctx b x).leaves [.record ((p.ctx b x).presenceRecord b x .removed none t), .becomeAbsent] := by
  unfold Part.removeCtx
  dsimp only
  rw [if_neg (by simp [hstate, hexit]), if_neg (by simp [hexit]), hstate]
  dsimp only
  rw [Part.ctx_leaveBehind_fall, Part.ctx_withdrawEntries]

/-- A fall ends the plan of a context that is at no check (R6, R22). -/
theorem Part.ctx_removeCtx_ends {p : Part} {b : Bay} {x : Slot} (hexit : (p.ctx b x).exit = .stay)
    (h : (p.ctx b x).state = .planned ∨ (p.ctx b x).state = .paused ∨ (p.ctx b x).atBoundary = true ∨ (p.ctx b x).atPlateau = true ∨
      (p.ctx b x).stopping = true) (cause : Cause) (t : Stamp) : (p.removeCtx b x cause (some t)).ctx b x =
      (p.ctx b x).leaves [.verdict .incomplete (some cause), .record ((p.ctx b x).presenceRecord b x .removed none t),
          .becomeAbsent] := by
  have hleft : ∀ q : Part, q.ctx b x = p.ctx b x → ((q.endWith b x .incomplete (some cause)).leaveBehind b x (some t)).ctx b x =
      (p.ctx b x).leaves [.verdict .incomplete (some cause), .record ((p.ctx b x).presenceRecord b x .removed none t),
          .becomeAbsent] := fun q hq => by
    rw [Part.ctx_leaveBehind_fall]
    unfold Part.endWith
    rw [Part.ctx_mapCtx, hq]
    unfold Ctx.leaves
    dsimp only
    rw [List.append_assoc]
    rfl
  have hzone := hleft (p.leaveZone b x) (Part.ctx_leaveZone p b x b x)
  have hown := hleft (p.withdrawEntries b x (fun e => e.purpose == .own && e.kind == .outputOff))
    (Part.ctx_withdrawEntries p b x _ b x)
  have hstate : (p.ctx b x).state = .planned ∨ (p.ctx b x).state = .paused ∨ (p.ctx b x).state = .running := by
    rcases h with h | h | h | h | h
    · exact .inl h
    · exact .inr (.inl h)
    · exact .inr (.inr (Ctx.atBoundary_iff.mp h).1)
    · exact .inr (.inr (Ctx.atPlateau_iff.mp h).1)
    · exact .inr (.inr (Ctx.stopping_iff.mp h).1)
  unfold Part.removeCtx
  dsimp only
  rw [if_neg (by rcases hstate with hs | hs | hs <;> simp [hs, hexit]), if_neg (by simp [hexit])]
  rcases hstate with hs | hs | hs
  · rw [hs]
    exact hzone
  · rw [hs]
    exact hzone
  · by_cases hstop : (p.ctx b x).stopping = true
    · rw [if_pos hstop, hs]
      exact hown
    · have hbound : ((p.ctx b x).atBoundary || (p.ctx b x).atPlateau) = true := by
        rcases h with h | h | h | h | h
        · exact absurd (h.symm.trans hs) nofun
        · exact absurd (h.symm.trans hs) nofun
        · rw [h, Bool.true_or]
        · rw [h, Bool.or_true]
        · exact absurd h hstop
      rw [if_neg hstop, if_pos hbound, hs]
      exact hzone

theorem Part.ctx_removeCtx_silent {p : Part} {b : Bay} {x : Slot}
    (h : (p.ctx b x).state = .unplanned ∧ (p.ctx b x).exit = .stay ∨ (p.ctx b x).state = .ended ∧ (p.ctx b x).exit ≠ .leaving)
    (cause : Cause) (t : Stamp) : (p.removeCtx b x cause (some t)).ctx b x =
      (p.ctx b x).leaves [.record ((p.ctx b x).presenceRecord b x .removed none t), .becomeAbsent] := by
  have hleft := p.ctx_leaveBehind_fall b x t
  unfold Part.removeCtx
  dsimp only
  rcases h with ⟨hs, hexit⟩ | ⟨hs, hexit⟩
  · rw [if_neg (by simp [hs, hexit]), if_neg (by simp [hexit])]
    rw [hs]
    exact hleft
  · rw [if_neg (by simp [hs, hexit]), if_neg (by simp [hs])]
    rw [hs]
    exact hleft

/-- A fall within a check, in RECORD. -/
theorem Part.removeCtx_record {p : Part} {b : Bay} {x : Slot} (hin : (p.ctx b x).inCheck = true)
    (haborting : (p.ctx b x).work.aborting = none) (hphase : (p.ctx b x).phase = .record) (cause : Cause) (t : Stamp) :
    p.removeCtx b x cause (some t) = (p.abortInRecord b x cause).leaveBehind b x (some t) := by
  obtain ⟨hs, hnone, hplateau, hexit⟩ := Ctx.inCheck_iff.mp hin
  unfold Part.removeCtx
  dsimp only
  rw [if_neg (by simp [hs, hexit]), if_neg (by simp [hexit]), hs]
  dsimp only
  rw [if_neg fun h => hnone (Ctx.stopping_iff.mp h).2.1,
    if_neg (by rw [hplateau, Bool.or_false]; exact fun h => hnone (Ctx.atBoundary_iff.mp h).2.1), if_pos hphase]
  unfold Part.abort
  dsimp only
  rw [if_neg (by rw [haborting]; exact nofun), if_pos hphase]

/-- The part whose context has fallen within a check, before the abort. -/
def Part.fellWithin (p : Part) (b : Bay) (x : Slot) (t : Stamp) : Part :=
  p.mapCtx b x (fun c => { c with exit := .leaving, fellAt := some t })

theorem Part.ctx_fellWithin (p : Part) (b : Bay) (x : Slot) (t : Stamp) : (p.fellWithin b x t).ctx b x =
    { p.ctx b x with exit := .leaving, fellAt := some t } := Part.ctx_mapCtx p b x _

/-- A fall within a check, before RECORD. -/
theorem Part.removeCtx_before {p : Part} {b : Bay} {x : Slot} (hin : (p.ctx b x).inCheck = true)
    (haborting : (p.ctx b x).work.aborting = none) (hphase : (p.ctx b x).phase ≠ .record) (cause : Cause) (t : Stamp) :
    p.removeCtx b x cause (some t) = (p.fellWithin b x t).abortBefore b x cause := by
  obtain ⟨hs, hnone, hplateau, hexit⟩ := Ctx.inCheck_iff.mp hin
  have hctx := p.ctx_fellWithin b x t
  unfold Part.removeCtx
  dsimp only
  rw [if_neg (by simp [hs, hexit]), if_neg (by simp [hexit]), hs]
  dsimp only
  rw [if_neg fun h => hnone (Ctx.stopping_iff.mp h).2.1,
    if_neg (by rw [hplateau, Bool.or_false]; exact fun h => hnone (Ctx.atBoundary_iff.mp h).2.1), if_neg hphase]
  change (p.fellWithin b x t).abort b x cause = _
  unfold Part.abort
  dsimp only
  rw [hctx, if_neg (by rw [show (Ctx.work _).aborting = (p.ctx b x).work.aborting from rfl, haborting]; exact nofun), if_neg hphase]

theorem Part.ctx_abortInRecord (p : Part) (b : Bay) (x : Slot) (cause : Cause) : (p.abortInRecord b x cause).ctx b x =
    { p.ctx b x with
      exit := .ending, out := (p.ctx b x).owedRecords ++ [OutItem.verdict .incomplete (some cause)]
      work := { (p.ctx b x).work with aborting := some cause } } := by
  unfold Part.abortInRecord
  rw [Part.ctx_mapCtx, Part.ctx_leaveZone, Part.ctx_withdrawEntries]
  rfl

theorem Part.entries_abortInRecord (p : Part) (b : Bay) (x : Slot) (cause : Cause) (t : Option Stamp) :
    ∀ e ∈ (((p.abortInRecord b x cause).leaveBehind b x t).link b).queue ++
        (((p.abortInRecord b x cause).leaveBehind b x t).link b).line, e.who = p.requester b x → e.purpose = .restore :=
  fun e he => p.withdrawn_entries b x e ((((Removal.leaveZone _).trans (.mapCtx _ _)).trans
    (.leaveBehind _ t) : Part.Removal b x _ ((p.abortInRecord b x cause).leaveBehind b x t)).stays.entries e he)

/-- A fall within a check: the abort path with the cause of the fall, and the context leaving (R6, R91). -/
theorem Part.removeCtx_inCheck {p : Part} {b : Bay} {x : Slot} (hin : (p.ctx b x).inCheck = true)
    (haborting : (p.ctx b x).work.aborting = none) (cause : Cause) (t : Stamp) :
    ((p.removeCtx b x cause (some t)).ctx b x).exit = .leaving ∧
      ((p.removeCtx b x cause (some t)).ctx b x).work.aborting = some cause ∧
      (∀ e ∈ ((p.removeCtx b x cause (some t)).link b).queue ++ ((p.removeCtx b x cause (some t)).link b).line,
        e.who = p.requester b x → e.purpose = .restore) ∧
      ((p.ctx b x).phase ≠ .record → ((p.removeCtx b x cause (some t)).ctx b x).AbortedWith cause) := by
  by_cases hphase : (p.ctx b x).phase = .record
  · rw [Part.removeCtx_record hin haborting hphase, Part.ctx_leaveBehind_fall, Part.ctx_abortInRecord]
    exact ⟨rfl, rfl, p.entries_abortInRecord b x cause _, fun h => absurd hphase h⟩
  · rw [Part.removeCtx_before hin haborting hphase]
    have hctx := p.ctx_fellWithin b x t
    have haborted := Part.abortBefore_abortedWith (p := p.fellWithin b x t) (by rw [hctx]) cause
    have hwho : (p.fellWithin b x t).requester b x = p.requester b x := by
      unfold Part.requester
      rw [hctx]
    exact ⟨haborted.exit, haborted.aborting, fun e he hwho' => Part.entries_abortBefore _ b x cause e he (hwho'.trans hwho.symm),
      fun _ => haborted⟩

theorem Part.ctx_removeCtx_record {p : Part} {b : Bay} {x : Slot} (hin : (p.ctx b x).inCheck = true)
    (haborting : (p.ctx b x).work.aborting = none) (hphase : (p.ctx b x).phase = .record) (cause : Cause) (t : Stamp) :
    ((p.removeCtx b x cause (some t)).ctx b x).out = (p.ctx b x).owedRecords ++
      [.verdict .incomplete (some cause), .record ((p.ctx b x).presenceRecord b x .removed none t), .becomeAbsent] := by
  rw [Part.removeCtx_record hin haborting hphase, Part.ctx_leaveBehind_fall, Part.ctx_abortInRecord]
  exact List.append_assoc _ _ _

/-- A fall in a phase where the check waits. -/
theorem Part.removeCtx_waits {p : Part} {b : Bay} {x : Slot} {k : Check} (hin : (p.ctx b x).inCheck = true)
    (haborting : (p.ctx b x).work.aborting = none) (hwaits : (p.ctx b x).phase.waits) (hcheck : (p.ctx b x).check = some k)
    (hqueue : (p.ctx b x).phase = .channelWait → ∀ e ∈ (p.bay b).busQueue, e.slot ≠ x) (cause : Cause) (t : Stamp) :
    (p.ctx b x).ComposedAs b x k cause (p.abortNumber b x) p.stamp t ((p.removeCtx b x cause (some t)).ctx b x) := by
  have hphase : (p.ctx b x).phase ≠ .record := fun h => absurd (h ▸ hwaits) (by unfold Phase.waits; decide)
  have hrelease : (p.ctx b x).phase ≠ .release := fun h => absurd (h ▸ hwaits) (by unfold Phase.waits; decide)
  have hctx := p.ctx_fellWithin b x t
  have hbus : ((p.fellWithin b x t).bay b).busQueue = (p.bay b).busQueue :=
    (congrArg BayUnit.busQueue (Part.bay_mapBay p b (fun u => u.mapCtx x _))).trans rfl
  have hnumber : (p.fellWithin b x t).abortNumber b x = p.abortNumber b x := by
    unfold Part.abortNumber
    rw [hctx]
    rfl
  rw [Part.removeCtx_before hin haborting hphase]
  have h := Part.abortBefore_waits (p := p.fellWithin b x t) (k := k) (t := t) (by rw [hctx]) (by rw [hctx])
    (by rw [hctx]; exact hcheck) (by rw [hctx]; exact hwaits) (by rw [hctx, hbus]; exact hqueue) cause
  rw [hnumber, hctx] at h
  exact ⟨h.phase, h.out⟩

/-- A fall in RELEASE without a channel: the release goes on (R92 step 4). -/
theorem Part.removeCtx_restoring {p : Part} {b : Bay} {x : Slot} (hin : (p.ctx b x).inCheck = true)
    (haborting : (p.ctx b x).work.aborting = none) (hphase : (p.ctx b x).phase = .release)
    (hrelease : (p.ctx b x).work.release = .restoring) (hchan : p.chanOf b x = none) (cause : Cause) (t : Stamp) :
    ((p.removeCtx b x cause (some t)).ctx b x).phase = .release ∧
      ((p.removeCtx b x cause (some t)).ctx b x).work.release = .restoring ∧
      ((p.removeCtx b x cause (some t)).ctx b x).fellAt = some t ∧
      Conseq.releaseGo b x ∈ (p.removeCtx b x cause (some t)).todo := by
  have hctx := p.ctx_fellWithin b x t
  have hfell : ((p.fellWithin b x t).ctx b x).phase = .release ∧ ((p.fellWithin b x t).ctx b x).work.release = .restoring := by
    rw [hctx]
    exact ⟨hphase, hrelease⟩
  rw [Part.removeCtx_before hin haborting (by rw [hphase]; exact nofun)]
  rcases (p.fellWithin b x t).abortBefore_cases b x cause with ⟨hwaits, -⟩ | ⟨hwaits, -⟩ | ⟨-, ⟨k, hk, -⟩ | ⟨-, heq⟩⟩
  · rw [hfell.1] at hwaits
    exact absurd hwaits (by unfold Phase.waits; decide)
  · rw [hfell.1] at hwaits
    exact absurd hwaits nofun
  · exact absurd (hk.symm.trans hchan) nofun
  · rw [heq, if_pos hfell]
    obtain ⟨o, hstart⟩ := (p.fellWithin b x t).ctx_abortStart b x cause
    rw [Part.ctx_later, hstart, hctx]
    exact ⟨hphase, hrelease, rfl, List.mem_append_right _ List.mem_cons_self⟩

/-- A fall with a channel: it drops and opens (R92 steps 1 and 3). -/
theorem Part.removeCtx_channel {p : Part} {b : Bay} {x : Slot} {k : Chan} (hin : (p.ctx b x).inCheck = true)
    (haborting : (p.ctx b x).work.aborting = none) (hwaits : ¬ (p.ctx b x).phase.waits) (hphase : (p.ctx b x).phase ≠ .record)
    (hchan : p.chanOf b x = some k) (cause : Cause) (t : Stamp) :
    ((p.removeCtx b x cause (some t)).ctx b x).phase = .release ∧
      ((p.removeCtx b x cause (some t)).ctx b x).work.release = .opening ∧
      ((p.removeCtx b x cause (some t)).ctx b x).fellAt = some t ∧
      ((p.removeCtx b x cause (some t)).chan k).relay ≠ .closed ∧
      ((p.chan k).Quiet → ((p.removeCtx b x cause (some t)).chan k).setpoint = 0) := by
  have hctx := p.ctx_fellWithin b x t
  have hfell : ((p.fellWithin b x t).ctx b x).phase = (p.ctx b x).phase := by rw [hctx]
  rw [Part.removeCtx_before hin haborting hphase]
  rcases (p.fellWithin b x t).abortBefore_cases b x cause with ⟨hw, -⟩ | ⟨hw, -⟩ | ⟨-, ⟨j, hj, heq⟩ | ⟨hnone, -⟩⟩
  · exact absurd (hfell ▸ hw) hwaits
  · exact absurd (show Phase.waits _ from by rw [← hfell, hw]; unfold Phase.waits; decide) hwaits
  · cases hj.symm.trans hchan
    rw [heq, Part.ctx_abortOpening]
    obtain ⟨o, hstart⟩ := (p.fellWithin b x t).ctx_abortStart b x cause
    have hsame : ((p.fellWithin b x t).abortStart b x cause).chan k = p.chan k :=
      Part.chan_of_chans (q := (p.fellWithin b x t).abortStart b x cause) ((p.fellWithin b x t).abortStart_kept b x cause).1 k
    refine ⟨rfl, rfl, ?_, ?_⟩
    · rw [hstart, hctx]
      rfl
    · generalize (p.fellWithin b x t).abortStart b x cause = q at hsame
      have h := Part.chan_abortChannel ((q.setPhase b x .release).mapWork b x (fun w => { w with release := .opening })) k
      rw [show ((q.setPhase b x .release).mapWork b x (fun w => { w with release := .opening })).chan k = p.chan k from hsame] at h
      exact h
  · exact absurd (hnone.symm.trans hchan) nofun

end Sys2Proof.Machine
end

section
/-! The filtered fall of a module, from its presence notice to the obligation (R4, R6, R24, R89, R160). -/

namespace Sys2Proof.Machine

/-! ### The link and the standby set at a fall -/

/-- The part behind a fall of slot `x`, before its context is dealt with: link and standby set have let it go (R24, R160). -/
def Part.unlinked (p : Part) (b : Bay) (x : Slot) : Part := (p.linkFall b x).leaveStandby b x

/-- The link of a fallen slot (R160). -/
def Link.fallen (l : Link) (x : Slot) : Link :=
  { l.remove (fun e => e.target == x) with
    mute := l.mute.set x false
    inFlight := l.inFlight.map (fun e => if e.target == x then { e with fell := true } else e) }

/-- The bay of a fallen slot. -/
def BayUnit.unlinked (u : BayUnit) (x : Slot) : BayUnit := { u with link := u.link.fallen x, standby := u.standby.set x none }

/-- What is owed at a fall: the discards that the link reports, and the holder's release (R24, R160). -/
def Part.unlinkOwed (p : Part) (b : Bay) (x : Slot) : List Conseq :=
  ((p.link b).matching (fun e => e.target == x)).map (fun e => .report b e .discardGone) ++
    (p.bay b).busHolder.toList.map (fun y => .releaseGo b y)

theorem Part.unlinked_eq (p : Part) (b : Bay) (x : Slot) :
    p.unlinked b x = (p.mapBay b (fun u => u.unlinked x)).later (p.unlinkOwed b x) := by
  have hfall : p.linkFall b x = (p.mapBay b (fun u => { u with link := u.link.fallen x })).later
      (((p.link b).matching (fun e => e.target == x)).map (fun e => .report b e .discardGone)) := rfl
  have htwo : (p.linkFall b x).mapBay b (fun u => { u with standby := u.standby.set x none }) =
      (p.mapBay b (fun u => u.unlinked x)).later
        (((p.link b).matching (fun e => e.target == x)).map (fun e => .report b e .discardGone)) := by
    rw [hfall]
    exact congrArg (fun q : Part => q.later (((p.link b).matching (fun e => e.target == x)).map (fun e => .report b e .discardGone)))
      (Part.mapBay_mapBay p b (fun u => { u with link := u.link.fallen x }) (fun u => { u with standby := u.standby.set x none }))
  have hholder : ((p.mapBay b (fun u => u.unlinked x)).bay b).busHolder = (p.bay b).busHolder :=
    (congrArg BayUnit.busHolder (Part.bay_mapBay p b (fun u => u.unlinked x))).trans rfl
  unfold Part.unlinked Part.leaveStandby Part.unlinkOwed
  dsimp only
  rw [htwo, show (((p.mapBay b (fun u => u.unlinked x)).later
    (((p.link b).matching (fun e => e.target == x)).map (fun e => .report b e .discardGone))).bay b).busHolder = _ from hholder]
  cases (p.bay b).busHolder with
  | none =>
    rw [Option.toList_none, List.map_nil, List.append_nil]
  | some y => exact Part.later_later _ _ _

theorem Part.bay_unlinked (p : Part) (b : Bay) (x : Slot) : (p.unlinked b x).bay b = (p.bay b).unlinked x := by
  rw [Part.unlinked_eq]
  exact Part.bay_mapBay p b (fun u => u.unlinked x)

theorem Part.bay_unlinked_other (p : Part) {b c : Bay} (x : Slot) (h : c ≠ b) : (p.unlinked b x).bay c = p.bay c := by
  rw [Part.unlinked_eq]
  exact Part.bay_mapBay_other p (fun u => u.unlinked x) (Ne.symm h)

theorem Part.ctx_unlinked (p : Part) (b : Bay) (x : Slot) (c : Bay) (y : Slot) : (p.unlinked b x).ctx c y = p.ctx c y := by
  rw [Part.unlinked_eq]
  exact Part.ctx_mapBay_ctxs p b (fun u => u.unlinked x) rfl c y

theorem Part.link_unlinked (p : Part) (b : Bay) (x : Slot) : (p.unlinked b x).link b = (p.link b).fallen x :=
  congrArg BayUnit.link (p.bay_unlinked b x)

theorem Part.unlinked_kept (p : Part) (b : Bay) (x : Slot) : (p.unlinked b x).chans = p.chans ∧ (p.unlinked b x).stamp = p.stamp ∧
    (p.unlinked b x).pendingSet = p.pendingSet ∧ (p.unlinked b x).todo = p.todo ++ p.unlinkOwed b x := by
  rw [Part.unlinked_eq]
  exact ⟨rfl, rfl, rfl, rfl⟩

theorem Link.mem_fallen {l : Link} {x : Slot} {e : Entry} :
    e ∈ (l.fallen x).queue ++ (l.fallen x).line ↔ e ∈ l.queue ++ l.line ∧ e.target ≠ x :=
  (Link.mem_remove (fun e => e.target == x) l e).trans (and_congr_right' beq_eq_false_iff_ne)

theorem Part.mem_unlinkOwed_report {p : Part} {b : Bay} {x : Slot} {e : Entry} (h : e ∈ (p.link b).queue ++ (p.link b).line)
    (ht : e.target = x) : Conseq.report b e .discardGone ∈ p.unlinkOwed b x := by
  refine List.mem_append_left _ (List.mem_map_of_mem ?_)
  unfold Link.matching
  rw [← List.filter_append, List.mem_filter]
  exact ⟨h, beq_iff_eq.mpr ht⟩

theorem Part.mem_unlinkOwed_release {p : Part} {b : Bay} (x : Slot) {y : Slot} (h : (p.bay b).busHolder = some y) :
    Conseq.releaseGo b y ∈ p.unlinkOwed b x := by
  refine List.mem_append_right _ ?_
  rw [h]
  exact List.mem_cons_self

/-! ### The disturbance and the fall of the slot -/

/-- An entry that the disturbance of a fall leaves on the link (R89). -/
def Part.Keeps (p : Part) (b : Bay) (x : Slot) (e : Entry) : Prop :=
  ∀ y, (p.bay b).busHolder = some y → y ≠ x → (p.ctx b y).phase = .prepare → e.who = p.requester b y →
    e.purpose ∈ [.restore, .identify]

/-- What a fall has done before it deals with the falling context. -/
structure Part.FallBegun (b : Bay) (x : Slot) (p q : Part) : Prop where
  bay     : ∃ cs k sb pr, q.bay b = { p.bay b with ctxs := cs, link := k, standby := sb, presence := pr }
  standby : (q.bay b).standby[x] = none
  muted   : (q.bay b).muted x = false
  entries : ∀ e ∈ (q.link b).queue ++ (q.link b).line, e.target ≠ x
  reports : ∀ e ∈ (p.link b).queue ++ (p.link b).line, e.target = x → p.Keeps b x e → Conseq.report b e .discardGone ∈ q.todo
  ctx     : ∀ y, (p.bay b).state ∈ [BayState.empty, .withdrawing] ∨ y = x ∨ (p.bay b).busHolder ≠ some y → q.ctx b y = p.ctx b y
  bays    : ∀ c, c ≠ b → q.bay c = p.bay c
  release : ∀ y, (p.bay b).busHolder = some y → Conseq.releaseGo b y ∈ q.todo
  stamp   : q.stamp = p.stamp
  chanOf  : q.chanOf b x = p.chanOf b x
  chan    : ∀ k, p.chanOf b x = some k → q.chan k = p.chan k

theorem Part.chanOf_of_owner {p q : Part} (h : ∀ k, (q.chan k).owner = (p.chan k).owner) (b : Bay) (x : Slot) :
    q.chanOf b x = p.chanOf b x := by
  unfold Part.chanOf
  simp only [h]

theorem Part.Disturbance.keeps {b : Bay} {x : Slot} {p q : Part} (h : p.Disturbance b x q) {e : Entry}
    (he : e ∈ (p.link b).queue ++ (p.link b).line) (hkeep : p.Keeps b x e) : e ∈ (q.link b).queue ++ (q.link b).line := by
  rcases h.link with hsame | ⟨y, f, hholder, hne, hphase, hremove, hf⟩
  · rw [hsame]
    exact he
  · rw [hremove, Link.mem_remove]
    refine ⟨he, Bool.eq_false_iff.mpr fun hfe => ?_⟩
    obtain ⟨hwho, hpurpose⟩ := hf e hfe
    exact hpurpose (hkeep y hholder hne hphase hwho)

theorem Part.fallBegun (p : Part) (b : Bay) (x : Slot) : p.FallBegun b x ((p.disturbed b x).unlinked b x) := by
  have hdist := p.disturbed_does b x
  obtain ⟨⟨bays, chans, l, heq⟩, hbays, ⟨cs, k, hbay⟩, -, -, howner, hchan⟩ := hdist
  obtain ⟨hchans, hstamp, -, htodo⟩ := (p.disturbed b x).unlinked_kept b x
  have hbay' := (p.disturbed b x).bay_unlinked b x
  have hlink' := (p.disturbed b x).link_unlinked b x
  have hholder : ((p.disturbed b x).bay b).busHolder = (p.bay b).busHolder := by rw [hbay]
  refine ⟨⟨_, _, _, (p.bay b).presence, by rw [hbay', hbay]; rfl⟩, ?_, ?_, fun e he => ?_, fun e he ht hkeep => ?_, fun y hy => ?_,
    fun c hc => (Part.bay_unlinked_other _ x hc).trans (hbays c hc), fun y hy => ?_, ?_, ?_, fun j hj => ?_⟩
  · rw [hbay']
    exact Vector.getElem_set_self x.isLt
  · rw [hbay']
    exact Vector.getElem_set_self x.isLt
  · rw [hlink', Link.mem_fallen] at he
    exact he.2
  · rw [htodo]
    exact List.mem_append_right _ (Part.mem_unlinkOwed_report ((p.disturbed_does b x).keeps he hkeep) ht)
  · rw [Part.ctx_unlinked]
    rcases hy with hy | hy | hy
    · exact Part.ctx_disturbed x (.inl hy)
    · exact (p.disturbed_does b x).ctx y (.inl hy)
    · exact Part.ctx_disturbed x (.inr hy)
  · rw [htodo]
    exact List.mem_append_right _ (Part.mem_unlinkOwed_release x (hholder.trans hy))
  · rw [hstamp, heq]
    rfl
  · exact (Part.chanOf_of_chans hchans b x).trans (Part.chanOf_of_owner howner b x)
  · exact (Part.chan_of_chans hchans j).trans (hchan j (Part.chanOf_owner hj))

theorem Part.presence_fallBegun (p : Part) (b : Bay) (x : Slot) :
    (((p.disturbed b x).unlinked b x).bay b).presence = (p.bay b).presence := by
  obtain ⟨-, -, ⟨cs, k, hbay⟩, -⟩ := p.disturbed_does b x
  rw [Part.bay_unlinked, hbay]
  rfl

theorem Part.pendingSet_fallBegun (p : Part) (b : Bay) (x : Slot) :
    ((p.disturbed b x).unlinked b x).pendingSet = p.pendingSet := by
  obtain ⟨⟨bays, chans, l, heq⟩, -⟩ := p.disturbed_does b x
  rw [((p.disturbed b x).unlinked_kept b x).2.2.1, heq]

/-- A fall begun in a part that a filtered change finds as it was is a fall begun in what it was. -/
theorem Part.FallBegun.of_seen {b : Bay} {x : Slot} {p p' q : Part} (hseen : p.SeenAs b p') (h : p'.FallBegun b x q) :
    p.FallBegun b x q := by
  obtain ⟨⟨pr, hbay⟩, hbays, hctxs, hchans, -, -, -, hstamp, -⟩ := hseen
  obtain ⟨⟨cs, k, sb, pr', hq⟩, hstandby, hmuted, hentries, hreports, hctx, hbays', hrelease, hstamp', hchanOf, hchan⟩ := h
  have hlink : p'.link b = p.link b := (congrArg BayUnit.link hbay).trans rfl
  have hholder : (p'.bay b).busHolder = (p.bay b).busHolder := (congrArg BayUnit.busHolder hbay).trans rfl
  have hstate : (p'.bay b).state = (p.bay b).state := (congrArg BayUnit.state hbay).trans rfl
  have hwho : ∀ y, p'.requester b y = p.requester b y := fun y => by
    unfold Part.requester
    rw [hctxs]
  refine ⟨⟨cs, k, sb, pr', by rw [hq, hbay]⟩, hstandby, hmuted, hentries, fun e he ht hkeep => hreports e (by rw [hlink]; exact he) ht ?_,
    fun y hy => (hctx y (by rw [hstate, hholder]; exact hy)).trans (hctxs b y), fun c hc => (hbays' c hc).trans (hbays c hc),
    fun y hy => hrelease y (hholder.trans hy), hstamp'.trans hstamp, hchanOf.trans (Part.chanOf_of_chans hchans b x),
    fun j hj => (hchan j ((Part.chanOf_of_chans hchans b x).trans hj)).trans (Part.chan_of_chans hchans j)⟩
  intro y hy hne hphase hw
  rw [hholder] at hy
  rw [hctxs] at hphase
  exact hkeep y hy hne hphase (hw.trans (hwho y))

/-! ### The fall outside HALTED -/

/-- The part that a fall has been seen by, with no rise held (R4, R167). -/
def Part.fallSeen (p : Part) (b : Bay) (x : Slot) : Part :=
  (p.filtered b x false).mapPresence b x (fun f => { f with heldRise := false })

theorem Part.fallSeen_seenAs (p : Part) (b : Bay) (x : Slot) : p.SeenAs b (p.fallSeen b x) := by
  have hbay := (p.filtered b x false).bay_mapPresence b x (fun f => { f with heldRise := false })
  rw [Part.bay_filtered] at hbay
  exact ⟨⟨_, hbay⟩, fun c hc => ((p.filtered b x false).bay_mapPresence_other x (fun f => { f with heldRise := false }) hc).trans
    (p.bay_filtered_other x false hc), fun c y => ((p.filtered b x false).ctx_mapPresence b x (fun f => { f with heldRise := false })
      c y).trans (p.ctx_filtered b x false c y), rfl, rfl, rfl, rfl, rfl, rfl⟩

theorem Part.SeenAs.noticed {b : Bay} {p q : Part} (h : p.SeenAs b q) (k : BitVec 7) (m : Nat) :
    p.SeenAs b { q with pendingSet := k, messages := m } :=
  ⟨h.bay, h.bays, h.ctx, h.chans, h.zones, h.adm, h.cmd, h.stamp, h.todo⟩

theorem Part.presence_fallSeen (p : Part) (b : Bay) (x : Slot) :
    ((p.fallSeen b x).bay b).presence[x].filtered = false ∧ ((p.fallSeen b x).bay b).presence[x].heldRise = false := by
  have hpres := (p.filtered b x false).presence_mapPresence b x (fun f => { f with heldRise := false })
  have hseen := p.present_filtered b x false
  exact ⟨(congrArg Presence.filtered hpres).trans hseen, congrArg Presence.heldRise hpres⟩

/-- The falling context, dealt with where its bay is admitted (R6). -/
def Part.fallEnds (p : Part) (b : Bay) (x : Slot) : Part :=
  if (p.bay b).state.admitted then (p.removeCtx b x .removed (some p.stamp)).later [.output b x] else p

theorem Part.fall_eq (p : Part) (b : Bay) (x : Slot) :
    p.fall b x = ((p.presenceNotice.disturbed b x).unlinked b x).fallEnds b x := by
  have hstate : (((p.presenceNotice.disturbed b x).unlinked b x).bay b).state = (p.presenceNotice.bay b).state := by
    obtain ⟨cs, k, sb, pr, heq⟩ := (p.presenceNotice.fallBegun b x).bay
    rw [heq]
  unfold Part.fallEnds
  rw [hstate]
  rfl

theorem exec_filteredFall_early {s : State} {b : Bay} {x : Slot} (h : (s.part.bay b).presence[x].count < 5000) :
    exec (.filteredFall b x) s = .next s := by
  refine State.runIf_false s _ ?_
  rw [Bool.and_eq_false_iff]
  exact .inr (decide_eq_false (by unfold Config.presenceSamples; omega))

theorem filteredFall_guard {s : State} {b : Bay} {x : Slot} (hpresent : (s.part.bay b).present x = true)
    (hcount : 5000 ≤ (s.part.bay b).presence[x].count) :
    ((s.part.bay b).present x && (s.part.bay b).presence[x].steady) = true := by
  rw [hpresent]
  exact decide_eq_true hcount

/-- A fall seen outside HALTED, up to where its context is dealt with. -/
theorem Owes.filteredFall {s : State} {b : Bay} {x : Slot} (hpresent : (s.part.bay b).present x = true)
    (hcount : 5000 ≤ (s.part.bay b).presence[x].count) (hphase : s.part.phase ≠ .halted) :
    ∃ p q, s.part.SeenAs b p ∧ (∀ y, q.ctx b y = (p.disturbed b x).ctx b y) ∧ s.part.FallBegun b x q ∧
      Owes (.filteredFall b x) s s.book (q.fallEnds b x) ∧
      (q.bay b).presence[x].filtered = false ∧ (q.bay b).presence[x].heldRise = false ∧
      (s.part.phase = .running ∨ s.part.phase = .stopping → q.pendingSet = s.part.pendingSet ||| BitVec.twoPow 7 4) := by
  obtain ⟨k, m, heq, hraised, -⟩ := (s.part.fallSeen b x).presenceNotice_eq
  have hseen := (s.part.fallSeen_seenAs b x).noticed k m
  obtain ⟨hfiltered, hheld⟩ := s.part.presence_fallSeen b x
  have howes : Owes (.filteredFall b x) s s.book
      (((({ s.part.fallSeen b x with pendingSet := k, messages := m } : Part).disturbed b x).unlinked b x).fallEnds b x) := by
    refine Owes.of_runIf (f := fun p =>
      let q := p.mapPresence b x (fun f => { f with filtered := false, count := 0 })
      if p.phase = .halted then q else (q.mapPresence b x (fun f => { f with heldRise := false })).fall b x) rfl
        (filteredFall_guard hpresent hcount) ?_
    rw [← heq, ← Part.fall_eq]
    exact if_neg hphase
  have hpres : ((({ s.part.fallSeen b x with pendingSet := k, messages := m } : Part)).bay b).presence[x].filtered = false ∧
      ((({ s.part.fallSeen b x with pendingSet := k, messages := m } : Part)).bay b).presence[x].heldRise = false := ⟨hfiltered, hheld⟩
  have hset : ({ s.part.fallSeen b x with pendingSet := k, messages := m } : Part).pendingSet = k := rfl
  generalize ({ s.part.fallSeen b x with pendingSet := k, messages := m } : Part) = p at hseen howes hpres hset
  refine ⟨p, _, hseen, fun y => Part.ctx_unlinked _ b x b y, (p.fallBegun b x).of_seen hseen, howes, ?_, ?_, fun hr => ?_⟩
  · rw [Part.presence_fallBegun]
    exact hpres.1
  · rw [Part.presence_fallBegun]
    exact hpres.2
  · rw [Part.pendingSet_fallBegun, hset]
    exact hraised hr

theorem Part.fallEnds_elsewhere {p : Part} {b : Bay} {x : Slot}
    (h : (p.ctx b x).state = .absent ∨ (p.bay b).state ∈ [BayState.empty, .withdrawing]) :
    ∃ l, p.fallEnds b x = p.later l := by
  unfold Part.fallEnds
  split
  next hadmitted =>
    rw [Part.removeCtx_absent (h.resolve_right (BayState.admitted_iff.mp hadmitted))]
    exact ⟨_, rfl⟩
  next => exact ⟨[], (Part.later_nil p).symm⟩

theorem Part.fallEnds_admitted {p : Part} {b : Bay} {x : Slot} (h : (p.bay b).state ∉ [BayState.empty, .withdrawing]) :
    p.fallEnds b x = (p.removeCtx b x .removed (some p.stamp)).later [.output b x] := if_pos (BayState.admitted_iff.mpr h)

/-! ### What a fall has done, once it has dealt with its context -/

/-- What every fall leaves of its bay, and what it owes. -/
structure Part.FallDone (b : Bay) (x : Slot) (p q : Part) : Prop where
  present : (q.bay b).present x = false
  held    : (q.bay b).presence[x].heldRise = false
  muted   : (q.bay b).muted x = false
  standby : (q.bay b).standby[x] = none
  entries : ∀ e ∈ (q.link b).queue ++ (q.link b).line, e.target ≠ x
  reports : ∀ e ∈ (p.link b).queue ++ (p.link b).line, e.target = x → p.Keeps b x e → Conseq.report b e .discardGone ∈ q.todo
  release : ∀ y, (p.bay b).busHolder = some y → Conseq.releaseGo b y ∈ q.todo

theorem Part.FallBegun.done {b : Bay} {x : Slot} {p q r : Part} (h : p.FallBegun b x q) (hr : q.Removal b x r)
    (hfiltered : (q.bay b).presence[x].filtered = false) (hheld : (q.bay b).presence[x].heldRise = false) : p.FallDone b x r := by
  obtain ⟨⟨hpresence, hstandby, hmute, hentries, htodo⟩, -⟩ := hr
  refine ⟨?_, by rw [hpresence]; exact hheld, ?_, by rw [hstandby]; exact h.standby, fun e he => h.entries e (hentries e he),
    fun e he ht hkeep => htodo _ (h.reports e he ht hkeep), fun y hy => htodo _ (h.release y hy)⟩
  · unfold BayUnit.present
    rw [hpresence]
    exact hfiltered
  · have hmuted : (r.link b).mute[x] = (q.link b).mute[x] := by rw [hmute]
    exact hmuted.trans h.muted

/-- The falling context as the fall finds it, and what the removal is told. -/
theorem Part.FallBegun.own {b : Bay} {x : Slot} {p q : Part} (h : p.FallBegun b x q) :
    q.ctx b x = p.ctx b x ∧ (q.bay b).state = (p.bay b).state ∧ (q.bay b).busHolder = (p.bay b).busHolder ∧
      (q.bay b).busQueue = (p.bay b).busQueue ∧ q.requester b x = p.requester b x := by
  obtain ⟨cs, k, sb, pr, hbay⟩ := h.bay
  have hctx := h.ctx x (.inr (.inl rfl))
  refine ⟨hctx, by rw [hbay], by rw [hbay], by rw [hbay], ?_⟩
  unfold Part.requester
  rw [hctx]

end Sys2Proof.Machine
end

section
/-! A fall takes its module away: the cases of the falling context, of the bus holder, and the obligation (R6, R24, R89 to R93). -/

namespace Sys2Proof.Machine

/-! ### Where the bay holds no plan of the slot -/

theorem fall_elsewhere {s : State} {b : Bay} {x : Slot} (hpresent : (s.part.bay b).present x = true)
    (hcount : 5000 ≤ (s.part.bay b).presence[x].count) (hphase : s.part.phase ≠ .halted)
    (h : (s.part.ctx b x).state = .absent ∨ (s.part.bay b).state ∈ [BayState.empty, .withdrawing]) :
    ∃ q, Owes (.filteredFall b x) s s.book q ∧ s.part.FallDone b x q ∧
      (∀ y, (s.part.bay b).state ∈ [BayState.empty, .withdrawing] ∨ y = x ∨ (s.part.bay b).busHolder ≠ some y →
        q.ctx b y = s.part.ctx b y) ∧
      (∀ c, c ≠ b → q.bay c = s.part.bay c) ∧
      (s.part.phase = .running ∨ s.part.phase = .stopping → q.pendingSet = s.part.pendingSet ||| BitVec.twoPow 7 4) := by
  obtain ⟨-, q, -, -, hbegun, howes, hfiltered, hheld, hraised⟩ := Owes.filteredFall hpresent hcount hphase
  obtain ⟨hctx, hstate, -, -, -⟩ := hbegun.own
  obtain ⟨l, hends⟩ := Part.fallEnds_elsewhere (p := q) (b := b) (x := x) (by rw [hctx, hstate]; exact h)
  rw [hends] at howes
  exact ⟨_, howes, hbegun.done (.later q l) hfiltered hheld, hbegun.ctx, hbegun.bays, hraised⟩

/-! ### The falling context of an admitted bay -/

/-- The PRESENCE record of a fall (R15, R165). -/
def Part.fallRecord (p : Part) (b : Bay) (x : Slot) : Record := (p.ctx b x).presenceRecord b x .removed none p.stamp

/-- A fall in an admitted bay: the part before its context is dealt with, and what the removal of the context makes of it. -/
theorem fall_admitted {s : State} {b : Bay} {x : Slot} (hpresent : (s.part.bay b).present x = true)
    (hcount : 5000 ≤ (s.part.bay b).presence[x].count) (hphase : s.part.phase ≠ .halted)
    (hstate : (s.part.bay b).state ∉ [BayState.empty, .withdrawing]) :
    ∃ p q, s.part.SeenAs b p ∧ (∀ y, q.ctx b y = (p.disturbed b x).ctx b y) ∧ s.part.FallBegun b x q ∧
      Owes (.filteredFall b x) s s.book ((q.removeCtx b x .removed (some s.part.stamp)).later [.output b x]) ∧
      s.part.FallDone b x ((q.removeCtx b x .removed (some s.part.stamp)).later [.output b x]) := by
  obtain ⟨p, q, hseen, hcut, hbegun, howes, hfiltered, hheld, -⟩ := Owes.filteredFall hpresent hcount hphase
  obtain ⟨-, hst, -, -, -⟩ := hbegun.own
  have hends := Part.fallEnds_admitted (p := q) (b := b) (x := x) (by rw [hst]; exact hstate)
  rw [hbegun.stamp] at hends
  rw [hends] at howes
  exact ⟨p, q, hseen, hcut, hbegun, howes,
    hbegun.done ((q.removeCtx_removal b x .removed s.part.stamp).trans (.later _ _)) hfiltered hheld⟩

theorem fall_identifying {s : State} {b : Bay} {x : Slot} (hpresent : (s.part.bay b).present x = true)
    (hcount : 5000 ≤ (s.part.bay b).presence[x].count) (hphase : s.part.phase ≠ .halted)
    (hstate : (s.part.bay b).state ∉ [BayState.empty, .withdrawing]) (hident : (s.part.ctx b x).state = .identifying)
    (hexit : (s.part.ctx b x).exit = .stay) :
    ∃ q, Owes (.filteredFall b x) s s.book q ∧ s.part.FallDone b x q ∧ Conseq.output b x ∈ q.todo ∧
      q.ctx b x = (s.part.ctx b x).leaves [.record (s.part.fallRecord b x), .becomeAbsent] := by
  obtain ⟨-, q, -, -, hbegun, howes, hdone⟩ := fall_admitted hpresent hcount hphase hstate
  obtain ⟨hctx, -, -, -, -⟩ := hbegun.own
  refine ⟨_, howes, hdone, List.mem_append_right _ List.mem_cons_self, ?_⟩
  rw [Part.ctx_later, Part.ctx_removeCtx_identifying (by rw [hctx]; exact hident) (by rw [hctx]; exact hexit), hctx]
  rfl

/-! ### The bus holder of an admitted bay (R89) -/

theorem fall_holder {s : State} {b : Bay} {x y : Slot} {k : Check} (hpresent : (s.part.bay b).present x = true)
    (hcount : 5000 ≤ (s.part.bay b).presence[x].count) (hphase : s.part.phase ≠ .halted)
    (hstate : (s.part.bay b).state ∉ [BayState.empty, .withdrawing]) (hholder : (s.part.bay b).busHolder = some y) (hne : y ≠ x)
    (hcheck : (s.part.ctx b y).check = some k) (habort : (s.part.ctx b y).work.aborting = none)
    (hout : (s.part.ctx b y).work.outcome ≠ .disturbed) :
    ∃ q, Owes (.filteredFall b x) s s.book q ∧ s.part.FallDone b x q ∧
      ((s.part.ctx b y).Cut k ∨ (s.part.ctx b y).Goes k →
        (q.ctx b y).work.outcome = .disturbed ∧ (q.ctx b y).work.stamp = some s.part.stamp) ∧
      ((s.part.ctx b y).Cut k → (q.ctx b y).phase = .release) ∧
      ((s.part.ctx b y).Goes k → (q.ctx b y).phase = (s.part.ctx b y).phase) ∧
      (¬ ((s.part.ctx b y).Cut k ∨ (s.part.ctx b y).Goes k) → q.ctx b y = s.part.ctx b y) := by
  obtain ⟨p, q, hseen, hcut, hbegun, howes, hdone⟩ := fall_admitted hpresent hcount hphase hstate
  obtain ⟨-, -, hq, -, -⟩ := hbegun.own
  obtain ⟨⟨pr, hbay⟩, -, hctxs, -, -, -, -, hstamp, -⟩ := hseen
  have hadmitted : p.disturbed b x = p.disturbBay b x := if_pos (BayState.admitted_iff.mpr (by rw [hbay]; exact hstate))
  have hown := (q.removeCtx_removal b x .removed s.part.stamp).own
    (by rw [hq, hholder]; exact fun h => hne (Option.some.inj h))
  have hctx : ((q.removeCtx b x .removed (some s.part.stamp)).later [.output b x]).ctx b y = (p.disturbBay b x).ctx b y := by
    rw [Part.ctx_later, hown.2 y hne, hcut, hadmitted]
  obtain ⟨hboth, hcuts, hgoes, hneither⟩ := Part.disturbBay_ctx (p := p) (x := x) (k := k) (by rw [hbay]; exact hholder) hne
    (by rw [hctxs]; exact hcheck) (by rw [hctxs]; exact habort) (by rw [hctxs]; exact hout)
  rw [← hctx, hctxs] at hboth hcuts hgoes hneither
  rw [hstamp] at hboth
  exact ⟨_, howes, hdone, hboth, hcuts, hgoes, hneither⟩

/-! ### After the bus is released, with an abort under way (R92 step 5, R93) -/

theorem Part.afterBus_aborting {p : Part} {b : Bay} {x : Slot} {cause : Cause} (h : (p.ctx b x).work.aborting = some cause) :
    p.afterBus b x = (p.composeAbort b x).later [.output b x] := if_pos (by rw [h]; rfl)

theorem Part.afterBus_composed {p : Part} {b : Bay} {x : Slot} {k : Check} {cause : Cause} (hcheck : (p.ctx b x).check = some k)
    (h : (p.ctx b x).work.aborting = some cause) :
    ((p.afterBus b x).ctx b x).phase = .record ∧ ∃ l tail, (p.ctx b x).AbortedAs k l ∧
      ((p.afterBus b x).ctx b x).out = (p.ctx b x).owedRecords ++ l ++ [.verdict .incomplete (some cause)] ++ tail ∧
      (∀ v, OutItem.record v ∈ l.getLast? → v.cause = some cause ∧ v.number = (p.ctx b x).work.number) ∧
      ((p.ctx b x).exit ≠ .leaving → tail = []) ∧
      ((p.ctx b x).exit = .leaving → (p.ctx b x).fellAt = none → tail = [.becomeAbsent]) ∧
      (∀ t, (p.ctx b x).exit = .leaving → (p.ctx b x).fellAt = some t →
        ∃ r, tail = [.record r, .becomeAbsent] ∧ r.kind = .presence ∧ r.direction = some .removed ∧ r.stamp = t) := by
  obtain ⟨hrecords, hlast⟩ := Ctx.abortRecords_abortedAs hcheck b x cause p.stamp
  rw [Part.afterBus_aborting h, Part.ctx_later, Part.ctx_composeAbort_some h]
  refine ⟨rfl, _, _, hrecords, rfl, fun v hv => ?_, fun hexit => if_neg hexit, fun hexit hfell => ?_, fun t hexit hfell => ?_⟩
  · obtain ⟨hcause, -, hnumber⟩ := hlast v hv
    exact ⟨hcause, hnumber⟩
  · rw [if_pos hexit, hfell]
    rfl
  · rw [if_pos hexit, hfell]
    exact ⟨_, rfl, rfl, rfl, rfl⟩

/-! ### The obligation -/

/-- Settles O35. -/
theorem fallTakesTheModuleAway : Obligations.FallTakesTheModuleAway := by
  unfold Obligations.FallTakesTheModuleAway
  refine ⟨fun s b x h => exec_filteredFall_early h, fun s b x hpresent hcount => ⟨fun hphase => ?_, fun hphase =>
    ⟨fun h => ?_, fun hident hexit hout hstate => ?_⟩, fun hphase hstate => ?_, fun y k hphase hstate hholder hne => ?_⟩,
    fun p b x k cause hcheck h => Part.afterBus_composed hcheck h⟩
  · exact Does.of_runIf (f := fun p =>
      let q := p.mapPresence b x (fun f => { f with filtered := false, count := 0 })
      if p.phase = .halted then q else (q.mapPresence b x (fun f => { f with heldRise := false })).fall b x) rfl
        (filteredFall_guard hpresent hcount) (if_pos hphase) rfl
  · obtain ⟨q, howes, hdone, hctx, hbays, hraised⟩ := fall_elsewhere hpresent hcount hphase h
    exact ⟨q, howes, hdone.present, hdone.held, hdone.muted, hdone.standby, hdone.entries, hdone.reports, hctx, hbays, hdone.release,
      hraised⟩
  · obtain ⟨q, howes, hdone, houtput, hctx⟩ := fall_identifying hpresent hcount hphase hstate hident hexit
    refine ⟨q, s.part.fallRecord b x, howes, hdone.present, by rw [hctx]; rfl, ?_, rfl, rfl, rfl, rfl, houtput, hdone.reports,
      hdone.entries⟩
    rw [hctx]
    exact congrArg (· ++ _) hout
  · obtain ⟨-, q, -, -, hbegun, howes, hdone⟩ := fall_admitted hpresent hcount hphase hstate
    obtain ⟨hctx, -, -, hqueue, hwho⟩ := hbegun.own
    have hends := Part.ctx_removeCtx_ends (p := q) (b := b) (x := x)
    have hsilent := Part.ctx_removeCtx_silent (p := q) (b := b) (x := x)
    have hwithin := Part.removeCtx_inCheck (p := q) (b := b) (x := x)
    have hrecord := Part.ctx_removeCtx_record (p := q) (b := b) (x := x)
    have hwaits := fun k => Part.removeCtx_waits (p := q) (b := b) (x := x) (k := k)
    have hrestoring := Part.removeCtx_restoring (p := q) (b := b) (x := x)
    have hchannel := fun k => Part.removeCtx_channel (p := q) (b := b) (x := x) (k := k)
    have hnumber := fun k => Part.abortNumber_eq (p := q) (b := b) (x := x) (k := k)
    rw [hctx] at hends hsilent hwithin hrecord hrestoring
    rw [hwho] at hwithin
    rw [hbegun.chanOf] at hrestoring
    simp only [hctx, hqueue, hbegun.chanOf, hbegun.stamp] at hwaits hchannel hnumber
    refine ⟨_, s.part.fallRecord b x, howes, hdone.present, hdone.standby, hdone.muted, hdone.entries, rfl, rfl, rfl, rfl, rfl, rfl,
      List.mem_append_right _ List.mem_cons_self, hdone.reports, fun hexit hat => ?_, fun h => ?_, fun hin haborting => ?_⟩
    · exact (Part.ctx_later _ _ b x).trans (hends hexit hat .removed s.part.stamp)
    · exact (Part.ctx_later _ _ b x).trans (hsilent h .removed s.part.stamp)
    · obtain ⟨hleaving, hcause, hentries, hstopped⟩ := hwithin hin haborting .removed s.part.stamp
      rw [Part.ctx_later]
      refine ⟨hleaving, hcause, hentries, fun hphase => ?_, fun k hphase hcheck hbus => ?_, fun hphase hrelease hchan => ?_,
        fun hphase => hrecord hin haborting hphase .removed s.part.stamp, fun k hphase hchan => ?_⟩
      · obtain ⟨-, -, hspan, hmeas, hwatch⟩ := hstopped hphase
        exact ⟨hspan, hmeas, hwatch⟩
      · obtain ⟨hrec, l, haborted, hout, hlast⟩ := hwaits k hin haborting hphase hcheck hbus .removed s.part.stamp
        refine ⟨hrec, l, haborted, hout, fun v hv => ?_⟩
        obtain ⟨hvcause, hvstamp, hvnumber⟩ := hlast v hv
        obtain ⟨hsteady, hderate, helse⟩ := hnumber k hcheck (fun h => absurd (h ▸ hphase) (by decide))
        refine ⟨hvcause, hvstamp, hvnumber.trans ?_⟩
        cases hbody : k.body with
        | steady o => exact hsteady o hbody
        | derate o => exact hderate o hbody
        | _ => exact helse (fun o h => absurd (hbody.symm.trans h) nofun) (fun o h => absurd (hbody.symm.trans h) nofun)
      · obtain ⟨hf, hr, hfell, hgo⟩ := hrestoring hin haborting hphase hrelease hchan .removed s.part.stamp
        exact ⟨hf, hr, hfell, List.mem_append_left _ hgo⟩
      · have hnot : ¬ (s.part.ctx b x).phase.waits := fun h => hphase (List.mem_append_left [Phase.record] h)
        have hrec : (s.part.ctx b x).phase ≠ .record := fun h => hphase (h ▸ List.mem_of_getLast? rfl)
        obtain ⟨hf, hr, hfell, hrelay, hquiet⟩ := hchannel k hin haborting hnot hrec hchan .removed s.part.stamp
        rw [hbegun.chan k hchan] at hquiet
        exact ⟨hf, hr, hfell, hrelay, hquiet⟩
  · dsimp only
    intro hcheck habort hout
    obtain ⟨q, howes, hdone, hboth, hcut, hgoes, hneither⟩ :=
      fall_holder hpresent hcount hphase hstate hholder hne hcheck habort hout
    exact ⟨q, howes, hdone.standby, hboth, hcut, hgoes, hneither, hdone.release y hholder⟩

end Sys2Proof.Machine
end

section
/-! The members of a zone that enters FAULTED, one after the other (R137, R144 to R146). -/

namespace Sys2Proof.Machine

/-! ### What a step for one context leaves of all the others -/

/-- The other contexts, the free buses' queues, and the zones but for their lists. -/
structure Part.MemberOnly (b : Bay) (x : Slot) (p q : Part) : Prop where
  others : ∀ c y, b ≠ c ∨ x ≠ y → q.ctx c y = p.ctx c y
  queues : ∀ c, (p.bay c).busQueue = [] → (q.bay c).busQueue = []
  zones  : ∀ z, (p.zone z).SameBut (q.zone z)
  phase  : q.phase = p.phase

namespace Part.MemberOnly

variable {b : Bay} {x : Slot} {p q r : Part}

theorem refl (p : Part) : p.MemberOnly b x p := ⟨fun _ _ _ => rfl, fun _ h => h, fun _ => .refl _, rfl⟩

theorem trans (h : p.MemberOnly b x q) (k : q.MemberOnly b x r) : p.MemberOnly b x r :=
  ⟨fun c y hn => (k.others c y hn).trans (h.others c y hn), fun c hc => k.queues c (h.queues c hc),
    fun z => (h.zones z).trans (k.zones z), k.phase.trans h.phase⟩

/-- A change of the bay that leaves the other contexts of it, and an empty bus queue. -/
theorem mapBay (p : Part) (f : BayUnit → BayUnit) (hctx : ∀ (u : BayUnit) y, x ≠ y → (f u).ctx y = u.ctx y)
    (hqueue : ∀ u : BayUnit, u.busQueue = [] → (f u).busQueue = []) : p.MemberOnly b x (p.mapBay b f) := by
  refine ⟨fun c y hn => ?_, fun c hc => ?_, fun _ => .refl _, rfl⟩
  · by_cases hb : b = c
    · subst hb
      exact (congrArg (fun u => BayUnit.ctx u y) (Part.bay_mapBay p b f)).trans (hctx _ y (hn.resolve_left fun h => h rfl))
    · exact congrArg (fun u => BayUnit.ctx u y) (Part.bay_mapBay_other p f hb)
  · by_cases hb : b = c
    · subst hb
      rw [Part.bay_mapBay]
      exact hqueue _ hc
    · rw [Part.bay_mapBay_other p f hb]
      exact hc

theorem of_bays (hb : q.bays = p.bays) (hz : q.zones = p.zones) (hp : q.phase = p.phase) : p.MemberOnly b x q := by
  have hbay : ∀ c, q.bay c = p.bay c := fun c => congrArg (fun v : Vector BayUnit 8 => v[c]) hb
  have hzone : ∀ z, q.zone z = p.zone z := fun z => by unfold Part.zone; rw [hz]
  exact ⟨fun c y _ => congrArg (fun u => BayUnit.ctx u y) (hbay c), fun c hc => by rw [hbay]; exact hc,
    fun z => by rw [hzone]; exact .refl _, hp⟩

theorem mapCtx (p : Part) (f : Ctx → Ctx) : p.MemberOnly b x (p.mapCtx b x f) :=
  mapBay p _ (fun u _ hy => BayUnit.ctx_mapCtx_other u f hy) fun _ h => h

theorem mapWork (p : Part) (f : Work → Work) : p.MemberOnly b x (p.mapWork b x f) := mapCtx p _

theorem mapLink (p : Part) (f : Link → Link) : p.MemberOnly b x (p.mapLink b f) := mapBay p _ (fun _ _ _ => rfl) fun _ h => h

theorem withdrawEntries (p : Part) (f : Entry → Bool) : p.MemberOnly b x (p.withdrawEntries b x f) := mapLink p _

theorem keepFlying (p : Part) : p.MemberOnly b x (p.keepFlying b x) := mapWork p _

theorem leaveBusQueue (p : Part) : p.MemberOnly b x (p.leaveBusQueue b x) :=
  mapBay p _ (fun _ _ _ => rfl) fun _ h => by
    dsimp only
    rw [h]
    rfl

theorem leaveChanQueue (p : Part) : p.MemberOnly b x (p.leaveChanQueue b x) := of_bays rfl rfl rfl

theorem later (p : Part) (l : List Conseq) : p.MemberOnly b x (p.later l) := of_bays rfl rfl rfl

theorem mapChan (p : Part) (k : Chan) (f : Channel → Channel) : p.MemberOnly b x (p.mapChan k f) := of_bays rfl rfl rfl

theorem giveUpBus (p : Part) (h : (p.bay b).busQueue = []) : p.MemberOnly b x (p.giveUpBus b x) := by
  rcases Part.giveUpBus_eq p b x h with heq | heq <;> rw [heq]
  · exact refl p
  · exact mapBay p _ (fun _ _ _ => rfl) fun _ h => h

theorem mapZone (p : Part) (z : ZoneNo) (f : Zone → Zone) (hf : ∀ y : Zone, y.SameBut (f y)) : p.MemberOnly b x (p.mapZone z f) := by
  refine ⟨fun _ _ _ => rfl, fun _ h => h, fun z' => ?_, rfl⟩
  by_cases h : z = z'
  · subst h
    rw [Part.zone_mapZone]
    exact hf _
  · rw [Part.zone_mapZone_other _ _ h]
    exact .refl _

theorem settleWith (p : Part) (r : Record) (missed : Bool) : p.MemberOnly b x (p.settleWith b x r missed) := by
  rw [Part.settleWith_eq]
  exact (mapCtx p _).trans (mapZone _ _ _ fun y => Zone.settleMember_sameBut ..)

theorem settleStarted (p : Part) : p.MemberOnly b x (p.settleStarted b x) := by
  unfold Part.settleStarted
  dsimp only
  split
  · exact settleWith p _ _
  · exact settleWith p _ _

theorem settleMissed (p : Part) : p.MemberOnly b x (p.settleMissed b x) := by
  obtain ⟨r, -, -, -, heq⟩ := p.settleMissed_eq b x
  rw [heq]
  exact settleWith p r true

theorem noPlateau (p : Part) : p.MemberOnly b x (p.noPlateau b x) := mapCtx p _

theorem dropChan (p : Part) (k : Chan) : p.MemberOnly b x (p.dropChan k) := by
  unfold Part.dropChan
  dsimp only
  split
  · exact (mapChan p k _).trans (later _ _)
  · exact mapChan p k _

theorem openChan (p : Part) (k : Chan) : p.MemberOnly b x (p.openChan k) := by
  unfold Part.openChan
  dsimp only
  split
  · exact later p _
  · exact refl p
  · exact mapChan p k _
  · split
    · exact mapChan p k _
    · exact (dropChan p k).trans (mapChan _ k _)

theorem unloadChan (p : Part) (k : Chan) : p.MemberOnly b x (p.unloadChan k) := by
  unfold Part.unloadChan
  dsimp only
  split
  · exact (mapChan p k _).trans (later _ _)
  · exact mapChan p k _

theorem enterRelease (p : Part) : p.MemberOnly b x (p.enterRelease b x) := by
  have hrelease : ∀ f, p.MemberOnly b x ((p.setPhase b x .release).mapWork b x f) := fun f => (mapCtx p _).trans (mapWork _ f)
  unfold Part.enterRelease
  dsimp only
  split
  · exact ((hrelease _).trans (mapChan _ _ _)).trans (unloadChan _ _)
  · exact ((hrelease _).trans (mapWork _ _)).trans (later _ _)

/-- A started measurement cut, in a bay whose bus queue is empty where it holds the bus alone (R146). -/
theorem cutPlateau (p : Part) (h : (p.ctx b x).phase = .channelWait → (p.bay b).busQueue = []) :
    p.MemberOnly b x (p.cutPlateau b x) := by
  have hcut : p.MemberOnly b x (p.mapCtx b x (fun c => c.mapLoop (fun l => { l with cut := true, zoneLost := true }))) := mapCtx p _
  unfold Part.cutPlateau
  dsimp only
  generalize p.mapCtx b x (fun c => c.mapLoop (fun l => { l with cut := true, zoneLost := true })) = q at hcut
  cases hphase : (p.ctx b x).phase with
  | plateauWait => exact ((hcut.trans (withdrawEntries q _)).trans (mapWork _ _)).trans (settleStarted _)
  | busWait => exact (hcut.trans (leaveBusQueue q)).trans (settleStarted _)
  | channelWait =>
    have hsettled := (hcut.trans (leaveChanQueue q)).trans (settleStarted _)
    exact hsettled.trans (giveUpBus _ (hsettled.queues b (h hphase)))
  | connect =>
    dsimp only
    split
    · exact hcut.trans (openChan q _)
    · exact hcut
  | prepare => exact ((hcut.trans (withdrawEntries q _)).trans (keepFlying _)).trans (enterRelease _)
  | apply | measure => exact hcut.trans (enterRelease q)
  | _ => exact hcut

end Part.MemberOnly

/-! ### What no turn touches, whoever holds the buses -/

theorem Closed.cutMember {P : Part → Prop} (h : Closed P) (p : Part) (b : Bay) (x : Slot) (hp : P p) : P (p.cutPlateau b x) := by
  have hcut := h.ctx p b x (fun c => c.mapLoop (fun l => { l with cut := true, zoneLost := true })) hp
  unfold Part.cutPlateau
  dsimp only
  generalize p.mapCtx b x (fun c => c.mapLoop (fun l => { l with cut := true, zoneLost := true })) = q at hcut
  cases (p.ctx b x).phase with
  | plateauWait => exact h.settleStarted _ _ _ (h.work _ _ _ _ (h.withdrawEntries q b x _ hcut))
  | busWait => exact h.settleStarted _ _ _ (h.leaveBusQueue q b x hcut)
  | channelWait => exact h.giveUpBus _ _ _ (h.settleStarted _ _ _ (h.leaveChanQueue q b x hcut))
  | connect =>
    dsimp only
    split
    · exact h.openChan q _ hcut
    · exact hcut
  | prepare => exact h.enterRelease _ _ _ (h.keepFlying _ _ _ (h.withdrawEntries q b x _ hcut))
  | apply | measure => exact h.enterRelease q b x hcut
  | _ => exact hcut

theorem Closed.missMember {P : Part → Prop} (h : Closed P) (p : Part) (b : Bay) (x : Slot) (hp : P p) : P (p.settleMissed b x) := by
  obtain ⟨r, -, -, -, heq⟩ := p.settleMissed_eq b x
  rw [heq]
  exact h.settleWith p b x r true hp

theorem Closed.memberFaulted {P : Part → Prop} (h : Closed P) (scheduled : Bool) (p : Part) (m : Member) (hp : P p) :
    P (p.faultMember scheduled m) := by
  have hlost := h.ctx p m.bay m.slot (fun c => c.mapLoop (fun l => { l with zoneLost := true })) hp
  unfold Part.faultMember
  dsimp only
  split
  · exact h.cutMember _ _ _ hlost
  · split
    · exact h.missMember _ _ _ hlost
    · exact h.noPlateau _ _ _ hlost

theorem Part.still_closed (t : Still) : Closed (fun q => q.still = t) where
  rest _ _ _ _ _ hstill h := hstill ▸ h
  bay _ _ _ _ h := h
  buffer _ _ _ _ _ h := h
  link _ _ _ _ h := h
  owned _ _ _ _ _ h := h
  arbiter _ _ h _ hp := h.2.2 ▸ hp

theorem Part.faultFold_still (scheduled : Bool) (l : List Member) (p : Part) :
    (l.foldl (Part.faultMember scheduled) p).still = p.still :=
  Closed.fold (fun q m hq => (Part.still_closed p.still).memberFaulted scheduled q m hq) l p rfl

/-! ### One member of a zone that enters FAULTED (R137, R146) -/

/-- A context whose zone is lost. -/
def Ctx.lost (c : Ctx) : Ctx := c.mapLoop (fun l => { l with zoneLost := true })

/-- The part in which a member's zone is lost. -/
def Part.lost (p : Part) (m : Member) : Part := p.mapCtx m.bay m.slot Ctx.lost

@[simp] theorem Part.ctx_lost (p : Part) (m : Member) : (p.lost m).ctx m.bay m.slot = (p.ctx m.bay m.slot).lost :=
  Part.ctx_mapCtx p m.bay m.slot _

theorem Part.faultMember_cut {p : Part} {m : Member} (h : p.measuring m = true) (scheduled : Bool) :
    p.faultMember scheduled m = (p.lost m).cutPlateau m.bay m.slot := if_pos h

theorem Part.faultMember_missed {p : Part} {m : Member} (h : p.measuring m = false) (howing : m.measured = false) :
    p.faultMember true m = (p.lost m).settleMissed m.bay m.slot := by
  unfold Part.faultMember
  dsimp only
  rw [if_neg (by rw [h]; exact nofun), if_pos (by rw [howing]; rfl)]
  rfl

theorem Part.faultMember_ends {p : Part} {m : Member} {scheduled : Bool} (h : p.measuring m = false)
    (hsettled : m.measured = true ∨ scheduled = false) :
    p.faultMember scheduled m = (p.lost m).noPlateau m.bay m.slot := by
  unfold Part.faultMember
  dsimp only
  rw [if_neg (by rw [h]; exact nofun), if_neg (by rcases hsettled with h | h <;> simp [h])]
  rfl

theorem Part.MemberOnly.faultMember {p : Part} {m : Member}
    (h : (p.ctx m.bay m.slot).phase = .channelWait → (p.bay m.bay).busQueue = []) (scheduled : Bool) :
    p.MemberOnly m.bay m.slot (p.faultMember scheduled m) := by
  have hlost : p.MemberOnly m.bay m.slot (p.lost m) := .mapCtx p _
  cases hm : p.measuring m with
  | true =>
    rw [Part.faultMember_cut hm]
    refine hlost.trans (.cutPlateau _ fun hphase => hlost.queues _ (h ?_))
    rw [Part.ctx_lost] at hphase
    exact hphase
  | false =>
    cases howing : m.measured with
    | true =>
      rw [Part.faultMember_ends hm (.inl howing)]
      exact hlost.trans (.noPlateau _)
    | false =>
      cases scheduled with
      | true =>
        rw [Part.faultMember_missed hm howing]
        exact hlost.trans (.settleMissed _)
      | false =>
        rw [Part.faultMember_ends hm (.inr rfl)]
        exact hlost.trans (.noPlateau _)

/-! ### All the members, one after the other -/

/-- Each member that waits for a channel is alone at its bus. -/
def Part.AloneAtBus (p : Part) (l : List Member) : Prop :=
  ∀ m ∈ l, (p.ctx m.bay m.slot).phase = .channelWait → (p.bay m.bay).busQueue = []

theorem Part.AloneAtBus.next {p : Part} {m : Member} {l : List Member} (h : p.AloneAtBus (m :: l))
    (hnodup : ((m :: l).map (fun m => (m.bay, m.slot))).Nodup) (scheduled : Bool) : (p.faultMember scheduled m).AloneAtBus l := by
  have hstep := Part.MemberOnly.faultMember (h m List.mem_cons_self) scheduled
  obtain ⟨hnot, -⟩ := List.nodup_cons.mp hnodup
  intro n hn hphase
  refine hstep.queues _ (h n (List.mem_cons_of_mem _ hn) ?_)
  rw [← hstep.others n.bay n.slot ?_]
  · exact hphase
  · refine Decidable.not_and_iff_not_or_not.mp fun hsame => hnot ?_
    exact List.mem_map.mpr ⟨n, hn, Prod.ext hsame.1.symm hsame.2.symm⟩

/-- A context that is none of the members stays as it is. -/
theorem Part.faultFold_others {scheduled : Bool} {l : List Member} {p : Part} {b : Bay} {x : Slot} (halone : p.AloneAtBus l)
    (hnodup : (l.map (fun m => (m.bay, m.slot))).Nodup) (h : (b, x) ∉ l.map (fun m => (m.bay, m.slot))) :
    (l.foldl (Part.faultMember scheduled) p).ctx b x = p.ctx b x := by
  induction l generalizing p with
  | nil => rfl
  | cons m l ih =>
    obtain ⟨hne, hnot⟩ := not_or.mp (fun hor => h (List.mem_cons.mpr hor))
    refine (ih (halone.next hnodup scheduled) (List.nodup_cons.mp hnodup).2 hnot).trans ?_
    refine (Part.MemberOnly.faultMember (halone m List.mem_cons_self) scheduled).others b x ?_
    exact Decidable.not_and_iff_not_or_not.mp fun hsame => hne (Prod.ext hsame.1.symm hsame.2.symm)

/-- A member has its turn in a part where its context and its zone are as at the start. -/
theorem Part.faultFold_turn {scheduled : Bool} {l : List Member} {p : Part} {m : Member} (halone : p.AloneAtBus l)
    (hnodup : (l.map (fun m => (m.bay, m.slot))).Nodup) (hm : m ∈ l) :
    ∃ q : Part, q.ctx m.bay m.slot = p.ctx m.bay m.slot ∧ (∀ z, (p.zone z).SameBut (q.zone z)) ∧
      ((q.ctx m.bay m.slot).phase = .channelWait → (q.bay m.bay).busQueue = []) ∧
      (l.foldl (Part.faultMember scheduled) p).ctx m.bay m.slot = (q.faultMember scheduled m).ctx m.bay m.slot := by
  induction l generalizing p with
  | nil => exact absurd hm nofun
  | cons n l ih =>
    obtain ⟨hnot, hrest⟩ := List.nodup_cons.mp hnodup
    have hnext := halone.next hnodup scheduled
    rcases List.mem_cons.mp hm with rfl | hm
    · exact ⟨p, rfl, fun _ => .refl _, halone m List.mem_cons_self, Part.faultFold_others hnext hrest hnot⟩
    · have hstep := Part.MemberOnly.faultMember (halone n List.mem_cons_self) scheduled
      have hother : (p.faultMember scheduled n).ctx m.bay m.slot = p.ctx m.bay m.slot := hstep.others _ _
        (Decidable.not_and_iff_not_or_not.mp fun hsame => hnot (List.mem_map.mpr ⟨m, hm, Prod.ext hsame.1.symm hsame.2.symm⟩))
      obtain ⟨q, hctx, hzones, hqueue, hfold⟩ := ih hnext hrest hm
      exact ⟨q, hctx.trans hother, fun z => (hstep.zones z).trans (hzones z), hqueue, hfold⟩

end Sys2Proof.Machine
end

section
/-! A reading of a Zone Controller: FAULTED, and what it makes of each member; in band and out of band (R130, R133, R134, R136, R137). -/

namespace Sys2Proof.Machine

/-! ### What a member owes behind its turn -/

/-- A context that owes its plateau as MISSED (R144). -/
def Ctx.Missed (d : Ctx) (n : Nat) : Prop :=
  d.phase = .record ∧ ∃ r, .record r ∈ d.out ∧ r.kind = .plateau ∧ r.outcome = .missed ∧ r.number = n

/-- A context that owes the SUMMARY of its loop (R145). -/
def Ctx.Summed (d : Ctx) (o : CheckOutcome) : Prop :=
  ∃ r, .record r ∈ d.out ∧ r.kind = .summary ∧ r.outcome = o ∧ r.last = true ∧ .applyResult ∈ d.out

/-- How the loop of a lost zone ends with the plateau missed (R137, R145). -/
def Ctx.lastOutcome (c : Ctx) : CheckOutcome := if c.loop - 1 = 0 then .performed else .noPlateau

theorem Ctx.loopEnd_lost {c : Ctx} (h : c.derate.zoneLost = true) : c.loopEnd true = some c.lastOutcome := by
  unfold Ctx.loopEnd Loop.endsWith Ctx.lastOutcome
  split
  · rfl
  · rfl

theorem Ctx.settled_missed (c : Ctx) (b : Bay) (x : Slot) {r : Record} (hkind : r.kind = .plateau) (hout : r.outcome = .missed)
    (now : Stamp) : (c.settled b x r true now).Missed r.number := ⟨rfl, r, Ctx.settled_owes .., hkind, hout, rfl⟩

theorem Ctx.settled_summed {c : Ctx} (h : c.derate.zoneLost = true) (b : Bay) (x : Slot) (r : Record) (now : Stamp) :
    (c.settled b x r true now).Summed c.lastOutcome := by
  unfold Ctx.settled Ctx.afterPlateau
  rw [Ctx.loopEnd_lost h]
  exact ⟨_, List.mem_append_right _ List.mem_cons_self, rfl, rfl, rfl,
    List.mem_append_right _ (List.mem_cons_of_mem _ List.mem_cons_self)⟩

theorem Part.ctx_settleWith (p : Part) (b : Bay) (x : Slot) (r : Record) (missed : Bool) :
    (p.settleWith b x r missed).ctx b x = (p.ctx b x).settled b x r missed p.stamp := by
  rw [Part.settleWith_eq, Part.ctx_mapZone, Part.ctx_mapCtx]

/-- A started plateau that was cut settles as MISSED under its own number (R144, R146). -/
theorem Part.settleStarted_cut {p : Part} {b : Bay} {x : Slot} (hcut : (p.ctx b x).derate.cut = true)
    (hlost : (p.ctx b x).derate.zoneLost = true) :
    ((p.settleStarted b x).ctx b x).Missed (p.ctx b x).derate.plateau ∧
      ((p.settleStarted b x).ctx b x).Summed (p.ctx b x).lastOutcome := by
  unfold Part.settleStarted
  dsimp only
  rw [if_pos hcut, Part.ctx_settleWith]
  exact ⟨Ctx.settled_missed _ b x rfl rfl _, Ctx.settled_summed hlost b x _ _⟩

/-- The zone's plateau settles as MISSED for a member that has not started it (R137, R144). -/
theorem Part.settleMissed_does {p : Part} {b : Bay} {x : Slot} (hlost : (p.ctx b x).derate.zoneLost = true) :
    ((p.settleMissed b x).ctx b x).Missed ((p.zone (zoneOf b)).index + 1) ∧
      ((p.settleMissed b x).ctx b x).Summed (p.ctx b x).lastOutcome := by
  obtain ⟨r, hkind, hout, hnumber, heq⟩ := p.settleMissed_eq b x
  rw [heq, Part.ctx_settleWith, ← hnumber]
  exact ⟨Ctx.settled_missed _ b x hkind hout _, Ctx.settled_summed hlost b x r _⟩

theorem Part.noPlateau_does (p : Part) (b : Bay) (x : Slot) :
    ((p.noPlateau b x).ctx b x).phase = .record ∧ ((p.noPlateau b x).ctx b x).Summed .noPlateau := by
  unfold Part.noPlateau
  rw [Part.ctx_mapCtx]
  exact ⟨rfl, _, List.mem_append_right _ List.mem_cons_self, rfl, rfl, rfl,
    List.mem_append_right _ (List.mem_cons_of_mem _ List.mem_cons_self)⟩

/-! ### A started measurement cut (R146) -/

/-- A context whose started measurement is cut. -/
def Ctx.cutLoop (c : Ctx) : Ctx := c.mapLoop (fun l => { l with cut := true, zoneLost := true })

/-- The part in which a started measurement is cut. -/
def Part.cutLoop (p : Part) (b : Bay) (x : Slot) : Part := p.mapCtx b x Ctx.cutLoop

@[simp] theorem Part.ctx_cutLoop (p : Part) (b : Bay) (x : Slot) : (p.cutLoop b x).ctx b x = (p.ctx b x).cutLoop :=
  Part.ctx_mapCtx p b x _

/-- What settles a cut measurement in a phase where its check waits. -/
theorem Part.settleStarted_waiting {p q : Part} {b : Bay} {x : Slot} (h : ∃ f, q.ctx b x = (p.ctx b x).cutLoop.mapWork f) :
    ((q.settleStarted b x).ctx b x).Missed (p.ctx b x).derate.plateau ∧
      ((q.settleStarted b x).ctx b x).Summed (p.ctx b x).lastOutcome := by
  obtain ⟨f, hctx⟩ := h
  have hcut : (q.ctx b x).derate.cut = true := by rw [hctx]; rfl
  have hlost : (q.ctx b x).derate.zoneLost = true := by rw [hctx]; rfl
  have hnumber : (q.ctx b x).derate.plateau = (p.ctx b x).derate.plateau := by rw [hctx]; rfl
  have hlast : (q.ctx b x).lastOutcome = (p.ctx b x).lastOutcome := by rw [hctx]; rfl
  rw [← hnumber, ← hlast]
  exact Part.settleStarted_cut hcut hlost

theorem Part.cutPlateau_waits {p : Part} {b : Bay} {x : Slot} (h : (p.ctx b x).phase ∈ [Phase.plateauWait, .busWait, .channelWait])
    (hqueue : (p.ctx b x).phase = .channelWait → (p.bay b).busQueue = []) :
    ((p.cutPlateau b x).ctx b x).Missed (p.ctx b x).derate.plateau ∧
      ((p.cutPlateau b x).ctx b x).Summed (p.ctx b x).lastOutcome := by
  have hctx := p.ctx_cutLoop b x
  simp only [List.mem_cons, List.not_mem_nil, or_false] at h
  rcases h with h | h | h
  · have heq : p.cutPlateau b x = (((p.cutLoop b x).withdrawEntries b x (fun e => e.purpose == .own && e.kind == .limitRead)).mapWork b x
        (fun w => { w with step := .idle, await := none })).settleStarted b x := by
      unfold Part.cutPlateau
      rw [h]
      rfl
    rw [heq]
    exact Part.settleStarted_waiting ⟨_, by rw [Part.ctx_mapWork, Part.ctx_withdrawEntries, hctx]⟩
  · have heq : p.cutPlateau b x = ((p.cutLoop b x).leaveBusQueue b x).settleStarted b x := by
      unfold Part.cutPlateau
      rw [h]
      rfl
    rw [heq]
    exact Part.settleStarted_waiting ⟨id, by rw [Part.ctx_leaveBusQueue, hctx]; rfl⟩
  · have heq : p.cutPlateau b x = (((p.cutLoop b x).leaveChanQueue b x).settleStarted b x).giveUpBus b x := by
      unfold Part.cutPlateau
      rw [h]
      rfl
    have hempty : ((((p.cutLoop b x).leaveChanQueue b x).settleStarted b x).bay b).busQueue = [] :=
      (((Part.MemberOnly.mapCtx p Ctx.cutLoop).trans (.leaveChanQueue _)).trans (.settleStarted _)).queues b (hqueue h)
    have hsettled := Part.settleStarted_waiting (p := p) (b := b) (x := x) (q := (p.cutLoop b x).leaveChanQueue b x)
      ⟨id, by rw [Part.ctx_leaveChanQueue, hctx]; rfl⟩
    rw [heq]
    generalize ((p.cutLoop b x).leaveChanQueue b x).settleStarted b x = q at hempty hsettled
    rcases Part.giveUpBus_eq q b x hempty with hgive | hgive <;> rw [hgive]
    · exact hsettled
    · rw [Part.ctx_mapBay_ctxs q b (fun u => { u with busHolder := none }) rfl]
      exact hsettled

/-- A measurement cut with its channel closed goes to RELEASE. -/
theorem Part.cutPlateau_releases {p : Part} {b : Bay} {x : Slot} (h : (p.ctx b x).phase ∈ [Phase.prepare, .apply, .measure]) :
    ((p.cutPlateau b x).ctx b x).phase = .release ∧ ((p.cutPlateau b x).ctx b x).derate.cut = true := by
  have hrelease : ∀ q : Part, (q.ctx b x).derate.cut = true →
      ((q.enterRelease b x).ctx b x).phase = .release ∧ ((q.enterRelease b x).ctx b x).derate.cut = true := fun q hq => by
    obtain ⟨o, r, heq⟩ := Part.ctx_enterRelease q b x
    rw [heq]
    exact ⟨rfl, hq⟩
  have hctx := p.ctx_cutLoop b x
  simp only [List.mem_cons, List.not_mem_nil, or_false] at h
  rcases h with h | h | h
  · have heq : p.cutPlateau b x = (((p.cutLoop b x).withdrawEntries b x
        (fun e => e.purpose != .restore && e.purpose != .identify)).keepFlying b x).enterRelease b x := by
      unfold Part.cutPlateau
      rw [h]
      rfl
    rw [heq]
    refine hrelease _ ?_
    obtain ⟨o, ho⟩ := Part.ctx_keepFlying ((p.cutLoop b x).withdrawEntries b x
      (fun e => e.purpose != .restore && e.purpose != .identify)) b x
    rw [ho, Part.ctx_withdrawEntries, hctx]
    rfl
  · have heq : p.cutPlateau b x = (p.cutLoop b x).enterRelease b x := by
      unfold Part.cutPlateau
      rw [h]
      rfl
    rw [heq]
    exact hrelease _ (by rw [hctx]; rfl)
  · have heq : p.cutPlateau b x = (p.cutLoop b x).enterRelease b x := by
      unfold Part.cutPlateau
      rw [h]
      rfl
    rw [heq]
    exact hrelease _ (by rw [hctx]; rfl)

/-- A measurement cut while its relays close, or on its way out, keeps its phase. -/
theorem Part.cutPlateau_goes {p : Part} {b : Bay} {x : Slot} (h : (p.ctx b x).phase ∈ [Phase.connect, .recover, .release]) :
    ((p.cutPlateau b x).ctx b x).phase = (p.ctx b x).phase ∧ ((p.cutPlateau b x).ctx b x).derate.cut = true := by
  have hctx := p.ctx_cutLoop b x
  have hsame : (p.cutPlateau b x).ctx b x = (p.cutLoop b x).ctx b x := by
    simp only [List.mem_cons, List.not_mem_nil, or_false] at h
    unfold Part.cutPlateau
    rcases h with h | h | h
    · rw [h]
      dsimp only
      split
      · exact Part.ctx_openChan _ _ b x
      · rfl
    · rw [h]
      rfl
    · rw [h]
      rfl
  rw [hsame, hctx]
  exact ⟨rfl, rfl⟩

/-! ### A zone that enters FAULTED (R137) -/

/-- The part of a zone that enters FAULTED, before its notice and the records that become ready. -/
def Part.faulted (p : Part) (z : ZoneNo) : Part :=
  ((p.zone z).joined.foldl (Part.faultMember (p.zone z).state.scheduled) p).mapZone z (fun y =>
    Zone.setTarget ((p.zone z).joined.foldl (Part.faultMember (p.zone z).state.scheduled) p).tick y.rest
      { y with state := .faulted, settle := none, limit := none, schedule := none, joined := [] })

theorem Part.zoneFaulted_eq (p : Part) (z : ZoneNo) : ∃ l, p.zoneFaulted z = ((p.faulted z).notify .zone).outputs l := ⟨_, rfl⟩

theorem Part.ctx_zoneFaulted (p : Part) (z : ZoneNo) (b : Bay) (x : Slot) : (p.zoneFaulted z).ctx b x =
    ((p.zone z).joined.foldl (Part.faultMember (p.zone z).state.scheduled) p).ctx b x := by
  obtain ⟨l, heq⟩ := p.zoneFaulted_eq z
  obtain ⟨k, m, hnotify⟩ := (p.faulted z).notify_eq .zone
  rw [heq, Part.outputs_ctx, hnotify]
  rfl

theorem Part.zone_zoneFaulted (p : Part) (z : ZoneNo) :
    ((p.zoneFaulted z).zone z).state = .faulted ∧ ((p.zoneFaulted z).zone z).schedule = none ∧
      ((p.zoneFaulted z).zone z).settle = none ∧ ((p.zoneFaulted z).zone z).limit = none ∧
      ((p.zoneFaulted z).zone z).joined = [] ∧ ((p.zoneFaulted z).zone z).target = ((p.zoneFaulted z).zone z).rest := by
  obtain ⟨l, heq⟩ := p.zoneFaulted_eq z
  obtain ⟨k, m, hnotify⟩ := (p.faulted z).notify_eq .zone
  have hzone : (p.zoneFaulted z).zone z = (p.faulted z).zone z := by
    rw [heq, Part.outputs_zone, hnotify]
    rfl
  rw [hzone]
  unfold Part.faulted
  rw [Part.zone_mapZone, Zone.setTarget_state, Zone.setTarget_schedule, Zone.setTarget_settle, Zone.setTarget_limit,
    Zone.setTarget_joined, Zone.setTarget_target, Zone.setTarget_rest]
  exact ⟨rfl, rfl, rfl, rfl, rfl, rfl⟩

theorem Part.zoneFaulted_raises {p : Part} (h : p.phase ≠ .starting) (z : ZoneNo) :
    (p.zoneFaulted z).pendingSet &&& BitVec.twoPow 7 5 ≠ 0 := by
  obtain ⟨l, heq⟩ := p.zoneFaulted_eq z
  obtain ⟨n, t, hout⟩ := ((p.faulted z).notify .zone).outputs_eq l
  have hphase : (p.faulted z).phase = p.phase :=
    congrArg Still.phase (Part.faultFold_still (p.zone z).state.scheduled (p.zone z).joined p)
  have hset : (p.zoneFaulted z).pendingSet = (p.faulted z).pendingSet ||| BitVec.twoPow 7 5 := by
    rw [heq, hout]
    exact ((p.faulted z).notify_pendingSet .zone).trans (if_neg (by rw [hphase]; exact h))
  rw [hset]
  generalize (p.faulted z).pendingSet = k
  intro hzero
  have hbit := congrArg (fun v : BitVec 7 => v.getLsbD 5) hzero
  simp at hbit

/-- What a member owes once its zone has entered FAULTED (R137, R146). -/
structure Part.MemberFaulted (p : Part) (y : Zone) (m : Member) (c d : Ctx) : Prop where
  waits    : p.measuring m = true → c.phase ∈ [Phase.plateauWait, .busWait, .channelWait] →
    d.Missed c.derate.plateau ∧ d.Summed c.lastOutcome
  releases : p.measuring m = true → c.phase ∈ [Phase.prepare, .apply, .measure] → d.phase = .release ∧ d.derate.cut = true
  goes     : p.measuring m = true → c.phase ∈ [Phase.connect, .recover, .release] → d.phase = c.phase ∧ d.derate.cut = true
  owing    : p.measuring m = false → m.measured = false → y.state.scheduled = true →
    d.Missed (y.index + 1) ∧ d.Summed c.lastOutcome
  ends     : p.measuring m = false → m.measured = true ∨ y.state.scheduled = false → d.phase = .record ∧ d.Summed .noPlateau

theorem Part.zoneFaulted_member {p : Part} {z : ZoneNo} {m : Member}
    (hnodup : ((p.zone z).joined.map (fun m => (m.bay, m.slot))).Nodup) (halone : p.AloneAtBus (p.zone z).joined)
    (hzone : zoneOf m.bay = z) (hm : m ∈ (p.zone z).joined) :
    p.MemberFaulted (p.zone z) m (p.ctx m.bay m.slot) ((p.zoneFaulted z).ctx m.bay m.slot) := by
  obtain ⟨q, hctx, hzones, hqueue, hturn⟩ :=
    Part.faultFold_turn (scheduled := (p.zone z).state.scheduled) halone hnodup hm
  obtain ⟨j, hindex⟩ := hzones (zoneOf m.bay)
  have hmeasuring : q.measuring m = p.measuring m := by
    unfold Part.measuring
    rw [hctx]
  have hlost := q.ctx_lost m
  rw [hctx] at hlost hqueue
  have hqueue' : (p.ctx m.bay m.slot).phase = .channelWait → ((q.lost m).bay m.bay).busQueue = [] := fun h =>
    (Part.MemberOnly.mapCtx (b := m.bay) (x := m.slot) q Ctx.lost).queues m.bay (hqueue h)
  rw [Part.ctx_zoneFaulted, hturn]
  refine ⟨fun h hphase => ?_, fun h hphase => ?_, fun h hphase => ?_, fun h howing hscheduled => ?_, fun h hsettled => ?_⟩
  · have hwaits := Part.cutPlateau_waits (p := q.lost m) (b := m.bay) (x := m.slot)
    rw [hlost] at hwaits
    rw [Part.faultMember_cut (hmeasuring.trans h)]
    exact hwaits hphase hqueue'
  · have hreleases := Part.cutPlateau_releases (p := q.lost m) (b := m.bay) (x := m.slot)
    rw [hlost] at hreleases
    rw [Part.faultMember_cut (hmeasuring.trans h)]
    exact hreleases hphase
  · have hgoes := Part.cutPlateau_goes (p := q.lost m) (b := m.bay) (x := m.slot)
    rw [hlost] at hgoes
    rw [Part.faultMember_cut (hmeasuring.trans h)]
    exact hgoes hphase
  · have hmissed := Part.settleMissed_does (p := q.lost m) (b := m.bay) (x := m.slot) (by rw [hlost]; rfl)
    rw [hlost, show (q.lost m).zone (zoneOf m.bay) = q.zone (zoneOf m.bay) from rfl, hindex, hzone] at hmissed
    rw [hscheduled, Part.faultMember_missed (hmeasuring.trans h) howing]
    exact hmissed
  · rw [Part.faultMember_ends (hmeasuring.trans h) hsettled]
    exact (q.lost m).noPlateau_does m.bay m.slot

end Sys2Proof.Machine
end

section
/-! A reading of a Zone Controller that is no fault reading, and the obligation (R130, R133, R134, R136). -/

namespace Sys2Proof.Machine

theorem Part.mapZone_mapZone (p : Part) (z : ZoneNo) (f g : Zone → Zone) :
    (p.mapZone z f).mapZone z g = p.mapZone z (fun y => g (f y)) := by
  have hzone := Part.zone_mapZone p z f
  unfold Part.zone at hzone
  unfold Part.mapZone Part.zone
  unfold Part.mapZone Part.zone at hzone
  congr 1
  rw [hzone]
  exact Vector.set_set ..

/-- The part whose zone has taken a reading. -/
def Part.hasRead (p : Part) (z : ZoneNo) (r : Reading) : Part := p.mapZone z (fun y => { y with latest := some r })

theorem Part.zone_hasRead (p : Part) (z : ZoneNo) (r : Reading) : (p.hasRead z r).zone z = { p.zone z with latest := some r } :=
  Part.zone_mapZone p z _

/-! ### The members still measuring, marked (R134) -/

/-- A context marked OFF_BAND. -/
def Ctx.offBand (c : Ctx) : Ctx := { c with marks := { c.marks with offBand := true } }

theorem Part.markFold_kept (l : List Member) (p : Part) :
    (l.foldl (fun p m => p.mapCtx m.bay m.slot Ctx.offBand) p).zones = p.zones ∧
      (l.foldl (fun p m => p.mapCtx m.bay m.slot Ctx.offBand) p).todo = p.todo := by
  induction l generalizing p with
  | nil => exact ⟨rfl, rfl⟩
  | cons m l ih => exact ih (p.mapCtx m.bay m.slot Ctx.offBand)

theorem Part.ctx_markFold (l : List Member) (p : Part) (b : Bay) (x : Slot) :
    (l.foldl (fun p m => p.mapCtx m.bay m.slot Ctx.offBand) p).ctx b x =
      if l.any (fun m => m.bay == b && m.slot == x) then (p.ctx b x).offBand else p.ctx b x := by
  induction l generalizing p with
  | nil => rfl
  | cons m l ih =>
    rw [List.foldl_cons, ih, List.any_cons]
    by_cases hm : m.bay = b ∧ m.slot = x
    · obtain ⟨rfl, rfl⟩ := hm
      rw [Part.ctx_mapCtx, beq_self_eq_true, beq_self_eq_true, Bool.and_self, Bool.true_or, if_pos rfl]
      split <;> rfl
    · have hne : (m.bay == b && m.slot == x) = false := by
        rw [← Bool.not_eq_true, Bool.and_eq_true_iff, beq_iff_eq, beq_iff_eq]
        exact hm
      rw [Part.ctx_mapCtx_ne p Ctx.offBand (Decidable.not_and_iff_not_or_not.mp hm), hne, Bool.false_or]

theorem Part.markOffBand_eq (p : Part) (z : ZoneNo) : p.markOffBand z =
    ((p.zone z).joined.filter p.measuring).foldl (fun p m => p.mapCtx m.bay m.slot Ctx.offBand) p := rfl

/-- Which contexts an out-of-band reading marks (R134). -/
theorem Part.ctx_markOffBand (p : Part) (z : ZoneNo) (b : Bay) (x : Slot) : (p.markOffBand z).ctx b x =
    if (p.zone z).joined.any (fun m => m.bay == b && m.slot == x && (m.started || (p.ctx b x).derate.started) && !m.measured) then
      (p.ctx b x).offBand else p.ctx b x := by
  have hsame : ((p.zone z).joined.filter p.measuring).any (fun m => m.bay == b && m.slot == x) =
      (p.zone z).joined.any (fun m => m.bay == b && m.slot == x && (m.started || (p.ctx b x).derate.started) && !m.measured) := by
    rw [List.any_filter]
    refine List.any_congr rfl fun m => ?_
    unfold Part.measuring
    by_cases hm : m.bay = b ∧ m.slot = x
    · obtain ⟨rfl, rfl⟩ := hm
      simp [Bool.and_comm]
    · have hne : (m.bay == b && m.slot == x) = false := by
        rw [← Bool.not_eq_true, Bool.and_eq_true_iff, beq_iff_eq, beq_iff_eq]
        exact hm
      rw [hne]
      simp
  rw [Part.markOffBand_eq, Part.ctx_markFold, hsame]

/-! ### The readings, by the zone's state -/

theorem Owes.zoneReading {s : State} {z : ZoneNo} {a b : SensorResult} {q : Part}
    (h : s.part.fresh.zoneReading z (judgeReading a b) = q) : Owes (.zoneReading z a b) s s.book q :=
  Owes.of_runWith (f := fun p => p.zoneReading z (judgeReading a b)) rfl h

theorem Part.zoneReading_recorded {p : Part} {z : ZoneNo} {r : Reading}
    (h : p.phase = .halted ∨ r.fault = true ∧ (p.zone z).state = .faulted) : p.zoneReading z r = p.hasRead z r := by
  unfold Part.zoneReading
  dsimp only
  by_cases hphase : p.phase = .halted
  · rw [if_pos hphase]
    rfl
  · obtain ⟨hfault, hstate⟩ := h.resolve_left hphase
    rw [if_neg hphase, if_pos hfault, if_pos hstate]
    rfl

theorem Part.zoneReading_faults {p : Part} {z : ZoneNo} {r : Reading} (hphase : p.phase ≠ .halted) (hfault : r.fault = true)
    (hstate : (p.zone z).state ≠ .faulted) : p.zoneReading z r = (p.hasRead z r).zoneFaulted z := by
  unfold Part.zoneReading
  dsimp only
  rw [if_neg hphase, if_pos hfault, if_neg hstate]
  rfl

theorem Part.zoneReading_acts {p : Part} {z : ZoneNo} {r : Reading} (hphase : p.phase ≠ .halted) (hfault : r.fault = false) :
    p.zoneReading z r = (p.hasRead z r).actOnReading z (r.inBand (p.zone z).target (p.zone z).band) := by
  unfold Part.zoneReading
  dsimp only
  rw [if_neg hphase, if_neg (by rw [hfault]; exact nofun)]
  rfl

/-- The zones that a reading leaves where they are. -/
theorem Part.actOnReading_stays {p : Part} {z : ZoneNo} {inBand : Bool}
    (h : inBand = true ∧ (p.zone z).state ∈ [ZoneState.settling, .opened, .closing] ∨
      inBand = false ∧ (p.zone z).state ∈ [ZoneState.moving, .returning] ∨ (p.zone z).state ∈ [ZoneState.rest, .faulted]) :
    p.actOnReading z inBand = p := by
  unfold Part.actOnReading
  rcases h with ⟨rfl, h⟩ | ⟨rfl, h⟩ | h
  · cases hstate : (p.zone z).state with
    | settling | opened | closing => rfl
    | _ => exact absurd (hstate ▸ h) (by decide)
  · cases hstate : (p.zone z).state with
    | moving | returning => rfl
    | _ => exact absurd (hstate ▸ h) (by decide)
  · cases hstate : (p.zone z).state with
    | rest | faulted => rfl
    | _ => exact absurd (hstate ▸ h) (by decide)

theorem Part.actOnReading_settles {p : Part} {z : ZoneNo} (h : (p.zone z).state = .moving) :
    p.actOnReading z true = p.mapZone z (fun y => { y.startSettle p.tick with state := .settling }) := by
  unfold Part.actOnReading
  rw [h]
  rfl

theorem Part.actOnReading_restarts {p : Part} {z : ZoneNo} (h : (p.zone z).state = .settling) :
    p.actOnReading z false = p.mapZone z (Zone.startSettle p.tick) := by
  unfold Part.actOnReading
  rw [h]
  rfl

theorem Part.actOnReading_rests {p : Part} {z : ZoneNo} (h : (p.zone z).state = .returning) :
    p.actOnReading z true = (p.mapZone z (fun y => { y with state := .rest, schedule := none })).notify .zone := by
  unfold Part.actOnReading
  rw [h]
  rfl

theorem Part.actOnReading_marks {p : Part} {z : ZoneNo} (h : (p.zone z).state ∈ [ZoneState.opened, .closing]) :
    p.actOnReading z false = p.markOffBand z := by
  unfold Part.actOnReading
  cases hstate : (p.zone z).state with
  | opened | closing => rfl
  | _ => exact absurd (hstate ▸ h) (by decide)

/-! ### The obligation -/

/-- The settle span of a zone, from its full length (R133). -/
def Zone.startsSettle (now : Nat) (y : Zone) : Option SpanTimer := y.plateau.map (fun q => ⟨now, q.settle.ticks⟩)

/-- A reading that is no fault reading, seen by the state before the command. -/
theorem State.zoneReading_acts {s : State} {z : ZoneNo} {r : Reading} (hphase : s.part.phase ≠ .halted) (hfault : r.fault = false) :
    s.part.fresh.zoneReading z r =
      (s.part.fresh.hasRead z r).actOnReading z (r.inBand (s.part.zone z).target (s.part.zone z).band) :=
  Part.zoneReading_acts (p := s.part.fresh) hphase hfault

/-- A reading that leaves its zone in place, or changes it as `f` does. -/
theorem Does.zoneReading {s : State} {z : ZoneNo} {a b : SensorResult} {f g : Zone → Zone}
    (h : s.part.fresh.zoneReading z (judgeReading a b) = (s.part.fresh.hasRead z (judgeReading a b)).mapZone z g)
    (hfg : g { s.part.zone z with latest := some (judgeReading a b) } = f { s.part.zone z with latest := some (judgeReading a b) }) :
    Does (.zoneReading z a b) s s.book (s.part.fresh.mapZone z (fun y => f { y with latest := some (judgeReading a b) })) := by
  refine (Owes.zoneReading (h.trans ?_)).does rfl
  unfold Part.hasRead
  rw [Part.mapZone_mapZone]
  exact Part.mapZone_congr _ z hfg

theorem Does.zoneReading_stays {s : State} {z : ZoneNo} {a b : SensorResult}
    (h : s.part.fresh.zoneReading z (judgeReading a b) = s.part.fresh.hasRead z (judgeReading a b)) :
    Does (.zoneReading z a b) s s.book (s.part.fresh.mapZone z (fun y => id { y with latest := some (judgeReading a b) })) :=
  (Owes.zoneReading h).does rfl

theorem ZoneState.scheduled_iff {st : ZoneState} : st.scheduled = true ↔ st ∈ [ZoneState.moving, .settling, .opened, .closing] := by
  cases st <;> decide

/-- Settles O49. -/
theorem readingsMoveTheZone : Obligations.ReadingsMoveTheZone := by
  unfold Obligations.ReadingsMoveTheZone
  intro s z a b
  have hread := s.part.fresh.zone_hasRead z (judgeReading a b)
  have hstate : ((s.part.fresh.hasRead z (judgeReading a b)).zone z).state = (s.part.zone z).state := by rw [hread]; rfl
  refine ⟨fun h => ?_, fun hphase hfault hnot => ?_, fun hphase hfault hband => ⟨fun h => ?_, fun h => ?_, fun h hrun => ?_⟩,
    fun hphase hfault hband => ⟨fun h => ?_, fun h => ?_, fun h => ?_, fun h => ?_⟩, fun hphase hfault h => ?_⟩
  · exact .zoneReading_stays (Part.zoneReading_recorded h)
  · have hfaults := Part.zoneReading_faults (p := s.part.fresh) (z := z) hphase hfault hnot
    obtain ⟨hst, hsched, hsettle, hlimit, hjoined, htarget⟩ := (s.part.fresh.hasRead z (judgeReading a b)).zone_zoneFaulted z
    refine ⟨_, Owes.zoneReading hfaults, hst, hsched, hsettle, hlimit, hjoined, htarget,
      fun hstart => Part.zoneFaulted_raises (p := s.part.fresh.hasRead z (judgeReading a b)) hstart z,
      fun hnodup hzones halone m hm => ?_⟩
    have hmember := Part.zoneFaulted_member (p := s.part.fresh.hasRead z (judgeReading a b)) (z := z) (m := m)
      (by rw [hread]; exact hnodup) (by rw [hread]; exact halone) (hzones m hm) (by rw [hread]; exact hm)
    rw [hread] at hmember
    have hmeasuring := Part.measuring_iff (p := s.part.fresh.hasRead z (judgeReading a b)) (m := m)
    refine ⟨fun h => ⟨fun hph => hmember.waits (hmeasuring.mpr h) hph, fun hph => hmember.releases (hmeasuring.mpr h) hph,
      fun hph => hmember.goes (hmeasuring.mpr h) hph⟩, fun howing h hsched => ?_, fun h hsettled => ?_⟩
    · exact hmember.owing (Bool.eq_false_iff.mpr fun hm => h (hmeasuring.mp hm)) howing (ZoneState.scheduled_iff.mpr hsched)
    · refine hmember.ends (Bool.eq_false_iff.mpr fun hm => h (hmeasuring.mp hm)) (hsettled.imp_right fun hno => ?_)
      exact Bool.eq_false_iff.mpr fun hyes => hno (ZoneState.scheduled_iff.mp hyes)
  · exact .zoneReading (f := fun y => { y with state := .settling, settle := (s.part.zone z).startsSettle s.part.tick })
      (g := fun y => { y.startSettle s.part.tick with state := .settling }) ((State.zoneReading_acts hphase hfault).trans
        ((congrArg _ hband).trans (Part.actOnReading_settles (hstate.trans h)))) rfl
  · exact .zoneReading_stays ((State.zoneReading_acts hphase hfault).trans ((congrArg _ hband).trans
      (Part.actOnReading_stays (.inl ⟨rfl, by rw [hstate]; exact h⟩))))
  · have hrests := (State.zoneReading_acts hphase hfault).trans ((congrArg _ hband).trans
      (Part.actOnReading_rests (hstate.trans h)))
    unfold Part.hasRead at hrests
    rw [Part.mapZone_mapZone] at hrests
    refine (Owes.zoneReading hrests).does ?_
    obtain ⟨k, m, hnotify⟩ := Part.notify_eq ((s.part.fresh.mapZone z (fun y =>
      { y with latest := some (judgeReading a b), state := .rest, schedule := none }))) .zone
    rw [hnotify]
    rfl
  · exact .zoneReading_stays ((State.zoneReading_acts hphase hfault).trans ((congrArg _ hband).trans
      (Part.actOnReading_stays (.inr (.inl ⟨rfl, by rw [hstate, h]; decide⟩)))))
  · exact .zoneReading (f := fun y => { y with settle := (s.part.zone z).startsSettle s.part.tick })
      (g := Zone.startSettle s.part.tick) ((State.zoneReading_acts hphase hfault).trans
        ((congrArg _ hband).trans (Part.actOnReading_restarts (hstate.trans h)))) rfl
  · exact .zoneReading_stays ((State.zoneReading_acts hphase hfault).trans ((congrArg _ hband).trans
      (Part.actOnReading_stays (.inr (.inl ⟨rfl, by rw [hstate, h]; decide⟩)))))
  · have hmarks := (State.zoneReading_acts hphase hfault).trans ((congrArg _ hband).trans
      (Part.actOnReading_marks (by rw [hstate]; exact h)))
    obtain ⟨hzones, htodo⟩ := Part.markFold_kept (((s.part.fresh.hasRead z (judgeReading a b)).zone z).joined.filter
      (s.part.fresh.hasRead z (judgeReading a b)).measuring) (s.part.fresh.hasRead z (judgeReading a b))
    rw [← Part.markOffBand_eq] at hzones htodo
    refine ⟨_, (Owes.zoneReading hmarks).does htodo, hzones, fun c x => ?_⟩
    rw [Part.ctx_markOffBand, hread]
    rfl
  · exact .zoneReading_stays ((State.zoneReading_acts hphase hfault).trans
      (Part.actOnReading_stays (.inr (.inr (by rw [hstate]; exact h)))))

end Sys2Proof.Machine
end

section
/-! BAY_HOLD up to the contexts that wait at a plateau (R19, R20, R107). -/

namespace Sys2Proof.Machine

/-! ### Contexts at a boundary pause, and those in the bus queue leave it and pause (R107 step 1) -/

/-- The contexts of several slots leave the bus queue and pause. -/
theorem Part.foldl_leaveQueue (b : Bay) (l : List Slot) (p : Part) (hl : l.Nodup) : ∃ cs : Vector Ctx 6,
    l.foldl (fun p s => (p.leaveBusQueue b s).mapCtx b s Ctx.pause) p =
        p.mapBay b (fun u => { u with ctxs := cs, busQueue := u.busQueue.filter (fun e => decide (e.slot ∉ l)) }) ∧
      ∀ x : Slot, cs[x] = if x ∈ l then (p.ctx b x).pause else p.ctx b x := by
  induction l generalizing p with
  | nil =>
    refine ⟨(p.bay b).ctxs, ?_, fun x => rfl⟩
    refine (Part.mapBay_self p b).symm.trans (Part.mapBay_congr p b ?_)
    simp
  | cons s l ih =>
    obtain ⟨hs, hl⟩ := List.nodup_cons.mp hl
    obtain ⟨cs, hfold, hcs⟩ := ih ((p.leaveBusQueue b s).mapCtx b s Ctx.pause) hl
    refine ⟨cs, ?_, fun x => ?_⟩
    · have hstep : (p.leaveBusQueue b s).mapCtx b s Ctx.pause = p.mapBay b (fun u =>
          { u with busQueue := u.busQueue.filter (fun e => e.slot != s) }.mapCtx s Ctx.pause) := Part.mapBay_mapBay p b _ _
      rw [List.foldl_cons, hfold, hstep, Part.mapBay_mapBay]
      refine Part.mapBay_congr p b ?_
      have hqueue : List.filter (fun e => decide (e.slot ∉ l)) (List.filter (fun e => e.slot != s) (p.bay b).busQueue) =
          List.filter (fun e => decide (e.slot ∉ s :: l)) (p.bay b).busQueue := by
        rw [List.filter_filter]
        refine List.filter_congr fun e _ => ?_
        by_cases hs : e.slot = s <;> simp [hs]
      exact congrArg (fun q => { p.bay b with ctxs := cs, busQueue := q }) hqueue
    · rw [hcs]
      by_cases hx : x = s
      · subst hx
        rw [if_neg hs, if_pos (List.mem_cons_self ..), Part.ctx_mapCtx, Part.ctx_leaveBusQueue]
      · rw [Part.ctx_mapCtx_other _ b _ (Ne.symm hx), Part.ctx_leaveBusQueue]
        simp only [List.mem_cons, hx, false_or]

/-- A context that a BAY_HOLD pauses before the bus is looked at. -/
def Ctx.pausesFirst (c : Ctx) : Bool := c.atBoundary || c.waitsIn .busWait

theorem Ctx.pausesFirst_iff {c : Ctx} : c.pausesFirst = true ↔ c.atBoundary = true ∨ c.waitsIn .busWait = true := by
  unfold Ctx.pausesFirst
  rw [Bool.or_eq_true_iff]

theorem Ctx.waitsIn_iff {c : Ctx} {f : Phase} : c.waitsIn f = true ↔
    c.state = .running ∧ c.phase = f ∧ c.derating = false ∧ c.exit = .stay := by
  unfold Ctx.waitsIn
  simp [and_assoc]

theorem Ctx.waitsIn_pause (c : Ctx) (f : Phase) : c.pause.waitsIn f = false := by
  rw [← Bool.not_eq_true, Ctx.waitsIn_iff]
  exact fun h => CtxState.noConfusion h.1

/-- The bay that takes a BAY_HOLD, with nobody left in its bus queue that is to pause (R107 step 1). -/
def Part.queueHeld (p : Part) (o : OrderSlot) (b : Bay) : Part :=
  ((allSlots.filter (fun s => ((p.mapBay b (fun u => { u with state := .holding, pendingOrder := some o })).ctx b s).atBoundary)).foldl
    (fun p s => p.mapCtx b s Ctx.pause) (p.mapBay b (fun u => { u with state := .holding, pendingOrder := some o }))).holdBusQueue b

theorem Part.queueHeld_eq (p : Part) (o : OrderSlot) (b : Bay) : ∃ cs : Vector Ctx 6,
    p.queueHeld o b = p.mapBay b (fun u => { u with
      state := .holding, pendingOrder := some o, ctxs := cs
      busQueue := u.busQueue.filter (fun e => !(p.ctx b e.slot).waitsIn .busWait) }) ∧
      ∀ x : Slot, cs[x] = if (p.ctx b x).pausesFirst then (p.ctx b x).pause else p.ctx b x := by
  have hctx : ∀ x, (p.mapBay b (fun u => { u with state := .holding, pendingOrder := some o })).ctx b x = p.ctx b x := fun x =>
    Part.ctx_mapBay_ctxs p b (fun u => { u with state := .holding, pendingOrder := some o }) rfl b x
  unfold Part.queueHeld
  generalize hq : p.mapBay b (fun u => { u with state := .holding, pendingOrder := some o }) = q at hctx
  obtain ⟨cs, hfold, hcs⟩ := Part.foldl_mapCtx b Ctx.pause (allSlots.filter (fun s => (q.ctx b s).atBoundary)) q (nodup_allSlots.filter _)
  have hpaused : ∀ x, (q.mapBay b (fun u => { u with ctxs := cs })).ctx b x =
      if (p.ctx b x).atBoundary then (p.ctx b x).pause else p.ctx b x := fun x => by
    rw [Part.ctx_mapBay_set, hcs]
    simp only [List.mem_filter, mem_allSlots, true_and, hctx]
  have hwaits : ∀ x, ((q.mapBay b (fun u => { u with ctxs := cs })).ctx b x).waitsIn .busWait = (p.ctx b x).waitsIn .busWait := fun x => by
    rw [hpaused]
    split
    next h =>
      rw [Ctx.waitsIn_pause, eq_comm, ← Bool.not_eq_true, Ctx.waitsIn_iff]
      exact fun hw => Phase.noConfusion ((Ctx.atBoundary_iff.mp h).2.1.symm.trans hw.2.1)
    next => rfl
  rw [hfold]
  unfold Part.holdBusQueue
  obtain ⟨cs', hfold', hcs'⟩ := Part.foldl_leaveQueue b (allSlots.filter (fun s =>
    ((q.mapBay b (fun u => { u with ctxs := cs })).ctx b s).waitsIn .busWait)) (q.mapBay b (fun u => { u with ctxs := cs }))
      (nodup_allSlots.filter _)
  simp only [hwaits] at hfold' hcs' ⊢
  refine ⟨cs', ?_, fun x => ?_⟩
  · rw [hfold', ← hq, Part.mapBay_mapBay, Part.mapBay_mapBay]
    refine Part.mapBay_congr p b ?_
    dsimp only
    congr 2
    funext e
    simp [List.mem_filter, mem_allSlots]
  · rw [hcs']
    simp only [List.mem_filter, mem_allSlots, true_and, hpaused]
    unfold Ctx.pausesFirst
    cases hb : (p.ctx b x).atBoundary <;> cases hw : (p.ctx b x).waitsIn .busWait
    · rfl
    · rfl
    · rfl
    · exact absurd ((Ctx.atBoundary_iff.mp hb).2.1.symm.trans (Ctx.waitsIn_iff.mp hw).2.1) nofun

/-! ### The bus passed on (R107 step 2) -/

/-- A bus passed on changes the contexts of its bay, who holds it and who waits for it. -/
structure Part.BusPassed (b : Bay) (p q : Part) : Prop where
  bay   : ∃ cs h l, q.bay b = { p.bay b with ctxs := cs, busHolder := h, busQueue := l }
  zones : q.zones = p.zones
  todo  : q.todo = p.todo

namespace Part.BusPassed

variable {b : Bay} {p q r : Part}

theorem refl (p : Part) : p.BusPassed b p := ⟨⟨_, _, _, rfl⟩, rfl, rfl⟩

theorem trans (h : p.BusPassed b q) (k : q.BusPassed b r) : p.BusPassed b r := by
  obtain ⟨cs, holder, l, hq⟩ := h.bay
  obtain ⟨cs', holder', l', hr⟩ := k.bay
  exact ⟨⟨cs', holder', l', by rw [hr, hq]⟩, k.zones.trans h.zones, k.todo.trans h.todo⟩

theorem mapCtx (p : Part) (x : Slot) (f : Ctx → Ctx) : p.BusPassed b (p.mapCtx b x f) :=
  ⟨⟨_, _, _, Part.bay_mapBay p b (fun u => u.mapCtx x f)⟩, rfl, rfl⟩

theorem requestChan (p : Part) (x : Slot) : p.BusPassed b (p.requestChan b x) := by
  unfold Part.requestChan
  split
  · exact ⟨⟨_, _, _, Part.bay_mapBay (p.mapChan _ _) b (fun u => u.mapCtx x (fun c => { c with phase := .connect }))⟩, rfl, rfl⟩
  · exact ⟨⟨_, _, _, rfl⟩, rfl, rfl⟩

theorem grantBus (p : Part) (x : Slot) : p.BusPassed b (p.grantBus b x) := by
  have hheld : p.BusPassed b (p.mapBay b (fun u => { u with busHolder := some x })) :=
    ⟨⟨_, _, _, Part.bay_mapBay p b (fun u => { u with busHolder := some x })⟩, rfl, rfl⟩
  exact (hheld.trans (mapCtx _ x _)).trans (requestChan _ x)

theorem releaseBus (p : Part) : p.BusPassed b (p.releaseBus b) := by
  unfold Part.releaseBus
  split
  · split
    · exact ⟨⟨_, _, _, Part.bay_mapBay p b (fun u => { u with busHolder := none })⟩, rfl, rfl⟩
    next e l _ =>
      have hheld : p.BusPassed b (p.mapBay b (fun u => { u with busHolder := none, busQueue := l })) :=
        ⟨⟨_, _, _, Part.bay_mapBay p b (fun u => { u with busHolder := none, busQueue := l })⟩, rfl, rfl⟩
      exact hheld.trans (grantBus _ e.slot)
  · exact refl p

end Part.BusPassed

theorem Part.giveUpBus_holder {p : Part} {b : Bay} {x : Slot} (h : (p.bay b).busHolder = some x) :
    p.giveUpBus b x = p.releaseBus b := if_pos h

/-- The holder of a bus that leaves the channel grant queue and pauses. -/
def Part.holderPaused (p : Part) (b : Bay) (x : Slot) : Part := (p.leaveChanQueue b x).mapCtx b x Ctx.pause

theorem Part.bay_holderPaused (p : Part) (b : Bay) (x : Slot) : (p.holderPaused b x).bay b = (p.bay b).mapCtx x Ctx.pause :=
  Part.bay_mapBay (p.leaveChanQueue b x) b (fun u => u.mapCtx x Ctx.pause)

theorem Part.ctx_holderPaused (p : Part) (b : Bay) (x y : Slot) :
    (p.holderPaused b x).ctx b y = if y = x then (p.ctx b x).pause else p.ctx b y := by
  by_cases hy : y = x
  · subst hy
    rw [if_pos rfl]
    exact (Part.ctx_mapCtx _ b y _).trans (by rw [Part.ctx_leaveChanQueue])
  · rw [if_neg hy]
    exact (Part.ctx_mapCtx_other _ b _ (Ne.symm hy)).trans (Part.ctx_leaveChanQueue p b x b y)

/-- The holder waits for a channel, and its check is not DERATE. -/
def Part.HolderWaits (p : Part) (b : Bay) (x : Slot) : Prop :=
  (p.bay b).busHolder = some x ∧ (p.ctx b x).waitsIn .channelWait = true

theorem Part.holdChanQueue_same {p : Part} {b : Bay} (h : ∀ x, ¬ p.HolderWaits b x) : p.holdChanQueue b = p := by
  unfold Part.holdChanQueue
  cases hholder : (p.bay b).busHolder with
  | none => rfl
  | some x => exact if_neg fun hw => h x ⟨hholder, hw⟩

theorem Part.holdChanQueue_releases {p : Part} {b : Bay} {x : Slot} (h : p.HolderWaits b x) :
    p.holdChanQueue b = (p.holderPaused b x).giveUpBus b x := by
  have hholder : ((p.holderPaused b x).bay b).busHolder = some x := by
    rw [Part.bay_holderPaused]
    exact h.1
  rw [Part.giveUpBus_holder hholder]
  unfold Part.holdChanQueue
  rw [h.1]
  exact if_pos h.2

theorem Part.holdChanQueue_passed (p : Part) (b : Bay) : p.BusPassed b (p.holdChanQueue b) := by
  by_cases h : ∃ x, p.HolderWaits b x
  · obtain ⟨x, hx⟩ := h
    have hholder : ((p.holderPaused b x).bay b).busHolder = some x := by
      rw [Part.bay_holderPaused]
      exact hx.1
    have hleft : p.BusPassed b (p.leaveChanQueue b x) := ⟨⟨_, _, _, rfl⟩, rfl, rfl⟩
    rw [Part.holdChanQueue_releases hx, Part.giveUpBus_holder hholder]
    exact (hleft.trans (.mapCtx _ x _)).trans (.releaseBus _)
  · rw [Part.holdChanQueue_same fun x hx => h ⟨x, hx⟩]
    exact .refl p

/-- What the bus passed on makes of a context: the holder that waits pauses, and one that waits for the bus may take a phase. -/
theorem Part.ctx_holdChanQueue (p : Part) (b : Bay) (y : Slot) :
    (p.HolderWaits b y → ∃ f, (p.holdChanQueue b).ctx b y = { (p.ctx b y).pause with phase := f }) ∧
      (¬ p.HolderWaits b y → ∃ f, (p.holdChanQueue b).ctx b y = { p.ctx b y with phase := f } ∧
        ((∀ e ∈ (p.bay b).busQueue, e.slot ≠ y) → f = (p.ctx b y).phase)) := by
  by_cases h : ∃ x, p.HolderWaits b x
  · obtain ⟨x, hx⟩ := h
    rw [Part.holdChanQueue_releases hx]
    obtain ⟨f, hctx, hsame⟩ := Part.ctx_giveUpBus_phase (p.holderPaused b x) b x y
    rw [Part.ctx_holderPaused] at hctx hsame
    rw [Part.bay_holderPaused] at hsame
    by_cases hy : y = x
    · subst hy
      rw [if_pos rfl] at hctx
      exact ⟨fun _ => ⟨f, hctx⟩, fun hnot => absurd hx hnot⟩
    · rw [if_neg hy] at hctx hsame
      exact ⟨fun hh => absurd (Option.some.inj (hh.1.symm.trans hx.1)) hy, fun _ => ⟨f, hctx, hsame⟩⟩
  · rw [Part.holdChanQueue_same fun x hx => h ⟨x, hx⟩]
    exact ⟨fun hh => absurd ⟨y, hh⟩ h, fun _ => ⟨_, rfl, fun _ => rfl⟩⟩

/-- The bus that its waiting holder gives up, where the bay has no channel and asks for none but the holder's (R105, R107). -/
theorem Part.holdChanQueue_bus {p : Part} {b : Bay} {x : Slot} (h : p.HolderWaits b x)
    (hchan : ∀ k, (p.chan k).owner.map Prod.fst ≠ some b) (hqueue : ∀ e ∈ p.chanQueue, e.bay = b → e.slot = x) :
    ((p.holdChanQueue b).bay b).busHolder = (p.bay b).busQueue.head?.map BusEntry.slot ∧
      ((p.holdChanQueue b).bay b).busQueue = (p.bay b).busQueue.drop 1 ∧
      ((p.bay b).busQueue = [] → (p.holdChanQueue b).chanQueue = p.chanQueue.filter (fun e => e.bay != b)) := by
  have hbay := p.bay_holderPaused b x
  have hholder : ((p.holderPaused b x).bay b).busHolder = some x := by
    rw [hbay]
    exact h.1
  have hbusQueue : ((p.holderPaused b x).bay b).busQueue = (p.bay b).busQueue := by
    rw [hbay]
    rfl
  have hleft : (p.holderPaused b x).chanQueue = p.chanQueue.filter (fun e => e.bay != b) := by
    show p.chanQueue.filter (fun e => !(e.bay == b && e.slot == x)) = _
    refine List.filter_congr fun e he => ?_
    by_cases hb : e.bay = b
    · simp [hb, hqueue e he hb]
    · have hne : (e.bay == b) = false := beq_eq_false_iff_ne.mpr hb
      simp [bne, hne]
  have hmay : (p.holderPaused b x).mayReleaseBus b = true := by
    rw [Part.mayReleaseBus_iff_free]
    refine ⟨hchan, fun e he => ?_⟩
    rw [hleft] at he
    exact bne_iff_ne.mp (List.mem_filter.mp he).2
  rw [Part.holdChanQueue_releases h, Part.giveUpBus_holder hholder]
  cases hq : (p.bay b).busQueue with
  | nil =>
    rw [Part.releaseBus_empty hmay (hbusQueue.trans hq)]
    have hfree := Part.bay_mapBay (p.holderPaused b x) b (fun u => { u with busHolder := none })
    rw [hfree]
    exact ⟨rfl, hbusQueue.trans hq, fun _ => hleft⟩
  | cons e l =>
    rw [Part.releaseBus_next hmay (hbusQueue.trans hq)]
    obtain ⟨hnew, hrest⟩ := Part.bus_grantBus ((p.holderPaused b x).mapBay b (fun u => { u with busHolder := none, busQueue := l })) b e.slot
    have hfree := Part.bay_mapBay (p.holderPaused b x) b (fun u => { u with busHolder := none, busQueue := l })
    rw [hfree] at hrest
    exact ⟨hnew, hrest, fun hnil => absurd hnil (List.cons_ne_nil _ _)⟩

end Sys2Proof.Machine
end

section
/-! BAY_HOLD, with the contexts that wait at a plateau (R19, R20, R107, R140, R147). -/

namespace Sys2Proof.Machine

/-! ### Leaving the zone's list -/

theorem Part.mapZone_self (p : Part) (z : ZoneNo) : p.mapZone z id = p := by
  unfold Part.mapZone Part.zone
  simp

theorem Zone.leave_of_not_has {b : Bay} {x : Slot} {y : Zone} (h : y.has b x = false) : y.leave b x = y := by
  unfold Zone.has at h
  unfold Zone.leave
  rw [List.any_eq_false] at h
  rw [List.filter_eq_self.mpr fun m hm => by simpa using h m hm]

/-- What is owed when a context leaves its zone's list (R140). -/
def Part.leaveOwed (p : Part) (b : Bay) (x : Slot) : List Conseq :=
  if (p.zone (zoneOf b)).has b x && (p.zone (zoneOf b)).holding then [.closingTest (zoneOf b)] else []

theorem Part.leaveZone_eq (p : Part) (b : Bay) (x : Slot) :
    p.leaveZone b x = (p.mapZone (zoneOf b) (Zone.leave b x)).later (p.leaveOwed b x) := by
  unfold Part.leaveZone Part.leaveOwed
  dsimp only
  cases hhas : (p.zone (zoneOf b)).has b x with
  | false =>
    have hsame : p.mapZone (zoneOf b) (Zone.leave b x) = p :=
      (Part.mapZone_congr p _ (g := id) (Zone.leave_of_not_has hhas)).trans (Part.mapZone_self p _)
    rw [hsame]
    exact (Part.later_nil p).symm
  | true =>
    rw [if_pos rfl, Bool.true_and]
    split
    · rfl
    · exact (Part.later_nil _).symm

/-- A context that pauses at a plateau (R147). -/
def Ctx.pauseInLoop (c : Ctx) : Ctx := c.pause.mapLoop (fun l => { l with inLoop := true })

theorem Part.pauseAtPlateau_eq (p : Part) (b : Bay) (x : Slot) :
    p.pauseAtPlateau b x = ((p.mapCtx b x Ctx.pauseInLoop).mapZone (zoneOf b) (Zone.leave b x)).later
      (p.leaveOwed b x ++ [.bayTest b]) := by
  have hleave := (p.mapCtx b x Ctx.pauseInLoop).leaveZone_eq b x
  unfold Part.pauseAtPlateau
  rw [show (p.mapCtx b x (fun c => c.pause.mapLoop (fun l => { l with inLoop := true }))).leaveZone b x = _ from hleave,
    Part.later_later]
  rfl

/-- The members of a zone's list that are not contexts of bay `b` in the slots of `l`. -/
def Zone.without (b : Bay) (l : List Slot) (y : Zone) : Zone :=
  { y with joined := y.joined.filter (fun m => !(m.bay == b && decide (m.slot ∈ l))) }

theorem Zone.without_leave (b : Bay) (x : Slot) (l : List Slot) (y : Zone) :
    (y.leave b x).without b l = y.without b (x :: l) := by
  have hjoined : (y.joined.filter (fun m => !m.is b x)).filter (fun m => !(m.bay == b && decide (m.slot ∈ l))) =
      y.joined.filter (fun m => !(m.bay == b && decide (m.slot ∈ x :: l))) := by
    rw [List.filter_filter]
    refine List.filter_congr fun m _ => ?_
    unfold Member.is
    cases m.bay == b
    · rfl
    · by_cases hx : m.slot = x <;> simp [hx]
  exact congrArg (fun l => { y with joined := l }) hjoined

/-- What is owed once contexts have paused at their plateau: the closing test of the zone that one has left, then the bay's test. -/
def Part.PlateauOwed (p : Part) (b : Bay) (t : List Conseq) : Prop :=
  t = [] ∨ (∃ t', t = .bayTest b :: t') ∨
    ((p.zone (zoneOf b)).holding = true ∧ ∃ t', t = .closingTest (zoneOf b) :: .bayTest b :: t')

theorem Part.leaveOwed_plateauOwed (p : Part) (b : Bay) (x : Slot) (t : List Conseq) :
    p.PlateauOwed b (p.leaveOwed b x ++ [.bayTest b] ++ t) := by
  unfold Part.leaveOwed
  split
  next h => exact .inr (.inr ⟨(Bool.and_eq_true_iff.mp h).2, t, rfl⟩)
  next => exact .inr (.inl ⟨t, rfl⟩)

theorem Part.foldl_pauseAtPlateau (b : Bay) (l : List Slot) (p : Part) (hl : l.Nodup) : ∃ (cs : Vector Ctx 6) (t : List Conseq),
    l.foldl (fun p s => p.pauseAtPlateau b s) p =
        ((p.mapBay b (fun u => { u with ctxs := cs })).mapZone (zoneOf b) (Zone.without b l)).later t ∧
      (∀ x : Slot, cs[x] = if x ∈ l then (p.ctx b x).pauseInLoop else p.ctx b x) ∧ p.PlateauOwed b t := by
  induction l generalizing p with
  | nil =>
    refine ⟨(p.bay b).ctxs, [], ?_, fun x => rfl, .inl rfl⟩
    have hzone : p.mapZone (zoneOf b) (Zone.without b []) = p := by
      refine (Part.mapZone_congr p _ (g := id) ?_).trans (Part.mapZone_self p _)
      unfold Zone.without
      simp
    rw [show p.mapBay b (fun u => { u with ctxs := (p.bay b).ctxs }) = p from
      (Part.mapBay_congr p b (g := fun _ => p.bay b) rfl).trans (Part.mapBay_self p b), hzone, Part.later_nil]
    rfl
  | cons s l ih =>
    obtain ⟨hs, hl⟩ := List.nodup_cons.mp hl
    obtain ⟨cs, t, hfold, hcs, -⟩ := ih (p.pauseAtPlateau b s) hl
    rw [List.foldl_cons, hfold, Part.pauseAtPlateau_eq]
    rw [Part.pauseAtPlateau_eq] at hcs
    refine ⟨cs, p.leaveOwed b s ++ [.bayTest b] ++ t, ?_, fun x => ?_, p.leaveOwed_plateauOwed b s t⟩
    · have hbays : (p.mapCtx b s Ctx.pauseInLoop).mapBay b (fun u => { u with ctxs := cs }) =
          p.mapBay b (fun u => { u with ctxs := cs }) := Part.mapBay_mapBay p b _ _
      have hzones : (((p.mapCtx b s Ctx.pauseInLoop).mapBay b (fun u => { u with ctxs := cs })).mapZone (zoneOf b) (Zone.leave b s)).mapZone
          (zoneOf b) (Zone.without b l) = (p.mapBay b (fun u => { u with ctxs := cs })).mapZone (zoneOf b) (Zone.without b (s :: l)) := by
        rw [Part.mapZone_mapZone, hbays]
        exact Part.mapZone_congr _ _ (Zone.without_leave b s l _)
      refine Eq.trans ?_ (Part.later_later _ (p.leaveOwed b s ++ [.bayTest b]) t)
      rw [← hzones]
      rfl
    · rw [hcs, Part.ctx_later, Part.ctx_mapZone]
      by_cases hx : x = s
      · subst hx
        rw [if_neg hs, if_pos (List.mem_cons_self ..), Part.ctx_mapCtx]
      · rw [Part.ctx_mapCtx_other p b _ (Ne.symm hx)]
        simp only [List.mem_cons, hx, false_or]

/-! ### The bay behind the first two steps of R107 -/

/-- The bay that takes a BAY_HOLD, its bus dealt with. -/
def Part.busHeld (p : Part) (o : OrderSlot) (b : Bay) : Part := (p.queueHeld o b).holdChanQueue b

/-- A context that a BAY_HOLD pauses before the plateaus are looked at. -/
def Part.PausesAtHold (p : Part) (b : Bay) (x : Slot) : Prop :=
  (p.ctx b x).atBoundary = true ∨ (p.ctx b x).waitsIn .busWait = true ∨
    (p.bay b).busHolder = some x ∧ (p.ctx b x).waitsIn .channelWait = true

/-- Those that stay in the bus queue at a BAY_HOLD. -/
def Part.staysInQueue (p : Part) (b : Bay) : List BusEntry :=
  (p.bay b).busQueue.filter (fun e => !(p.ctx b e.slot).waitsIn .busWait)

theorem Part.ctx_queueHeld (p : Part) (o : OrderSlot) (b : Bay) (x : Slot) :
    (p.queueHeld o b).ctx b x = if (p.ctx b x).pausesFirst then (p.ctx b x).pause else p.ctx b x := by
  obtain ⟨cs, heq, hcs⟩ := p.queueHeld_eq o b
  have hbay := Part.bay_mapBay p b (fun u => { u with
    state := .holding, pendingOrder := some o, ctxs := cs
    busQueue := u.busQueue.filter (fun e => !(p.ctx b e.slot).waitsIn .busWait) })
  rw [← hcs, heq]
  exact congrArg (fun u => BayUnit.ctx u x) hbay

theorem Part.bay_queueHeld (p : Part) (o : OrderSlot) (b : Bay) : ∃ cs, (p.queueHeld o b).bay b =
    { p.bay b with state := .holding, pendingOrder := some o, ctxs := cs, busQueue := p.staysInQueue b } := by
  obtain ⟨cs, heq, -⟩ := p.queueHeld_eq o b
  refine ⟨cs, ?_⟩
  rw [heq]
  exact Part.bay_mapBay p b (fun u => { u with
    state := .holding, pendingOrder := some o, ctxs := cs
    busQueue := u.busQueue.filter (fun e => !(p.ctx b e.slot).waitsIn .busWait) })

theorem Part.queueHeld_kept (p : Part) (o : OrderSlot) (b : Bay) : (p.queueHeld o b).zones = p.zones ∧
    (p.queueHeld o b).todo = p.todo ∧ (p.queueHeld o b).chanQueue = p.chanQueue ∧ (p.queueHeld o b).chans = p.chans := by
  obtain ⟨cs, heq, -⟩ := p.queueHeld_eq o b
  rw [heq]
  exact ⟨rfl, rfl, rfl, rfl⟩

theorem Part.queueHeld_holderWaits {p : Part} {o : OrderSlot} {b : Bay} {x : Slot} :
    (p.queueHeld o b).HolderWaits b x ↔ p.HolderWaits b x := by
  obtain ⟨cs, hbay⟩ := p.bay_queueHeld o b
  unfold Part.HolderWaits
  rw [hbay, Part.ctx_queueHeld]
  refine and_congr_right fun _ => ?_
  cases h : (p.ctx b x).pausesFirst with
  | false => rfl
  | true =>
    rw [if_pos rfl, Ctx.waitsIn_pause]
    refine ⟨nofun, fun hw => ?_⟩
    have hphase := (Ctx.waitsIn_iff.mp hw).2.1
    rcases Ctx.pausesFirst_iff.mp h with h | h
    · exact absurd ((Ctx.atBoundary_iff.mp h).2.1.symm.trans hphase) nofun
    · exact absurd ((Ctx.waitsIn_iff.mp h).2.1.symm.trans hphase) nofun

theorem Part.busHeld_kept (p : Part) (o : OrderSlot) (b : Bay) : ((p.busHeld o b).bay b).state = .holding ∧
    ((p.busHeld o b).bay b).pendingOrder = some o ∧ (p.busHeld o b).zones = p.zones ∧ (p.busHeld o b).todo = p.todo := by
  obtain ⟨cs, hq⟩ := p.bay_queueHeld o b
  obtain ⟨hzones, htodo, -, -⟩ := p.queueHeld_kept o b
  obtain ⟨⟨cs', h, l, hbay⟩, hzones', htodo'⟩ := (p.queueHeld o b).holdChanQueue_passed b
  unfold Part.busHeld
  rw [hbay, hq]
  exact ⟨rfl, rfl, hzones'.trans hzones, htodo'.trans htodo⟩

theorem Part.state_busHeld_pauses {p : Part} {b : Bay} {x : Slot} (h : p.PausesAtHold b x) (o : OrderSlot) :
    ((p.busHeld o b).ctx b x).state = .paused := by
  obtain ⟨hpauses, hgoes⟩ := (p.queueHeld o b).ctx_holdChanQueue b x
  have hq := p.ctx_queueHeld o b x
  unfold Part.busHeld
  by_cases hw : (p.queueHeld o b).HolderWaits b x
  · obtain ⟨f, hctx⟩ := hpauses hw
    rw [hctx]
    rfl
  · have hfirst : (p.ctx b x).pausesFirst = true := by
      rcases h with h | h | h
      · exact Ctx.pausesFirst_iff.mpr (.inl h)
      · exact Ctx.pausesFirst_iff.mpr (.inr h)
      · exact absurd (Part.queueHeld_holderWaits.mpr h) hw
    obtain ⟨f, hctx, -⟩ := hgoes hw
    rw [hctx, hq, if_pos hfirst]
    rfl

theorem Part.ctx_busHeld_same {p : Part} {b : Bay} {x : Slot} (h : ¬ p.PausesAtHold b x) (hqueue : ∀ e ∈ (p.bay b).busQueue, e.slot ≠ x)
    (o : OrderSlot) : (p.busHeld o b).ctx b x = p.ctx b x := by
  obtain ⟨-, hgoes⟩ := (p.queueHeld o b).ctx_holdChanQueue b x
  obtain ⟨cs, hbay⟩ := p.bay_queueHeld o b
  have hfirst : (p.ctx b x).pausesFirst = false := by
    rw [← Bool.not_eq_true, Ctx.pausesFirst_iff]
    exact fun hh => h (hh.imp_right .inl)
  have hq : (p.queueHeld o b).ctx b x = p.ctx b x := by
    rw [Part.ctx_queueHeld, hfirst]
    rfl
  obtain ⟨f, hctx, hsame⟩ := hgoes fun hw => h (.inr (.inr (Part.queueHeld_holderWaits.mp hw)))
  have hphase := hsame (by rw [hbay]; exact fun e he => hqueue e (List.mem_filter.mp he).1)
  unfold Part.busHeld
  rw [hctx, hphase, hq]

/-- The first two steps of R107 change no context's state but to PAUSED. -/
theorem Part.state_busHeld (p : Part) (o : OrderSlot) (b : Bay) (x : Slot) :
    ((p.busHeld o b).ctx b x).state = (p.ctx b x).state ∨ ((p.busHeld o b).ctx b x).state = .paused := by
  obtain ⟨hpauses, hgoes⟩ := (p.queueHeld o b).ctx_holdChanQueue b x
  unfold Part.busHeld
  by_cases hw : (p.queueHeld o b).HolderWaits b x
  · obtain ⟨f, hctx⟩ := hpauses hw
    rw [hctx]
    exact .inr rfl
  · obtain ⟨f, hctx, -⟩ := hgoes hw
    rw [hctx, Part.ctx_queueHeld]
    split
    · exact .inr rfl
    · exact .inl rfl

theorem Part.bus_busHeld_same {p : Part} {b : Bay} (h : ∀ x, ¬ p.HolderWaits b x) (o : OrderSlot) :
    ((p.busHeld o b).bay b).busHolder = (p.bay b).busHolder ∧ ((p.busHeld o b).bay b).busQueue = p.staysInQueue b ∧
      (p.busHeld o b).chanQueue = p.chanQueue := by
  have hsame : p.busHeld o b = p.queueHeld o b := Part.holdChanQueue_same fun x hx => h x (Part.queueHeld_holderWaits.mp hx)
  obtain ⟨cs, hbay⟩ := p.bay_queueHeld o b
  rw [hsame, hbay]
  exact ⟨rfl, rfl, (p.queueHeld_kept o b).2.2.1⟩

theorem Part.bus_busHeld_passed {p : Part} {b : Bay} {x : Slot} (h : p.HolderWaits b x)
    (hchan : ∀ k, (p.chan k).owner.map Prod.fst ≠ some b) (hqueue : ∀ e ∈ p.chanQueue, e.bay = b → e.slot = x) (o : OrderSlot) :
    ((p.busHeld o b).bay b).busHolder = (p.staysInQueue b).head?.map BusEntry.slot ∧
      ((p.busHeld o b).bay b).busQueue = (p.staysInQueue b).drop 1 ∧
      (p.staysInQueue b = [] → (p.busHeld o b).chanQueue = p.chanQueue.filter (fun e => e.bay != b)) := by
  obtain ⟨-, -, hchanQueue, hchans⟩ := p.queueHeld_kept o b
  obtain ⟨cs, hbay⟩ := p.bay_queueHeld o b
  have hpassed := Part.holdChanQueue_bus (Part.queueHeld_holderWaits (o := o).mpr h)
    (fun k => by rw [Part.chan_of_chans hchans]; exact hchan k) (by rw [hchanQueue]; exact hqueue)
  rw [hbay, hchanQueue] at hpassed
  exact hpassed

/-! ### The whole order -/

/-- The slots whose contexts wait at a plateau once the bus is dealt with. -/
def Part.plateauSlots (p : Part) (b : Bay) : List Slot := allSlots.filter (fun s => (p.ctx b s).atPlateau)

theorem Part.orderHold_taken {p : Part} {b : Bay} (h : (p.bay b).state = .running) (o : OrderSlot) :
    p.orderHold o b = (((p.busHeld o b).plateauSlots b).foldl (fun p s => p.pauseAtPlateau b s) (p.busHeld o b)).later
      [.bayTest b] := if_pos h

/-- The part behind a BAY_HOLD, but for what is owed. -/
structure Part.HeldAs (b : Bay) (r q : Part) : Prop where
  bay   : ∃ cs, q.bay b = { r.bay b with ctxs := cs }
  ctx   : ∀ x, q.ctx b x = if (r.ctx b x).atPlateau then (r.ctx b x).pauseInLoop else r.ctx b x
  zone  : q.zone (zoneOf b) = (r.zone (zoneOf b)).without b (r.plateauSlots b)
  queue : q.chanQueue = r.chanQueue
  todo  : q.todo = r.todo

/-- The contexts that wait at a plateau pause, and leave their zone's list. -/
theorem Part.pausePlateaus_heldAs (r : Part) (b : Bay) : ∃ q t,
    (r.plateauSlots b).foldl (fun p s => p.pauseAtPlateau b s) r = q.later t ∧ r.HeldAs b q ∧ r.PlateauOwed b t := by
  obtain ⟨cs, t, hfold, hcs, howed⟩ := Part.foldl_pauseAtPlateau b (r.plateauSlots b) r (nodup_allSlots.filter _)
  refine ⟨(r.mapBay b (fun u => { u with ctxs := cs })).mapZone (zoneOf b) (Zone.without b (r.plateauSlots b)), t, hfold,
    ⟨⟨cs, Part.bay_mapBay r b (fun u => { u with ctxs := cs })⟩, fun x => ?_, ?_, rfl, rfl⟩, howed⟩
  · rw [Part.ctx_mapZone, Part.ctx_mapBay_set, hcs]
    unfold Part.plateauSlots
    simp only [List.mem_filter, mem_allSlots, true_and]
  · exact Part.zone_mapZone (r.mapBay b (fun u => { u with ctxs := cs })) (zoneOf b) _

theorem Part.orderHold_heldAs {p : Part} {b : Bay} (h : (p.bay b).state = .running) (o : OrderSlot) :
    ∃ q t, p.orderHold o b = q.later (t ++ [.bayTest b]) ∧ (p.busHeld o b).HeldAs b q ∧ (p.busHeld o b).PlateauOwed b t := by
  obtain ⟨q, t, hfold, hheld, howed⟩ := (p.busHeld o b).pausePlateaus_heldAs b
  exact ⟨q, t, by rw [Part.orderHold_taken h, hfold, Part.later_later], hheld, howed⟩

end Sys2Proof.Machine
end

section
/-! The end of a BAY_HOLD: the bay HELD, its order answered (R20, R107, R135, R140). -/

namespace Sys2Proof.Machine

/-! ### The bay's test in HOLDING (R20) -/

theorem Part.bayTest_held {p : Part} {b : Bay} (hstate : (p.bay b).state = .holding) (h : ∀ x, (p.ctx b x).state ≠ .running) :
    p.bayTest b = (p.mapBay b (fun u => { u with state := .held })).answerPending b .done [] := by
  have hall : (p.bay b).allCtx (fun c => c.state != .running) = true := BayUnit.allCtx_iff.mpr fun x => bne_iff_ne.mpr (h x)
  unfold Part.bayTest
  dsimp only
  rw [hstate]
  exact if_pos hall

/-- A HOLDING bay with no context running becomes HELD, and its order is answered. -/
theorem Part.bayTest_held_does {p : Part} {b : Bay} (hstate : (p.bay b).state = .holding) (h : ∀ x, (p.ctx b x).state ≠ .running) :
    ((p.bayTest b).bay b).state = .held ∧ ((p.bayTest b).bay b).pendingOrder = none ∧
      (∀ o, (p.bay b).pendingOrder = some o → (p.bayTest b).answers[o].any (fun a => a.code == .done) = true) ∧
      ∀ x, (p.bayTest b).ctx b x = p.ctx b x := by
  have hheld := Part.bay_mapBay p b (fun u => { u with state := .held })
  have hbay := (p.mapBay b (fun u => { u with state := .held })).answerPending_bay b .done []
  rw [hheld] at hbay
  rw [Part.bayTest_held hstate h]
  refine ⟨by rw [hbay], by rw [hbay], fun o ho => ?_, fun x => ?_⟩
  · exact Part.answerPending_answered (p := p.mapBay b (fun u => { u with state := .held })) (by rw [hheld]; exact ho) .done []
  · exact (congrArg (fun u => BayUnit.ctx u x) hbay).trans rfl

/-! ### The closing test of a zone that contexts have left (R135, R140) -/

theorem Part.outputs_nil (p : Part) : p.outputs [] = p := Part.later_nil p

/-- A closing test that closes nothing, or closes a plateau with no member left to be told, leaves the bays. -/
theorem Part.closingTest_leaves {p : Part} {z : ZoneNo}
    (h : (p.zone z).joined = [] ∨ (∃ m ∈ (p.zone z).joined, m.measured = false) ∨
      ((p.zone z).schedule.bind (fun l => l[(p.zone z).index + 1]?)).isSome = true) :
    (p.closingTest z).bays = p.bays ∧ (p.closingTest z).todo = p.todo := by
  unfold Part.closingTest
  dsimp only
  split
  next hclose =>
    obtain ⟨-, hmeasured⟩ := Bool.and_eq_true_iff.mp hclose
    unfold Part.closePlateau
    dsimp only
    cases hnext : (p.zone z).schedule.bind (fun l => l[(p.zone z).index + 1]?) with
    | some q => exact ⟨rfl, rfl⟩
    | none =>
      have hempty : (p.zone z).joined = [] := by
        rcases h with h | ⟨m, hm, howing⟩ | h
        · exact h
        · exact absurd ((List.all_eq_true.mp hmeasured m hm).symm.trans howing) nofun
        · rw [hnext] at h
          exact absurd h nofun
      dsimp only
      rw [hempty, List.map_nil, List.foldl_nil, Part.outputs_nil]
      exact ⟨rfl, rfl⟩
  next => exact ⟨rfl, rfl⟩

/-! ### A BAY_HOLD that ends at once -/

/-- A HOLDING bay that is tested with no context running, as its order expects. -/
structure Part.HoldEnds (b : Bay) (o : OrderSlot) (p : Part) : Prop where
  state   : (p.bay b).state = .holding
  pending : (p.bay b).pendingOrder = some o
  running : ∀ x, (p.ctx b x).state ≠ .running
  todo    : p.todo = []

theorem Part.HoldEnds.of_bays {b : Bay} {o : OrderSlot} {p q : Part} (h : p.HoldEnds b o) (hb : q.bays = p.bays) (ht : q.todo = p.todo) :
    q.HoldEnds b o := by
  have hbay : q.bay b = p.bay b := congrArg (fun v : Vector BayUnit 8 => v[b]) hb
  exact ⟨by rw [hbay]; exact h.state, by rw [hbay]; exact h.pending,
    fun x => by rw [show q.ctx b x = p.ctx b x from congrArg (fun u => BayUnit.ctx u x) hbay]; exact h.running x, ht.trans h.todo⟩

/-- The bay HELD and its order answered DONE, as a command leaves it. -/
def Part.HeldDone (b : Bay) (o : OrderSlot) (r : Part) : Prop :=
  (r.bay b).state = .held ∧ (r.bay b).pendingOrder = none ∧ r.answers[o].any (fun a => a.code == .done) = true

theorem Part.HoldEnds.tested {b : Bay} {o : OrderSlot} {p : Part} (h : p.HoldEnds b o) (rest : List Conseq) :
    ((consequence (.bayTest b) p).later rest).HeldDone b o := by
  obtain ⟨hstate, hpending, hanswered, -⟩ := Part.bayTest_held_does h.state h.running
  exact ⟨hstate, hpending, hanswered o h.pending⟩

theorem Owes.hold_ends {c : Instr} {s : State} {m : Memory} {q : Part} {b : Bay} {o : OrderSlot} {t : List Conseq}
    (howes : Owes c s m (q.later (t ++ [.bayTest b] ++ [.orderHandled o]))) (hends : q.HoldEnds b o)
    (howed : t = [] ∨ (∃ t', t = .bayTest b :: t') ∨ ∃ t', t = .closingTest (zoneOf b) :: .bayTest b :: t' ∧
      (q.closingTest (zoneOf b)).bays = q.bays ∧ (q.closingTest (zoneOf b)).todo = q.todo) :
    ∃ n r, n ≤ 2 ∧ Reaches n c s m r ∧ r.HeldDone b o := by
  rcases howed with rfl | ⟨t', rfl⟩ | ⟨t', rfl, hbays, htodo⟩
  · exact ⟨1, _, by omega, howes.step hends.todo, hends.tested _⟩
  · exact ⟨1, _, by omega, howes.step hends.todo, hends.tested _⟩
  · have hclosed : (consequence (.closingTest (zoneOf b)) q).HoldEnds b o := hends.of_bays hbays htodo
    exact ⟨2, _, by omega, (howes.step hends.todo).step (by omega) hclosed.todo, hclosed.tested _⟩

/-! ### A BAY_HOLD taken -/

theorem Part.not_pausesAtHold_of_atPlateau {p : Part} {b : Bay} {x : Slot} (h : (p.ctx b x).atPlateau = true) :
    ¬ p.PausesAtHold b x := by
  obtain ⟨-, hphase, -⟩ := Ctx.atPlateau_iff.mp h
  rintro (hb | hw | ⟨-, hw⟩)
  · exact absurd ((Ctx.atBoundary_iff.mp hb).2.1.symm.trans hphase) nofun
  · exact absurd ((Ctx.waitsIn_iff.mp hw).2.1.symm.trans hphase) nofun
  · exact absurd ((Ctx.waitsIn_iff.mp hw).2.1.symm.trans hphase) nofun

/-- The contexts that a BAY_HOLD finds at a plateau are those that were there, where every running one is to pause. -/
theorem Part.atPlateau_busHeld {p : Part} {b : Bay} (o : OrderSlot)
    (h : ∀ x, (p.ctx b x).state = .running → p.PausesAtHold b x ∨ (p.ctx b x).atPlateau = true ∧ ∀ e ∈ (p.bay b).busQueue, e.slot ≠ x)
    (x : Slot) : ((p.busHeld o b).ctx b x).atPlateau = (p.ctx b x).atPlateau := by
  by_cases hpause : p.PausesAtHold b x
  · have hpaused := Part.state_busHeld_pauses hpause o
    have hnot : (p.ctx b x).atPlateau = false := Bool.eq_false_iff.mpr fun hat => Part.not_pausesAtHold_of_atPlateau hat hpause
    rw [hnot, ← Bool.not_eq_true, Ctx.atPlateau_iff]
    exact fun hat => absurd (hpaused.symm.trans hat.1) nofun
  · by_cases hrun : (p.ctx b x).state = .running
    · obtain ⟨-, hqueue⟩ := (h x hrun).resolve_left hpause
      rw [Part.ctx_busHeld_same hpause hqueue]
    · have hrun' : ((p.busHeld o b).ctx b x).state ≠ .running := by
        rcases p.state_busHeld o b x with hs | hs <;> rw [hs]
        · exact hrun
        · exact nofun
      rw [Bool.eq_iff_iff, Ctx.atPlateau_iff, Ctx.atPlateau_iff]
      exact ⟨fun hat => absurd hat.1 hrun', fun hat => absurd hat.1 hrun⟩

/-- What a BAY_HOLD makes of its bay (R19, R107, R147). -/
structure Part.HoldTaken (p : Part) (o : OrderSlot) (b : Bay) (q : Part) : Prop where
  state   : (q.bay b).state = .holding
  pending : (q.bay b).pendingOrder = some o
  pauses  : ∀ x, p.PausesAtHold b x → (q.ctx b x).state = .paused
  plateau : ∀ x, (p.ctx b x).atPlateau = true → (∀ e ∈ (p.bay b).busQueue, e.slot ≠ x) →
    (q.ctx b x).state = .paused ∧ (q.ctx b x).derate.inLoop = true ∧ (q.zone (zoneOf b)).has b x = false
  same    : (∀ x, ¬ p.HolderWaits b x) →
    (q.bay b).busHolder = (p.bay b).busHolder ∧ (q.bay b).busQueue = p.staysInQueue b ∧ q.chanQueue = p.chanQueue
  passed  : ∀ x, p.HolderWaits b x → (∀ k, (p.chan k).owner.map Prod.fst ≠ some b) → (∀ e ∈ p.chanQueue, e.bay = b → e.slot = x) →
    (q.bay b).busHolder = (p.staysInQueue b).head?.map BusEntry.slot ∧ (q.bay b).busQueue = (p.staysInQueue b).drop 1 ∧
      (p.staysInQueue b = [] → q.chanQueue = p.chanQueue.filter (fun e => e.bay != b))

theorem Zone.has_without {b : Bay} {x : Slot} {l : List Slot} (h : x ∈ l) (y : Zone) : (y.without b l).has b x = false := by
  unfold Zone.has Zone.without
  rw [List.any_eq_false]
  intro m hm his
  have hkept := (List.mem_filter.mp hm).2
  unfold Member.is at his
  rw [Bool.and_eq_true_iff, beq_iff_eq, beq_iff_eq] at his
  rw [his.1, his.2] at hkept
  simp [h] at hkept

/-- A context that waited at a plateau where the bus was dealt with. -/
theorem Part.HeldAs.plateau {r q : Part} {b : Bay} {x : Slot} (h : r.HeldAs b q) (hat : (r.ctx b x).atPlateau = true) :
    (q.ctx b x).state = .paused ∧ (q.ctx b x).derate.inLoop = true ∧ (q.zone (zoneOf b)).has b x = false := by
  rw [h.ctx, if_pos hat, h.zone]
  exact ⟨rfl, rfl, Zone.has_without (List.mem_filter.mpr ⟨mem_allSlots x, hat⟩) _⟩

theorem Part.HeldAs.paused {r q : Part} {b : Bay} {x : Slot} (h : r.HeldAs b q) (hpaused : (r.ctx b x).state = .paused) :
    (q.ctx b x).state = .paused := by
  rw [h.ctx]
  split
  · rfl
  · exact hpaused

theorem Part.HeldAs.bus {r q : Part} {b : Bay} (h : r.HeldAs b q) : (q.bay b).state = (r.bay b).state ∧
    (q.bay b).pendingOrder = (r.bay b).pendingOrder ∧ (q.bay b).busHolder = (r.bay b).busHolder ∧
    (q.bay b).busQueue = (r.bay b).busQueue := by
  obtain ⟨cs, hbay⟩ := h.bay
  rw [hbay]
  exact ⟨rfl, rfl, rfl, rfl⟩

theorem Part.HeldAs.taken {p q : Part} {o : OrderSlot} {b : Bay} (h : (p.busHeld o b).HeldAs b q) : p.HoldTaken o b q := by
  obtain ⟨hst, hpo, hho, hbq⟩ := h.bus
  obtain ⟨hstate, hpending, -, -⟩ := p.busHeld_kept o b
  refine ⟨hst.trans hstate, hpo.trans hpending, fun x hx => h.paused (Part.state_busHeld_pauses hx o), fun x hat hfree => ?_,
    fun hnot => ?_, fun x hwaits hchan hchanQueue => ?_⟩
  · have hsame := Part.ctx_busHeld_same (Part.not_pausesAtHold_of_atPlateau hat) hfree o
    exact h.plateau (by rw [hsame]; exact hat)
  · obtain ⟨hholder, hstays, hchan⟩ := Part.bus_busHeld_same hnot o
    exact ⟨hho.trans hholder, hbq.trans hstays, h.queue.trans hchan⟩
  · obtain ⟨hholder, hrest, hleft⟩ := Part.bus_busHeld_passed hwaits hchan hchanQueue o
    exact ⟨hho.trans hholder, hbq.trans hrest, fun hnil => h.queue.trans (hleft hnil)⟩

/-- Where a BAY_HOLD lets every running context pause, none runs behind it. -/
theorem Part.HeldAs.none_running {p q : Part} {o : OrderSlot} {b : Bay} (h : (p.busHeld o b).HeldAs b q)
    (hall : ∀ x, (p.ctx b x).state = .running →
      p.PausesAtHold b x ∨ (p.ctx b x).atPlateau = true ∧ ∀ e ∈ (p.bay b).busQueue, e.slot ≠ x) (x : Slot) :
    (q.ctx b x).state ≠ .running := by
  have htaken := h.taken
  by_cases hrun : (p.ctx b x).state = .running
  · rcases hall x hrun with hpause | ⟨hat, hfree⟩
    · rw [htaken.pauses x hpause]
      exact nofun
    · rw [(htaken.plateau x hat hfree).1]
      exact nofun
  · rw [h.ctx]
    split
    · exact nofun
    · rcases p.state_busHeld o b x with hs | hs <;> rw [hs]
      · exact hrun
      · exact nofun

/-- The zone's list behind such a BAY_HOLD: the members but for the contexts of the bay at a plateau. -/
theorem Part.HeldAs.zone_left {p q : Part} {o : OrderSlot} {b : Bay} (h : (p.busHeld o b).HeldAs b q)
    (hall : ∀ x, (p.ctx b x).state = .running →
      p.PausesAtHold b x ∨ (p.ctx b x).atPlateau = true ∧ ∀ e ∈ (p.bay b).busQueue, e.slot ≠ x) :
    q.zone (zoneOf b) = { p.zone (zoneOf b) with
      joined := (p.zone (zoneOf b)).joined.filter (fun m => !(m.bay == b && (p.ctx b m.slot).atPlateau)) } := by
  obtain ⟨-, -, hzones, -⟩ := p.busHeld_kept o b
  have hzone : (p.busHeld o b).zone (zoneOf b) = p.zone (zoneOf b) := by
    unfold Part.zone
    rw [hzones]
  have hleft : ∀ m : Member, (!(m.bay == b && decide (m.slot ∈ (p.busHeld o b).plateauSlots b))) =
      !(m.bay == b && (p.ctx b m.slot).atPlateau) := fun m => by
    have hmem : m.slot ∈ (p.busHeld o b).plateauSlots b ↔ (p.ctx b m.slot).atPlateau = true := by
      unfold Part.plateauSlots
      rw [List.mem_filter, Part.atPlateau_busHeld o hall]
      exact and_iff_right (mem_allSlots m.slot)
    simp only [hmem, Bool.decide_eq_true]
  rw [h.zone, hzone]
  generalize p.zone (zoneOf b) = y
  unfold Zone.without
  rw [List.filter_congr fun m _ => hleft m]

end Sys2Proof.Machine
end

section
/-! BAY_RESUME (R21, R147). -/

namespace Sys2Proof.Machine

/-! ### One context of a resumed bay -/

/-- What a BAY_RESUME makes of a context: a paused one wakes, and under JOIN a planned one starts (R21, R147). -/
structure Part.WokenAt (b : Bay) (x : Slot) (p q : Part) : Prop where
  wakes  : (p.ctx b x).state = .paused → (p.ctx b x).exit = .stay → (q.ctx b x).state = .running ∧
    ((p.ctx b x).derate.inLoop = false → Conseq.boundary b x ∈ q.todo) ∧
    ((p.ctx b x).derate.inLoop = true →
      (q.ctx b x).phase = .plateauWait ∧ (q.zone (zoneOf b)).has b x = true ∧ Conseq.startPlateau b x ∈ q.todo)
  starts : (p.ctx b x).startable = true → (p.bay b).insert = .join →
    (q.ctx b x).state = .running ∧ (q.ctx b x).checkIndex = 0 ∧ Conseq.boundary b x ∈ q.todo
  same   : (p.ctx b x).state ≠ .paused → (p.ctx b x).startable = false ∨ (p.bay b).insert = .park → q.ctx b x = p.ctx b x

/-- What the waking of contexts in the slots of `l` leaves of the part. -/
structure Part.Waking (b : Bay) (l : List Slot) (p q : Part) : Prop where
  bay     : ∃ cs, q.bay b = { p.bay b with ctxs := cs }
  others  : ∀ y, y ∉ l → q.ctx b y = p.ctx b y
  answers : q.answers = p.answers
  joined  : ∀ y, (p.zone (zoneOf b)).has b y = true → (q.zone (zoneOf b)).has b y = true
  todo    : ∀ k ∈ p.todo, k ∈ q.todo

theorem Part.Waking.refl (b : Bay) (l : List Slot) (p : Part) : p.Waking b l p :=
  ⟨⟨_, rfl⟩, fun _ _ => rfl, rfl, fun _ h => h, fun _ h => h⟩

theorem Part.Waking.trans {b : Bay} {l : List Slot} {p q r : Part} (h : p.Waking b l q) (k : q.Waking b l r) : p.Waking b l r := by
  obtain ⟨cs, hq⟩ := h.bay
  obtain ⟨cs', hr⟩ := k.bay
  exact ⟨⟨cs', by rw [hr, hq]⟩, fun y hy => (k.others y hy).trans (h.others y hy), k.answers.trans h.answers,
    fun y hy => k.joined y (h.joined y hy), fun c hc => k.todo c (h.todo c hc)⟩

theorem Part.Waking.mono {b : Bay} {l l' : List Slot} {p q : Part} (h : p.Waking b l q) (hl : ∀ y ∈ l, y ∈ l') : p.Waking b l' q :=
  ⟨h.bay, fun y hy => h.others y fun hm => hy (hl y hm), h.answers, h.joined, h.todo⟩

theorem Part.Waking.mapCtx (p : Part) (b : Bay) (x : Slot) (f : Ctx → Ctx) : p.Waking b [x] (p.mapCtx b x f) :=
  ⟨⟨_, Part.bay_mapBay p b (fun u => u.mapCtx x f)⟩, fun _ hy => Part.ctx_mapCtx_other p b f fun h => hy (List.mem_singleton.mpr h.symm),
    rfl, fun _ h => h, fun _ h => h⟩

theorem Part.Waking.later (p : Part) (b : Bay) (l : List Slot) (t : List Conseq) : p.Waking b l (p.later t) :=
  ⟨⟨_, rfl⟩, fun _ _ => rfl, rfl, fun _ h => h, fun _ h => List.mem_append_left _ h⟩

theorem Zone.has_join (b : Bay) (x y : Slot) (z : Zone) : (z.join b x).has b y = (z.has b y || x == y) := by
  unfold Zone.has Zone.join Member.is
  rw [List.any_append, List.any_cons, List.any_nil, beq_self_eq_true, Bool.true_and, Bool.or_false]

theorem Part.Waking.join (p : Part) (b : Bay) (x : Slot) : p.Waking b [x] (p.mapZone (zoneOf b) (Zone.join b x)) := by
  refine ⟨⟨_, rfl⟩, fun _ _ => rfl, rfl, fun y hy => ?_, fun _ h => h⟩
  rw [Part.zone_mapZone, Zone.has_join, hy, Bool.true_or]

theorem Part.Waking.joinZone (p : Part) (b : Bay) (x : Slot) : p.Waking b [x] (p.joinZone b x) :=
  ((join p b x).trans (mapCtx _ b x _)).trans (later _ b _ _)

theorem Part.joinZone_joins (p : Part) (b : Bay) (x : Slot) : ((p.joinZone b x).ctx b x) = { p.ctx b x with phase := .plateauWait } ∧
    ((p.joinZone b x).zone (zoneOf b)).has b x = true ∧ Conseq.startPlateau b x ∈ (p.joinZone b x).todo := by
  refine ⟨?_, ?_, List.mem_append_right _ List.mem_cons_self⟩
  · unfold Part.joinZone
    dsimp only
    rw [Part.ctx_later, Part.ctx_setPhase, Part.ctx_mapZone]
  · have hzone : (p.joinZone b x).zone (zoneOf b) = (p.zone (zoneOf b)).join b x := Part.zone_mapZone p (zoneOf b) _
    rw [hzone, Zone.has_join, beq_self_eq_true, Bool.or_true]

/-- A context that wakes. -/
def Ctx.wakes (c : Ctx) : Ctx := { c with state := .running }.mapLoop (fun l => { l with inLoop := false })

theorem Part.wake_eq (p : Part) (b : Bay) (x : Slot) : p.wake b x =
    if (p.ctx b x).derate.inLoop then (p.mapCtx b x Ctx.wakes).joinZone b x else (p.mapCtx b x Ctx.wakes).later [.boundary b x] := rfl

theorem Part.resumeCtx_waking (p : Part) (b : Bay) (x : Slot) : p.Waking b [x] (p.resumeCtx b x) := by
  unfold Part.resumeCtx
  dsimp only
  split
  · rw [Part.wake_eq]
    split
    · exact (Waking.mapCtx p b x _).trans (.joinZone _ b x)
    · exact (Waking.mapCtx p b x _).trans (.later _ b _ _)
  · split
    · exact (Waking.mapCtx p b x _).trans (.later _ b _ _)
    · exact .refl b _ p

theorem Part.resumeCtx_wokenAt (p : Part) (b : Bay) (x : Slot) : p.WokenAt b x (p.resumeCtx b x) := by
  refine ⟨fun hstate hexit => ?_, fun hstart hinsert => ?_, fun hstate hstays => ?_⟩
  · have heq : p.resumeCtx b x = p.wake b x := if_pos ⟨hstate, hexit⟩
    have hctx := Part.ctx_mapCtx p b x Ctx.wakes
    rw [heq, Part.wake_eq]
    cases hloop : (p.ctx b x).derate.inLoop with
    | true =>
      obtain ⟨hjoined, hhas, hgo⟩ := (p.mapCtx b x Ctx.wakes).joinZone_joins b x
      rw [if_pos rfl, hjoined, hctx]
      exact ⟨rfl, nofun, fun _ => ⟨rfl, hhas, hgo⟩⟩
    | false =>
      rw [if_neg nofun, Part.ctx_later, hctx]
      exact ⟨rfl, fun _ => List.mem_append_right _ List.mem_cons_self, nofun⟩
  · have hplanned : (p.ctx b x).state ≠ .paused := fun h => by
      rw [Ctx.startable_eq_false (by rw [h]; exact nofun)] at hstart
      exact absurd hstart nofun
    have heq : p.resumeCtx b x = (p.mapCtx b x (fun c => { c with state := .running, checkIndex := 0 })).later [.boundary b x] :=
      (if_neg fun h => hplanned h.1).trans (if_pos ⟨hstart, hinsert⟩)
    rw [heq, Part.ctx_later, Part.ctx_mapCtx]
    exact ⟨rfl, rfl, List.mem_append_right _ List.mem_cons_self⟩
  · have heq : p.resumeCtx b x = p := by
      refine (if_neg fun h => hstate h.1).trans (if_neg ?_)
      rintro ⟨hstart, hinsert⟩
      rcases hstays with h | h
      · exact absurd (hstart.symm.trans h) nofun
      · exact absurd (hinsert.symm.trans h) nofun
    rw [heq]

theorem Part.WokenAt.before {b : Bay} {x : Slot} {p q r : Part} (h : q.WokenAt b x r) (hctx : q.ctx b x = p.ctx b x)
    (hinsert : (q.bay b).insert = (p.bay b).insert) : p.WokenAt b x r := by
  obtain ⟨hwakes, hstarts, hsame⟩ := h
  rw [hctx] at hwakes hstarts hsame
  rw [hinsert] at hstarts hsame
  exact ⟨hwakes, hstarts, hsame⟩

theorem Part.WokenAt.behind {b : Bay} {x : Slot} {l : List Slot} {p q r : Part} (h : p.WokenAt b x q) (k : q.Waking b l r) (hx : x ∉ l) :
    p.WokenAt b x r := by
  have hctx := k.others x hx
  refine ⟨fun hstate hexit => ?_, fun hstart hinsert => ?_, fun hstate hstays => hctx.trans (h.same hstate hstays)⟩
  · obtain ⟨hrun, hboundary, hloop⟩ := h.wakes hstate hexit
    rw [hctx]
    refine ⟨hrun, fun hn => k.todo _ (hboundary hn), fun hin => ?_⟩
    obtain ⟨hphase, hhas, hgo⟩ := hloop hin
    exact ⟨hphase, k.joined x hhas, k.todo _ hgo⟩
  · obtain ⟨hrun, hindex, hboundary⟩ := h.starts hstart hinsert
    rw [hctx]
    exact ⟨hrun, hindex, k.todo _ hboundary⟩

/-- The contexts of several slots resumed, one after the other. -/
theorem Part.foldl_resumeCtx (b : Bay) (l : List Slot) (p : Part) (hl : l.Nodup) :
    p.Waking b l (l.foldl (fun p s => p.resumeCtx b s) p) ∧ ∀ x ∈ l, p.WokenAt b x (l.foldl (fun p s => p.resumeCtx b s) p) := by
  induction l generalizing p with
  | nil => exact ⟨.refl b [] p, nofun⟩
  | cons s l ih =>
    obtain ⟨hs, hl⟩ := List.nodup_cons.mp hl
    obtain ⟨hwaking, hwoken⟩ := ih (p.resumeCtx b s) hl
    have hstep := p.resumeCtx_waking b s
    refine ⟨(hstep.mono fun y hy => ?_).trans (hwaking.mono fun y hy => List.mem_cons_of_mem _ hy), fun x hx => ?_⟩
    · rw [List.mem_singleton.mp hy]
      exact List.mem_cons_self
    · rcases List.mem_cons.mp hx with rfl | hx
      · exact (p.resumeCtx_wokenAt b x).behind hwaking hs
      · obtain ⟨cs, hbay⟩ := hstep.bay
        refine (hwoken x hx).before (hstep.others x fun h => hs ?_) (by rw [hbay])
        rw [← List.mem_singleton.mp h]
        exact hx

/-! ### The order -/

/-- A bay that resumes, its pending long order and the RESUME answered (R21). -/
def Part.resuming (p : Part) (o : OrderSlot) (b : Bay) : Part :=
  ((if (p.bay b).state = .holding then p.answerPending b .done [] else p).mapBay b (fun u => { u with state := .running })).answer o
    .done []

theorem Part.orderResume_taken {p : Part} {b : Bay} (h : (p.bay b).state ∈ [BayState.holding, .held]) (o : OrderSlot) :
    p.orderResume o b = (allSlots.foldl (fun p s => p.resumeCtx b s) (p.resuming o b)).later [.bayTest b] := by
  refine if_pos ?_
  simpa using h

theorem Part.bay_resuming (p : Part) (o : OrderSlot) (b : Bay) : (p.resuming o b).bay b = { p.bay b with
    state := .running, pendingOrder := if (p.bay b).state = .holding then none else (p.bay b).pendingOrder } := by
  have hbay := Part.bay_mapBay (if (p.bay b).state = .holding then p.answerPending b .done [] else p) b
    (fun u => { u with state := .running })
  refine Eq.trans hbay ?_
  split
  · rw [Part.answerPending_bay]
  · rfl

theorem Part.ctx_resuming (p : Part) (o : OrderSlot) (b : Bay) (x : Slot) : (p.resuming o b).ctx b x = p.ctx b x :=
  (congrArg (fun u => BayUnit.ctx u x) (p.bay_resuming o b)).trans rfl

theorem Part.answer_done (p : Part) (o : OrderSlot) (code : AnswerCode) (l : List (Nat × Nat × Nat)) :
    (p.answer o code l).answers[o].any (fun a => a.code == code) = true := by
  show ((p.answer o code l).answers[o.val]).any (fun a => a.code == code) = true
  rw [Part.answer_answers]
  exact beq_self_eq_true code

theorem Part.resuming_answers {p : Part} {b : Bay} {h : OrderSlot} (hstate : (p.bay b).state = .holding)
    (hpending : (p.bay b).pendingOrder = some h) (o : OrderSlot) :
    (p.resuming o b).answers[h].any (fun a => a.code == .done) = true := by
  unfold Part.resuming
  by_cases ho : o = h
  · subst ho
    exact Part.answer_done _ o .done []
  · rw [if_pos hstate]
    show (((p.answerPending b .done []).mapBay b (fun u => { u with state := .running })).answer o .done []).answers[h.val].any
      (fun a => a.code == .done) = true
    rw [Part.answer_answers_other _ _ _ ho]
    exact Part.answerPending_answered hpending .done []

/-- What a BAY_RESUME makes of its bay. -/
theorem Part.orderResume_does {p : Part} {b : Bay} (h : (p.bay b).state ∈ [BayState.holding, .held]) (o : OrderSlot) :
    ((p.orderResume o b).bay b).state = .running ∧ (p.orderResume o b).answers[o].any (fun a => a.code == .done) = true ∧
      (∀ x, p.WokenAt b x (p.orderResume o b)) ∧
      ∀ k, (p.bay b).state = .holding → (p.bay b).pendingOrder = some k →
        ((p.orderResume o b).bay b).pendingOrder = none ∧ (p.orderResume o b).answers[k].any (fun a => a.code == .done) = true := by
  obtain ⟨hwaking, hwoken⟩ := Part.foldl_resumeCtx b allSlots (p.resuming o b) nodup_allSlots
  have hbehind := hwaking.trans (Part.Waking.later _ b allSlots [.bayTest b])
  obtain ⟨cs, hbay⟩ := hbehind.bay
  have hresuming := p.bay_resuming o b
  rw [Part.orderResume_taken h]
  refine ⟨by rw [hbay, hresuming], ?_, fun x => ?_, fun k hstate hpending => ⟨?_, ?_⟩⟩
  · rw [hbehind.answers]
    exact Part.answer_done _ o .done []
  · exact ((hwoken x (mem_allSlots x)).before (p.ctx_resuming o b x) (by rw [hresuming])).behind (Part.Waking.later _ b [] [.bayTest b])
      List.not_mem_nil
  · rw [hbay, hresuming]
    exact if_pos hstate
  · rw [hbehind.answers]
    exact Part.resuming_answers hstate hpending o

end Sys2Proof.Machine
end

section
/-! BAY_HOLD and BAY_RESUME: the holding bay whose last context comes to its boundary, and the obligation (R19 to R21, R107, R147). -/

namespace Sys2Proof.Machine

/-! ### A context that comes to its boundary in a HOLDING bay (R20, R69, R87) -/

theorem Part.checkResult_passed {p : Part} {b : Bay} {x : Slot} {k : Check} {plan : Plan} (hphase : (p.ctx b x).phase = .record)
    (hexit : (p.ctx b x).exit = .stay) (hcheck : (p.ctx b x).check = some k) (hfailed : (p.ctx b x).checkFailed = false)
    (hplan : (p.ctx b x).plan = some plan) (hmore : (p.ctx b x).checkIndex + 1 < plan.checks.length) :
    p.checkResult b x =
      (p.mapCtx b x (fun c => { c with phase := .none, checkIndex := c.checkIndex + 1 })).later [.boundary b x] := by
  have hnext : p.checkResult b x = p.nextCheck b x := by
    unfold Part.checkResult
    dsimp only
    rw [hcheck]
    dsimp only
    rw [if_pos ⟨hphase, hexit⟩, if_neg (by rw [hfailed]; exact nofun)]
  rw [hnext]
  unfold Part.nextCheck
  dsimp only
  rw [hplan]
  exact if_pos hmore

theorem Part.atBoundary_pauses {p : Part} {b : Bay} {x : Slot} (h : (p.ctx b x).atBoundary = true)
    (hstate : (p.bay b).state = .holding) : p.atBoundary b x = (p.mapCtx b x Ctx.pause).later [.bayTest b] :=
  (if_pos h).trans (if_pos hstate)

/-- A bay with one context changed. -/
theorem Part.bay_mapCtx_kept (p : Part) (b : Bay) (x : Slot) (f : Ctx → Ctx) :
    ((p.mapCtx b x f).bay b).state = (p.bay b).state ∧ ((p.mapCtx b x f).bay b).pendingOrder = (p.bay b).pendingOrder ∧
      ((p.mapCtx b x f).bay b).line = (p.bay b).line := by
  have hbay := Part.bay_mapBay p b (fun u => u.mapCtx x f)
  exact ⟨(congrArg BayUnit.state hbay).trans rfl, (congrArg BayUnit.pendingOrder hbay).trans rfl,
    (congrArg BayUnit.line hbay).trans rfl⟩

/-- The result of a check that passed, in a HOLDING bay where no other context runs: the bay becomes HELD, three consequences on. -/
theorem Reaches.result_held {n : Nat} {c : Instr} {s : State} {m : Memory} {p : Part} {b : Bay} {x : Slot} {k : Check} {plan : Plan}
    {rest : List Conseq} (h : Reaches n c s m (p.later (.checkResult b x :: rest))) (hn : n < 60) (htodo : p.todo = [])
    (hstate : (p.bay b).state = .holding) (hothers : ∀ y, y ≠ x → (p.ctx b y).state ≠ .running)
    (hrun : (p.ctx b x).state = .running) (hphase : (p.ctx b x).phase = .record) (hexit : (p.ctx b x).exit = .stay)
    (hstep : (p.ctx b x).work.step ≠ .stopOutput) (hcheck : (p.ctx b x).check = some k) (hfailed : (p.ctx b x).checkFailed = false)
    (hplan : (p.ctx b x).plan = some plan) (hmore : (p.ctx b x).checkIndex + 1 < plan.checks.length) :
    ∃ q, Reaches (n + 3) c s m q ∧ (q.ctx b x).state = .paused ∧ (q.ctx b x).checkIndex = (p.ctx b x).checkIndex + 1 ∧
      (q.bay b).state = .held ∧ (q.bay b).pendingOrder = none ∧
      ∀ o, (p.bay b).pendingOrder = some o → q.answers[o].any (fun a => a.code == .done) = true := by
  have hresult := h.step (by omega) htodo
  rw [show consequence (.checkResult b x) p = _ from Part.checkResult_passed hphase hexit hcheck hfailed hplan hmore,
    Part.later_later] at hresult
  have hnext := Part.ctx_mapCtx p b x (fun c => { c with phase := .none, checkIndex := c.checkIndex + 1 })
  obtain ⟨hst, hpo, -⟩ := p.bay_mapCtx_kept b x (fun c => { c with phase := .none, checkIndex := c.checkIndex + 1 })
  have hother := fun y (hy : y ≠ x) => Part.ctx_mapCtx_other p b (fun c => { c with phase := .none, checkIndex := c.checkIndex + 1 })
    (Ne.symm hy)
  have htodo' : (p.mapCtx b x (fun c => { c with phase := .none, checkIndex := c.checkIndex + 1 })).todo = [] := htodo
  generalize p.mapCtx b x (fun c => { c with phase := .none, checkIndex := c.checkIndex + 1 }) = r
    at hresult hnext hst hpo hother htodo'
  have hboundary := hresult.step (by omega) htodo'
  have hat : (r.ctx b x).atBoundary = true := by
    rw [hnext]
    exact Ctx.atBoundary_iff.mpr ⟨hrun, rfl, hstep, hexit⟩
  rw [show consequence (.boundary b x) r = _ from Part.atBoundary_pauses hat (hst.trans hstate), Part.later_later] at hboundary
  have hpaused := Part.ctx_mapCtx r b x Ctx.pause
  obtain ⟨hst', hpo', -⟩ := r.bay_mapCtx_kept b x Ctx.pause
  have hnone : ∀ y, ((r.mapCtx b x Ctx.pause).ctx b y).state ≠ .running := fun y => by
    by_cases hy : y = x
    · rw [hy, hpaused]
      exact nofun
    · rw [Part.ctx_mapCtx_other r b Ctx.pause (Ne.symm hy), hother y hy]
      exact hothers y hy
  obtain ⟨hheld, hpending, hanswered, hctx⟩ := Part.bayTest_held_does ((hst'.trans hst).trans hstate) hnone
  refine ⟨_, hboundary.step (by omega) htodo', ?_, ?_, hheld, hpending, fun o ho => hanswered o ((hpo'.trans hpo).trans ho)⟩
  · rw [Part.ctx_later, show (consequence (.bayTest b) (r.mapCtx b x Ctx.pause)).ctx b x = _ from hctx x, hpaused]
    rfl
  · rw [Part.ctx_later, show (consequence (.bayTest b) (r.mapCtx b x Ctx.pause)).ctx b x = _ from hctx x, hpaused, hnext]
    rfl

/-- The record count written for a bay that holds, with the last running context's record entering the buffer. -/
theorem recordCount_holds {s : State} {g : Settings} {b : Bay} {r : Record} {l : List Record} {n : Nat} {e : LineEntry}
    {es : List LineEntry} {k : Check} {plan : Plan} (hg : s.part.settings = some g) (hdrain : (s.part.bay b).drain = .count)
    (hbuffer : (s.part.bay b).buffer = r :: l) (hpage : (s.part.bay b).currentPage = some n) (hline : (s.part.bay b).line = e :: es)
    (hslots : ∀ f ∈ es, f.slot ≠ e.slot) (hstate : (s.part.bay b).state = .holding)
    (hothers : ∀ x, x ≠ e.slot → (s.part.ctx b x).state ≠ .running) (hrun : (s.part.ctx b e.slot).state = .running)
    (hphase : (s.part.ctx b e.slot).phase = .record) (hexit : (s.part.ctx b e.slot).exit = .stay)
    (hout : (s.part.ctx b e.slot).out = [.applyResult]) (hstep : (s.part.ctx b e.slot).work.step ≠ .stopOutput)
    (hplan : (s.part.ctx b e.slot).plan = some plan) (hcheck : (s.part.ctx b e.slot).check = some k)
    (hfailed : (s.part.ctx b e.slot).checkFailed = false) (hmore : (s.part.ctx b e.slot).checkIndex + 1 < plan.checks.length) :
    ∃ q, Reaches 4 (.recordCountWritten b) s
        (s.book.writeBytes (s.part.base + g.poolOffset * 4096 + 4096 * n + 6) [BitVec.ofNat 8 ((s.part.bay b).pageCount + 1)]) q ∧
      (q.ctx b e.slot).state = .paused ∧ (q.ctx b e.slot).checkIndex = (s.part.ctx b e.slot).checkIndex + 1 ∧
      (q.bay b).state = .held ∧ (q.bay b).pendingOrder = none ∧
      ∀ o, (s.part.bay b).pendingOrder = some o → q.answers[o].any (fun a => a.code == .done) = true := by
  obtain ⟨q, howes, htodo, hctx, hrest, cs, hbay⟩ := Owes.lineEnters hg hdrain hbuffer hpage hline
  have hout' : (q.ctx b e.slot).out = .applyResult :: [] := by
    rw [hctx]
    exact hout
  have houtput : consequence (.output b e.slot) q = (q.mapCtx b e.slot (fun c => { c with out := [] })).later [.checkResult b e.slot] :=
    Part.output_cons (by rw [hctx]) (by rw [hbay]; exact hslots) hout'
  have hfirst := howes.step htodo
  rw [houtput, Part.later_later] at hfirst
  have hctx' := Part.ctx_mapCtx q b e.slot (fun c => { c with out := [] })
  rw [hctx] at hctx'
  obtain ⟨hst, hpo, -⟩ := q.bay_mapCtx_kept b e.slot (fun c => { c with out := [] })
  have hothers' : ∀ y, y ≠ e.slot → ((q.mapCtx b e.slot (fun c => { c with out := [] })).ctx b y).state ≠ .running := fun y hy => by
    rw [Part.ctx_mapCtx_other q b _ (Ne.symm hy), hrest y hy]
    exact hothers y hy
  have htodo' : (q.mapCtx b e.slot (fun c => { c with out := [] })).todo = [] := htodo
  generalize q.mapCtx b e.slot (fun c => { c with out := [] }) = p at hfirst hctx' hst hpo hothers' htodo'
  have hst' : (p.bay b).state = .holding := by
    rw [hst, hbay]
    exact hstate
  have hpo' : (p.bay b).pendingOrder = (s.part.bay b).pendingOrder := by rw [hpo, hbay]
  obtain ⟨w, hreach, hpaused, hindex, hheld, hpending, hanswered⟩ := hfirst.result_held (k := k) (plan := plan) (by omega) htodo' hst'
    hothers' (by rw [hctx']; exact hrun) (by rw [hctx']; exact hphase) (by rw [hctx']; exact hexit) (by rw [hctx']; exact hstep)
    (by rw [hctx']; exact hcheck) (by rw [hctx']; exact hfailed) (by rw [hctx']; exact hplan) (by rw [hctx']; exact hmore)
  exact ⟨w, hreach, hpaused, by rw [hindex, hctx'], hheld, hpending, fun o ho => hanswered o (hpo'.trans ho)⟩

/-! ### The obligation -/

/-- A BAY_HOLD taken by a RUNNING bay: its own effect, and its end where every running context pauses at once. -/
theorem orderHold_owes {s : State} {o : OrderSlot} {rest : List OrderSlot} {bytes : List Byte} {b : Bay}
    (hs : s.part.sweep = .copying o rest) (hb : byteAt (0 :: bytes) 4 = b.val) (hcode : byteAt (0 :: bytes) 1 = 0x12)
    (hstate : (s.part.bay b).state = .running) :
    ∃ q, Owes (.orderCopyComplete bytes) s s.book q ∧ (s.part.taking o rest bytes).HoldTaken o b q ∧ Conseq.bayTest b ∈ q.todo ∧
      ((∀ x, (s.part.ctx b x).state = .running → (s.part.taking o rest bytes).PausesAtHold b x ∨
          (s.part.ctx b x).atPlateau = true ∧ ∀ e ∈ (s.part.bay b).busQueue, e.slot ≠ x) →
        (∀ x, (q.ctx b x).state ≠ .running) ∧
        ((s.part.zone (zoneOf b)).holding = false ∨
            (s.part.zone (zoneOf b)).joined.filter (fun m => !(m.bay == b && (s.part.ctx b m.slot).atPlateau)) = [] ∨
            (∃ m ∈ (s.part.zone (zoneOf b)).joined.filter (fun m => !(m.bay == b && (s.part.ctx b m.slot).atPlateau)),
              m.measured = false) ∨
            ((s.part.zone (zoneOf b)).schedule.bind (fun l => l[(s.part.zone (zoneOf b)).index + 1]?)).isSome = true →
          ∃ n r, n ≤ 2 ∧ Reaches n (.orderCopyComplete bytes) s s.book r ∧ r.HeldDone b o)) := by
  have howes := Owes.copied (bytes := bytes) hs
  rw [Part.takeOrder_hold (s.part.taking o rest bytes) o (0 :: bytes) hcode hb] at howes
  obtain ⟨q, t, heq, hheld, howed⟩ := Part.orderHold_heldAs (p := s.part.taking o rest bytes) (b := b) hstate o
  rw [heq, Part.later_later] at howes
  have htaken := hheld.taken
  refine ⟨_, howes, ⟨htaken.state, htaken.pending, htaken.pauses, htaken.plateau, htaken.same, htaken.passed⟩, ?_, fun hall => ?_⟩
  · exact List.mem_append_right _ (List.mem_append_left _ (List.mem_append_right _ (List.mem_singleton_self _)))
  have hnone := hheld.none_running hall
  refine ⟨hnone, fun hcond => ?_⟩
  obtain ⟨-, -, hzones, htodo⟩ := (s.part.taking o rest bytes).busHeld_kept o b
  have hends : q.HoldEnds b o := ⟨htaken.state, htaken.pending, hnone, hheld.todo.trans htodo⟩
  refine howes.hold_ends hends ?_
  rcases howed with ht | ht | ⟨hholding, t', ht⟩
  · exact .inl ht
  · exact .inr (.inl ht)
  · have hzone : ((s.part.taking o rest bytes).busHeld o b).zone (zoneOf b) = s.part.zone (zoneOf b) := by
      unfold Part.zone
      rw [hzones]
      rfl
    rw [hzone] at hholding
    have hleft := hheld.zone_left hall
    refine .inr (.inr ⟨t', ht, Part.closingTest_leaves ?_⟩)
    rw [hleft]
    exact hcond.resolve_left (by rw [hholding]; exact nofun)

theorem Zone.holding_eq_false {y : Zone} (h : y.state ∉ [ZoneState.opened, .closing]) : y.holding = false := by
  unfold Zone.holding
  cases hstate : y.state with
  | opened | closing => exact absurd (hstate ▸ h) (by decide)
  | _ => rfl

/-- Settles O23. -/
theorem bayHoldAndResume : Obligations.BayHoldAndResume := by
  unfold Obligations.BayHoldAndResume
  refine ⟨fun s o rest bytes b => ?_, fun p b hstate hnone => ?_, fun s g b r l n e es k plan => ?_⟩
  · dsimp only
    intro hs hb
    refine ⟨fun hcode hstate => ?_, fun hcode hstate => ?_⟩
    · obtain ⟨q, howes, htaken, htest, hends⟩ := orderHold_owes hs hb hcode hstate
      refine ⟨q, howes, htaken.state, htaken.pending, htaken.pauses, htaken.plateau, fun hfree => htaken.same fun x hx => ?_,
        fun x hholder hwaits hchan hqueue => htaken.passed x ⟨hholder, hwaits⟩ hchan hqueue, htest, fun hall => ?_⟩
      · exact absurd (hx.2.symm.trans (hfree x hx.1)) nofun
      · obtain ⟨hnone, hdone⟩ := hends fun x hx => by
          rcases hall x hx with h | h | h | h
          · exact .inl (.inl h)
          · exact .inl (.inr (.inl h))
          · exact .inl (.inr (.inr h))
          · exact .inr h
        exact ⟨hnone, fun hcond => hdone (hcond.imp_left Zone.holding_eq_false)⟩
    · have howes := Owes.copied (bytes := bytes) hs
      rw [Part.takeOrder_resume (s.part.taking o rest bytes) o (0 :: bytes) hcode hb] at howes
      obtain ⟨hrun, hanswered, hwoken, hpending⟩ := Part.orderResume_does (p := s.part.taking o rest bytes) (b := b) hstate o
      have hwoken' := fun x => (hwoken x).behind (Part.Waking.later _ b [] [.orderHandled o]) List.not_mem_nil
      exact ⟨_, howes, hrun, hanswered, fun x => (hwoken' x).wakes, fun x => (hwoken' x).starts, fun x => (hwoken' x).same, hpending⟩
  · obtain ⟨hheld, hpending, hanswered, -⟩ := Part.bayTest_held_does hstate hnone
    exact ⟨hheld, hpending, hanswered⟩
  · dsimp only
    intro hg hdrain hbuffer hpage hline hslots hstate hothers hrun hphase hexit hout hstep hplan hcheck hfailed hmore
    exact recordCount_holds hg hdrain hbuffer hpage hline hslots hstate hothers hrun hphase hexit hout hstep hplan hcheck hfailed hmore

end Sys2Proof.Machine
end
